-- ==== Sys2Proof/Word.lean ====
section
/-! DEFINITION. The word types of the AQ4 and their plainest abbreviations (00 R2). -/

namespace Sys2Proof

abbrev Byte := BitVec 8
/-- One lane of a vector register (01 R12). -/
abbrev Word := BitVec 32
abbrev DWord := BitVec 64
/-- One instruction of a fetch line (02 R42). -/
abbrev IWord := BitVec 96
/-- A program counter: a 57-bit device virtual address (02 R34). -/
abbrev PC := BitVec 57
/-- A lane mask: bit l is lane l (01 R11). -/
abbrev Mask := BitVec 32
/-- One value for each of the 32 lanes of a wave. -/
abbrev Lanes (α : Type) := Vector α 32
/-- A vector register: 32 lanes of 32 bits (01 R12). -/
abbrev VReg := Lanes Word

end Sys2Proof
end

