-- ==== Sys2Proof/Syntax.lean ====
section
/-! DEFINITION. The instructions and events of the AQ4: one constructor of `Instr` per row of spec/opcode_table.json.
A wave instruction carries the fields of its 96-bit word (02 R42, R43); a Landing instruction the fields of its 32-bit word
(21 R365); an event carries its subject and what the environment supplies with it (95_what_each_step_holds.md). -/

namespace Sys2Proof

/-- An operand field (02 R45). -/
inductive Opnd
  | reg (n : BitVec 8) (abs neg : Bool)
  | latch (n : BitVec 2)
  deriving DecidableEq, Repr

/-- The guard of an instruction (02 R47): none, or a register and whether it is inverted. -/
inductive Guard
  | always
  | on (inv : Bool) (g : BitVec 8)
  deriving DecidableEq, Repr

/-- Scopes, innermost first (00 R7, 02 R44). -/
inductive Scope
  | wave | core | clus | die | pkg | sys
  deriving DecidableEq, Repr

/-- Orderings of format M (02 R44). -/
inductive Ord
  | plain | acq | rel | ar | vol
  deriving DecidableEq, Repr

/-- Cache policies (02 R44, 19 R326). -/
inductive Policy
  | normal | strm | keep | nal
  deriving DecidableEq, Repr

/-- The spaces that an access can name (10 R182). -/
inductive Space
  | sp | cl | gl
  deriving DecidableEq, Repr

/-- The fields of a 96-bit instruction word beside OP and SUB (02 R42). TAIL is laid out by the format (R43). -/
structure W where
  ty : BitVec 4
  nw : Bool
  d : BitVec 8
  a : Opnd
  b : Opnd
  g : Guard
  mod : BitVec 6
  tail : BitVec 32
  deriving DecidableEq, Repr

/-- The four instruction formats (02 R43). -/
inductive Fmt
  | v | i | m | x
  deriving DecidableEq, Repr

/-- Integer conditions, SUB 0-5 of `CMP` (04 R89). -/
inductive Cc
  | eq | ne | lt | le | gt | ge
  deriving DecidableEq, Repr

/-- Float relations, SUB 0-7 of `FCMP` (05 R124). -/
inductive FCc
  | eq | ne | lt | le | gt | ge | un | ord
  deriving DecidableEq, Repr

/-- Fields of a capability that `CGET` and `DGET` read (04 R102, 21 R365). -/
inductive CapField
  | tag | base | len | perm | fmt | pitch
  deriving DecidableEq, Repr

/-- Branch votes (04 R105). -/
inductive Vote
  | any | all | none | notall
  deriving DecidableEq, Repr

/-- Lane-moving modes of `XLANE` (05 R135). -/
inductive XMode
  | abs | rot | bfly | seg
  deriving DecidableEq, Repr

/-- Float reductions (05 R138, 10 R200). -/
inductive RedF
  | add | min | max
  deriving DecidableEq, Repr

/-- Integer lane reductions, SUB 0-7 of OP 0x96 and 0x97 (05 R118). -/
inductive RedI
  | addN | minS | maxS | minN | maxN | andB | orB | xorB
  deriving DecidableEq, Repr

/-- Integer atomic operations, SUB 0-6 of OP 0xB0 (10 R182). -/
inductive AtOp
  | add | min | max | and | or | xor | exch
  deriving DecidableEq, Repr

/-- Float atomic types, SUB[3:2] of OP 0xB2 (10 R200). -/
inductive AtFt
  | f32 | f64 | bf16x2 | f16x2
  deriving DecidableEq, Repr

/-- An instance of a privilege level, named by its partition path (21 R367). -/
inductive Inst
  | root | op
  | res (wpart : Nat)
  | ten (wpart rpart : Nat)
  deriving DecidableEq, Repr

/-- Counters of a core (08 R165, 12 R242, 13 R287, 14 R307). -/
inductive CoreCtr
  | pairSer | portConf | compact | barWdrop | mxKstep | mxWake | evict | readmit | dlForce | boost | launchFull
  deriving DecidableEq, Repr

/-- Counters of a quarter (09 R180). -/
inductive QCtr
  | sorrelHit | sorrelMiss | loadReuse | loadDrop | merge | hashColl | refSat
  deriving DecidableEq, Repr

/-- Counters of a die (18 R324, 19 R346, 20 R362, 21 R387, 24 R420). -/
inductive DieCtr
  | ferryMig | gangRsv | coreLost | llcDrain | memCorr | memUnc | unbacked | shootCnt | tillIntv | quayEval | quayShed
  | droopStep | trainFail | thermTrip | d2dReplay | njfull
  deriving DecidableEq, Repr

/-- Counters of a port (25 R440). -/
inductive PortCtr
  | flitReplay | linkRetrain | e2eDrop | fabReject
  deriving DecidableEq, Repr

/-- The registers that the Landing reaches, in words of 64 bits (00 R3). `core` is die * 64 + core, `q` a queue, `v` a virtual
device, `ctx` die * 256 + context slot, `hp` a hard partition; a wider register is several words, numbered from the low end. -/
inductive LReg
  | bsmask (core n : Nat) | bsctl (core n : Nat) | barlim (core n : Nat) | coreGate (core : Nat)
  | mxpwr (core : Nat) | mxwake (core : Nat) | mxstat (core : Nat)
  | coreCtr (core : Nat) (c : CoreCtr) | quarterCtr (core q : Nat) (c : QCtr) | dieCtr (die : Nat) (c : DieCtr)
  | portCtr (port : Nat) (c : PortCtr)
  | frra (die n : Nat) | frrb (die n : Nat) | frrc (die n : Nat) | frrd (die n : Nat) | llcway (die slot : Nat)
  | shoota (die : Nat) | shootb (die : Nat) | fresp (die : Nat) | wsel (die : Nat) | wcmd (die : Nat) | wdata (die : Nat)
  | ferryctl (die : Nat) | memacc (die : Nat) | clkcap (die region : Nat) | clkdef (die : Nat) | fbound (die : Nat)
  | qcap (hp : Nat) | hpst | draindl | hpmap | hbeat | hbper | lfence | supst | pkgpwr | pkgst0 | pkgst1
  | ovflctl (die : Nat) | ovflst (die : Nat) | vdsched (v : Nat) | dlctl (v q : Nat)
  | nqctl (v q : Nat) | nkey (v q word : Nat) | lastseq (v q : Nat)
  | fqbase (i : Inst) | fqctl (i : Inst) | fqtail (i : Inst) | fqhead (i : Inst) | fqfull (i : Inst)
  | dlvl (i : Inst) | dprev (i : Inst) | dfdeleg (i : Inst) | drights (i : Inst) | dvec (i : Inst)
  | xwin (ctx n half : Nat) | rwin (ctx n half : Nat) | collgrp (ctx n : Nat) | mlist (ctx g i : Nat) | mglist (ctx i : Nat)
  | mgcfg (ctx : Nat) | ctxw (ctx word : Nat) | peertab (hp n : Nat) | ueep (port n word : Nat)
  | meas (die n word : Nat) | ckey (wpart word : Nat)
  deriving DecidableEq, Repr

/-- What training brings up (24 R416). -/
inductive TrainItem
  | stack (n : Nat) | channel (n : Nat) | sport (n : Nat) | uport (n : Nat)
  deriving DecidableEq, Repr

/-- The kinds of ordinary RV64 access below root (21 R364). -/
inductive LAccess
  | load | store | fetch
  deriving DecidableEq, Repr

/-- Every row of spec/opcode_table.json. -/
inductive Instr
  -- integer arithmetic (04 R88)
  | add (w : W) | sub (w : W) | mul (w : W) | mulhi (w : W) | min (w : W) | max (w : W) | mad (w : W)
  | addImm (w : W) | subImm (w : W) | mulImm (w : W) | mulhiImm (w : W) | minImm (w : W) | maxImm (w : W)
  -- compare, select, counts (04 R89-R91)
  | cmp (c : Cc) (w : W) | cmpImm (c : Cc) (w : W) | sel (w : W)
  | popc (w : W) | clz (w : W) | ctz (w : W) | brev (w : W)
  -- logical, shifts, bitfields (04 R92-R95)
  | and (w : W) | or (w : W) | xor (w : W) | andn (w : W) | orn (w : W) | not (w : W)
  | andImm (w : W) | orImm (w : W) | xorImm (w : W) | andnImm (w : W) | ornImm (w : W)
  | tern (w : W)
  | shl (w : W) | shr (w : W) | sar (w : W) | rol (w : W) | ror (w : W)
  | shlImm (w : W) | shrImm (w : W) | sarImm (w : W) | rolImm (w : W) | rorImm (w : W)
  | bfx (w : W) | bfi (w : W)
  -- moves (04 R96-R97)
  | mov (w : W) | movImm (w : W) | bytsel (w : W)
  -- capabilities (04 R98-R103)
  | cnarrow (w : W) | cnarrowSet (w : W) | cperm (w : W) | cget (f : CapField) (w : W) | cchk (w : W)
  -- control (04 R104-R113)
  | bra (w : W) | braCond (c : Vote) (w : W) | split (w : W) | meet (w : W) | loop (w : W)
  | breakPred (w : W) | brk (w : W) | call (w : W) | ret (w : W) | exit (w : W) | yield (w : W)
  -- system (04 R114-R117, 02 R58)
  | svc (w : W) | trap (w : W) | movsRead (w : W) | movsWrite (w : W) | nop (w : W) | waitCyc (w : W)
  | waitCycEnd (wave : Nat)
  | hint (rest : BitVec 88)
  -- float arithmetic (05 R122-R127)
  | fadd (w : W) | fsub (w : W) | fmul (w : W) | fmin (w : W) | fmax (w : W)
  | faddImm (w : W) | fsubImm (w : W) | fmulImm (w : W) | fminImm (w : W) | fmaxImm (w : W)
  | fma (w : W) | fms (w : W) | fcmp (c : FCc) (w : W) | fclass (w : W)
  | frcp (w : W) | frsq (w : W) | fsqrt (w : W) | fex2 (w : W) | flg2 (w : W) | fsin (w : W) | fcos (w : W)
  -- conversion (05 R128-R133)
  | cvtFF (w : W) | cvtFI (w : W) | cvtIF (w : W)
  | scalegenE8M0 (w : W) | scalegenE4M3 (w : W) | qntE8M0 (w : W) | qntE4M3 (w : W) | pack (w : W) | unpk (w : W)
  -- cross-lane (05 R134-R138)
  | xlane (m : XMode) (w : W) | xlaneImm (m : XMode) (w : W) | bcastFirst (w : W)
  | voteAny (w : W) | voteAll (w : W) | voteEq (w : W) | ballot (w : W)
  | lredFloat (o : RedF) (w : W) | lscanFloat (o : RedF) (w : W) | lredInt (o : RedI) (w : W) | lscanInt (o : RedI) (w : W)
  -- loads, stores, atomics, phase (10 R182-R205)
  | ld (space : Space) (w : W) | st (space : Space) (w : W) | ldc (space : Space) (w : W) | stc (space : Space) (w : W)
  | ldg (space : Space) (w : W) | sts (space : Space) (w : W) | stvM (space : Space) (w : W) | ldvM (space : Space) (w : W)
  | atom (o : AtOp) (w : W) | atomCas (w : W) | atomFloat (o : RedF) (t : AtFt) (w : W)
  | red (o : AtOp) (w : W) | redFloat (o : RedF) (t : AtFt) (w : W)
  | rel (w : W) | acq (w : W) | phx (w : W) | fence (w : W)
  -- barriers and copies (12 R234-R257)
  | ballocPhase (w : W) | ballocCount (w : W) | bfree (w : W) | barrive (w : W) | bexpect (w : W)
  | bsigImm (w : W) | bsigReg (w : W) | waitbPh (w : W) | waitbCt (w : W)
  | waitbWake (wave : Nat)
  | cpyLin (w : W) | cpyTile (w : W)
  | copySlotWaitEnd (wave : Nat) | copyChunkLand (core copy : Nat) | copySignal (core copy : Nat)
  | ringCopyResume (core copy : Nat) | ringSignalRelease (core copy : Nat)
  -- matrix engine (13 R264-R287)
  | mma (w : W) | mmaZ (w : W) | wbld (w : W) | accz (w : W) | accld (w : W) | accst (w : W)
  | mbatch (w : W) | batonSet (w : W) | batonPass (w : W) | batonPassSignal (w : W)
  | matrixQueueWaitEnd (wave : Nat) | matrixRecordStart (group : Nat) | mmaKstepCommit (group : Nat)
  | matrixRecordComplete (group : Nat) | batchComplete (group : Nat)
  | mxClockGate (core : Nat) | mxPowerGate (core : Nat) | mxWake (core : Nat)
  -- roles, tasks, launch (14 R300-R306)
  | role (w : W) | roleDrainEnd (wave : Nat) | taskadd (w : W)
  | taskDispatch (ctx q : Nat) | taskGwaitExpire (ctx q : Nat)
  | glaunch (w : W) | glaunchW (w : W) | glaunchWRetry (wave : Nat) | overflowRecordMove (die : Nat)
  | gjoin (w : W) | gjoinTry (w : W) | gjoinWake (wave : Nat)
  -- beats (20 R349-R352)
  | beat (w : W) | btarget (w : W) | bread (w : W)
  -- gang barrier (18 R320-R321)
  | gsync (w : W) | garrive (w : W) | gwait (w : W) | gangWaitWake (wave : Nat)
  -- fabric commands (25 R427-R434)
  | put (w : W) | get (w : W) | collAllred (w : W) | collBcast (w : W) | collAllgath (w : W)
  | fabricChunkComplete (core copy chunk : Nat) (data : List Byte) | fabricChunkLost (core copy chunk : Nat)
  | fabricCommandComplete (core copy : Nat)
  | collContribArrive (ctx g member : Nat) (data : List Byte) | collTimeout (ctx g : Nat)
  | collResultLand (ctx g : Nat) (lost : Bool)
  -- Landing instructions (21 R365, 23 R404)
  | dld (d : BitVec 5) (c : BitVec 4) (o : BitVec 5) (z : BitVec 2) (u : Bool)
  | dst (v : BitVec 5) (c : BitVec 4) (o : BitVec 5) (z : BitVec 2)
  | dldc (d : BitVec 4) (c : BitVec 4) (o : BitVec 5)
  | dstc (v : BitVec 4) (c : BitVec 4) (o : BitVec 5)
  | dnarrow (d : BitVec 4) (c : BitVec 4) (o l : BitVec 5)
  | dperm (d : BitVec 4) (c : BitVec 4) (k : BitVec 5)
  | dget (d : BitVec 5) (c : BitVec 4) (f : CapField)
  | dmov (d : BitVec 4) (c : BitVec 4)
  | landingFenceRw
  -- issue, sharing and memory events of a core (08, 09, 10, 11)
  | quarterIssue (core q : Nat) | lineRefetch (wave : Nat) | writeback (core q : Nat)
  | dedupCompareEnd (core q k : Nat)
  | loadDataReturn (core k : Nat) | atomicRequestPerform (core k : Nat) | writeArrival (core k : Nat)
  | releaseComplete (core k : Nat) | acquireRefresh (wave : Nat)
  | faultBufferWaitEnd (core : Nat) | faultQueueRecordWrite (inst : Inst)
  | frespRetry (die : Nat) (v : Word) (i : Inst) | frespDecline (die : Nat) (v : Word) (i : Inst)
  -- wave control (21 R378)
  | wcmdReadReg (die : Nat) (v : DWord) (i : Inst) | wcmdWriteReg (die : Nat) (v : DWord) (i : Inst)
  | wcmdReadExm (die : Nat) (v : DWord) (i : Inst) | wcmdWriteExm (die : Nat) (v : DWord) (i : Inst)
  | wcmdReadFpc (die : Nat) (v : DWord) (i : Inst) | wcmdWriteFpc (die : Nat) (v : DWord) (i : Inst)
  | wcmdResume (die : Nat) (v : DWord) (i : Inst) | wcmdResumeAt (die : Nat) (v : DWord) (i : Inst)
  | wcmdEndWave (die : Nat) (v : DWord) (i : Inst) | wcmdEndContext (die : Nat) (v : DWord) (i : Inst)
  -- scheduling, placement, lifetime (08, 14, 18, 21)
  | admitGroup (grid core : Nat) | compactionEnd (core : Nat) | placeElement (grid : Nat) | gangReserveWindow (grid : Nat)
  | evictionRequest (core ctx prio slots : Nat) (wave : Option Nat) | evictWave (wave : Nat) | readmitWave (wave q : Nat)
  | deadlineExpire (wave : Nat) | deadlineForce (wave : Nat) | minresExpire (wave : Nat) | waveBoost (wave : Nat)
  | groupSave (group : Nat) | groupRestore (image core : Nat) | groupEnd (group : Nat) | gridComplete (grid : Nat)
  | coreUnresponsive (core : Nat) | coreLogicError (core : Nat) | dieFence (die : Nat)
  | coreGateWrite (core : Nat) (v : Word) | bsmaskWrite (core n : Nat) (v : DWord) | bsctlWrite (core n : Nat) (v : Word)
  -- beats (20)
  | beatArrive (ctx : Nat) | intervalEnd (ctx : Nat) | quayEval (hp : Nat) | grantApply (ctx : Nat)
  | tillerWordWrite (ctx word : Nat) (v : DWord) (i : Inst) | qcapWrite (hp : Nat) (v : DWord) (i : Inst)
  | mergePublish (ctx : Nat) | mergePubReceive (mgrp midx : Nat) (cum : DWord) | mergeStale (ctx : Nat)
  -- last-level cache, format ranges, shoot-down, memory errors (19)
  | llcwayWrite (die slot : Nat) (v : Word) (i : Inst) | wayDrainLine (die way line : Nat) | wayDrainEnd (die way : Nat)
  | frrValidate (die n : Nat) (v : DWord) (i : Inst) | frrInvalidate (die n : Nat) (v : DWord) (i : Inst)
  | frrLineFill (die line : Nat) | frrLineWriteback (die line : Nat)
  | shootGo (die : Nat) (v : DWord) (i : Inst) | shootDone (die : Nat)
  | memCorrected (die : Nat) | memUncorrectable (granule : Nat) (slot : Option Nat) | llcSoftError (granule : Nat)
  -- Landing registers, queues, notifies (21)
  | drightsWrite (i : Inst) (v : DWord) | fqheadWrite (i : Inst) (v : Word) | fqbaseWrite (i : Inst) (v : DWord)
  | notifyReceive (die : Nat) (msg : List Byte) | landingNotify (v q : Nat) (i : Inst) | notifyProcess (die : Nat)
  | nkeyWrite (v q : Nat) (key : List DWord) (i : Inst)
  | gridCommand (v q : Nat) | argSlotWaitEnd (ctx : Nat) | checkpointLaunch (v q : Nat) | checkpointSave (v q : Nat)
  | functionLevelReset (v : Nat) (i : Inst) | ovflctlWrite (die : Nat) (v : DWord) (i : Inst)
  | vdschedWrite (v : Nat) (x : DWord) (i : Inst) | quantumSave (v group : Nat)
  | hpstGo (v : Word) (i : Inst) | hpDrainDone | hpDrainTimeout
  | heartbeat | standbyTakeover | lfenceGo (v : Word) (i : Inst) | commandCoreFence (die core : Nat)
  -- package (24)
  | powerOn (slotA slotB : List Byte) | measExtend (die n : Nat) (item : List Byte) | attestQuote (die : Nat) (nonce : List Byte)
  | trainItem (item : TrainItem) (ok : Bool) (cap : Nat) | trainingComplete | powerWindowEnd (watts : BitVec 12)
  | thermalTrip | thermalRecover | clockStepChange (die region : Nat) | supplyDroop (die region : Nat) (lasting : Bool)
  | d2dLinkFail (die peer : Nat) | flitCrcFail (port : Nat) | linkRetrain (port : Nat) (ok : Bool)
  -- fabric (25)
  | inboundWrite (port peer : Nat) (key : Word) (off : Nat) (data : List Byte)
  | inboundRead (port peer : Nat) (key : Word) (off len : Nat)
  | xwinWrite (ctx n : Nat) (lo hi : DWord) (i : Inst) | collgrpWrite (ctx n : Nat) (v : DWord) (i : Inst)
  | mlistWrite (ctx g k : Nat) (v : Word) (i : Inst) | registerWrite (r : LReg) (v : DWord) (i : Inst)
  | supplyRecover (die region : Nat) | d2dFlitReplay (die : Nat) | dieResetRelease (die : Nat)
  | landingOrdinaryAccess (die core : Nat) (k : LAccess) (x : BitVec 5) (addr : DWord) (z : BitVec 2)
  | inboundUnsupportedRequest (port : Nat) | sliceCopyComplete (core q k : Nat)
  | virtualDeviceCreate (die v wpart rpart : Nat) (i : Inst)
  deriving DecidableEq, Repr

end Sys2Proof
end

