-- ==== Sys2Proof/WellFormed.lean ====
section
/-! DEFINITION. Which instruction words are legal (02 R42-R57 and each entry's limits): `bad01` and `bad02` say which of the two
decode causes an instruction's fields raise; `wf` is neither. -/

namespace Sys2Proof

/-! ### OP and SUB of every row (04 R86, 05 R118, 10 R182, 12 R234, 13 R264, 14 R288, 18 R320, 20 R349, 25 R427) -/

def Cc.code : Cc → Nat | .eq => 0 | .ne => 1 | .lt => 2 | .le => 3 | .gt => 4 | .ge => 5
def FCc.code : FCc → Nat
  | .eq => 0 | .ne => 1 | .lt => 2 | .le => 3 | .gt => 4 | .ge => 5 | .un => 6 | .ord => 7
def CapField.code : CapField → Nat | .tag => 0 | .base => 1 | .len => 2 | .perm => 3 | .fmt => 4 | .pitch => 5
def Vote.code : Vote → Nat | .any => 0 | .all => 1 | .none => 2 | .notall => 3
def XMode.code : XMode → Nat | .abs => 0 | .rot => 1 | .bfly => 2 | .seg => 3
def RedF.code : RedF → Nat | .add => 0 | .min => 1 | .max => 2
def RedI.code : RedI → Nat
  | .addN => 0 | .minS => 1 | .maxS => 2 | .minN => 3 | .maxN => 4 | .andB => 5 | .orB => 6 | .xorB => 7
def AtOp.code : AtOp → Nat | .add => 0 | .min => 1 | .max => 2 | .and => 3 | .or => 4 | .xor => 5 | .exch => 6
def AtFt.code : AtFt → Nat | .f32 => 0 | .f64 => 1 | .bf16x2 => 2 | .f16x2 => 3
def Space.code : Space → Nat | .sp => 0 | .cl => 1 | .gl => 2

/-- OP, SUB and the fields of a wave instruction; none for a Landing instruction, an event or a hint. -/
def Instr.wave : Instr → Option (Nat × Nat × W)
  | .add w => some (0x01, 0, w) | .sub w => some (0x01, 1, w) | .mul w => some (0x01, 2, w)
  | .mulhi w => some (0x01, 3, w) | .min w => some (0x01, 4, w) | .max w => some (0x01, 5, w) | .mad w => some (0x01, 6, w)
  | .addImm w => some (0x02, 0, w) | .subImm w => some (0x02, 1, w) | .mulImm w => some (0x02, 2, w)
  | .mulhiImm w => some (0x02, 3, w) | .minImm w => some (0x02, 4, w) | .maxImm w => some (0x02, 5, w)
  | .cmp c w => some (0x03, c.code, w) | .cmpImm c w => some (0x04, c.code, w) | .sel w => some (0x05, 0, w)
  | .popc w => some (0x06, 0, w) | .clz w => some (0x06, 1, w) | .ctz w => some (0x06, 2, w) | .brev w => some (0x06, 3, w)
  | .and w => some (0x18, 0, w) | .or w => some (0x18, 1, w) | .xor w => some (0x18, 2, w)
  | .andn w => some (0x18, 3, w) | .orn w => some (0x18, 4, w) | .not w => some (0x18, 5, w)
  | .andImm w => some (0x19, 0, w) | .orImm w => some (0x19, 1, w) | .xorImm w => some (0x19, 2, w)
  | .andnImm w => some (0x19, 3, w) | .ornImm w => some (0x19, 4, w)
  | .tern w => some (0x1A, 0, w)
  | .shl w => some (0x1B, 0, w) | .shr w => some (0x1B, 1, w) | .sar w => some (0x1B, 2, w)
  | .rol w => some (0x1B, 3, w) | .ror w => some (0x1B, 4, w)
  | .shlImm w => some (0x1C, 0, w) | .shrImm w => some (0x1C, 1, w) | .sarImm w => some (0x1C, 2, w)
  | .rolImm w => some (0x1C, 3, w) | .rorImm w => some (0x1C, 4, w)
  | .bfx w => some (0x1D, 0, w) | .bfi w => some (0x1D, 1, w)
  | .mov w => some (0x24, 0, w) | .movImm w => some (0x25, 0, w) | .bytsel w => some (0x26, 0, w)
  | .cnarrow w => some (0x30, 0, w) | .cnarrowSet w => some (0x30, 1, w) | .cperm w => some (0x31, 0, w)
  | .cget f w => some (0x32, f.code, w) | .cchk w => some (0x33, 0, w)
  | .bra w => some (0x40, 0, w) | .braCond c w => some (0x41, c.code, w) | .split w => some (0x42, 0, w)
  | .meet w => some (0x43, 0, w) | .loop w => some (0x44, 0, w) | .breakPred w => some (0x45, 0, w) | .brk w => some (0x45, 1, w)
  | .call w => some (0x46, 0, w) | .ret w => some (0x47, 0, w) | .exit w => some (0x48, 0, w) | .yield w => some (0x49, 0, w)
  | .svc w => some (0xF8, 0, w) | .trap w => some (0xF9, 0, w) | .movsRead w => some (0xFA, 0, w)
  | .movsWrite w => some (0xFA, 1, w) | .nop w => some (0xFB, 0, w) | .waitCyc w => some (0xFC, 0, w)
  | .fadd w => some (0x60, 0, w) | .fsub w => some (0x60, 1, w) | .fmul w => some (0x60, 2, w)
  | .fmin w => some (0x60, 3, w) | .fmax w => some (0x60, 4, w)
  | .faddImm w => some (0x61, 0, w) | .fsubImm w => some (0x61, 1, w) | .fmulImm w => some (0x61, 2, w)
  | .fminImm w => some (0x61, 3, w) | .fmaxImm w => some (0x61, 4, w)
  | .fma w => some (0x62, 0, w) | .fms w => some (0x62, 1, w) | .fcmp c w => some (0x63, c.code, w) | .fclass w => some (0x64, 0, w)
  | .frcp w => some (0x65, 0, w) | .frsq w => some (0x65, 1, w) | .fsqrt w => some (0x65, 2, w) | .fex2 w => some (0x65, 3, w)
  | .flg2 w => some (0x65, 4, w) | .fsin w => some (0x65, 5, w) | .fcos w => some (0x65, 6, w)
  | .cvtFF w => some (0x80, 0, w) | .cvtFI w => some (0x81, 0, w) | .cvtIF w => some (0x82, 0, w)
  | .scalegenE8M0 w => some (0x83, 0, w) | .scalegenE4M3 w => some (0x83, 1, w)
  | .qntE8M0 w => some (0x84, 0, w) | .qntE4M3 w => some (0x84, 1, w) | .pack w => some (0x85, 0, w) | .unpk w => some (0x86, 0, w)
  | .xlane m w => some (0x90, m.code, w) | .xlaneImm m w => some (0x91, m.code, w) | .bcastFirst w => some (0x92, 0, w)
  | .voteAny w => some (0x93, 0, w) | .voteAll w => some (0x93, 1, w) | .voteEq w => some (0x93, 2, w) | .ballot w => some (0x93, 3, w)
  | .lredFloat o w => some (0x94, o.code, w) | .lscanFloat o w => some (0x95, o.code, w)
  | .lredInt o w => some (0x96, o.code, w) | .lscanInt o w => some (0x97, o.code, w)
  | .ld s w => some (0xA0, s.code, w) | .st s w => some (0xA1, s.code, w) | .ldc s w => some (0xA2, s.code, w)
  | .stc s w => some (0xA3, s.code, w) | .ldg s w => some (0xA4, s.code, w) | .sts s w => some (0xA5, s.code, w)
  | .stvM s w => some (0xA6, s.code, w) | .ldvM s w => some (0xA7, s.code, w)
  | .atom o w => some (0xB0, o.code, w) | .atomCas w => some (0xB1, 0, w) | .atomFloat o t w => some (0xB2, o.code + 4 * t.code, w)
  | .red o w => some (0xB3, o.code, w) | .redFloat o t w => some (0xB4, o.code + 4 * t.code, w)
  | .rel w => some (0xBC, 0, w) | .acq w => some (0xBD, 0, w) | .phx w => some (0xBE, 0, w) | .fence w => some (0xBF, 0, w)
  | .ballocPhase w => some (0xC0, 0, w) | .ballocCount w => some (0xC0, 1, w) | .bfree w => some (0xC1, 0, w)
  | .barrive w => some (0xC2, 0, w) | .bexpect w => some (0xC3, 0, w) | .bsigImm w => some (0xC4, 0, w)
  | .bsigReg w => some (0xC5, 0, w) | .waitbPh w => some (0xC6, 0, w) | .waitbCt w => some (0xC6, 1, w)
  | .cpyLin w => some (0xC8, 0, w) | .cpyTile w => some (0xC8, 1, w)
  | .mma w => some (0xD0, 0, w) | .mmaZ w => some (0xD0, 1, w) | .wbld w => some (0xD1, 0, w) | .accz w => some (0xD2, 0, w)
  | .accld w => some (0xD3, 0, w) | .accst w => some (0xD4, 0, w) | .mbatch w => some (0xD5, 0, w)
  | .batonSet w => some (0xD6, 0, w) | .batonPass w => some (0xD7, 0, w) | .batonPassSignal w => some (0xD7, 1, w)
  | .role w => some (0xE0, 0, w) | .taskadd w => some (0xE1, 0, w) | .glaunch w => some (0xE2, 0, w) | .glaunchW w => some (0xE2, 1, w)
  | .gjoin w => some (0xE3, 0, w) | .gjoinTry w => some (0xE3, 1, w)
  | .beat w => some (0xE8, 0, w) | .btarget w => some (0xE9, 0, w) | .bread w => some (0xEA, 0, w)
  | .gsync w => some (0xEC, 0, w) | .garrive w => some (0xEC, 1, w) | .gwait w => some (0xEC, 2, w)
  | .put w => some (0xF0, 0, w) | .get w => some (0xF1, 0, w)
  | .collAllred w => some (0xF2, 0, w) | .collBcast w => some (0xF2, 1, w) | .collAllgath w => some (0xF2, 2, w)
  | _ => none

/-- The format that OP fixes (02 R43). -/
def fmtOf (op : Nat) : Fmt :=
  if op ∈ [0x02, 0x04, 0x19, 0x1C, 0x1D, 0x25, 0x31, 0x40, 0x41, 0x42, 0x43, 0x44, 0x46, 0xF8, 0xF9, 0xFA, 0xFB, 0xFC, 0x61, 0x91,
      0xC2, 0xC4, 0xD6, 0xE0, 0xE1, 0xE8, 0xEA] then .i
  else if op ∈ [0xA0, 0xA1, 0xA2, 0xA3, 0xA6, 0xA7, 0xB0, 0xB1, 0xB2, 0xB3, 0xB4, 0xBC, 0xBD, 0xBE, 0xBF] then .m
  else if op ∈ [0xC8, 0xD0, 0xD1, 0xD2, 0xD3, 0xD4, 0xE2, 0xF0, 0xF1, 0xF2] then .x
  else .v

/-! ### Fields of TAIL (02 R43) and of the entries -/

/-- Bits [hi:lo] of a word as a number (00 R4). -/
def fld {n : Nat} (x : BitVec n) (hi lo : Nat) : Nat := (x.toNat >>> lo) % 2 ^ (hi + 1 - lo)

/-- An operand field read from its 11 bits (02 R45). -/
def Opnd.ofBits (x : BitVec 11) : Opnd :=
  if x.getLsbD 10 then .latch (x.setWidth 2) else .reg (x.setWidth 8) (x.getLsbD 9) (x.getLsbD 8)

def Opnd.bits : Opnd → BitVec 11
  | .reg n abs neg => (0#1 ++ BitVec.ofBool abs ++ BitVec.ofBool neg ++ n : BitVec 11)
  | .latch n => (1#1 ++ 0#8 ++ n : BitVec 11)

/-- A latch selector with bits [9:2] nonzero (02 R45). -/
def Opnd.illegalBits (x : BitVec 11) : Bool := x.getLsbD 10 && decide (fld x 9 2 ≠ 0)

def Opnd.zero : Opnd := .reg 0 false false
def Opnd.isLatch : Opnd → Bool | .latch _ => true | .reg .. => false
def Opnd.signed : Opnd → Bool | .latch _ => false | .reg _ a n => a || n
def Opnd.num : Opnd → Nat | .latch _ => 0 | .reg n _ _ => n.toNat

/-- Source C of format V. -/
def W.c (w : W) : Opnd := .ofBits (w.tail.setWidth 11)
/-- Bits of the instruction word above 63, numbered as the entries number them. -/
def W.bits (w : W) (hi lo : Nat) : Nat := fld w.tail (hi - 64) (lo - 64)
/-- The signed byte offset of format M. -/
def W.ofs (w : W) : Int := (w.tail.setWidth 24).toInt
def W.q1 (w : W) : Nat := w.bits 69 64
def W.q2 (w : W) : Nat := w.bits 75 70

def Scope.ofCode : Nat → Option Scope
  | 0 => some .wave | 1 => some .core | 2 => some .clus | 3 => some .die | 4 => some .pkg | 5 => some .sys | _ => none
def Scope.code : Scope → Nat | .wave => 0 | .core => 1 | .clus => 2 | .die => 3 | .pkg => 4 | .sys => 5
def Ord.ofCode : Nat → Option Ord
  | 0 => some .plain | 1 => some .acq | 2 => some .rel | 3 => some .ar | 4 => some .vol | _ => none
def Policy.ofCode : Nat → Policy | 0 => .normal | 1 => .strm | 2 => .keep | _ => .nal

/-- SCOPE and ORD of format M; an encoding marked reserved is refused by `bad01`. -/
def W.scopeM (w : W) : Scope := (Scope.ofCode (w.bits 90 88)).getD .wave
def W.ordM (w : W) : Ord := (Ord.ofCode (w.bits 93 91)).getD .plain
def W.cpM (w : W) : Policy := .ofCode (w.bits 95 94)
/-- SCOPE of an engine command: MOD[4:2] (12 R245, 13 R267, 25 R428). -/
def W.scopeX (w : W) : Scope := (Scope.ofCode (fld w.mod 4 2)).getD .wave
def W.acqX (w : W) : Bool := w.mod.getLsbD 0
def W.relX (w : W) : Bool := w.mod.getLsbD 1

/-! ### The row of every instruction -/

/-- What an operand position holds: nothing; a value of the instruction's type; one 32-bit register; an even pair; a capability
quad; the first of four descriptor registers. -/
inductive Sk
  | no | ty | w32 | n64 | quad | desc
  deriving DecidableEq, Repr

/-- Which rounding modes MOD[2:0] may hold (02 R52, 05 R119). -/
inductive Rnd
  | no | directed | stoch
  deriving DecidableEq, Repr

/-- What an entry says of its fields. `tys` empty: the entry defines no type (02 R50). `mod` and `tail` are the bits it uses
beside the rounding mode and source C. -/
structure Row where
  tys : List Nat := []
  nw : Bool := false
  dst : Sk := .no
  a : Sk := .no
  b : Sk := .no
  c : Sk := .no
  guard : Bool := false
  latch : Bool := true
  rnd : Rnd := .no
  mod : Nat := 0
  tail : Nat := 0

/-- Register-computing rows: guarded, one destination entered in the latches (04 R87, 05 R119). -/
def Row.lane (tys : List Nat) (dst a b c : Sk) (mod : Nat := 0) (tail : Nat := 0) (rnd : Rnd := .no) : Row :=
  { tys, nw := true, dst, a, b, c, guard := true, mod, tail, rnd }

def tInt : List Nat := [0, 1, 3, 4]
def tBits : List Nat := [2, 4]
def tMem : List Nat := [0, 1, 2, 3, 4, 5, 6, 7, 8]
def tArith : List Nat := [0, 1, 3, 4, 10, 11]
def tCvt : List Nat := [0, 1, 2, 3, 4, 5, 6, 7, 8, 9, 10, 11]
def immAll : Nat := 0xFFFF_FFFF

/-- The address operand of format M: a register for scratch spaces, an even one for global memory (10 R183, R209). -/
def Sk.addr : Space → Sk | .gl => .n64 | _ => .w32

/-- MOD[1:0] of an atomic (10 R182); 3 is refused by `bad01`. -/
def W.atSpace (w : W) : Space := match fld w.mod 1 0 with | 1 => .sp | 2 => .cl | _ => .gl

def AtOp.tys : AtOp → List Nat
  | .add | .min | .max => tInt
  | .and | .or | .xor | .exch => tBits

def AtFt.sk : AtFt → Sk | .f64 => .n64 | _ => .w32
/-- The float TY code of a float atomic's type (02 R50, 10 R200). -/
def AtFt.ty : AtFt → Nat | .f32 => 0 | .f64 => 1 | .bf16x2 => 10 | .f16x2 => 11

/-- Float formats of a pair: destination or source code 1 (`.f64`). -/
def Sk.flt (code : Nat) : Sk := if code = 1 then .n64 else .w32
/-- Integer codes 3 and 4 are 64 bits wide (02 R50). -/
def Sk.int (code : Nat) : Sk := if code = 3 ∨ code = 4 then .n64 else .w32
def packed (code : Nat) : Bool := code == 10 || code == 11

def Instr.row : Instr → Row
  | .add _ | .sub _ | .mul _ => .lane tInt .ty .ty .ty .no 1
  | .mulhi _ | .min _ | .max _ => .lane tInt .ty .ty .ty .no
  | .mad _ => .lane [0, 1] .ty .ty .ty .ty
  | .addImm _ | .subImm _ | .mulImm _ => .lane tInt .ty .ty .no .no 1 immAll
  | .mulhiImm _ | .minImm _ | .maxImm _ => .lane tInt .ty .ty .no .no 0 immAll
  | .cmp .. => .lane [0, 1, 2, 3, 4] .w32 .ty .ty .no
  | .cmpImm .. => .lane [0, 1, 2, 3, 4] .w32 .ty .no .no 0 immAll
  | .sel _ => .lane tBits .ty .ty .ty .w32
  | .popc _ | .clz _ | .ctz _ | .brev _ => .lane [2] .ty .ty .no .no
  | .and _ | .or _ | .xor _ | .andn _ | .orn _ => .lane tBits .ty .ty .ty .no
  | .not _ => .lane tBits .ty .ty .no .no
  | .andImm _ | .orImm _ | .xorImm _ | .andnImm _ | .ornImm _ => .lane tBits .ty .ty .no .no 0 immAll
  | .tern _ => .lane [2] .ty .ty .ty .ty 0 0x0007_F800
  | .shl _ | .shr _ | .rol _ | .ror _ => .lane tBits .ty .ty .w32 .no
  | .sar _ => .lane [0, 3] .ty .ty .w32 .no
  | .shlImm _ | .shrImm _ | .rolImm _ | .rorImm _ => .lane tBits .ty .ty .no .no 0 immAll
  | .sarImm _ => .lane [0, 3] .ty .ty .no .no 0 immAll
  | .bfx _ => .lane [0, 1] .ty .ty .no .no 0 0x7FF
  | .bfi _ => .lane [2] .ty .ty .ty .no 0 0x7FF
  | .mov _ => .lane tBits .ty .ty .no .no
  | .movImm _ => .lane [2, 3, 4] .ty .no .no .no 0 immAll
  | .bytsel _ => .lane [2] .ty .ty .ty .no 0 0x07FF_F800
  | .cnarrow _ => { dst := .quad, a := .quad, b := .n64, c := .n64, guard := true }
  | .cnarrowSet _ => { dst := .quad, a := .quad, b := .quad, guard := true }
  | .cperm _ => { dst := .quad, a := .quad, guard := true, tail := immAll }
  | .cget f _ => .lane [] (if f = .base ∨ f = .len then .n64 else .w32) .quad .no .no
  | .cchk _ => .lane [] .w32 .quad .n64 .w32 0x3F
  | .bra _ | .loop _ => { tail := immAll }
  | .braCond .. | .split _ => { a := .w32, tail := immAll }
  | .meet _ | .brk _ | .yield _ | .nop _ => {}
  | .breakPred _ => { a := .w32 }
  | .call _ => { dst := .n64, tail := immAll }
  | .ret _ => { a := .n64 }
  | .exit _ => { guard := true }
  | .svc _ | .trap _ => { tail := 0xFFFF }
  | .movsRead _ => { dst := .w32, nw := true, tail := 0xFF }
  | .movsWrite _ => { a := .w32, tail := 0xFF }
  | .waitCyc _ => { tail := immAll }
  | .fadd _ | .fsub _ | .fmul _ => .lane tArith .ty .ty .ty .no 8 0 .directed
  | .fmin _ | .fmax _ => .lane tArith .ty .ty .ty .no
  | .faddImm _ | .fsubImm _ | .fmulImm _ => .lane tArith .ty .ty .no .no 8 immAll .directed
  | .fminImm _ | .fmaxImm _ => .lane tArith .ty .ty .no .no 0 immAll
  | .fma _ | .fms _ => .lane tArith .ty .ty .ty .ty 8 0 .directed
  | .fcmp .. => .lane [0, 1, 3, 4] .w32 .ty .ty .no
  | .fclass _ => .lane [0, 1, 2, 3, 4, 5, 6, 7, 8, 9] .w32 .ty .no .no
  | .frcp _ | .fsqrt _ => .lane [0, 1] .ty .ty .no .no 0 0 .directed
  | .frsq _ | .fex2 _ | .flg2 _ | .fsin _ | .fcos _ => .lane [0] .ty .ty .no .no
  | .cvtFF w =>
    .lane tCvt (.flt (w.bits 78 75)) .ty (if packed (w.bits 78 75) && !packed w.ty.toNat then .ty else .no) .no 8
      (if packed w.ty.toNat && !packed (w.bits 78 75) then 0xF800 else 0x7800) .stoch
  | .cvtFI w => .lane tCvt (.int (w.bits 78 75)) .ty .no .no 0 (if packed w.ty.toNat then 0xF800 else 0x7800) .stoch
  | .cvtIF w => .lane [0, 1, 2, 3, 4, 5, 6, 7, 8, 9] .ty (.int (w.bits 78 75)) .no .no 8 0x7800 .stoch
  | .scalegenE8M0 _ => .lane [5, 6, 7, 8, 9] .w32 .ty .no .no 0 0x800
  | .scalegenE4M3 _ => .lane [9] .w32 .ty .no .no 0 0x800
  | .qntE8M0 _ => .lane [5, 6, 7, 8, 9] .w32 .ty .w32 .no 8 0x800 .stoch
  | .qntE4M3 _ => .lane [9] .w32 .ty .w32 .no 8 0x800 .stoch
  | .pack _ => .lane [] .w32 .w32 .w32 .w32 0 0x1F800
  | .unpk _ => .lane [] .w32 .w32 .no .no 0 0x1F800
  | .xlane .. => .lane [] .w32 .w32 .w32 .no
  | .xlaneImm .. => .lane [] .w32 .w32 .no .no 0 0x1F
  | .bcastFirst _ | .voteAny _ | .voteAll _ | .voteEq _ | .ballot _ => .lane [] .w32 .w32 .no .no
  | .lredFloat o _ => .lane [0, 1] .ty .ty .no .no 0 0 (if o = .add then .directed else .no)
  | .lscanFloat o _ => .lane [0, 1] .ty .ty .no .no 8 0 (if o = .add then .directed else .no)
  | .lredInt .. => .lane [] .w32 .w32 .no .no
  | .lscanInt .. => .lane [] .w32 .w32 .no .no 8
  | .ld s _ => { tys := tMem, dst := .ty, a := .addr s, guard := true, latch := false, tail := immAll }
  | .st s _ => { tys := tMem, a := .addr s, b := .ty, guard := true, latch := false, tail := immAll }
  | .ldc s _ => { dst := .quad, a := .addr s, guard := true, latch := false, tail := immAll }
  | .stc s _ => { a := .addr s, b := .quad, guard := true, latch := false, tail := immAll }
  | .ldg .. => { tys := tMem, dst := .ty, a := .quad, b := .w32, guard := true, latch := false, tail := 0xFFFF_F800 }
  | .sts .. => { tys := tMem, a := .quad, b := .w32, c := .ty, guard := true, latch := false, tail := 0xFFFF_F800 }
  | .stvM s _ => { a := .addr s, b := .w32, latch := false, mod := 0x1F, tail := immAll }
  | .ldvM s _ => { dst := .w32, a := .addr s, latch := false, mod := 0x1F, tail := immAll }
  | .atom o w => { tys := o.tys, dst := .ty, a := .addr w.atSpace, b := .ty, guard := true, latch := false, mod := 3, tail := immAll }
  | .atomCas w => { tys := tBits, dst := .ty, a := .addr w.atSpace, b := .ty, guard := true, latch := false, mod := 3, tail := immAll }
  | .atomFloat _ t w =>
    { dst := t.sk, a := .addr w.atSpace, b := t.sk, guard := true, latch := false, mod := 0x1F, tail := immAll }
  | .red o w => { tys := o.tys, a := .addr w.atSpace, b := .ty, guard := true, latch := false, mod := 3, tail := immAll }
  | .redFloat _ t w => { a := .addr w.atSpace, b := t.sk, guard := true, latch := false, mod := 0x1F, tail := immAll }
  | .rel _ | .acq _ | .phx _ | .fence _ => { latch := false, tail := 0xFF00_0000 }
  | .ballocPhase _ | .ballocCount _ => { dst := .w32, a := .w32, b := .w32 }
  | .bfree _ => { a := .w32 }
  | .barrive _ | .bsigImm _ => { a := .w32, tail := 0xFFFF }
  | .bexpect _ | .bsigReg _ | .waitbCt _ => { a := .w32, b := .n64 }
  | .waitbPh _ => { a := .w32, b := .w32 }
  | .cpyLin w | .cpyTile w =>
    { a := .desc, b := if w.tail.getLsbD 12 then .n64 else .no, latch := false, mod := 0x3F,
      tail := if w.tail.getLsbD 12 then 0x00FF_FFFF else 0x00C0_1FFF }
  | .mma w | .mmaZ w =>
    { a := .desc, latch := false, mod := if w.acqX then 0x3D else 0x21, tail := if w.mod.getLsbD 5 then 0x03FF_FFFF else 0x03FF_F03F }
  | .wbld w =>
    { a := .desc, latch := false, mod := if w.acqX then 0x3D else 0x21, tail := if w.mod.getLsbD 5 then 0x0003_FFFF else 0x0003_F03F }
  | .accz _ => { latch := false, tail := 0x0003_F000 }
  | .accld _ => { a := .desc, latch := false, mod := 0x1D, tail := 0x000F_F03F }
  | .accst _ => { a := .desc, latch := false, mod := 0x1E, tail := 0x01FF_F03F }
  | .mbatch _ => { a := .w32, mod := 0x1E }
  | .batonSet _ => { a := .w32, tail := 0x3F }
  | .batonPass _ => {}
  | .batonPassSignal _ => { a := .w32 }
  | .role _ => { latch := false, mod := 3, tail := immAll }
  | .taskadd _ => { dst := .w32, a := .w32, b := .n64, guard := true, latch := false, tail := 0xF }
  | .glaunch _ | .glaunchW _ => { dst := .w32, latch := false, tail := 0x0001_F03F }
  | .gjoin _ | .gjoinTry _ => { dst := .w32, a := .w32, latch := false }
  | .beat _ => { tail := 0xFFFF }
  | .btarget _ => { a := .w32 }
  | .bread _ => { dst := .w32, tail := 0xF }
  | .gsync _ => { latch := false }
  | .garrive _ => { dst := .w32, latch := false }
  | .gwait _ => { a := .w32, latch := false }
  | .put _ | .get _ => { a := .desc, latch := false, mod := 0x1F, tail := 0x0003_F03F }
  | .collAllred _ | .collBcast _ | .collAllgath _ => { a := .desc, latch := false, mod := 0x1F, tail := 0x003F_FFFF }
  | _ => {}

/-- Float classes: OP 0x60-0x9F (02 R50). -/
def floatOp (op : Nat) : Bool := decide (0x60 ≤ op ∧ op ≤ 0x9F)
/-- The 64-bit types of the class of an OP (02 R46, R50). -/
def is64 (op ty : Nat) : Bool := if floatOp op then ty == 1 else ty == 3 || ty == 4

/-- Registers that a position of a kind holds. -/
def Sk.count (op ty : Nat) : Sk → Nat
  | .no => 0 | .ty => if is64 op ty then 2 else 1 | .w32 => 1 | .n64 => 2 | .quad => 4 | .desc => 4

/-- A register number that the kind's alignment refuses (02 R46). -/
def Sk.misaligned (op ty : Nat) (k : Sk) (n : Nat) : Bool :=
  match k with
  | .no => n != 0
  | .quad | .desc => n % 4 != 0
  | k => k.count op ty == 2 && n % 2 != 0

/-- Whether ABS and NEG are legal in a position: a float type (02 R45). The integer-source `CVT` and the bit-pattern operands of the
float classes are not float; operand B of a float atomic is (10 R200). -/
def Instr.fltPos (i : Instr) (op : Nat) (isB : Bool) (k : Sk) : Bool :=
  match i with
  | .cvtIF _ => false
  | .atomFloat .. | .redFloat .. => isB
  | _ => floatOp op && k == .ty

/-- 0x02 of one operand field (02 R45, R46, R49, R56). -/
def Instr.badOpnd (i : Instr) (op ty : Nat) (latch isB : Bool) (k : Sk) (x : Opnd) : Bool :=
  match k with
  | .no => x != Opnd.zero
  | _ =>
    (x.signed && !i.fltPos op isB k) ||
    (if x.isLatch then !latch || k == .quad || k == .desc else k.misaligned op ty x.num)

/-- The sr legality of a conversion: its destination is one that R81 lists (05 R129). -/
def Instr.srLegal : Instr → Bool
  | .cvtFF w => decide (3 ≤ w.bits 78 75)
  | .cvtFI w => decide (5 ≤ w.bits 78 75)
  | .cvtIF w => decide (3 ≤ w.ty.toNat)
  | .qntE8M0 _ | .qntE4M3 _ => true
  | _ => false

/-- Slots of a word of `PACK` and `UNPK` by width code (05 R132). -/
def packSlots : Nat → Nat | 0 => 8 | 1 => 4 | 2 => 4 | _ => 2

/-- The special registers: RO, RW or none (01 R19). -/
def sregAccess (sel : Nat) : Option Bool :=
  if sel ∈ [0x00, 0x02, 0x0B, 0x10] then some true else if sel ≤ 0x10 then some false else none

/-- Whether an entry accepts a cache policy (10 R189). -/
def Instr.takesCp : Instr → Bool
  | .ld .gl _ | .st .gl _ | .ldc .gl _ | .stc .gl _ | .ldg .gl _ | .sts .gl _ | .stvM .gl _ | .ldvM .gl _ => true
  | _ => false

/-- The orderings that an entry accepts (10 R188). -/
def Instr.takesOrd : Instr → Ord → Bool
  | _, .plain => true
  | .ld .., .acq | .ld .., .vol | .ldc .., .acq | .ldc .., .vol => true
  | .st .., .rel | .st .., .vol | .stc .., .rel | .stc .., .vol => true
  | .atom .., .acq | .atom .., .rel | .atom .., .ar | .atomCas _, .acq | .atomCas _, .rel | .atomCas _, .ar => true
  | .atomFloat .., .acq | .atomFloat .., .rel | .atomFloat .., .ar => true
  | .red .., .acq | .red .., .rel | .red .., .ar | .redFloat .., .acq | .redFloat .., .rel | .redFloat .., .ar => true
  | _, _ => false

/-- Entries whose SCOPE may be nonzero with ORD none (10 R188, R205). -/
def Instr.takesScope : Instr → Bool
  | .atom .. | .atomCas _ | .atomFloat .. | .red .. | .redFloat .. | .rel _ | .acq _ | .phx _ => true
  | _ => false

/-- Reserved encodings of the entries' own fields: cause 0x01. -/
def Instr.extra01 (i : Instr) : Bool :=
  match i with
  | .cmp c w | .cmpImm c w => w.ty == 2 && c != .eq && c != .ne
  | .movsRead w => (sregAccess (w.bits 71 64)).isNone
  | .movsWrite w => sregAccess (w.bits 71 64) != some true
  | .cvtFF w => decide (12 ≤ w.bits 78 75) || w.bits 78 75 == w.ty.toNat
  | .cvtFI w | .cvtIF w => decide (11 ≤ w.bits 78 75) || w.bits 78 75 == 2
  | .scalegenE4M3 w | .qntE4M3 w => w.tail.getLsbD 11
  | .pack w | .unpk w => decide (4 ≤ w.bits 77 75)
  | .ldc s _ | .stc s _ | .stvM s _ | .ldvM s _ => s == .cl
  | .ldg s w | .sts s w => s == .cl || (s == .sp && w.bits 79 78 != 0)
  | .atom _ w | .atomCas w | .atomFloat _ _ w | .redFloat _ _ w => fld w.mod 1 0 == 3
  | .red o w => o == .exch || fld w.mod 1 0 == 3
  | .cpyLin w | .cpyTile w | .mma w | .mmaZ w | .wbld w | .mbatch w | .put w | .get w => (Scope.ofCode (fld w.mod 4 2)).isNone
  | .accld w => (Scope.ofCode (fld w.mod 4 2)).isNone || w.bits 83 82 == 3
  | .accst w =>
    (Scope.ofCode (fld w.mod 4 2)).isNone || decide (5 ≤ w.bits 84 82) || decide (5 ≤ w.bits 87 85) ||
    (w.bits 87 85 == 4 && w.bits 84 82 == 0)
  | .collAllred w | .collBcast w | .collAllgath w => (Scope.ofCode (fld w.mod 4 2)).isNone || w.bits 83 82 == 3
  | .bread w => decide (12 ≤ w.bits 67 64)
  | _ => false

/-- An immediate with bits that the layout of its type leaves unused (02 R51, R68). -/
def badImm (op ty : Nat) (imm : Word) : Bool := floatOp op && (ty == 3 || ty == 4) && fld imm 31 16 != 0

/-- Limits of the entries' own fields: cause 0x02. -/
def Instr.extra02 (i : Instr) : Bool :=
  match i with
  | .shlImm w | .shrImm w | .sarImm w | .rolImm w | .rorImm w =>
    decide ((if is64 0x1C w.ty.toNat then 64 else 32) ≤ w.tail.toNat)
  | .bfx w | .bfi w => w.bits 74 69 == 0 || decide (32 < w.bits 68 64 + w.bits 74 69)
  | .bytsel w => (List.range 4).any fun k => decide (0xB ≤ w.bits (78 + 4 * k) (75 + 4 * k))
  | .faddImm w | .fsubImm w | .fmulImm w | .fminImm w | .fmaxImm w => badImm 0x61 w.ty.toNat w.tail
  | .pack w => w.bits 80 78 % 2 == 1 || decide (packSlots (w.bits 77 75) ≤ w.bits 80 78)
  | .unpk w => decide (packSlots (w.bits 77 75) ≤ w.bits 80 78)
  | .stvM _ w => w.mod.getLsbD 5 || decide (255 < w.b.num + fld w.mod 4 0)
  | .ldvM _ w => w.mod.getLsbD 5 || decide (255 < w.d.toNat + fld w.mod 4 0)
  | .fence w => w.bits 90 88 != 0
  | .barrive w | .beat w => w.bits 79 64 == 0
  | .cpyLin w | .cpyTile w =>
    (!w.acqX && !w.relX && fld w.mod 4 2 != 0) ||
    (w.tail.getLsbD 12 && (decide (8 < w.bits 80 77) || decide (w.bits 85 81 < 4) || decide (22 < w.bits 85 81)))
  | .batonSet w => w.bits 69 64 == 0 || decide (32 < w.bits 69 64)
  | .put w | .get w => fld w.mod 4 2 != (if w.acqX || w.relX then 5 else 0)
  | .collBcast w | .collAllgath w => w.bits 83 82 != 0
  | _ => false

/-- The TY rule of an entry that names its element by EXT[75] (05 R130, 02 R50). -/
def Instr.int8Elem : Instr → Bool
  | .scalegenE8M0 w | .qntE8M0 w => w.tail.getLsbD 11
  | _ => false

/-- Cause 0x01 of the fields (02 R57). -/
def Instr.bad01 (i : Instr) : Bool :=
  match i.wave with
  | none => false
  | some (op, _, w) =>
    let r := i.row
    (r.tys != [] && !i.int8Elem && !r.tys.contains w.ty.toNat) ||
    (decide (0x60 ≤ op ∧ op ≤ 0x97) &&
      (match r.rnd with
       | .no => fld w.mod 2 0 == 5
       | .directed => decide (5 ≤ fld w.mod 2 0)
       | .stoch => decide (6 ≤ fld w.mod 2 0) || (fld w.mod 2 0 == 5 && !i.srLegal))) ||
    (fmtOf op == .m &&
      ((Scope.ofCode (w.bits 90 88)).isNone ||
       (match Ord.ofCode (w.bits 93 91) with | none => true | some o => !i.takesOrd o) ||
       (w.bits 95 94 != 0 && !i.takesCp))) ||
    i.extra01

/-- Bits of MOD that an entry uses. -/
def Row.modBits (r : Row) : Nat := match r.rnd with | .no => r.mod | _ => r.mod ||| 7
/-- Bits of TAIL that an entry uses. -/
def Row.tailBits (r : Row) : Nat := if r.c = .no then r.tail else r.tail ||| 0x7FF

/-- Cause 0x02 of the fields (02 R57). -/
def Instr.bad02 (i : Instr) : Bool :=
  match i.wave with
  | none => false
  | some (op, _, w) =>
    let r := i.row
    let ty := w.ty.toNat
    ((r.tys == [] || i.int8Elem) && ty != 0) ||
    (w.nw && (!r.nw || w.d != 0)) ||
    (!r.guard && w.g != .always) ||
    (if w.nw then false else r.dst.misaligned op ty w.d.toNat) ||
    i.badOpnd op ty r.latch false r.a w.a || i.badOpnd op ty r.latch true r.b w.b ||
    (r.c != .no && (Opnd.illegalBits (w.tail.setWidth 11) || i.badOpnd op ty r.latch false r.c w.c)) ||
    (w.mod.toNat &&& (r.modBits ^^^ 0x3F)) != 0 || (w.tail.toNat &&& (r.tailBits ^^^ immAll)) != 0 ||
    (fmtOf op == .m && !i.takesScope && (w.ordM == .plain || w.ordM == .vol) && w.bits 90 88 != 0) ||
    i.extra02

/-- A legal instruction: its fields raise no decode cause. An event and a Landing instruction have no illegal field. -/
def Instr.wf (i : Instr) : Bool := !i.bad01 && !i.bad02

/-! ### Properties that an instruction's class gives it -/

/-- The instruction enters its result into the latches (02 R53). -/
def Instr.latching (i : Instr) : Bool := i.row.nw

/-- Gating instructions (06 R143). -/
def gating (op : Nat) : Bool :=
  op == 0x30 || op == 0x31 || op == 0x47 || decide (0xA0 ≤ op ∧ op ≤ 0xE7) || decide (0xEC ≤ op ∧ op ≤ 0xF7)

/-- Control instructions, after which a run ends; `EXIT` and `ROLE` end one too (02 R39). -/
def endsRun (op : Nat) : Bool := decide (0x40 ≤ op ∧ op ≤ 0x5F) || op == 0xE0

/-- Cross-lane instructions: shared only while all 32 lanes are live (05 R120). -/
def crossLane (op : Nat) : Bool := op == 0x83 || decide (0x90 ≤ op ∧ op ≤ 0x97)

/-- Sharing classes (00 R6). -/
inductive ShareClass
  | s | l | n
  deriving DecidableEq, Repr

/-- The sharing class of an instruction; `fpc` decides whether an unnamed rounding is stochastic (05 R120, 03 R81). -/
def Instr.share (i : Instr) (fpc : Word) : ShareClass :=
  match i with
  | .ld .sp w | .ld .gl w => if w.ordM = .plain then .l else .n
  | .ldg _ w => if w.tail.getLsbD 13 then .n else .l
  | _ =>
    match i.wave with
    | none => .n
    | some (op, _, w) =>
      if op ≤ 0x3F then .s
      else if floatOp op then
        if i.row.rnd = .stoch ∧ (fld w.mod 2 0 = 5 ∨ (fld w.mod 2 0 = 0 ∧ fpc.getLsbD 2 ∧ i.srLegal)) then .n else .s
      else .n

/-- Strand passes of an instruction (05 R121). -/
def Instr.passes (i : Instr) : Nat :=
  match i with
  | .frcp w | .fsqrt w => if w.ty = 1 then 8 else 2
  | .frsq _ | .fex2 _ | .flg2 _ | .fsin _ | .fcos _ => 2
  | .fadd w | .fsub w | .fmul w | .fmin w | .fmax w | .faddImm w | .fsubImm w | .fmulImm w | .fminImm w | .fmaxImm w
  | .fma w | .fms w | .fcmp _ w | .lredFloat _ w | .lscanFloat _ w => if w.ty = 1 then 4 else 1
  | _ => 1

/-- Instructions whose entry fixes one region cycle of strand (10 R205, 12 R235, 13 R265, 18 R320, 20 R349, 25 R428, 04 R115). -/
def oneCycle (op : Nat) : Bool :=
  decide (0xBC ≤ op ∧ op ≤ 0xC7) || decide (0xD0 ≤ op ∧ op ≤ 0xD7) || decide (0xE8 ≤ op ∧ op ≤ 0xF2) || op == 0xFB

/-- Registers that a position names: the first and how many (01 R12). -/
def Opnd.regs (x : Opnd) (n : Nat) : List (Nat × Nat) := if n = 0 || x.isLatch then [] else [(x.num, n)]

/-- Every register that the instruction names, as (first, count): guard, destination, sources, descriptors and the quads of format X;
the address quad of a `.sp` or `.gl` form whose register is a multiple of 4 (01 R12, 10 R183); the range of `STV.M` and `LDV.M`. -/
def Instr.named (i : Instr) : List (Nat × Nat) :=
  match i.wave with
  | none => []
  | some (op, _, w) =>
    let r := i.row
    let ty := w.ty.toNat
    let n := fun (k : Sk) => k.count op ty
    let addr := fmtOf op == .m && decide (op < 0xBC) &&
      (match i with
       | .ld s _ | .st s _ => s != .cl
       | .atom _ w | .atomCas w | .atomFloat _ _ w | .red _ w | .redFloat _ _ w => w.atSpace != .cl
       | _ => true)
    (match w.g with | .always => [] | .on _ g => [(g.toNat, 1)]) ++
    (if w.nw || r.dst == .no then [] else
      match i with | .ldvM .. => [(w.d.toNat, fld w.mod 4 0 + 1)] | _ => [(w.d.toNat, n r.dst)]) ++
    (if addr && w.a.num % 4 == 0 then [(w.a.num, 4)] else w.a.regs (n r.a)) ++
    (match i with | .stvM .. => [(w.b.num, fld w.mod 4 0 + 1)] | _ => w.b.regs (n r.b)) ++
    (if r.c == .no then [] else w.c.regs (n r.c)) ++
    (match i with
     | .cpyLin _ | .cpyTile _ | .collAllred _ | .collAllgath _ => [(4 * w.q1, 4), (4 * w.q2, 4)]
     | .collBcast _ => (4 * w.q1, 4) :: (if w.q2 = 0 then [] else [(4 * w.q2, 4)])
     | .mma w | .mmaZ w | .wbld w => (4 * w.q1, 4) :: (if w.mod.getLsbD 5 then [(4 * w.q2, 4)] else [])
     | .accld _ | .accst _ | .glaunch _ | .glaunchW _ | .put _ | .get _ => [(4 * w.q1, 4)]
     | _ => [])

end Sys2Proof
end

