-- ==== Sys2Proof/Decode.lean ====
section
/-! DEFINITION. The decoder of wave instructions (02 R42-R58) and of the Landing's own instructions (21 R365, 23 R404), total on
all words and naming the cause of a refusal; then the encoder, written from the same tables. -/

namespace Sys2Proof

/-- Why a wave instruction does not decode: the two causes of R57, in their priority (06 R141). -/
inductive DecodeCause
  | opcode | field
  deriving DecidableEq, Repr

/-! ### Wave instructions -/

/-- The fields of a word that every format shares, and TAIL (02 R42). -/
def W.ofBits (x : IWord) : W :=
  { ty := x.extractLsb' 12 4, nw := x.getLsbD 16, d := x.extractLsb' 17 8,
    a := .ofBits (x.extractLsb' 25 11), b := .ofBits (x.extractLsb' 36 11),
    g := if x.getLsbD 47 then .on (x.getLsbD 48) (x.extractLsb' 49 8) else .always,
    mod := x.extractLsb' 58 6, tail := x.extractLsb' 64 32 }

/-- Bits of a word that `W` does not carry and that must be zero (02 R42, R45, R47). -/
def rawBad (x : IWord) : Bool :=
  x.getLsbD 57 || Opnd.illegalBits (x.extractLsb' 25 11) || Opnd.illegalBits (x.extractLsb' 36 11) ||
  (!x.getLsbD 47 && x.extractLsb' 48 9 != 0)

def allCc : List Cc := [.eq, .ne, .lt, .le, .gt, .ge]
def allFCc : List FCc := [.eq, .ne, .lt, .le, .gt, .ge, .un, .ord]
def allCapField : List CapField := [.tag, .base, .len, .perm, .fmt, .pitch]
def allVote : List Vote := [.any, .all, .none, .notall]
def allXMode : List XMode := [.abs, .rot, .bfly, .seg]
def allRedF : List RedF := [.add, .min, .max]
def allRedI : List RedI := [.addN, .minS, .maxS, .minN, .maxN, .andB, .orB, .xorB]
def allAtOp : List AtOp := [.add, .min, .max, .and, .or, .xor, .exch]
def allAtFt : List AtFt := [.f32, .f64, .bf16x2, .f16x2]
def allSpace : List Space := [.sp, .cl, .gl]

/-- The instruction of one of the codes of a list. -/
def pick {α : Type} (l : List α) (f : α → Instr) (code : Nat) : Option Instr := (l[code]?).map f
def pickI (l : List Instr) (code : Nat) : Option Instr := l[code]?
def pickFt (f : RedF → AtFt → Instr) (sub : Nat) : Option Instr :=
  match allRedF[sub % 4]?, allAtFt[sub / 4]? with
  | some o, some t => some (f o t)
  | _, _ => none

/-- The instruction of an OP and SUB, or none where no entry assigns them. -/
def buildLow (op sub : Nat) (w : W) : Option Instr :=
  match op with
  | 0x01 => pickI [.add w, .sub w, .mul w, .mulhi w, .min w, .max w, .mad w] sub
  | 0x02 => pickI [.addImm w, .subImm w, .mulImm w, .mulhiImm w, .minImm w, .maxImm w] sub
  | 0x03 => pick allCc (fun c => .cmp c w) sub
  | 0x04 => pick allCc (fun c => .cmpImm c w) sub
  | 0x05 => pickI [.sel w] sub
  | 0x06 => pickI [.popc w, .clz w, .ctz w, .brev w] sub
  | 0x18 => pickI [.and w, .or w, .xor w, .andn w, .orn w, .not w] sub
  | 0x19 => pickI [.andImm w, .orImm w, .xorImm w, .andnImm w, .ornImm w] sub
  | 0x1A => pickI [.tern w] sub
  | 0x1B => pickI [.shl w, .shr w, .sar w, .rol w, .ror w] sub
  | 0x1C => pickI [.shlImm w, .shrImm w, .sarImm w, .rolImm w, .rorImm w] sub
  | 0x1D => pickI [.bfx w, .bfi w] sub
  | 0x24 => pickI [.mov w] sub
  | 0x25 => pickI [.movImm w] sub
  | 0x26 => pickI [.bytsel w] sub
  | 0x30 => pickI [.cnarrow w, .cnarrowSet w] sub
  | 0x31 => pickI [.cperm w] sub
  | 0x32 => pick allCapField (fun f => .cget f w) sub
  | 0x33 => pickI [.cchk w] sub
  | 0x40 => pickI [.bra w] sub
  | 0x41 => pick allVote (fun v => .braCond v w) sub
  | 0x42 => pickI [.split w] sub
  | 0x43 => pickI [.meet w] sub
  | 0x44 => pickI [.loop w] sub
  | 0x45 => pickI [.breakPred w, .brk w] sub
  | 0x46 => pickI [.call w] sub
  | 0x47 => pickI [.ret w] sub
  | 0x48 => pickI [.exit w] sub
  | 0x49 => pickI [.yield w] sub
  | _ => none

def buildFloat (op sub : Nat) (w : W) : Option Instr :=
  match op with
  | 0x60 => pickI [.fadd w, .fsub w, .fmul w, .fmin w, .fmax w] sub
  | 0x61 => pickI [.faddImm w, .fsubImm w, .fmulImm w, .fminImm w, .fmaxImm w] sub
  | 0x62 => pickI [.fma w, .fms w] sub
  | 0x63 => pick allFCc (fun c => .fcmp c w) sub
  | 0x64 => pickI [.fclass w] sub
  | 0x65 => pickI [.frcp w, .frsq w, .fsqrt w, .fex2 w, .flg2 w, .fsin w, .fcos w] sub
  | 0x80 => pickI [.cvtFF w] sub
  | 0x81 => pickI [.cvtFI w] sub
  | 0x82 => pickI [.cvtIF w] sub
  | 0x83 => pickI [.scalegenE8M0 w, .scalegenE4M3 w] sub
  | 0x84 => pickI [.qntE8M0 w, .qntE4M3 w] sub
  | 0x85 => pickI [.pack w] sub
  | 0x86 => pickI [.unpk w] sub
  | 0x90 => pick allXMode (fun m => .xlane m w) sub
  | 0x91 => pick allXMode (fun m => .xlaneImm m w) sub
  | 0x92 => pickI [.bcastFirst w] sub
  | 0x93 => pickI [.voteAny w, .voteAll w, .voteEq w, .ballot w] sub
  | 0x94 => pick allRedF (fun o => .lredFloat o w) sub
  | 0x95 => pick allRedF (fun o => .lscanFloat o w) sub
  | 0x96 => pick allRedI (fun o => .lredInt o w) sub
  | 0x97 => pick allRedI (fun o => .lscanInt o w) sub
  | _ => none

def buildHigh (op sub : Nat) (w : W) : Option Instr :=
  match op with
  | 0xA0 => pick allSpace (fun s => .ld s w) sub
  | 0xA1 => pick allSpace (fun s => .st s w) sub
  | 0xA2 => pick allSpace (fun s => .ldc s w) sub
  | 0xA3 => pick allSpace (fun s => .stc s w) sub
  | 0xA4 => pick allSpace (fun s => .ldg s w) sub
  | 0xA5 => pick allSpace (fun s => .sts s w) sub
  | 0xA6 => pick allSpace (fun s => .stvM s w) sub
  | 0xA7 => pick allSpace (fun s => .ldvM s w) sub
  | 0xB0 => pick allAtOp (fun o => .atom o w) sub
  | 0xB1 => pickI [.atomCas w] sub
  | 0xB2 => pickFt (fun o t => .atomFloat o t w) sub
  | 0xB3 => pick allAtOp (fun o => .red o w) sub
  | 0xB4 => pickFt (fun o t => .redFloat o t w) sub
  | 0xBC => pickI [.rel w] sub
  | 0xBD => pickI [.acq w] sub
  | 0xBE => pickI [.phx w] sub
  | 0xBF => pickI [.fence w] sub
  | 0xC0 => pickI [.ballocPhase w, .ballocCount w] sub
  | 0xC1 => pickI [.bfree w] sub
  | 0xC2 => pickI [.barrive w] sub
  | 0xC3 => pickI [.bexpect w] sub
  | 0xC4 => pickI [.bsigImm w] sub
  | 0xC5 => pickI [.bsigReg w] sub
  | 0xC6 => pickI [.waitbPh w, .waitbCt w] sub
  | 0xC8 => pickI [.cpyLin w, .cpyTile w] sub
  | 0xD0 => pickI [.mma w, .mmaZ w] sub
  | 0xD1 => pickI [.wbld w] sub
  | 0xD2 => pickI [.accz w] sub
  | 0xD3 => pickI [.accld w] sub
  | 0xD4 => pickI [.accst w] sub
  | 0xD5 => pickI [.mbatch w] sub
  | 0xD6 => pickI [.batonSet w] sub
  | 0xD7 => pickI [.batonPass w, .batonPassSignal w] sub
  | 0xE0 => pickI [.role w] sub
  | 0xE1 => pickI [.taskadd w] sub
  | 0xE2 => pickI [.glaunch w, .glaunchW w] sub
  | 0xE3 => pickI [.gjoin w, .gjoinTry w] sub
  | 0xE8 => pickI [.beat w] sub
  | 0xE9 => pickI [.btarget w] sub
  | 0xEA => pickI [.bread w] sub
  | 0xEC => pickI [.gsync w, .garrive w, .gwait w] sub
  | 0xF0 => pickI [.put w] sub
  | 0xF1 => pickI [.get w] sub
  | 0xF2 => pickI [.collAllred w, .collBcast w, .collAllgath w] sub
  | 0xF8 => pickI [.svc w] sub
  | 0xF9 => pickI [.trap w] sub
  | 0xFA => pickI [.movsRead w, .movsWrite w] sub
  | 0xFB => pickI [.nop w] sub
  | 0xFC => pickI [.waitCyc w] sub
  | _ => none

/-- The opcode map (02 R59). -/
def build (op sub : Nat) (w : W) : Option Instr :=
  if op < 0x60 then buildLow op sub w else if op < 0xA0 then buildFloat op sub w else buildHigh op sub w

/-- The instruction that OP and SUB of a slot name, whatever its other fields. -/
def namedBy (x : IWord) : Option Instr := build (fld x 7 0) (fld x 11 8) (.ofBits x)

/-- Decodes one slot (02 R57). -/
def decodeWave (x : IWord) : Except DecodeCause Instr :=
  if fld x 7 0 = 0xFE then .ok (.hint (x.extractLsb' 8 88))
  else
    match namedBy x with
    | none => .error .opcode
    | some i => if i.bad01 then .error .opcode else if rawBad x || i.bad02 then .error .field else .ok i

/-! ### Landing instructions (21 R365, 23 R404) -/

/-- Decodes one 32-bit word of a Landing core: a Dalcy instruction, or a `FENCE` of the form of R404. Any other word is of the RV64
base, to which the spec gives no row, or raises illegal-instruction. -/
def decodeLanding (x : BitVec 32) : Option Instr :=
  let rd := x.extractLsb' 7 5
  let rs1 := x.extractLsb' 15 5
  let rs2 := x.extractLsb' 20 5
  let f7 := fld x 31 25
  let cap := fun (r : BitVec 5) => !r.getLsbD 4
  let q := fun (r : BitVec 5) => (r.setWidth 4 : BitVec 4)
  if fld x 6 0 = 0x0B then
    if !cap rs1 then none
    else
      match fld x 14 12 with
      | 0 => if f7 < 8 then some (.dld rd (q rs1) rs2 (x.extractLsb' 25 2) (x.getLsbD 27)) else none
      | 1 => if f7 < 4 then some (.dst rd (q rs1) rs2 (x.extractLsb' 25 2)) else none
      | 2 => if cap rd && f7 == 0 then some (.dldc (q rd) (q rs1) rs2) else none
      | 3 => if cap rd && f7 == 0 then some (.dstc (q rd) (q rs1) rs2) else none
      | 4 => if cap rd && decide (f7 < 32) then some (.dnarrow (q rd) (q rs1) rs2 (x.extractLsb' 25 5)) else none
      | 5 => if cap rd && f7 == 0 then some (.dperm (q rd) (q rs1) rs2) else none
      | 6 => if rs2 == 0 then (allCapField[f7]?).map (fun f => .dget rd (q rs1) f) else none
      | _ => if cap rd && rs2 == 0 && f7 == 0 then some (.dmov (q rd) (q rs1)) else none
  else if fld x 6 0 = 0x0F ∧ fld x 14 12 = 0 ∧ fld x 25 24 = 3 ∧ fld x 21 20 = 3 then some .landingFenceRw
  else none

/-- A word of the custom-0 opcode that R365 assigns no meaning raises the illegal-instruction exception. -/
def isDalcyWord (x : BitVec 32) : Bool := fld x 6 0 == 0x0B

/-! ### The encoder -/

def Guard.bits : Guard → BitVec 10
  | .always => 0
  | .on inv g => (g ++ BitVec.ofBool inv ++ 1#1 : BitVec 10)

/-- The word of an OP, a SUB and fields (02 R42). -/
def assemble (op sub : Nat) (w : W) : IWord :=
  (w.tail ++ w.mod ++ 0#1 ++ w.g.bits ++ w.b.bits ++ w.a.bits ++ w.d ++ BitVec.ofBool w.nw ++ w.ty ++
    BitVec.ofNat 4 sub ++ BitVec.ofNat 8 op : BitVec 96)

/-- The 96-bit word of a wave instruction. -/
def encodeWave : Instr → Option IWord
  | .hint rest => some (rest ++ 0xFE#8 : BitVec 96)
  | i => i.wave.map fun (op, sub, w) => assemble op sub w

def dalcy (f7 : BitVec 7) (rs2 rs1 : BitVec 5) (f3 : BitVec 3) (rd : BitVec 5) : BitVec 32 :=
  (f7 ++ rs2 ++ rs1 ++ f3 ++ rd ++ 0x0B#7 : BitVec 32)

/-- The 32-bit word of a Landing instruction. -/
def encodeLanding : Instr → Option (BitVec 32)
  | .dld d c o z u => some (dalcy (0#4 ++ BitVec.ofBool u ++ z : BitVec 7) o (c.setWidth 5) 0 d)
  | .dst v c o z => some (dalcy (z.setWidth 7) o (c.setWidth 5) 1 v)
  | .dldc d c o => some (dalcy 0 o (c.setWidth 5) 2 (d.setWidth 5))
  | .dstc v c o => some (dalcy 0 o (c.setWidth 5) 3 (v.setWidth 5))
  | .dnarrow d c o l => some (dalcy (l.setWidth 7) o (c.setWidth 5) 4 (d.setWidth 5))
  | .dperm d c k => some (dalcy 0 k (c.setWidth 5) 5 (d.setWidth 5))
  | .dget d c f => some (dalcy (BitVec.ofNat 7 f.code) 0 (c.setWidth 5) 6 d)
  | .dmov d c => some (dalcy 0 0 (c.setWidth 5) 7 (d.setWidth 5))
  | .landingFenceRw => some 0x0330_000F#32
  | _ => none

/-- The 32-bit words of an instruction, the first at the lowest address; none for a machine event, which no word encodes. -/
def encode (i : Instr) : Option (List (BitVec 32)) :=
  match encodeLanding i with
  | some x => some [x]
  | none => (encodeWave i).map fun x => [x.extractLsb' 0 32, x.extractLsb' 32 32, x.extractLsb' 64 32]

/-- Decodes the words that `encode` gives. -/
def decode : List (BitVec 32) → Option Instr
  | [x] => decodeLanding x
  | [a, b, c] => (decodeWave (c ++ b ++ a : BitVec 96)).toOption
  | _ => none

/-- What the decoder reads from a row's bits as spec/opcode_table.json numbers them: rows of at most 32 bits are the Landing's. -/
def decodeTableWord (nbits w : Nat) : Option Instr :=
  if nbits ≤ 32 then decodeLanding (BitVec.ofNat 32 w) else (decodeWave (BitVec.ofNat 96 w)).toOption

end Sys2Proof
end

