-- ==== Sys2Proof/Machine/Flags.lean ====
section
/-! DEFINITION. The float formats (03 R66-R68), their exact values, rounding and overflow (03 R74-R76, R80), NaN results (R69) and the
sticky flags that each raises (R82). A float value is held exactly, as an integer times a power of two. -/

namespace Sys2Proof.Machine

/-! ### Sticky flags, at their bits in `$fpc` (01 R23) -/
def fNV : Nat := 0x100
def fDZ : Nat := 0x200
def fOF : Nat := 0x400
def fUF : Nat := 0x800
def fNX : Nat := 0x1000
def fSAT : Nat := 0x2000
def fLLOST : Nat := 0x4000

/-- A format of R66: widths of exponent and mantissa, bias, whether E all ones is infinity and NaN, and the largest finite value as
mantissa and weight. -/
structure FFmt where
  eb : Nat
  mb : Nat
  bias : Int
  ieee : Bool
  maxM : Nat
  maxQ : Int
  /-- One NaN encoding, S.1111.111 (E4M3). -/
  oneNan : Bool := false
  deriving DecidableEq, Repr

def ieeeFmt (eb mb : Nat) : FFmt :=
  { eb, mb, bias := 2 ^ (eb - 1) - 1, ieee := true, maxM := 2 ^ (mb + 1) - 1, maxQ := 2 ^ (eb - 1) - 1 - mb }

/-- The format of a float TY code (02 R50); packed codes give their element's. -/
def fmtTy : Nat → FFmt
  | 0 => ieeeFmt 8 23
  | 1 => ieeeFmt 11 52
  | 2 => ieeeFmt 8 10
  | 3 | 10 => ieeeFmt 8 7
  | 4 | 11 => ieeeFmt 5 10
  | 5 => ieeeFmt 5 2
  | 6 => { eb := 4, mb := 3, bias := 7, ieee := false, maxM := 14, maxQ := 5, oneNan := true }
  | 7 => { eb := 3, mb := 2, bias := 3, ieee := false, maxM := 7, maxQ := 2 }
  | 8 => { eb := 2, mb := 3, bias := 1, ieee := false, maxM := 15, maxQ := -1 }
  | _ => { eb := 2, mb := 1, bias := 1, ieee := false, maxM := 3, maxQ := 1 }

/-- Bits of a value. -/
def FFmt.bits (f : FFmt) : Nat := 1 + f.eb + f.mb
/-- Least exponent of a normal number. -/
def FFmt.emin (f : FFmt) : Int := 1 - f.bias
/-- FTZ applies to the formats of R76. -/
def FFmt.ftz (f : FFmt) : Bool := f.ieee && f.mb != 2

/-- An exact float value: magnitude m * 2^e with its sign, an infinity, or a NaN with its mantissa field. -/
inductive FV
  | nan (neg sig : Bool) (payload : Nat) (mb : Nat)
  | inf (neg : Bool)
  | fin (neg : Bool) (m : Nat) (e : Int)
  deriving DecidableEq, Repr

def FV.isNan : FV → Bool | .nan .. => true | _ => false
def FV.isSig : FV → Bool | .nan _ s _ _ => s | _ => false
def FV.neg : FV → Bool | .nan n _ _ _ => n | .inf n => n | .fin n _ _ => n
def FV.isZero : FV → Bool | .fin _ m _ => m == 0 | _ => false
def FV.isInf : FV → Bool | .inf _ => true | _ => false
def FV.negate : FV → FV | .nan n s p b => .nan (!n) s p b | .inf n => .inf (!n) | .fin n m e => .fin (!n) m e

/-- The value of an encoding (R67). -/
def FFmt.decode (f : FFmt) (x : Nat) : FV :=
  let neg := decide (x / 2 ^ (f.eb + f.mb) % 2 = 1)
  let e := x / 2 ^ f.mb % 2 ^ f.eb
  let m := x % 2 ^ f.mb
  if f.ieee ∧ e = 2 ^ f.eb - 1 then
    if m = 0 then .inf neg else .nan neg (m < 2 ^ (f.mb - 1)) m f.mb
  else if f.oneNan ∧ e = 2 ^ f.eb - 1 ∧ m = 2 ^ f.mb - 1 then .nan neg false m f.mb
  else if e = 0 then .fin neg m (f.emin - f.mb)
  else .fin neg (2 ^ f.mb + m) (e - f.bias - f.mb)

def FFmt.signBit (f : FFmt) (neg : Bool) : Nat := if neg then 2 ^ (f.eb + f.mb) else 0

/-- The canonical NaN (R69). -/
def FFmt.canonNan (f : FFmt) : Nat :=
  if f.oneNan then 0x7F
  else if f.mb = 2 ∧ f.ieee then 0x7E
  else (2 ^ f.eb - 1) * 2 ^ f.mb + 2 ^ (f.mb - 1)

def FFmt.infBits (f : FFmt) (neg : Bool) : Nat := f.signBit neg + (2 ^ f.eb - 1) * 2 ^ f.mb
/-- Encodes mantissa `m` at weight 2^q, with m < 2^(mb+1). -/
def FFmt.encode (f : FFmt) (neg : Bool) (m : Nat) (q : Int) : Nat :=
  f.signBit neg + (if m < 2 ^ f.mb then m else (q + f.mb + f.bias).toNat * 2 ^ f.mb + (m - 2 ^ f.mb))
def FFmt.maxBits (f : FFmt) (neg : Bool) : Nat := f.encode neg f.maxM f.maxQ

/-- Rounding modes (02 R52); stochastic carries r (R79). -/
inductive RMode
  | rne | rtz | rup | rdn
  | sr (r : Nat)
  deriving DecidableEq, Repr

/-- RM of `$fpc` (01 R23). -/
def RMode.ofRM : Nat → RMode | 0 => .rne | 1 => .rtz | 2 => .rup | _ => .rdn

/-- Whether a kept integer is incremented, given the discarded part rem / 2^sh, and whether anything lies below it (R74, R80). -/
def roundsUp (mode : RMode) (neg : Bool) (kept rem sh : Nat) (sticky : Bool) : Bool :=
  let inexact := rem != 0 || sticky
  match mode with
  | .rne => if sh = 0 then false else decide (2 ^ (sh - 1) < rem) || (rem == 2 ^ (sh - 1) && (sticky || kept % 2 == 1))
  | .rtz => false
  | .rup => inexact && !neg
  | .rdn => inexact && neg
  | .sr r => decide (2 ^ 16 ≤ rem * 2 ^ 16 / 2 ^ sh + r)

/-- A result with the flags that it raises. -/
structure FR where
  bits : Nat
  flags : Nat := 0
  deriving DecidableEq, Repr

def bitLen (n : Nat) : Nat := if n = 0 then 0 else Nat.log2 n + 1

/-- What an overflowing result of a sign becomes (R75). -/
def FFmt.overflow (f : FFmt) (mode : RMode) (sat neg : Bool) : FR :=
  let away := match mode with | .rne | .sr _ => true | .rtz => false | .rup => !neg | .rdn => neg
  if f.ieee then
    if sat then ⟨f.maxBits neg, fOF ||| fNX ||| fSAT⟩
    else ⟨if away then f.infBits neg else f.maxBits neg, fOF ||| fNX⟩
  else ⟨f.maxBits neg, fOF ||| fNX ||| (if away || sat then fSAT else 0)⟩

/-- The magnitude m * 2^e (and a little more where `sticky`), rounded into a format (R74-R76). -/
def FFmt.round (f : FFmt) (mode : RMode) (ftz sat neg : Bool) (m : Nat) (e : Int) (sticky : Bool := false) : FR :=
  if m = 0 ∧ sticky = false then ⟨f.signBit neg, 0⟩
  else
    let top := e + bitLen m - 1
    let q := max top f.emin - f.mb
    let sh := (q - e).toNat
    let base := m * 2 ^ (e - q).toNat
    let kept := base / 2 ^ sh
    let rem := base % 2 ^ sh
    let inexact := rem != 0 || sticky
    let r := if roundsUp mode neg kept rem sh sticky then kept + 1 else kept
    let (r, q) := if r = 2 ^ (f.mb + 1) then (2 ^ f.mb, q + 1) else (r, q)
    if f.maxQ < q ∨ (f.maxQ = q ∧ f.maxM < r) then f.overflow mode sat neg
    else if r < 2 ^ f.mb then
      if ftz && f.ftz then ⟨f.signBit neg, fUF ||| fNX⟩
      else ⟨f.encode neg r q, if inexact then fUF ||| fNX else 0⟩
    else ⟨f.encode neg r q, if inexact then fNX else 0⟩

/-- An input under FTZ: a subnormal reads as a zero of its sign (R76). -/
def FFmt.flush (f : FFmt) (ftz : Bool) (x : FV) : FV :=
  match x with
  | .fin n m e => if ftz && f.ftz && decide (m < 2 ^ f.mb) then .fin n 0 e else x
  | x => x

/-- A NaN in a format: quiet bit set, the most significant payload bits that fit (R77). -/
def FFmt.nanFrom (f : FFmt) (neg : Bool) (payload mb : Nat) : Nat :=
  if f.oneNan then f.signBit neg + 0x7F
  else
    f.signBit neg + (2 ^ f.eb - 1) * 2 ^ f.mb +
      ((payload * 2 ^ (f.mb - mb) / 2 ^ (mb - f.mb)) ||| 2 ^ (f.mb - 1))

/-- The NaN result of a vector instruction over its operands in order (R69); an invalid operation has no NaN operand. -/
def FFmt.nanResult (f : FFmt) (dn : Bool) (ops : List FV) : Nat :=
  if dn then f.canonNan
  else
    match ops.find? FV.isNan with
    | some (.nan n _ p b) => f.nanFrom n p b
    | _ => f.canonNan

/-- NV of a signalling operand. -/
def sigFlag (ops : List FV) : Nat := if ops.any FV.isSig then fNV else 0

/-! ### Exact arithmetic -/

/-- The exact sum as a signed integer at a weight. -/
def FV.sum (x y : FV) : Int × Int :=
  match x, y with
  | .fin n m e, .fin n' m' e' =>
    let q := min e e'
    let a : Int := m * 2 ^ (e - q).toNat
    let b : Int := m' * 2 ^ (e' - q).toNat
    ((if n then -a else a) + (if n' then -b else b), q)
  | _, _ => (0, 0)

/-- The sign of an exact zero sum (R74): the common sign, or that of the mode. -/
def zeroSign (mode : RMode) (n n' : Bool) : Bool := if n = n' then n else decide (mode = .rdn)

/-- The controls of a rounding operation. -/
structure FCtl where
  mode : RMode := .rne
  ftz : Bool := false
  dn : Bool := false
  sat : Bool := false
  deriving DecidableEq, Repr

/-- a + b, rounded once (05 R122); `nans` are the operands that a NaN result looks at. -/
def FFmt.addV (f : FFmt) (c : FCtl) (a b : FV) (nans : List FV) : FR :=
  if nans.any FV.isNan then ⟨f.nanResult c.dn nans, sigFlag nans⟩
  else
    match a, b with
    | .inf n, .inf n' => if n = n' then ⟨f.infBits n, 0⟩ else ⟨f.nanResult c.dn [], fNV⟩
    | .inf n, _ => ⟨f.infBits n, 0⟩
    | _, .inf n => ⟨f.infBits n, 0⟩
    | _, _ =>
      let (v, q) := FV.sum a b
      if v = 0 then ⟨f.signBit (zeroSign c.mode a.neg b.neg), 0⟩
      else f.round c.mode c.ftz c.sat (decide (v < 0)) v.natAbs q

def FFmt.addOp (f : FFmt) (c : FCtl) (x y : Nat) : FR :=
  let a := f.flush c.ftz (f.decode x)
  let b := f.flush c.ftz (f.decode y)
  f.addV c a b [a, b]

def FFmt.subOp (f : FFmt) (c : FCtl) (x y : Nat) : FR :=
  let a := f.flush c.ftz (f.decode x)
  let b := f.flush c.ftz (f.decode y)
  f.addV c a b.negate [a, b]

/-- 0 times infinity. -/
def FV.badProduct (a b : FV) : Bool := (a.isZero && b.isInf) || (a.isInf && b.isZero)

/-- The exact product of two numbers that are no NaN and no invalid pair. -/
def FV.prod (a b : FV) : FV :=
  let n := a.neg != b.neg
  match a, b with
  | .fin _ m e, .fin _ m' e' => .fin n (m * m') (e + e')
  | _, _ => .inf n

def FFmt.mulOp (f : FFmt) (c : FCtl) (x y : Nat) : FR :=
  let a := f.flush c.ftz (f.decode x)
  let b := f.flush c.ftz (f.decode y)
  if a.isNan || b.isNan then ⟨f.nanResult c.dn [a, b], sigFlag [a, b]⟩
  else if FV.badProduct a b then ⟨f.nanResult c.dn [], fNV⟩
  else
    match FV.prod a b with
    | .fin n m e => f.round c.mode c.ftz c.sat n m e
    | v => ⟨f.infBits v.neg, 0⟩

/-- a * b + c, or a * b - c, rounded once (05 R122). -/
def FFmt.fmaOp (f : FFmt) (k : FCtl) (minus : Bool) (x y z : Nat) : FR :=
  let a := f.flush k.ftz (f.decode x)
  let b := f.flush k.ftz (f.decode y)
  let c := f.flush k.ftz (f.decode z)
  let bad := FV.badProduct a b
  if a.isNan || b.isNan || c.isNan then
    ⟨f.nanResult k.dn [a, b, c], sigFlag [a, b, c] ||| (if bad then fNV else 0)⟩
  else if bad then ⟨f.nanResult k.dn [], fNV⟩
  else f.addV k (FV.prod a b) (if minus then c.negate else c) []

/-- The order of two numbers that are no NaN: -0 below +0 where `zeros` (05 R123). -/
def FV.lt (zeros : Bool) (a b : FV) : Bool :=
  match a, b with
  | .inf n, .inf n' => n && !n'
  | .inf n, _ => n
  | _, .inf n => !n
  | _, _ =>
    let (v, _) := FV.sum a b.negate
    decide (v < 0) || (zeros && v == 0 && a.isZero && a.neg && !b.neg)

def FV.eq (a b : FV) : Bool := !a.isNan && !b.isNan && !FV.lt false a b && !FV.lt false b a

/-- The encoding of a value that the format holds exactly. -/
def FFmt.exact (f : FFmt) (x : FV) : Nat :=
  match x with
  | .nan n _ p b => f.nanFrom n p b
  | .inf n => f.infBits n
  | .fin n m e => (f.round .rne false false n m e).bits

/-- The encoding of a value that a wider format holds, every payload bit and the quiet bit of a NaN as they are (02 R51). -/
def FFmt.widen (f : FFmt) (x : FV) : Nat :=
  match x with
  | .nan n _ p b => f.infBits n + p * 2 ^ (f.mb - b)
  | x => f.exact x

/-- `FMIN` and `FMAX` (05 R123). -/
def FFmt.minMax (f : FFmt) (ftz dn isMax : Bool) (x y : Nat) : FR :=
  let a := f.flush ftz (f.decode x)
  let b := f.flush ftz (f.decode y)
  let fl := sigFlag [a, b]
  if a.isNan && b.isNan then ⟨f.nanResult dn [a, b], fl⟩
  else if a.isNan then ⟨f.exact b, fl⟩
  else if b.isNan then ⟨f.exact a, fl⟩
  else ⟨f.exact (if (if isMax then FV.lt true a b else FV.lt true b a) then b else a), fl⟩

/-- Bits of a quotient beyond the operands': far more than any format keeps. -/
def quotBits : Nat := 200

/-- An exact quotient of magnitudes m/m' * 2^(e - e'), rounded (sticky below `quotBits`). -/
def FFmt.roundDiv (f : FFmt) (c : FCtl) (neg : Bool) (m : Nat) (e : Int) (m' : Nat) (e' : Int) : FR :=
  let n := m * 2 ^ quotBits
  f.round c.mode c.ftz c.sat neg (n / m') (e - e' - quotBits) (n % m' != 0)

/-- `FRCP` (05 R126, R127). -/
def FFmt.rcpOp (f : FFmt) (c : FCtl) (x : Nat) : FR :=
  let a := f.flush c.ftz (f.decode x)
  match a with
  | .nan .. => ⟨f.nanResult c.dn [a], sigFlag [a]⟩
  | .inf n => ⟨f.signBit n, 0⟩
  | .fin n m e => if m = 0 then ⟨f.infBits n, fDZ⟩ else f.roundDiv c n 1 0 m e

/-- floor(sqrt n), by the binary digits of the root from the top. -/
def isqrtGo (n : Nat) : Nat → Nat → Nat
  | 0, r => r
  | k + 1, r => let t := r + 2 ^ k; isqrtGo n k (if t * t ≤ n then t else r)
def isqrt (n : Nat) : Nat := isqrtGo n (bitLen n / 2 + 1) 0

/-- `FSQRT` (05 R126, R127). -/
def FFmt.sqrtOp (f : FFmt) (c : FCtl) (x : Nat) : FR :=
  let a := f.flush c.ftz (f.decode x)
  match a with
  | .nan .. => ⟨f.nanResult c.dn [a], sigFlag [a]⟩
  | .inf n => if n then ⟨f.nanResult c.dn [], fNV⟩ else ⟨f.infBits false, 0⟩
  | .fin n m e =>
    if m = 0 then ⟨f.signBit n, 0⟩
    else if n then ⟨f.nanResult c.dn [], fNV⟩
    else
      let (m, e) := if e % 2 = 0 then (m, e) else (2 * m, e - 1)
      let v := m * 2 ^ (2 * 160)
      let r := isqrt v
      f.round c.mode c.ftz false false r (e / 2 - 160) (r * r != v)

/-! ### Conversions (R77, R78) -/

/-- A value converted to a float format (R77). `sat` is the saturate modifier; FP64 keeps an infinity with it too. -/
def FFmt.convert (f : FFmt) (c : FCtl) (a : FV) : FR :=
  match a with
  | .nan n s p b =>
    if f.ieee || f.oneNan then
      ⟨if c.dn then f.canonNan else f.nanFrom n p b, if s then fNV else 0⟩
    else ⟨0, fNV⟩
  | .inf n =>
    if f.ieee then (if c.sat && f.mb != 52 then ⟨f.maxBits n, fSAT⟩ else ⟨f.infBits n, 0⟩) else ⟨f.maxBits n, fSAT⟩
  | .fin n m e => f.round c.mode c.ftz c.sat n m e

/-- Range of an integer TY code (02 R50, 03 R70): whether signed, and its width. -/
def intTy : Nat → Bool × Nat
  | 0 => (true, 32) | 1 => (false, 32) | 2 => (false, 32) | 3 => (true, 64) | 4 => (false, 64) | 5 => (true, 16) | 6 => (false, 16)
  | 7 => (true, 8) | 8 => (false, 8) | 9 => (true, 4) | _ => (false, 4)

def intMin (ty : Nat) : Int := let (s, n) := intTy ty; if s then -(2 ^ (n - 1)) else 0
def intMax (ty : Nat) : Int := let (s, n) := intTy ty; if s then 2 ^ (n - 1) - 1 else 2 ^ n - 1

/-- A signed value with the flags that it raises. -/
structure IR where
  val : Int
  flags : Nat := 0
  deriving DecidableEq, Repr

/-- m * 2^e rounded to an integer magnitude, and whether it was inexact (R78, R80 with ulp 1). -/
def roundInt (mode : RMode) (neg : Bool) (m : Nat) (e : Int) (sticky : Bool := false) : Nat × Bool :=
  let sh := (-e).toNat
  let base := m * 2 ^ e.toNat
  let kept := base / 2 ^ sh
  let rem := base % 2 ^ sh
  (if roundsUp mode neg kept rem sh sticky then kept + 1 else kept, rem != 0 || sticky)

/-- A magnitude rounded and clamped into an integer type (R78). -/
def clampInt (mode : RMode) (ty : Nat) (neg : Bool) (m : Nat) (e : Int) (sticky : Bool := false) : IR :=
  let (k, inexact) := roundInt mode neg m e sticky
  let v : Int := if neg then -k else k
  if v < intMin ty then ⟨intMin ty, fNV ||| fSAT⟩
  else if intMax ty < v then ⟨intMax ty, fNV ||| fSAT⟩
  else ⟨v, if inexact then fNX else 0⟩

/-- A float value converted to an integer type (R78). -/
def convertInt (mode : RMode) (ty : Nat) (a : FV) : IR :=
  match a with
  | .nan .. => ⟨0, fNV⟩
  | .inf n => ⟨if n then intMin ty else intMax ty, fNV ||| fSAT⟩
  | .fin n m e => clampInt mode ty n m e

/-! ### Register layouts (R68) -/

/-- The encoding that a register holds of a float type; element `k` of a packed one. -/
def rawOf (ty k : Nat) (x : DWord) : Nat :=
  match ty with
  | 1 => x.toNat
  | 2 => fld x 31 13
  | 10 | 11 => if k = 0 then fld x 15 0 else fld x 31 16
  | t => x.toNat % 2 ^ (fmtTy t).bits

/-- A register's pattern of an encoding: FP19 in FP32's bit positions, zeros above. -/
def layOf (ty raw : Nat) : Nat := if ty = 2 then raw * 2 ^ 13 else raw

/-- An integer value in its register layout: sign copies or zeros above (R68). -/
def layInt (ty : Nat) (v : Int) : DWord :=
  if ty = 3 ∨ ty = 4 then BitVec.ofInt 64 v else (BitVec.ofInt 32 v).setWidth 64

/-- The integer that a register holds of a type; only the bits that hold the value are read (R68). -/
def readInt (ty : Nat) (x : DWord) : Int :=
  let (s, n) := intTy ty
  let v := x.toNat % 2 ^ n
  if s ∧ 2 ^ (n - 1) ≤ v then (v : Int) - 2 ^ n else v

/-- The bits that NEG and ABS act on (02 R45). -/
def signMask : Nat → DWord
  | 1 => 0x8000_0000_0000_0000
  | 0 | 2 => 0x8000_0000
  | 10 | 11 => 0x8000_8000
  | t => BitVec.ofNat 64 (2 ^ ((fmtTy t).bits - 1))

/-- One advance of a stochastic generator (R79). -/
def srNext (x : Word) : Word :=
  let x := x ^^^ (x <<< 13)
  let x := x ^^^ (x >>> 17)
  x ^^^ (x <<< 5)
def srR (x : Word) : Nat := fld x 31 16

end Sys2Proof.Machine
end

