-- ==== Sys2Proof/Machine/Formats.lean ====
section
/-! DEFINITION. Matrix operand formats and their scales (03 R71-R73), block scales and quantisation (05 R130, R131), shared by the
matrix engine, the format-range registers and the wave instructions. -/

namespace Sys2Proof.Machine

/-- The element of a FMT code: a float TY code, or an integer TY code (R71). -/
inductive Elem
  | flt (ty : Nat) | int (ty : Nat)
  deriving DecidableEq, Repr

def fmtElem : Nat → Option Elem
  | 0x01 => some (.flt 0) | 0x02 => some (.flt 2) | 0x03 => some (.flt 3) | 0x04 => some (.flt 4)
  | 0x05 | 0x0F => some (.flt 5) | 0x06 | 0x0E | 0x10 => some (.flt 6) | 0x07 | 0x11 => some (.flt 7) | 0x08 | 0x12 => some (.flt 8)
  | 0x09 | 0x13 | 0x15 => some (.flt 9) | 0x0A | 0x14 | 0x18 => some (.int 7) | 0x0B => some (.int 8)
  | 0x0C | 0x16 => some (.int 9) | 0x0D | 0x17 => some (.int 10)
  | _ => none

/-- Bits of an element in memory (R72): FP19 occupies 32. -/
def elemWidth : Elem → Nat
  | .flt 2 => 32
  | .flt t => (fmtTy t).bits
  | .int t => (intTy t).2

/-- Formats that carry scales (R71). -/
def fmtScaled (f : Nat) : Bool := decide (0x0E ≤ f ∧ f ≤ 0x18)

/-- Block size and bytes of a scale entry (13 R268); block size 0: the whole depth. -/
def scaleShape : Nat → Nat × Nat
  | 0x0E => (128, 4) | 0x15 => (16, 1) | 0x16 => (128, 2) | 0x17 => (128, 4) | 0x18 => (0, 4)
  | _ => (32, 1)

/-- Bytes of `n` elements packed in a row (R72). -/
def rowBytes (el : Elem) (n : Nat) : Nat := (elemWidth el * n + 7) / 8

/-- A little-endian number of a list of bytes. -/
def leNat : List Byte → Nat
  | [] => 0
  | b :: t => b.toNat + 256 * leNat t

/-- The low `n` bytes of a number, little-endian. -/
def leBytes (n : Nat) (x : Nat) : List Byte := (List.range n).map fun i => BitVec.ofNat 8 (x / 256 ^ i)

/-- The encoding of element `k` of a packed row: the bits [w k + w - 1 : w k] of the little-endian row (R72). -/
def elemRaw (el : Elem) (row : Nat) (k : Nat) : Nat :=
  let x := row / 2 ^ (elemWidth el * k) % 2 ^ elemWidth el
  match el with | .flt 2 => x / 2 ^ 13 % 2 ^ 19 | _ => x

def intFV (v : Int) : FV := .fin (decide (v < 0)) v.natAbs 0

/-- The encoded value of an element. -/
def elemFV (el : Elem) (raw : Nat) : FV :=
  match el with
  | .flt t => (fmtTy t).decode raw
  | .int t => intFV (readInt t (BitVec.ofNat 64 raw))

/-- Value of an E8M0 encoding; NaN for 0xFF (R67). -/
def e8m0 (x : Nat) : FV := if x = 255 then .nan false false 1 1 else .fin false 1 ((x : Int) - 127)

/-- The inner scale of a format and, for 0x17, its zero point, from the bytes of the entry (R73). -/
def innerScale (f : Nat) (entry : Nat) : FV × Nat :=
  match f with
  | 0x15 => ((fmtTy 6).decode (entry % 256), 0)
  | 0x16 => ((fmtTy 4).decode (entry % 65536), 0)
  | 0x17 => ((fmtTy 4).decode (entry % 65536), entry / 65536 % 16)
  | 0x0F | 0x10 | 0x11 | 0x12 | 0x13 | 0x14 => (e8m0 (entry % 256), 0)
  | _ => (.fin false 1 0, 0)

def canonFV : FV := .nan false false 1 1

/-- Exact product with the NaN rules of R73. -/
def mulFV (a b : FV) : FV := if a.isNan || b.isNan || FV.badProduct a b then canonFV else FV.prod a b

/-- The real value of an element: encoded value times inner scale (R73). -/
def scaledElem (f : Nat) (el : Elem) (raw : Nat) (sc : FV × Nat) : FV :=
  let v := if f = 0x17 then intFV ((raw : Int) - sc.2) else elemFV el raw
  if fmtScaled f && f != 0x0E && f != 0x18 then mulFV v sc.1 else v

/-! ### SCALEGEN and QNT (05 R130, R131) -/

/-- emax of R130 by element: INT8 is `none`. -/
def scaleEmax : Option Nat → Nat
  | none => 6 | some 5 => 15 | some 6 => 8 | some 7 => 4 | _ => 2

/-- floor(log2 |x|) of a nonzero finite value. -/
def log2FV : FV → Int
  | .fin _ m e => e + bitLen m - 1
  | _ => 0

/-- The largest magnitude of a block. -/
def amaxFV (xs : List FV) : FV :=
  xs.foldl (fun acc x => let x := match x with | .fin _ m e => FV.fin false m e | y => y
    if FV.lt false acc x then x else acc) (.fin false 0 0)

/-- SUB 0: the E8M0 scale of a block. -/
def scaleE8 (el : Option Nat) (xs : List FV) : FR :=
  let fl := sigFlag xs
  if xs.any fun x => x.isNan || x.isInf then ⟨0xFF, fl⟩
  else
    let a := amaxFV xs
    if a.isZero then ⟨0, fl⟩
    else
      let s := log2FV a - (scaleEmax el : Int) + 127
      ⟨(max 0 (min 254 s)).toNat, fl⟩

/-- SUB 1: the E4M3 scale of a block, round(amax / 6, RUP). An infinite amax overflows (R75, R77). -/
def scaleE4 (xs : List FV) : FR :=
  let fl := sigFlag xs
  if xs.any FV.isNan then ⟨0x7F, fl⟩
  else if xs.any FV.isInf then ⟨(fmtTy 6).maxBits false, fl ||| fSAT⟩
  else
    match amaxFV xs with
    | .fin _ m e =>
      let r := (fmtTy 6).roundDiv { mode := .rup } false m e 6 0
      ⟨r.bits, fl ||| (r.flags &&& fSAT)⟩
    | _ => ⟨0, fl⟩

/-- One element of `QNT` (R131): the scale's value, the element code (none: INT8) and the operand. A NaN scale
gives a NaN of A's sign whatever `$fpc`.DN. -/
def qntElem (el : Option Nat) (c : FCtl) (scale a : FV) : FR :=
  let intR := fun (r : IR) => FR.mk ((layInt 7 r.val).toNat) r.flags
  if scale.isNan then
    match el with
    | some t => (fmtTy t).convert { c with dn := false } (.nan a.neg false ((2 : Nat) ^ 22) 23)
    | none => ⟨0, fNV⟩
  else if scale.isZero then
    match el with
    | some t => ⟨(fmtTy t).signBit a.neg, 0⟩
    | none => ⟨0, 0⟩
  else
    match a, scale with
    | .fin n m e, .fin n' m' e' =>
      let n := n != n'
      let num := m * 2 ^ quotBits
      match el with
      | some t => if m = 0 then ⟨(fmtTy t).signBit n, 0⟩ else (fmtTy t).roundDiv c n m e m' e'
      | none => intR (clampInt c.mode 7 n (num / m') (e - e' - quotBits) (num % m' != 0))
    | a, _ =>
      let x := match a with | .inf n => FV.inf (n != scale.neg) | a => a
      match el with
      | some t => (fmtTy t).convert c x
      | none => intR (convertInt c.mode 7 x)

/-! ### Stored records of format-range registers (19 R331) -/

/-- Elements per block, element bytes, scale bytes stored, scale bytes presented in SPLIT, and whether EXPAND is allowed. -/
def frrShape : Nat → Option (Nat × Nat × Nat × Nat × Bool)
  | 0x0E => some (128, 128, 4, 4, false)
  | 0x0F | 0x10 | 0x14 => some (32, 32, 1, 1, true)
  | 0x11 | 0x12 => some (32, 24, 1, 1, true)
  | 0x13 => some (32, 16, 1, 1, true)
  | 0x15 => some (16, 8, 1, 1, true)
  | 0x16 => some (128, 64, 2, 2, false)
  | 0x17 => some (128, 64, 3, 4, false)
  | _ => none

/-- The element code that SCALEGEN and QNT take for a stored format. -/
def frrElem (f : Nat) : Option Nat := match fmtElem f with | some (.flt t) => some t | _ => none

end Sys2Proof.Machine
end

