-- ==== Sys2Proof/Config.lean ====
section
/-! DEFINITION. What an implementation fixes and the spec does not: free values, constants with no body, so that nothing can be
proved of the number that one takes (log 1). `n` is the state's counter of draws. -/

namespace Sys2Proof.Config

/-- A choice between two allowed outcomes (08 R158, 11 R215, 19 R340, 14 R306, 01 R26). -/
opaque choice : Nat → Nat → Bool
/-- A choice among `k` allowed outcomes, read modulo `k`. -/
opaque pick : Nat → Nat → Nat
/-- The Sorrel set of a key (09 R172). -/
opaque sorrelFold : List Nat → Nat
/-- The set of a line in its slice (19 R325). -/
opaque llcSet : Nat → Nat
/-- Results of `FRSQ`, `FEX2`, `FLG2`, `FSIN`, `FCOS` inside their bounds (05 R126): operation, input bits. -/
opaque approx : Nat → Word → Word
/-- A value that the spec leaves unstated: kind of value, draw. -/
opaque unstated : Nat → Nat → Word
/-- A grid identifier: chosen by the front end (01 R24). -/
opaque gridId : Nat → Word
/-- Task area of a context in root memory (14 R302), by context. -/
opaque taskArea : Nat → Nat
/-- The places of a queue's rings (21 R380), which its transport sets: log of the size, descriptor table, available ring, used ring. -/
opaque ring : Nat → Nat → Nat × Nat × Nat × Nat
/-- The root capabilities that root firmware leaves in the capability registers of a Landing core at boot (21 R364; log 69): core, register. -/
opaque bootCap : Nat → Nat → Option (BitVec 128)
/-- SAVEWC of a virtual device (21 R391), by device. -/
opaque saveWc : Nat → BitVec 22
/-- The digest of the firmware key fused into the package (24 R414). -/
opaque fusedKeyDigest : List Byte
/-- The fused secret of the identity key (24 R415). -/
opaque fusedSecret : List Byte
/-- The attestation key signed at a boot with the given MEAS0 (24 R415). -/
opaque attestKey : List Byte → List Byte
/-- Ed25519: the signature of a message by a secret key, and whether a signature verifies under a public key (24 R414, R415). -/
opaque ed25519Sign : List Byte → List Byte → List Byte
opaque ed25519Verify : List Byte → List Byte → List Byte → Bool
/-- Where in a firmware image its public key and signature lie (24 R414): image to key, signature and signed bytes. -/
opaque firmwareParts : List Byte → List Byte × List Byte × List Byte

end Sys2Proof.Config
end

