-- ==== Sys2Proof/Machine/State.lean ====
section
/-! DEFINITION. The state of one AQ4 package as plain data, the reasons a step can stop, and the state after reset. INVENTORY.md
lists every field with the rule that names it. Collections are tables by number; model ids (waves, groups, grids, copies) are
fresh numbers, never reused. `core` is always die * 64 + core, a context die * 256 + slot, a Landing core die * 8 + number. -/

namespace Sys2Proof.Machine

/-- Bytes by address in canonical form: addresses rising, no entry equal to what an unlisted address reads as. -/
abbrev Mem := List Host.Cell

/-- What an unlisted byte of memory reads as: zero, which training writes (24 R416; log 4). -/
def emptyByte : Byte := 0

/-- The canonical form of a memory. -/
abbrev Memory.wf (m : Mem) : Bool := Tab.wf emptyByte m

/-! ### Waves -/

/-- KIND of a token (01 R29). -/
inductive TokKind
  | join | path | loop
  deriving DecidableEq, Repr

structure Token where
  kind : TokKind
  pc : PC
  mask : Mask
  age : Nat := 0
  deriving DecidableEq, Repr

/-- One latch: a per-lane result of up to 64 bits, or lost (02 R53, R55). -/
abbrev Latch := Option (Lanes DWord)

/-- What a wave must see before it issues again, in order (06 R143, 10 R188, R202, R203, 11 R204). -/
inductive Gate
  | load (id : Nat) | atom (id : Nat) | write (id : Nat) | rel (id : Nat) | acq (s : Scope)
  deriving DecidableEq, Repr

/-- The waits in which a wave holds no strand and restarts at its instruction (02 R41). `freed`: the barrier or join entry left
since the wave waits; a `WAITB` keeps its handle and value as it read them. -/
inductive Wait
  | waitb (freed : Bool) (h : Word) (b : DWord) | gjoin | glaunch | gang (phase : Word) | roleDrain | copySlot | matrixQueue
  deriving DecidableEq, Repr

/-- The condition of a wave (06 R145, R146). -/
inductive Cond
  | running
  | waiting (w : Wait)
  /-- Parked on a fault-buffer entry, or for a free one; with the lane, lanes and address of the record of a declined replay (06 R145, R146). -/
  | parked (lane : Option Nat) (mask : Mask) (addr : Nat)
  /-- Stopped by a delivered cause, to whose record the instance named answers once it is written (06 R146, 21 R378). -/
  | stopped (handler : Option Inst)
  deriving DecidableEq, Repr

/-- One key of a Sorrel entry (09 R172). -/
structure SKey where
  op : Nat
  sub : Nat
  ty : Nat
  md : Nat
  guard : Nat
  tail : Nat
  mods : List (Bool × Bool)
  names : List Nat
  bset : Nat
  /-- The active mask and the prior destination names of a PART key; none for FULL. -/
  part : Option (Mask × List Nat)
  fpc : Nat
  /-- Phase, space code and window identity of a class L key. -/
  phase : Option (Word × Nat × Nat)
  deriving DecidableEq, Repr

structure Wave where
  group : Nat
  core : Nat
  qtr : Nat
  slot : Nat
  wig : Nat
  kprog : Word
  groupW : Word
  gangW : Word
  gridW : Word
  tenant : Word
  /-- The bank set of its group: BSET of `$tenant` as its group was first admitted (01 R24, R25; log 67). -/
  bset : Nat := 0
  pc : PC
  live : Mask
  exm : Mask
  cause : Word
  fpc : Word
  share : Word
  seed : Tab Word
  cycHi : Word
  refHi : Word
  /-- The mapped role window (14 R300). -/
  win : Nat
  /-- Register n of window k at key 256 k + n; an unlisted register is zero. -/
  regs : Tab VReg
  tags : Tab Mask
  /-- Physical names: register key to name; an unlisted one has its own name `nameBase` + key (09 R166). -/
  names : Tab Nat
  nameBase : Nat
  latches : List Latch
  /-- The token stack, top first (01 R29). -/
  tokens : List Token
  ageLimit : Nat
  strict : Bool
  /-- The PC of the previously issued instruction, while a run may go on from it (02 R39). -/
  run : Option PC
  /-- The instruction in progress has waited without a strand, so that the next one starts a new run (02 R39, R41). -/
  waited : Bool := false
  /-- The second member of an independent pair whose first member has been chosen to start: it may start beside the first (02 R40, 08 R156). -/
  apart : Option PC := none
  /-- The wave enters its kernel: nothing of it has issued (02 R37). -/
  entering : Bool := false
  /-- The line word of the line last issued from (02 R35). -/
  line : Word
  /-- A slot whose line is to be fetched again after a parity mismatch (02 R36). -/
  refetched : Option PC
  /-- An instruction that a wait holds, and XCNT of a `STV.M` or `LDV.M` (06 R147). -/
  held : Option Instr
  xcnt : Nat
  hold3 : Bool
  cond : Cond
  gates : List Gate
  /-- Registers whose results are awaited, by key, each with the load or atomic instruction that is to write it (08 R157). -/
  scoreboard : List (Nat × Nat)
  busyUntil : Nat
  /-- First cycle at which `WAIT.CYC` lets the wave issue (04 R116). -/
  waitUntil : Option Nat
  admitted : Nat
  lastStart : Nat
  boosted : Bool
  /-- Waves that must start before a pending yield ends (14 R289). -/
  yieldTo : List Nat
  /-- While evicted: the time to the wave's deadline, negative once it has passed, and then the time to its next request (14 R294). -/
  evicted : Option (Int × Option Nat)
  protect : Nat
  /-- Chosen by an eviction request and not yet gone (14 R292, R293). -/
  leaving : Bool
  /-- The floor (11 R213): every write that arrived before this place of the home order, the writes named, and the wave's own. -/
  base : Nat
  know : List Nat
  /-- Ids of the writes that the wave's reads returned (11 R213, R216), and of the releases that it observed by barrier signals (11 R217, R225). -/
  seen : List Nat
  heard : List Nat := []
  /-- The key of the instruction last looked up and missed, for its entry at writeback (09 R174). -/
  looked : Option SKey
  deriving DecidableEq, Repr

/-! ### Memory traffic of a core -/

/-- Where a byte lives: global physical memory, or a group's scratchpad window. -/
inductive Place
  | glob | scr (group : Nat)
  deriving DecidableEq, Repr

/-- A party of the memory model (11 R210): a wave; the copy engine, the matrix engine or the weight-buffer loader of a core; the fabric and collective
engine of a die; a Landing core; a fabric peer. -/
inductive Party
  | wave (id : Nat) | copy (core : Nat) | matrix (core : Nat) | weights (core : Nat) | fabric (die : Nat) | landing (lc : Nat) | peer
  deriving DecidableEq, Repr

/-- A write event that has arrived at its home (11 R212, R220): its place in the home order, who made it, and each byte and granule tag with what it
left and what stood there before. -/
structure HEv where
  id : Nat
  ix : Nat
  core : Nat
  party : Party
  place : Place
  cells : List (Nat × Byte × Byte)
  tags : List (Nat × Bool × Bool)
  deriving DecidableEq, Repr

/-- A publication set (11 R216): the writes that arrived before a place of the home order, the writes named, and those of some parties before an
id each. -/
structure Pub where
  base : Nat
  ids : List Nat
  owns : List (Party × Nat)
  deriving DecidableEq, Repr

/-- A release that a party has made, with what it publishes (11 R216, R217). -/
structure RelRec where
  id : Nat
  core : Nat
  party : Party
  scope : Scope
  pub : Pub
  deriving DecidableEq, Repr

/-- One write event that has performed at its core and not arrived at its home (11 R214). -/
structure PWrite where
  id : Nat
  party : Party
  place : Place
  bytes : List (Nat × Byte)
  /-- Granule tags written with it; every other touched granule loses its tag (10 R192). -/
  tags : List (Nat × Bool)
  /-- Releases that must complete before it is available outside its party (11 R216). -/
  after : List Nat
  ctx : Nat
  cp : Policy
  /-- Poison granules of which this write completes its instruction's write of every byte (10 R207). -/
  clears : List Nat := []
  deriving DecidableEq, Repr

/-- A release in progress: the writes that it still waits for (11 R216). -/
structure Release where
  id : Nat
  party : Party
  scope : Scope
  need : List Nat
  deriving DecidableEq, Repr

/-- One lane's part of an access: the address that the instruction computed, and its bytes' places in ascending order (10 R187). -/
structure LaneAcc where
  lane : Nat
  va : Nat
  place : Place
  addr : List Nat
  deriving DecidableEq, Repr

/-- A load in flight (10 R190): the lanes with the data that they return if nothing intervenes. -/
structure LoadRec where
  id : Nat
  wave : Nat
  /-- Key of the first destination register, how many there are, the TY, and whether it is a capability load. -/
  dest : Nat
  count : Nat
  ty : Nat
  isCap : Bool
  act : Mask
  acc : List LaneAcc
  data : List (Nat × DWord × DWord × Bool)
  /-- No lane read poison. -/
  clean : Bool
  vol : Bool
  /-- The floor of the wave at issue, and the writes that `data` came from (11 R213). -/
  base : Nat
  know : List Nat
  ids : List Nat
  /-- A release or an acquire of the wave has followed: the load has performed and `data` stands (11 R213, R216). -/
  fixed : Bool := false
  key : Option SKey
  /-- A drop event has touched a line since (09 R178). -/
  dropped : Bool
  deriving DecidableEq, Repr

/-- What an atomic request does at its home (10 R198-R200). -/
inductive AtKind
  | int (o : AtOp) (ty : Nat) | cas (ty : Nat) | flt (o : RedF) (t : AtFt) (md : Nat)
  deriving DecidableEq, Repr

/-- One atomic request of the aggregator: an address and its lanes with their operands (10 R197). -/
structure AtReq where
  id : Nat
  /-- The atomic instruction that it belongs to. -/
  inst : Nat
  wave : Nat
  dest : Option Nat
  kind : AtKind
  place : Place
  addr : Nat
  size : Nat
  lanes : List (Nat × DWord × DWord)
  after : List Nat
  ctx : Nat
  deriving DecidableEq, Repr

/-! ### Barriers, copies, matrix -/

/-- A barrier-table entry (12 R228). -/
structure BEntry where
  live : Bool := false
  group : Nat := 0
  count : Bool := false
  gen : Nat := 1
  off : Nat := 0
  /-- Releases of the signals that it has counted (11 R225). -/
  rels : List Nat := []
  deriving DecidableEq, Repr

/-- A captured capability quad: 128 bits and its tag. -/
structure Cap where
  bits : BitVec 128
  tag : Bool
  deriving DecidableEq, Repr

/-- What a command keeps of the wave that issued it (21 R373, 11 R224). -/
structure Issuer where
  wave : Nat
  group : Nat
  ctx : Nat
  pc : PC
  waveW : Word
  tenant : Word
  gridW : Word
  groupW : Word
  /-- The wave's floor and publication set at issue, and what of that set was still on its way (11 R213, R224). -/
  base : Nat := 0
  know : List Nat := []
  pub : Pub := ⟨0, [], []⟩
  need : List Nat
  strict : Bool
  deriving DecidableEq, Repr

/-- A record of a group's matrix queue (13 R260, R286). -/
structure MRec where
  id : Nat
  inst : Instr
  by_ : Issuer
  cap1 : Cap
  cap2 : Cap
  /-- Descriptor words; for `MBATCH` and `BATON.PASS`, the handle (13 R286). -/
  desc : List Word
  /-- Slots of the k-steps, fixed at issue (13 R269). -/
  chain : List Nat
  batch : Nat
  /-- The copy that a follow-on waits for (12 R250). -/
  foOf : Option Nat
  prog : Nat := 0
  started : Bool := false
  acqDone : Bool := false
  parked : Bool := false
  /-- A follow-on whose copy has been abandoned: it completes without effect at its turn (13 R284). -/
  dead : Bool := false
  /-- Generator state of a stochastic `ACCST` that has written some rows. -/
  seed : Option Word := none
  deriving DecidableEq, Repr

/-- The record of a weight slot, made at issue (13 R274, R286). -/
structure WSlot where
  fmt : Nat
  layout : Nat
  /-- The upper half of a slot pair (13 R273). -/
  upper : Bool
  deriving DecidableEq, Repr

/-- The contents of a weight slot, as the last executed `WBLD` left them (13 R258, R273): stored rows of the 128 columns, scale entries, and
metadata or palette. -/
structure WData where
  fmt : Nat
  layout : Nat
  elems : List Byte
  /-- Bytes of the scale entries; none: a poisoned byte, whose entry is a zero scale (13 R285). -/
  scales : List (Option Byte)
  extra : List Byte
  deriving DecidableEq, Repr

/-- STATE of a copy (12 R244, R255): blocked on FREED, holding its signal, or parked on a fault. -/
inductive CopyState
  | running | blocked | holding | parked
  deriving DecidableEq, Repr

/-- What a command of the copy engine does (12 R245, 25 R427). -/
inductive CopyKind
  | lin | tile | put | get | coll (sub op et g : Nat)
  deriving DecidableEq, Repr

/-- A command in flight in a core's copy engine. -/
structure Copy where
  id : Nat
  kind : CopyKind
  by_ : Issuer
  /-- The word's control fields (12 R255): MOD and TAIL. -/
  word : W
  tcap : Cap
  scap : Cap
  desc : List Word
  seq : Nat
  prog : Nat := 0
  /-- Chunks of a fabric command that have completed, in any order (25 R430). -/
  done : List Nat := []
  state : CopyState := .running
  acqDone : Bool := false
  /-- A fabric command whose bytes have all completed; the completion signal is still to come. -/
  landed : Bool := false
  /-- The follow-on's record id (12 R250). -/
  fo : Option Nat := none
  /-- Poisoned source granules that it has counted as lost (12 R256). -/
  lost : List Nat := []
  deriving DecidableEq, Repr

/-- Who waits on a fault-buffer entry (19 R341). -/
inductive Req
  | wave (id : Nat) | copy (id : Nat) | matrix (group : Nat)
  deriving DecidableEq, Repr

/-- An occupied fault-buffer entry (19 R341): each requester with the virtual address that faulted. -/
structure FbEntry where
  ctx : Nat
  stage : Nat
  frame : Nat
  reqs : List (Req × Nat)
  deriving DecidableEq, Repr

/-- A requester that waits for a free entry, with the fault that it would open (06 R145, 12 R252). -/
structure FbWait where
  req : Req
  ctx : Nat
  stage : Nat
  va : Nat
  iaddr : Nat
  acc : Nat
  tenant : Word
  deriving DecidableEq, Repr

/-- A cached translation: context, stage, frame of the stage's input, the leaf and its page size in frames (19 R340). -/
structure TlbEntry where
  ctx : Nat
  stage : Nat
  frame : Nat
  leaf : DWord
  deriving DecidableEq, Repr

structure CoreSt where
  phase : Word := 0
  barriers : Tab BEntry := []
  fbuf : Tab FbEntry := []
  fbWait : List FbWait := []
  tlb : List TlbEntry := []
  pend : List PWrite := []
  releases : List Release := []
  loads : List LoadRec := []
  atoms : List AtReq := []
  copies : List Copy := []
  /-- Register banks of ended groups that copies still leave: group and banks (09 R167). -/
  held : List (Nat × List Nat) := []
  /-- Time that the matrix array has been idle: region cycles while active, reference cycles while clock-gated (13 R287). -/
  mxIdle : Nat := 0
  /-- The context to which the Landing has given each bank set (08 R163). -/
  setOwner : Tab Nat := []
  lost : Bool := false
  /-- The enables before the last write of CORE_GATE, and the region cycle of that write, through which they hold (08 R164). -/
  gateWas : Option (Nat × Nat) := none
  deriving DecidableEq, Repr

/-! ### Sharing -/

structure DedupWay where
  hash : Nat
  bset : Nat
  name : Nat
  conf : Bool
  deriving DecidableEq, Repr

/-- A compare in progress (09 R169, R170): the new name, the way's name and bucket, and the references that it began with. -/
structure Compare where
  new : Nat
  old : Nat
  bucket : Nat
  refs : List (Nat × Nat)
  deriving DecidableEq, Repr

structure SEntry where
  key : SKey
  results : List Nat
  flags : Word
  validFrom : Nat
  /-- Class L: space and the lines read (09 R177), and the writes that the load returned (11 R217). -/
  lines : Option (Place × List Nat)
  ids : List Nat := []
  deriving DecidableEq, Repr

/-- A result on its way to writeback (09 R168, R174). -/
structure PendWb where
  wave : Nat
  names : List Nat
  key : Option SKey
  flags : Word
  lines : Option (Place × List Nat)
  share : Bool
  deriving DecidableEq, Repr

/-- A quarter. A physical register is its name: its contents and tags are those of any register mapped to it, its reference count is
the number of registers mapped to it, and it is free when there is none (09 R166, R171). -/
structure Quarter where
  nextName : Nat := 0
  /-- Ways of each bucket, most recently used first (09 R169). -/
  dedup : Tab (List DedupWay) := []
  sorrel : Tab (List SEntry) := []
  compares : List Compare := []
  wb : List PendWb := []
  strands : List Nat := []
  issuedAt : Option Nat := none
  /-- Slices whose accounting passed to another group's banks and whose copy is in progress: 4 * name + slice, group left, group receiving
  (09 R167). -/
  sliceCopies : List (Nat × Nat × Nat) := []
  /-- The wave to which a slice of a shared register is accounted, at key 4 * name + slice (09 R167). -/
  owner : Tab Nat := []
  deriving DecidableEq, Repr

/-! ### Groups, gangs, grids, contexts -/

structure Group where
  ctx : Nat
  grid : Option Nat
  core : Nat
  index : Nat
  gang : Option Nat
  rank : Nat
  gsize : Nat
  gangs : Bool
  part : Word
  kprog : Word
  /-- The bank set that it was admitted to (08 R161). -/
  bset : Nat
  regBanks : List Nat
  b0 : Nat
  accBanks : List Nat
  waves : List Nat
  entry : Nat
  nlines : Nat
  /-- A task group: its queue, the id given to lane 0, and its tasks (14 R304). -/
  task : Option (Nat × Word × Nat)
  scr : Mem := []
  scrTags : Tab Bool := []
  scrPoison : Tab Bool := []
  /-- Element (i, j) of tile n at key 16384 n + 128 i + j. -/
  acc : Tab Word := []
  /-- Poisoned granules of the accumulator banks: 512 n + 4 i + k for bytes 32 k to 32 k + 31 of row i of tile n (13 R285). -/
  accPoison : Tab Bool := []
  slots : Tab WSlot := []
  wbuf : Tab WData := []
  queue : List MRec := []
  openBatch : Nat := 0
  /-- Batches with an abandoned record that have not completed (13 R284). -/
  failed : List Nat := []
  baton : Option (Word × Nat) := none
  movedAt : Option Nat := none
  /-- Held at issue for compaction (08 R162): the new first bank and the cycle at which the move ends. -/
  moving : Option (Nat × Nat) := none
  /-- Held at issue because it is to be saved (14 R297). -/
  saving : Bool := false
  /-- Its place among the admissions (21 R391, 20 R358). -/
  admitted : Nat := 0
  deriving DecidableEq, Repr

/-- An entry of a cluster's gang table (18 R319). -/
structure Gang where
  grid : Nat
  elem : Nat
  groups : List Nat
  phnum : Word := 0
  /-- Wave ids that have arrived in this phase, and that have ended. -/
  arrived : List Nat := []
  ended : List Nat := []
  nwaves : Nat
  /-- Releases of the arrivals, each with its phase (11 R216, 18 R321). -/
  rels : List (Word × Nat) := []
  deriving DecidableEq, Repr

inductive GridStatus
  | queued | running | done
  deriving DecidableEq, Repr

structure Grid where
  ctx : Nat
  queue : Nat
  gridW : Word
  /-- KIND of its command: a KIND 2 entry stands for a checkpoint launch and has no elements (21 R394). -/
  kind : Nat
  part : Word
  ferry : DWord
  gseed : Word
  /-- Kernel header fields (21 R382). -/
  kprog : Word
  entry : Nat
  nlines : Nat
  /-- The argument block with the capabilities rebuilt, and its tagged granules, until a slot is free (21 R383). -/
  args : List Byte
  argTags : List Nat
  argSlot : Option Nat
  c0 : Cap
  /-- The next position of the curve, and the element that waits (18 R313, R315). -/
  pos : Nat := 0
  lastCluster : Option Nat := none
  waitSince : Nat := 0
  /-- The window reserved for it, by first core and size (18 R316). -/
  reserved : Option (Nat × Nat) := none
  groups : List Nat := []
  /-- Elements saved or lost; worst status so far (21 R385). -/
  status : GridStatus := .queued
  worst : Nat := 0
  ended : Bool := false
  lossAt : Word := 0
  /-- Completion buffer and used-ring index of a queued command; join ticket of a child (21 R381, 14 R306). -/
  compl : Option (Nat × Nat) := none
  ticket : Option Nat := none
  /-- A restored checkpoint's command that this grid answers to. -/
  parent : Option Nat := none
  order : Nat := 0
  deriving DecidableEq, Repr

/-- What the Ferryman places: a grid's next element, a saved group with those saved with it, or the collected tasks of a queue (18 R315, R318, 14
R304). -/
inductive Owner
  | grid (id : Nat) | image (id : Nat) | tasks (ctx q : Nat)
  deriving DecidableEq, Repr

/-- A place, by its first core and its size, in which compaction, evictions or moves make room (08 R162, 14 R293, 18 R315, R317). -/
structure Claim where
  owner : Owner
  core : Nat
  size : Nat
  /-- Groups that are held to be moved out of the place (18 R317). -/
  moves : List Nat := []
  deriving DecidableEq, Repr

/-- A join-table entry (14 R306). -/
structure Join where
  gen : Nat := 1
  valid : Bool := false
  done : Bool := false
  status : Nat := 0
  /-- The place of the home order at which the child's completion release was complete (11 R227). -/
  base : Nat := 0
  deriving DecidableEq, Repr

/-- A record placed by `GLAUNCH` and not yet dispatched (14 R305). -/
structure PendRecord where
  ctx : Nat
  queue : Nat
  bytes : List Byte
  ticket : Option Nat
  order : Nat
  deriving DecidableEq, Repr

structure Ctx where
  vdev : Nat
  /-- Physical address of the task area of 16 descriptors (14 R302). -/
  taskArea : Nat
  troot : Cap := ⟨0, false⟩
  joins : Tab Join := []
  nextGrid : Nat := 0
  /-- Argument slots in use (21 R383). -/
  argUsed : List Nat := []
  /-- What `BREAD` reads: the values that the last interval end left; and the interval length in force (20 R352, R348). -/
  bread : List Word := []
  ilen : Nat := 0x400
  /-- Counts kept of merge-group members with the refclk at which each last published, and when this member last did (25 R436). -/
  kept : Tab (Nat × Nat) := []
  pubAt : Nat := 0
  mergedMax : Nat := 0
  /-- Grants computed by the Quay and not yet applied; wave-slot and core limits applied (20 R358). -/
  granted : Bool := false
  order : Nat := 0
  /-- When each waiting task was enqueued, at key 16 * ring position + queue, in the home die's refclk (14 R304). -/
  taskTimes : Tab Nat := []
  /-- Wave and group ids saved by its checkpoint, and dispatch stopped by one. -/
  stopped : Bool := false
  deriving DecidableEq, Repr

/-- One queue of a virtual device: ring places (21 R380) and the entries seen. -/
structure VQueue where
  size : Nat := 1
  desc : Nat := 0
  avail : Nat := 0
  used : Nat := 0
  seen : Nat := 0
  usedIdx : Nat := 0
  /-- Chain heads read and not yet dispatched, each with its place in the context's order of commands (21 R384, R389). -/
  ready : List (Nat × Nat) := []
  /-- Period in which a dropped notify was last reported (21 R376). -/
  dropPeriod : Option Nat := none
  deriving DecidableEq, Repr

structure VDev where
  ctx : Nat
  wpart : Nat
  rpart : Nat
  home : Nat
  queues : Tab VQueue := []
  /-- Landing core that processes its commands (21 R363). -/
  lcore : Nat := 2
  /-- Elements admitted in the present round (21 R384), and refclk for which it has held cores while another waits (R391). -/
  round : Nat := 0
  heldFor : Nat := 0
  deriving DecidableEq, Repr

/-! ### Dies, Landing, package -/

/-- A line in the last-level cache (19 R325-R329). -/
structure LlcLine where
  line : Nat
  way : Nat
  slot : Nat
  dirty : Bool
  keep : Bool
  deriving DecidableEq, Repr

structure JEntry where
  vdev : Nat
  queue : Nat
  seq : DWord
  ack : Bool
  deriving DecidableEq, Repr

/-- A shoot-down in progress (19 R343): what it covers, and of each core that has dropped it the first model id of an access issued since. -/
structure Shoot where
  ctx : Nat
  stage : Nat
  first : Nat
  pages : Nat
  dropped : Tab Nat := []
  deriving DecidableEq, Repr

structure Die where
  refclk : Nat := 0
  up : Bool := false
  fenced : Bool := false
  /-- Lines held, most recently used first. -/
  llc : List LlcLine := []
  /-- Ways that drain, and for which slot. -/
  drains : List (Nat × Nat) := []
  /-- The reference cycle of the last Quay evaluation that ran on the die (20 R355). -/
  quayAt : Option Nat := none
  shoot : Option Shoot := none
  pool : List PendRecord := []
  overflow : List PendRecord := []
  /-- The place in the overflow ring of its head (21 R390). -/
  ringHead : Nat := 0
  journal : List JEntry := []
  /-- Messages held back while the journal is full (21 R387). -/
  heldMsgs : List (List Byte) := []
  /-- The smallest capacity among the DDR-5 channels trained so far, 0 before the first, and the die's capacity once all have settled (24 R406). -/
  ddrMin : Nat := 0
  ddrCap : Nat := 0
  /-- Of each clock region: a lasting droop is in force; periods since the last stretched one, up to 8 (24 R411). -/
  droop : Tab Bool := []
  stretch : Tab Nat := []
  deriving DecidableEq, Repr

structure LCore where
  x : Tab DWord := []
  pc : DWord := 0
  dc : Tab Cap := []
  level : Nat := 0
  wpart : Nat := 0
  rpart : Nat := 0
  /-- Exception pc, code and value of each level (21 R366; log 3). -/
  epc : Tab DWord := []
  ecause : Tab Nat := []
  etval : Tab DWord := []
  /-- Levels whose handler runs (21 R366). -/
  handling : List Nat := []
  fenced : Bool := false
  heart : Word := 0
  /-- The release of a `FENCE` that must complete before the next instruction (23 R404). -/
  gate : Option Nat := none
  /-- Its floor, and the writes that its reads returned (11 R213, R216). -/
  base : Nat := 0
  know : List Nat := []
  seen : List Nat := []
  deriving DecidableEq, Repr

/-- A record on its way to a fault queue (21 R370, R371). -/
structure PendRec where
  body : BitVec 512
  /-- Record class, or the stage of a translation record. -/
  cls : Nat
  stage : Option Nat
  tenant : Word
  /-- A report that no context's access found goes to root (21 R375). -/
  toRoot : Bool
  wave : Option Nat
  waited : Bool
  deriving DecidableEq, Repr

/-- What the package sends to its peers and to the outside world (25 R430, R436, 21 R386, 24 R415). -/
inductive OutMsg
  | put (peer : Nat) (key : Word) (off : Nat) (data : List Byte)
  | getReq (peer : Nat) (key : Word) (off len : Nat)
  | readReply (port peer : Nat) (data : List Byte)
  | writeReply (port peer : Nat) (ok : Bool)
  | beat (peer mgrp midx : Nat) (cum : DWord)
  | contrib (peer slot die g member : Nat) (data : List Byte)
  | quote (nonce : List Byte) (sig : List Byte)
  | interrupt (i : Inst)
  deriving DecidableEq, Repr

/-- A live instance of a collective at a member (25 R433): kind, op, et and COUNT once known; contributions by rank; the member's command as core and
copy id, once issued; and the result with the loss mask, once computed. -/
structure Coll where
  ctx : Nat
  g : Nat
  inst : Nat
  shape : Option (Nat × Nat × Nat × Nat) := none
  contribs : Tab (List Byte) := []
  bad : Bool := false
  timedOut : Bool := false
  firstAt : Option Nat := none
  cmd : Option (Nat × Nat) := none
  result : Option (List Byte × Nat) := none
  deriving DecidableEq, Repr

/-- A saved group: what R297 writes. -/
structure GImage where
  group : Group
  waves : List (Nat × Wave)
  entries : List (Nat × BEntry)
  copies : List Copy
  gang : Option Gang
  deriving DecidableEq, Repr

/-- The next thing that the package does: an event of spec/opcode_table.json, an instruction of a Landing core, or a tick of a
clock (log 2). -/
inductive Turn
  | event (i : Instr)
  | landing (lc : Nat)
  | regionCycle (die region : Nat)
  | refCycle (die : Nat)
  deriving DecidableEq, Repr

structure State where
  agenda : List Turn
  starts : List Nat
  cur : Option Nat
  curL : Nat
  draw : Nat
  nextId : Nat
  lregs : List (LReg × DWord)
  mem : Mem
  mtags : Tab Bool
  /-- Poisoned granules of memory, and of the lines in the last-level cache (19 R344). -/
  mpoison : Tab Bool
  lpoison : Tab Bool
  /-- The writes that have arrived at their homes, in home order, and the next place of that order (11 R212, R220). -/
  hist : List HEv
  homeIx : Nat
  /-- The releases made, and the writes that the reads of each engine returned (11 R216, R217, R224). -/
  rels : List RelRec
  engSeen : List (Party × List Nat)
  waves : Tab Wave
  groups : Tab Group
  grids : Tab Grid
  gangs : Tab Gang
  cores : Tab CoreSt
  quarters : Tab Quarter
  ctxs : Tab Ctx
  vdevs : Tab VDev
  dies : Tab Die
  lcores : Tab LCore
  recs : List PendRec
  /-- Beats on their way to their slots: wave, context, count (20 R347). -/
  beats : List (Nat × Nat × Nat)
  colls : List Coll
  collNext : Tab Nat
  images : Tab GImage
  claims : List Claim
  /-- The save areas: the image of each evicted wave (14 R292, R296). -/
  saveArea : Tab (List Byte)
  outbox : List OutMsg
  /-- `$cycle` of each clock region at key die * 16 + region (01 R20). -/
  cycles : Tab Nat
  /-- Training attempts that failed, by item (24 R416), and consecutive replays and retrain marks of ports (25 R439). -/
  attempts : List (TrainItem × Nat)
  replays : Tab Nat
  powerWin : Nat
  hbeatAge : Nat
  drainLeft : Nat
  booted : Bool
  deriving DecidableEq, Repr

/-! ### Outcomes other than a next state -/

inductive Fault
  /-- Raised by a wave instruction when no wave is issuing. Safe: no such step exists in the machine. -/
  | noWave
  /-- Raised by a machine event whose subject is not in the condition that the event's rule requires. Safe: the event does not
  happen there. -/
  | notEnabled
  /-- Raised by a Landing instruction or access when its core is fenced (21 R398). Safe: the core runs no instruction. -/
  | coreFenced
  deriving DecidableEq, Repr

inductive Refusal
  /-- An instruction that has no meaning in the model yet. Safe. -/
  | notModelled (mnemonic : String)
  /-- A Landing word of the RV64 base, to which the spec gives no meaning (21 R363). Safe. -/
  | rv64Base
  deriving DecidableEq, Repr

/-! ### Reset -/

/-- The package right after reset: nothing resident, memory unlisted, every Landing register at its reset value (an empty map),
Landing core 0 of die 0 next (log 2, 3). -/
def State.reset : State :=
  { agenda := [], starts := [], cur := none, curL := 0, draw := 0, nextId := 1, lregs := [], mem := [], mtags := [], mpoison := [], lpoison := [],
    hist := [], homeIx := 0, rels := [], engSeen := [],
    waves := [], groups := [], grids := [], gangs := [], cores := [], quarters := [], ctxs := [], vdevs := [],
    dies := [], lcores := [], recs := [], beats := [], colls := [], collNext := [], images := [], claims := [], saveArea := [], outbox := [], cycles := [], attempts := [],
    replays := [], powerWin := 0, hbeatAge := 0, drainLeft := 0, booted := false }

end Sys2Proof.Machine
end

