-- ==== Sys2Proof/Machine/Regs.lean ====
section
/-! DEFINITION. The Landing's registers: reset value, writable bits, who may write (00 R3 and each register's own map), and the one
read and the one write of a register. A register that the map does not list holds its reset value. -/

namespace Sys2Proof

/-- A mask of bits [hi:lo]. -/
def bitsMask (hi lo : Nat) : Nat := (2 ^ (hi + 1 - lo) - 1) <<< lo

/-- Replaces bits [hi:lo]. -/
def putBits (x : DWord) (hi lo v : Nat) : DWord :=
  (x &&& ~~~(BitVec.ofNat 64 (bitsMask hi lo))) ||| BitVec.ofNat 64 ((v % 2 ^ (hi + 1 - lo)) <<< lo)

/-- Reset values that are not zero; every other register resets to zero (INVENTORY.md, State). -/
def LReg.reset : LReg → Nat
  | .mxpwr _ => 0x0010_0040
  | .mxwake _ => 0x0190_0008
  | .mxstat _ => 2
  | .frrd .. => 1
  | .ferryctl _ => 0x100
  | .memacc _ => 0xF
  | .clkcap .. => 0xF
  | .clkdef _ => 0xF
  | .qcap _ => 0x10 <<< 38
  | .draindl => 0x1_0000
  | .hbper => 0x1_0000
  | .supst => 1 <<< 3
  | .pkgpwr => 0x0F00_0BB8
  | .pkgst0 => 1 <<< 40
  | .vdsched _ => 1 ||| (1000 <<< 8)
  | .collgrp .. => 0x100 <<< 21
  | .mgcfg _ => 1 <<< 20
  | .ctxw _ 1 => 256 <<< 16
  | .ctxw _ 2 => 1 ||| (0x64 <<< 4) ||| (0x64 <<< 18)
  | .ctxw _ 6 => 1
  | .ctxw _ 16 => 0x400 <<< 32
  | .ctxw _ 18 => (0xFFFF <<< 16) ||| (2 <<< 32) ||| (1 <<< 36)
  | _ => 0

/-- The bits that a plain write stores; the others keep their value (00 R3). -/
def LReg.rw : LReg → Nat
  | .bsmask .. => bitsMask 63 0
  | .bsctl .. => bitsMask 7 0
  | .barlim .. => bitsMask 8 0
  | .coreGate _ => bitsMask 7 0
  | .mxpwr _ | .coreCtr .. | .quarterCtr .. | .dieCtr .. | .portCtr .. => bitsMask 31 0
  | .frra .. => bitsMask 51 7
  | .frrb .. => bitsMask 51 12
  | .frrc .. => bitsMask 42 0 ||| bitsMask 63 63
  | .frrd .. => bitsMask 31 0
  | .llcway .. => bitsMask 15 0
  | .shoota _ => bitsMask 56 12
  | .shootb _ => bitsMask 25 0
  | .wsel _ => bitsMask 45 0
  | .wdata _ => bitsMask 63 0
  | .ferryctl _ => bitsMask 16 0
  | .memacc _ => bitsMask 3 0
  | .clkdef _ => bitsMask 3 0
  | .fbound _ => bitsMask 13 0
  | .qcap _ => bitsMask 42 0
  | .hpst => bitsMask 15 8
  | .draindl | .hbeat | .hbper => bitsMask 31 0
  | .lfence => bitsMask 4 0
  | .pkgpwr => bitsMask 11 0
  | .ovflctl _ => bitsMask 57 7
  | .ovflst _ => bitsMask 63 32
  | .vdsched _ => bitsMask 31 0
  | .dlctl .. => bitsMask 0 0 ||| bitsMask 63 32
  | .nqctl .. => bitsMask 1 0 ||| bitsMask 47 16
  | .nkey .. => bitsMask 63 0
  | .fqbase _ => bitsMask 51 6 ||| bitsMask 63 63
  | .fqctl _ => bitsMask 5 0
  | .fqhead _ | .fqfull _ => bitsMask 31 0
  | .dprev _ => bitsMask 1 0
  | .dfdeleg _ => bitsMask 5 0
  | .drights _ => bitsMask 10 0
  | .dvec _ => bitsMask 63 2
  | .xwin _ _ 0 => bitsMask 59 0
  | .xwin _ _ _ => bitsMask 51 0
  | .rwin _ _ 0 => bitsMask 14 0 ||| bitsMask 63 16
  | .rwin _ _ _ => bitsMask 23 0
  | .collgrp .. => bitsMask 36 0
  | .mlist .. | .mglist .. => bitsMask 23 0
  | .mgcfg _ => bitsMask 27 0
  | .ctxw _ 1 => bitsMask 2 0 ||| bitsMask 31 16
  | .ctxw _ 2 => bitsMask 1 0 ||| bitsMask 31 4
  | .ctxw _ 4 | .ctxw _ 5 => bitsMask 0 0 ||| bitsMask 51 12
  | .ctxw _ 6 => bitsMask 51 12
  | .ctxw _ 8 | .ctxw _ 9 => bitsMask 63 0
  | .ctxw _ 11 => bitsMask 56 0
  | .ctxw _ 12 => bitsMask 15 0
  | .ctxw _ 16 => bitsMask 23 0 ||| bitsMask 55 32
  | .ctxw _ 17 => bitsMask 62 0
  | .ctxw _ 18 => bitsMask 33 0 ||| bitsMask 61 36
  | .ctxw _ 19 => bitsMask 31 0
  | .ctxw _ 21 => bitsMask 15 0
  | .ctxw _ 24 | .ctxw _ 25 | .ctxw _ 26 | .ctxw _ 27 | .ctxw _ 28 => bitsMask 33 0
  | .peertab .. => bitsMask 31 0
  | .ueep _ _ 2 => bitsMask 36 0
  | .ueep .. => bitsMask 63 0
  | .ckey .. => bitsMask 63 0
  | _ => 0

/-- Bits that a write of 1 clears (00 R3). -/
def LReg.w1c : LReg → Nat
  | .shootb _ => bitsMask 61 61
  | .hpst => bitsMask 4 3
  | _ => 0

/-- Write-only bits, which read as zero whatever is stored (00 R3): FRESP (19 R342), GO of SHOOTB (R343), the command fields of WCMD (21 R378), NKEY (R386),
GO of HPST (R397) and of LFENCE (R399). -/
def LReg.wo : LReg → Nat
  | .nkey .. => bitsMask 63 0
  | .fresp _ => bitsMask 13 0
  | .shootb _ => bitsMask 63 63
  | .wcmd _ => bitsMask 16 0 ||| bitsMask 63 32
  | .hpst => bitsMask 31 31
  | .lfence => bitsMask 5 5
  | _ => 0

def Inst.level : Inst → Nat | .root => 0 | .op => 1 | .res _ => 2 | .ten .. => 3

/-- WPART and RPART of a `$tenant` value (01 R24). -/
def wpartOf (tenant : Word) : Nat := fld tenant 13 10
def rpartOf (tenant : Word) : Nat := fld tenant 19 14

/-- The level-`lv` holder on the path of a `$tenant` value. -/
def instOf (tenant : Word) : Nat → Inst
  | 0 => .root | 1 => .op | 2 => .res (wpartOf tenant) | _ => .ten (wpartOf tenant) (rpartOf tenant)

def Inst.parent : Inst → Inst
  | .root => .root | .op => .root | .res _ => .op | .ten w _ => .res w

/-- Whether an owner's path holds a tenant. -/
def Inst.covers (i : Inst) (tenant : Word) : Bool := decide (instOf tenant i.level = i)

end Sys2Proof

namespace Sys2Proof.Machine

def State.findReg (l : List (LReg × DWord)) (r : LReg) : Option DWord :=
  match l with
  | [] => none
  | (q, v) :: t => if q = r then some v else State.findReg t r

/-- The stored value of a register. -/
def State.reg (s : State) (r : LReg) : DWord := (State.findReg s.lregs r).getD (BitVec.ofNat 64 r.reset)

/-- A software read: the stored value with the write-only bits zero (00 R3). -/
def State.readReg (s : State) (r : LReg) : DWord := s.reg r &&& ~~~(BitVec.ofNat 64 r.wo)

def State.putReg (l : List (LReg × DWord)) (r : LReg) (v : DWord) : List (LReg × DWord) :=
  match l with
  | [] => [(r, v)]
  | (q, w) :: t => if q = r then (r, v) :: t else (q, w) :: State.putReg t r v

def State.setReg (s : State) (r : LReg) (v : DWord) : State := { s with lregs := State.putReg s.lregs r v }

/-- Bits [hi:lo] of a register as a number. -/
def State.regF (s : State) (r : LReg) (hi lo : Nat) : Nat := fld (s.reg r) hi lo
def State.setRegF (s : State) (r : LReg) (hi lo v : Nat) : State := s.setReg r (putBits (s.reg r) hi lo v)

/-- A software write: writable bits are stored, W1C bits clear, the rest keep their value (00 R3). -/
def State.writeReg (s : State) (r : LReg) (v : DWord) : State :=
  let old := s.reg r
  let m := BitVec.ofNat 64 r.rw
  let c := BitVec.ofNat 64 r.w1c
  s.setReg r (((old &&& ~~~m) ||| (v &&& m)) &&& ~~~(c &&& v))

/-! ### Counters (08 R165): modulo 2^32 -/

def State.bump (s : State) (r : LReg) (n : Nat := 1) : State := s.setReg r (BitVec.ofNat 64 (((s.reg r).toNat + n) % 2 ^ 32))
def State.bumpCore (s : State) (core : Nat) (c : CoreCtr) (n : Nat := 1) : State := s.bump (.coreCtr core c) n
def State.bumpQ (s : State) (core q : Nat) (c : QCtr) (n : Nat := 1) : State := s.bump (.quarterCtr core q c) n
def State.bumpDie (s : State) (die : Nat) (c : DieCtr) (n : Nat := 1) : State := s.bump (.dieCtr die c) n
def State.bumpPort (s : State) (port : Nat) (c : PortCtr) (n : Nat := 1) : State := s.bump (.portCtr port c) n

/-! ### Levels, paths and rights (21 R367-R369) -/

/-- Whether a holder has a right: root has every one, another has what its parent's DRIGHTS grants (R369). -/
def State.hasRight (s : State) (i : Inst) (bit : Nat) : Bool :=
  match i with
  | .root => true
  | i => (s.reg (.drights i.parent)).getLsbD bit

/-- The `$tenant` value of a context, without BSET (21 R379). -/
def State.tenantOf (s : State) (ctx : Nat) : Word := (s.reg (.ctxw ctx 0)).setWidth 32

/-- The die's hard partition (21 R395). -/
def State.hpOf (s : State) (die : Nat) : Nat := s.regF .hpmap (2 * die + 1) (2 * die)

/-- Whether a holder may write a register (21 R368 and each register's rule). Registers that the spec calls the Landing's are root's;
log 12. -/
def State.mayWrite (s : State) (i : Inst) (r : LReg) : Bool :=
  let ctx := fun (c bit : Nat) => s.hasRight i bit && i.covers (s.tenantOf c)
  let vdev := fun (v : Nat) => match Tab.find s.vdevs v with | some d => i.covers (s.tenantOf d.ctx) | none => decide (i = .root)
  match r with
  | .llcway .. => s.hasRight i 2
  | .qcap _ => decide (i.level ≤ 1) && s.hasRight i 3
  | .frra .. | .frrb .. | .frrc .. | .frrd .. => decide (i.level ≤ 1) && s.hasRight i 4
  | .clkdef _ => decide (i.level ≤ 1)
  | .vdsched v => vdev v && s.hasRight i 9
  | .dlctl v _ => vdev v && s.hasRight i 9
  | .nkey v _ _ => vdev v && s.hasRight i 6
  | .nqctl v _ => vdev v
  | .ckey .. => decide (i.level ≤ 1) && s.hasRight i 7
  | .xwin c _ _ | .rwin c _ _ | .collgrp c _ | .mlist c _ _ => ctx c 1
  | .mglist c _ | .mgcfg c => ctx c 8
  | .ctxw c 4 => decide (i.level = 3) && i.covers (s.tenantOf c)
  | .ctxw c 5 => decide (i.level = 2) && i.covers (s.tenantOf c)
  | .ctxw c 6 => decide (i.level = 1) && i.covers (s.tenantOf c)
  | .ctxw c 2 => ctx c 9
  | .ctxw c w => if 16 ≤ w then ctx c 8 else ctx c 1
  | .fqhead j | .fqfull j | .dprev j | .dfdeleg j | .drights j | .dvec j => decide (i = j)
  | .shoota d =>
    let b := s.reg (.shootb d)
    decide (fld b 17 16 ≠ 0) && decide (i = instOf (s.tenantOf (d * 256 + fld b 25 18)) (4 - fld b 17 16))
  | .shootb _ | .fresp _ | .wsel _ | .wcmd _ | .wdata _ => true
  | .hpmap | .pkgst0 | .pkgst1 | .supst | .meas .. => false
  | _ => decide (i = .root)

end Sys2Proof.Machine
end

