-- ==== Sys2Proof/Machine/Ops.lean ====
section
/-! DEFINITION. The named operations over the state that every family shares: reaching waves, cores, groups and contexts; the flow
of control of a wave; stopping a wave with a cause (06 R140-R146) and ending the stop (06 R148, R149). -/

namespace Sys2Proof.Machine

abbrev Out := Host.Outcome State Fault Refusal

/-- An event's guard and effect: where the guard fails the event does not happen. -/
def when (g : Bool) (t : State) : Out := if g then .next t else .fault .notEnabled

/-! ### Reaching the parts of the state -/

def State.core (s : State) (c : Nat) : CoreSt := Tab.get {} s.cores c
def State.setCore (s : State) (c : Nat) (x : CoreSt) : State := { s with cores := Tab.set s.cores c x }
def State.updCore (s : State) (c : Nat) (f : CoreSt → CoreSt) : State := s.setCore c (f (s.core c))
def State.quarter (s : State) (k : Nat) : Quarter := Tab.get {} s.quarters k
def State.setQuarter (s : State) (k : Nat) (x : Quarter) : State := { s with quarters := Tab.set s.quarters k x }
def State.updQuarter (s : State) (k : Nat) (f : Quarter → Quarter) : State := s.setQuarter k (f (s.quarter k))
def State.die (s : State) (d : Nat) : Die := Tab.get {} s.dies d
def State.updDie (s : State) (d : Nat) (f : Die → Die) : State := { s with dies := Tab.set s.dies d (f (s.die d)) }
def State.lcore (s : State) (k : Nat) : LCore := Tab.get {} s.lcores k
def State.updLcore (s : State) (k : Nat) (f : LCore → LCore) : State := { s with lcores := Tab.set s.lcores k (f (s.lcore k)) }
def State.setWave (s : State) (id : Nat) (w : Wave) : State := { s with waves := Tab.set s.waves id w }
def State.updWave (s : State) (id : Nat) (f : Wave → Wave) : State := { s with waves := Tab.upd s.waves id f }
def State.setGroup (s : State) (id : Nat) (g : Group) : State := { s with groups := Tab.set s.groups id g }
def State.updGroup (s : State) (id : Nat) (f : Group → Group) : State := { s with groups := Tab.upd s.groups id f }
def State.updGrid (s : State) (id : Nat) (f : Grid → Grid) : State := { s with grids := Tab.upd s.grids id f }
def State.updCtx (s : State) (id : Nat) (f : Ctx → Ctx) : State := { s with ctxs := Tab.upd s.ctxs id f }
def State.updGang (s : State) (id : Nat) (f : Gang → Gang) : State := { s with gangs := Tab.upd s.gangs id f }

/-- A fresh model id. -/
def State.fresh (s : State) : State := { s with nextId := s.nextId + 1 }
/-- Takes one draw of the free values. -/
def State.drawn (s : State) : State := { s with draw := s.draw + 1 }

def dieOf (core : Nat) : Nat := core / 64
/-- The core whose state holds a party's writes; Landing cores follow the 256 cores. -/
def landingCore (lc : Nat) : Nat := 256 + lc

/-- The die of a party's core, or of a Landing core. -/
def partyDie (core : Nat) : Nat := if core < 256 then dieOf core else (core - 256) / 8
/-- Cluster of a core, over the package (18 R308). -/
def clusterOf (core : Nat) : Nat := core / 8
/-- The clock region of a core (24 R409). -/
def regionOf (core : Nat) : Nat := dieOf core * 16 + core % 64 / 8
/-- `$cycle` and `$refclk` (01 R20). -/
def State.cycle (s : State) (core : Nat) : Nat := Tab.get 0 s.cycles (regionOf core)
def State.ref (s : State) (die : Nat) : Nat := (s.die die).refclk

/-- The quarter of a wave. -/
def Wave.quarterKey (w : Wave) : Nat := w.core * 4 + w.qtr
/-- Fields of the partition word (08 R159). -/
def regbOf (part : Word) : Nat := fld part 6 0
def scrbOf (part : Word) : Nat := fld part 13 7
def accbOf (part : Word) : Nat := fld part 20 14
def wavesOf (part : Word) : Nat := fld part 25 21 + 1
def rolesOf (part : Word) : Nat := fld part 27 26 + 1
/-- Declared registers, role windows and sharing of `$kprog` (01 R24). -/
def Wave.declared (w : Wave) : Nat := (fld w.kprog 4 0 + 1) * 8
def Wave.windows (w : Wave) : Nat := fld w.kprog 6 5 + 1
def Wave.shares (w : Wave) : Bool := w.kprog.getLsbD 12
def Wave.isTask (w : Wave) : Bool := w.kprog.getLsbD 13
/-- Bytes of a group's scratchpad window (08 R162). -/
def Group.window (g : Group) : Nat := scrbOf g.part * 65536

/-- The context of a wave. -/
def State.ctxOf (s : State) (w : Wave) : Nat := match Tab.find s.groups w.group with | some g => g.ctx | none => 0

/-- `$wave` (01 R24). -/
def Wave.waveW (w : Wave) : Word := BitVec.ofNat 32 (w.wig + w.qtr * 32 + w.slot * 128 + w.core % 64 * 4096 + dieOf w.core * 2 ^ 18)

/-- Runs a meaning on the wave that is issuing. -/
def withWave (s : State) (k : Nat → Wave → Out) : Out :=
  match s.cur with
  | none => .fault .noWave
  | some id =>
    match Tab.find s.waves id with
    | none => .fault .noWave
    | some w => k id w

/-! ### Lanes -/

/-- A vector of 32 lanes from a function of the lane number. -/
def lanes {α : Type} (f : Nat → α) : Lanes α := Vector.ofFn fun i => f i.val

def lane {α : Type} (v : Lanes α) (l : Nat) (h : l < 32 := by omega) : α := v[l]

/-- The value of a lane, or a default beyond the last. -/
def Lanes.at' {α : Type} (d : α) (v : Lanes α) (l : Nat) : α := (v[l]?).getD d

/-- The mask of the lanes at which a predicate holds. -/
def maskOf (p : Nat → Bool) : Mask := BitVec.ofBoolListLE ((List.range 32).map p) |>.setWidth 32

/-- The lanes of a mask, ascending. -/
def laneList (m : Mask) : List Nat := (List.range 32).filter fun l => m.getLsbD l

/-- The lowest lane of a mask. -/
def lowest (m : Mask) : Option Nat := (laneList m).head?

def zeroReg : VReg := Vector.replicate 32 0

/-- Key of register `n` in the mapped window. -/
def Wave.key (w : Wave) (n : Nat) : Nat := w.win * 256 + n
def Wave.reg (w : Wave) (n : Nat) : VReg := Tab.get zeroReg w.regs (w.key n)
def Wave.regLane (w : Wave) (n l : Nat) : Word := Lanes.at' 0 (w.reg n) l
/-- A pair as one 64-bit value per lane (02 R46). -/
def Wave.pairLane (w : Wave) (n l : Nat) : DWord := ((w.regLane (n + 1) l) ++ (w.regLane n l) : BitVec 64)
/-- Quad k's 128 bits and its tag in a lane (01 R15, 09 R166). -/
def Wave.quadLane (w : Wave) (r l : Nat) : Cap :=
  { bits := (w.regLane (r + 3) l ++ w.regLane (r + 2) l ++ w.regLane (r + 1) l ++ w.regLane r l : BitVec 128),
    tag := (List.range 4).all fun k => (Tab.get 0 w.tags (w.key (r + k))).getLsbD l }

/-- The active lanes of an instruction (01 R10, 02 R47). -/
def Wave.active (w : Wave) (g : Guard) : Mask :=
  match g with
  | .always => w.exm
  | .on inv n => w.exm &&& maskOf fun l => (w.regLane n.toNat l != 0) != inv

/-- A register awaits a result; and whether a load or atomic is the one to write it (08 R157). -/
def Wave.awaits (w : Wave) (k : Nat) : Bool := w.scoreboard.any fun e => e.1 == k
def Wave.owes (w : Wave) (k id : Nat) : Bool := w.scoreboard.contains (k, id)
/-- Registers that a load or an atomic is to write; a later one that is to write the same register takes its place. -/
def Wave.await (w : Wave) (keys : List Nat) (id : Nat) : Wave :=
  { w with scoreboard := (w.scoreboard.filter fun e => !keys.contains e.1) ++ keys.map fun k => (k, id) }
/-- Registers whose result has come. -/
def Wave.came (w : Wave) (keys : List Nat) (id : Nat) : Wave := { w with scoreboard := w.scoreboard.filter fun e => !(keys.contains e.1 && e.2 == id) }

/-- Live slices of a mask, for occupancy (01 R8). -/
def slicesOf (m : Mask) : Nat := ((List.range 4).filter fun k => fld m (8 * k + 7) (8 * k) != 0).length

/-! ### Flow of control -/

/-- Sequential flow (02 R34). -/
def nextPc (pc : PC) : PC := if fld pc 2 0 < 4 then pc + 1 else pc + 60

/-- The line address and the slot index of a PC (02 R34). -/
def lineOf (pc : PC) : PC := pc &&& ~~~(63 : PC)
def slotOf (pc : PC) : Nat := fld pc 2 0

/-- KIND of a line word (02 R35). -/
def kindOf (line : Word) : Nat := fld line 15 14

/-- AGE after one more instruction of the running path (01 R30). -/
def ageTokens (ts : List Token) : List Token :=
  ts.map fun t => if t.kind = .path then { t with age := min 65535 (t.age + 1) } else t

/-- The deepest PATH entry that has aged, as its distance from the top (01 R30). -/
def agedIndex (ts : List Token) (limit : Nat) : Option Nat :=
  ((ts.zipIdx.filter fun (t, _) => decide (t.kind = .path) && decide (max 16 limit ≤ t.age)).map Prod.snd).getLast?

/-- The path switch before a run (01 R30). -/
def Wave.switchPath (w : Wave) : Wave :=
  match agedIndex w.tokens w.ageLimit with
  | none => w
  | some k =>
    match w.tokens[k]? with
    | none => w
    | some p =>
      { w with tokens := { kind := .path, pc := w.pc, mask := w.exm } :: w.tokens.eraseIdx k, pc := p.pc, exm := p.mask &&& w.live }

/-- All latches lost (02 R55). -/
def lostLatches : List Latch := [none, none, none, none]

/-! ### Stopping a wave -/

/-- A cause found by an instruction: its lane where it has one, and the address of the record (06 R141, R146). -/
structure Chk where
  code : Nat
  lane : Option Nat := none
  addr : Nat := 0
  stage : Nat := 0
  deriving DecidableEq, Repr

/-- Priority of a cause, 1 highest (06 R141). -/
def causeRank (c : Nat) : Nat :=
  match c with
  | 0x04 => 1 | 0x03 => 2 | 0x01 => 3 | 0x02 => 4 | 0x10 => 5 | 0x11 => 6 | 0x12 => 7 | 0x21 => 8 | 0x20 => 9 | 0x22 => 10
  | 0x30 => 11 | 0x31 => 12 | 0x32 => 13 | 0x60 => 14 | 0x70 => 15 | _ => 16

/-- The cause delivered among those found: the highest, at its lowest lane (06 R141). Where two capabilities of one command raise it in that lane, the one
listed first gives ADDR (06 R146; log 61). -/
def pickChk : List Chk → Option Chk
  | [] => none
  | c :: t =>
    match pickChk t with
    | none => some c
    | some d => if causeRank d.code < causeRank c.code then some d else some c

/-- The lanes that raised a cause. -/
def chkMask (cs : List Chk) (code : Nat) : Mask := maskOf fun l => cs.any fun c => c.code == code && c.lane == some l

structure TrapInfo where
  code : Nat
  lane : Option Nat := none
  mask : Mask := 0
  addr : Nat := 0
  /-- KIND of the record: 0 fault, 1 completion, 2 declined (06 R146). -/
  kind : Nat := 0
  imm : Nat := 0
  rpc : PC
  ipc : PC
  xcnt : Nat := 0
  stage : Option Nat := none
  deriving DecidableEq, Repr

/-- `$cause` after a delivery (01 R22). -/
def causeWord (t : TrapInfo) : Word :=
  BitVec.ofNat 32 (t.code + match t.lane with | some l => l * 256 + 8192 | none => 0)

/-- `$group` of a record: for a task wave, the id given to lane 0 (14 R304). -/
def State.recGroup (s : State) (w : Wave) : Word :=
  match Tab.find s.groups w.group with
  | some g => match g.task with | some (_, id, _) => id | none => w.groupW
  | none => w.groupW

/-- The 64-byte trap record (06 R146). -/
def trapRecord (s : State) (w : Wave) (t : TrapInfo) : BitVec 512 :=
  BitVec.ofNat 512 (t.code + (match t.lane with | some l => l * 2 ^ 8 + 2 ^ 13 | none => 0) + t.kind * 2 ^ 14 + t.imm * 2 ^ 16 +
    t.rpc.toNat * 2 ^ 64 + t.ipc.toNat * 2 ^ 128 + t.addr % 2 ^ 57 * 2 ^ 192 + t.mask.toNat * 2 ^ 256 + t.xcnt * 2 ^ 288 +
    w.waveW.toNat * 2 ^ 320 + w.tenant.toNat * 2 ^ 352 + w.gridW.toNat * 2 ^ 384 + (s.recGroup w).toNat * 2 ^ 416 + 1 * 2 ^ 504)

/-- TAKING AN EXCEPTION: the wave stops, `$cause` is set, its restart point is kept, the run ends and the record sets off to the
fault queue of its handler (06 R146, R149). -/
def deliver (s : State) (id : Nat) (w : Wave) (t : TrapInfo) : State :=
  { s.setWave id { w with cause := causeWord t, pc := t.rpc, cond := .stopped none, run := none, latches := lostLatches,
                          held := none, waited := false, xcnt := t.xcnt, gates := if t.kind = 1 then w.gates else [] } with
    recs := s.recs ++ [{ body := trapRecord s w t, cls := if t.code = 0x60 ∨ t.code = 0x70 then 1 else 0, stage := t.stage,
                         tenant := w.tenant, toRoot := false, wave := some id, waited := false }] }

/-- A fault at the wave's instruction: no effect but the stop; its restart point is the instruction (06 R140). -/
def faultWave (s : State) (id : Nat) (w : Wave) (code : Nat) (c : Chk := { code := code }) (mask : Mask := 0) : Out :=
  .next (deliver s id w { code, lane := c.lane, mask, addr := c.addr, rpc := w.pc, ipc := w.pc, xcnt := w.xcnt,
                          stage := if c.stage = 0 then none else some c.stage })

/-- A wave-wide cause. -/
def trapCode (s : State) (id : Nat) (w : Wave) (code : Nat) : Out := faultWave s id w code

/-- Delivers the highest of the causes found. -/
def faultChks (s : State) (id : Nat) (w : Wave) (cs : List Chk) (c : Chk) : Out :=
  faultWave s id w c.code c (chkMask cs c.code)

/-- RETURNING FROM A STOP: the wave issues again at a PC with its restart state; a held 0x03 is delivered at once (02 R38, 06 R148). -/
def resumeWave (s : State) (id : Nat) (w : Wave) : State :=
  if w.hold3 then deliver s id { w with hold3 := false } { code := 0x03, kind := 1, rpc := w.pc, ipc := w.pc - 60 }
  else s.setWave id { w with cond := .running, run := none, waited := false, entering := false, latches := lostLatches }

/-! ### Completing an instruction -/

/-- The wave goes on at a PC: one more instruction for AGE and, unless it waited, for the run (01 R30, 02 R39, R41). -/
def Wave.goto (w : Wave) (pc : PC) : Wave :=
  { w with tokens := ageTokens w.tokens, run := if w.waited then none else some w.pc, waited := false, pc, cond := .running, held := none, xcnt := 0 }

/-- The restart point of the instruction being completed lies past a last line (02 R38). -/
def Wave.leavesKernel (w : Wave) : Bool := slotOf w.pc == 4 && kindOf w.line == 1

/-- Sequential completion; the completion trap of R38 where the flow leaves the last line. -/
def advance (s : State) (id : Nat) (w : Wave) : State :=
  let n := w.goto (nextPc w.pc)
  if w.leavesKernel then deliver s id n { code := 0x03, kind := 1, rpc := n.pc, ipc := w.pc } else s.setWave id n

/-- An instruction that only completes. -/
def done (s : State) (id : Nat) (w : Wave) : Out := .next (advance s id w)

/-- The wave waits without a strand at its instruction: the run ends and the latches are lost (02 R41, R55). -/
def waitAt (s : State) (id : Nat) (w : Wave) (k : Wait) (i : Instr) : Out :=
  .next (s.setWave id { w with cond := .waiting k, held := some i, run := none, waited := true, latches := lostLatches })

end Sys2Proof.Machine
end

