-- ==== Sys2Proof/Machine/Phys.lean ====
section
/-! DEFINITION. Physical memory: what backs an address (24 R406-R408), presented windows (19 R330-R336), the last-level cache (19
R325-R329), poison (19 R344, R345), and the one write at a home, which takes its place in the home order (11 R212, R220). -/

namespace Sys2Proof.Machine

def State.rdByte (s : State) (pa : Nat) : Byte := Tab.get emptyByte s.mem pa
def State.tagAt (s : State) (pa : Nat) : Bool := Tab.get false s.mtags (pa / 16)
def State.rdBytes (s : State) (pa n : Nat) : List Byte := (List.range n).map fun i => s.rdByte (pa + i)

def roundUp (n k : Nat) : Nat := (n + k - 1) / k * k
/-- The distinct values of a list of numbers, in order of first occurrence. -/
def distinct (l : List Nat) : List Nat := l.foldl (fun acc x => if acc.contains x then acc else acc ++ [x]) []

/-! ### Backing -/

/-- A valid presented window (19 R330). -/
structure Win where
  die : Nat
  n : Nat
  sbase : Nat
  pbase : Nat
  nblk : Nat
  sfmt : Nat
  expand : Bool
  pfmt : Nat
  sr : Bool
  deriving DecidableEq, Repr

def State.frr (s : State) (d n : Nat) : Win :=
  let c := s.reg (.frrc d n)
  { die := d, n, sbase := (fld (s.reg (.frra d n)) 51 7) * 128, pbase := (fld (s.reg (.frrb d n)) 51 12) * 4096,
    nblk := fld c 31 0, sfmt := fld c 39 32, expand := c.getLsbD 40, pfmt := if c.getLsbD 41 then 4 else 3, sr := c.getLsbD 42 }

def State.windows (s : State) : List Win :=
  s.lregs.filterMap fun (r, v) => match r with | .frrc d n => if v.getLsbD 63 then some (s.frr d n) else none | _ => none

def Win.shape (w : Win) : Nat × Nat × Nat × Nat × Bool := (frrShape w.sfmt).getD (1, 1, 0, 0, false)
def Win.recBytes (w : Win) : Nat := w.shape.2.1 + w.shape.2.2.1
def Win.storedSize (w : Win) : Nat := w.nblk * w.recBytes
/-- EL of a SPLIT window (R331). -/
def Win.el (w : Win) : Nat := roundUp (w.nblk * w.shape.2.1) 128
def Win.size (w : Win) : Nat :=
  if w.expand then roundUp (w.nblk * w.shape.1 * 2) 128 else w.el + roundUp (w.nblk * w.shape.2.2.2.1) 128
def Win.covers (w : Win) (pa : Nat) : Bool := decide (w.pbase ≤ pa ∧ pa < w.pbase + w.size)

def State.winAt (s : State) (pa : Nat) : Option Win := s.windows.find? fun w => w.covers pa

/-- The die whose HBM4 or DDR-5 range holds an address (24 R406). -/
def dieOfPa (pa : Nat) : Option Nat :=
  if pa < 2 ^ 42 then some (pa / 2 ^ 40)
  else if 2 ^ 48 ≤ pa ∧ pa < 2 ^ 48 + 2 ^ 42 then some ((pa - 2 ^ 48) / 2 ^ 40)
  else none

/-- Bytes of HBM4 of a die: 192 GB (24 R406). -/
def hbmBytes : Nat := 192 * 10 ^ 9

/-- Whether trained memory of a live die holds the address (24 R406, R407, R416, R419). -/
def State.memBacked (s : State) (pa : Nat) : Bool :=
  match dieOfPa pa with
  | none => false
  | some d =>
    let off := pa % 2 ^ 40
    let line := off / 128
    !(s.die d).fenced &&
    (if pa < 2 ^ 42 then decide (off < hbmBytes) && (s.reg .pkgst0).getLsbD (3 * d + line % 3)
     else decide (off < (s.die d).ddrCap) && (s.reg .pkgst0).getLsbD (12 + 4 * d + line % 4))

inductive Back
  | mem (die : Nat) | win (w : Win) | none
  deriving DecidableEq, Repr

/-- What serves an access by a party of die `e` (19 R336, 24 R406, R408). -/
def State.backing (s : State) (e pa : Nat) : Back :=
  if s.memBacked pa then
    match dieOfPa pa with
    | some d => if (s.reg (.memacc d)).getLsbD e then .mem d else .none
    | none => .none
  else
    match s.winAt pa with
    | some w => if (s.reg (.memacc w.die)).getLsbD e && !(s.die w.die).fenced then .win w else .none
    | none => .none

/-- The die at which an address is served. -/
def State.homeDie (s : State) (pa : Nat) : Nat :=
  match dieOfPa pa with
  | some d => d
  | none => match s.winAt pa with | some w => w.die | none => 0

/-- A line in the last-level cache. -/
def State.cached (s : State) (line : Nat) : Option LlcLine := (s.die (s.homeDie (line * 128))).llc.find? fun l => l.line == line

/-- Poison as an access finds it: the cached line's, else the memory's (19 R344). -/
def State.poisoned (s : State) (pa : Nat) : Bool := Tab.get false (if (s.cached (pa / 128)).isSome then s.lpoison else s.mpoison) (pa / 32)

/-! ### The write at the home -/

/-- Who made a write event (11 R210): its id, the core in whose name it went, its party. -/
structure Writer where
  id : Nat
  core : Nat
  party : Party
  deriving DecidableEq, Repr

/-- A write event arrives (11 R212): `old` and `oldTag` give what stands at its home. -/
def State.record (s : State) (x : Writer) (pl : Place) (bytes : List (Nat × Byte)) (tags : List (Nat × Bool)) (old : Nat → Byte) (oldTag : Nat → Bool) :
    State :=
  let tag := fun (g : Nat) => ((tags.reverse.find? fun t => t.1 == g).map Prod.snd).getD false
  let e : HEv := { id := x.id, ix := s.homeIx, core := x.core, party := x.party, place := pl, cells := bytes.map fun b => (b.1, b.2, old b.1)
                   tags := (distinct (bytes.map fun b => b.1 / 16)).map fun g => (g, tag g, oldTag g) }
  if bytes.isEmpty then s else { s with hist := s.hist ++ [e], homeIx := s.homeIx + 1 }

/-- Bytes take values that no write event gave them (a line is decoded or encoded, 19 R333, R335; a barrier object, 12 R232): what stood there
before is no longer read. -/
def State.forget (s : State) (pl : Place) (as : List Nat) : State :=
  let cut := fun (e : HEv) => if e.place = pl then
      { e with cells := e.cells.filter fun c => !as.contains c.1, tags := e.tags.filter fun t => !(as.any fun a => a / 16 == t.1) } else e
  { s with hist := s.hist.map cut }

/-- Bytes, granule tags and poison of a write event at the home (10 R192, R207). A granule in `tags` takes that tag, every other
touched granule loses its own. `clears`: poison granules of which this event completes an instruction's write of every byte. -/
def State.homeWrite (s : State) (writer : Option Writer) (bytes : List (Nat × Byte)) (tags : List (Nat × Bool)) (clears : List Nat := []) : State :=
  let s := match writer with
    | some x => s.record x .glob bytes tags s.rdByte fun g => s.tagAt (16 * g)
    | none => s.forget .glob (bytes.map Prod.fst)
  let grans := distinct (bytes.map fun b => b.1 / 16)
  let pgs := (distinct (bytes.map fun b => b.1 / 32)).filter fun g => clears.contains g || (List.range 32).all fun i => bytes.any fun b => b.1 == 32 * g + i
  let inMem := fun (g : Nat) => writer.isNone || (s.cached (g / 4)).isNone
  { s with
    mem := bytes.foldl (fun m b => Tab.put emptyByte m b.1 b.2) s.mem,
    mtags := tags.foldl (fun t g => Tab.put false t g.1 g.2) (grans.foldl (fun t g => Tab.put false t g false) s.mtags),
    mpoison := (pgs.filter inMem).foldl (fun p g => Tab.put false p g false) s.mpoison,
    lpoison := pgs.foldl (fun p g => Tab.put false p g false) s.lpoison }

/-! ### Memory-error reports (21 R375) -/

def memReport (s : State) (pa src die core : Nat) (slot : Option Nat) (tenant : Word) : PendRec :=
  { body := BitVec.ofNat 512 (pa + src * 2 ^ 52 + die * 2 ^ 56 + core * 2 ^ 58 +
      (match slot with | some c => c % 256 * 2 ^ 64 + 2 ^ 72 | none => 0) +
      (s.regF (.dieCtr die .memUnc) 31 0) * 2 ^ 96 + tenant.toNat * 2 ^ 128 + 4 * 2 ^ 504),
    cls := 3, stage := none, tenant, toRoot := slot.isNone, wave := none, waited := false }

/-- Sends a record on its way to its fault queue. -/
def State.sendRec (s : State) (r : PendRec) : State := { s with recs := s.recs ++ [r] }

/-! ### Presented lines -/

/-- The packed elements of a stored block as one number. -/
def State.blockNat (s : State) (w : Win) (b : Nat) : Nat := leNat (s.rdBytes (w.sbase + b * w.recBytes) w.shape.2.1)
/-- The stored scale entry of a block. -/
def State.scaleNat (s : State) (w : Win) (b : Nat) : Nat :=
  leNat (s.rdBytes (w.sbase + b * w.recBytes + w.shape.2.1) w.shape.2.2.1)

/-- Where a presented byte of SPLIT mode is stored; none past the data (R331). -/
def Win.splitMap (w : Win) (off : Nat) : Option Nat :=
  let elb := w.shape.2.1
  let (st, pr) := (w.shape.2.2.1, w.shape.2.2.2.1)
  if off < w.el then
    if off < w.nblk * elb then some (w.sbase + off / elb * w.recBytes + off % elb) else none
  else
    let o := off - w.el
    if o < w.nblk * pr ∧ o % pr < st then some (w.sbase + o / pr * w.recBytes + elb + o % pr) else none

/-- Element `v` of an EXPAND window, decoded to PFMT (R333). -/
def State.expandElem (s : State) (w : Win) (v : Nat) : Nat :=
  let epb := w.shape.1
  if w.nblk * epb ≤ v then 0
  else
    match fmtElem w.sfmt with
    | none => 0
    | some el =>
      let b := v / epb
      let x := scaledElem w.sfmt el (elemRaw el (s.blockNat w b) (v % epb)) (innerScale w.sfmt (s.scaleNat w b))
      ((fmtTy w.pfmt).convert { dn := x.isNan } x).bits

/-- The decoded byte at an offset of the window (R333). -/
def State.presented (s : State) (w : Win) (off : Nat) : Byte :=
  if w.expand then BitVec.ofNat 8 (s.expandElem w (off / 2) / 256 ^ (off % 2))
  else match w.splitMap off with | some a => s.rdByte a | none => 0

/-- Blocks that a line of an EXPAND window holds. -/
def Win.blocksOf (w : Win) (off : Nat) : List Nat :=
  (distinct ((List.range 64).map fun i => (off / 2 + i) / w.shape.1)).filter fun b => decide (b < w.nblk)

def State.recPoisoned (s : State) (w : Win) (b : Nat) : Bool :=
  (List.range w.recBytes).any fun i => s.poisoned (w.sbase + b * w.recBytes + i)

/-- The bytes of a presented line with their addresses. -/
def State.presentedBytes (s : State) (w : Win) (line : Nat) : List (Nat × Byte) :=
  (List.range 128).map fun i => (line * 128 + i, s.presented w (line * 128 - w.pbase + i))

/-- A presented granule that a poisoned stored byte poisons, by its offset in the window (R345). -/
def State.presentedBad (s : State) (w : Win) (off : Nat) : Bool :=
  (List.range 32).any fun i =>
    if w.expand then decide ((off + i) / 2 < w.nblk * w.shape.1) && s.recPoisoned w ((off + i) / 2 / w.shape.1)
    else match w.splitMap (off + i) with | some a => s.poisoned a | none => false

/-- Fills a presented line: bytes decoded, tags clear, poison carried (R333, R345). -/
def State.fillLine (s : State) (w : Win) (line : Nat) : State :=
  let off := line * 128 - w.pbase
  let t := s.homeWrite none (s.presentedBytes w line) []
  let bad := fun (g : Nat) => s.presentedBad w (off + 32 * g)
  let set := fun (p : Tab Bool) => (List.range 4).foldl (fun p g => Tab.put false p (line * 4 + g) (bad g)) p
  let u := { t with mpoison := set t.mpoison, lpoison := set t.lpoison }
  if w.expand then
    ((w.blocksOf off).filter fun b => s.recPoisoned w b).foldl (fun u b =>
      u.sendRec (memReport u (w.sbase + b * w.recBytes) 3 w.die 0 none 0)) u
  else u

/-- A byte as an access finds it at its home, and its poison: a presented line that no way holds is decoded (R333, R345). -/
def State.uncachedWin (s : State) (pa : Nat) : Option Win := if (s.cached (pa / 128)).isSome then none else s.winAt pa
def State.homeAt (s : State) (pa : Nat) : Byte :=
  match s.uncachedWin pa with | some w => s.presented w (pa - w.pbase) | none => s.rdByte pa
def State.poisonAt (s : State) (pa : Nat) : Bool :=
  match s.uncachedWin pa with | some w => s.presentedBad w (pa / 32 * 32 - w.pbase) | none => s.poisoned pa
def State.homeBytes (s : State) (pa n : Nat) : List Byte := (List.range n).map fun i => s.homeAt (pa + i)

/-- The record of a re-encoded block and the generator state after it (R335). -/
def reencodeBlock (w : Win) (xs : List FV) (seed : Word) : List Byte × Word :=
  match fmtElem w.sfmt with
  | none => ([], seed)
  | some el =>
    let et := frrElem w.sfmt
    let sc := if w.sfmt = 0x15 then (scaleE4 xs).bits else (scaleE8 et xs).bits
    let sv := if w.sfmt = 0x15 then (fmtTy 6).decode sc else e8m0 sc
    let (row, seed, _) := xs.foldl (fun (acc : Nat × Word × Nat) x =>
      let (row, sd, k) := acc
      let sd := if w.sr then srNext sd else sd
      let q := (qntElem et { mode := if w.sr then .sr (srR sd) else .rne } sv x).bits % 2 ^ elemWidth el
      (row + q * 2 ^ (elemWidth el * k), sd, k + 1)) (0, seed, 0)
    (leBytes w.shape.2.1 row ++ [BitVec.ofNat 8 sc], seed)

/-- Poisons the 32-byte granules of memory that hold some bytes. -/
def State.poison (s : State) (pas : List Nat) : State :=
  { s with mpoison := (distinct (pas.map (· / 32))).foldl (fun p g => Tab.put false p g true) s.mpoison }

/-- Address of element i of a presented block. -/
def Win.elemAt (w : Win) (b i : Nat) : Nat := w.pbase + 2 * (b * w.shape.1 + i)

/-- Re-encodes one block of an EXPAND window into its stored record (R335, R345). -/
def State.reencodeOne (w : Win) (s : State) (b : Nat) : State :=
  let xs := (List.range w.shape.1).map fun i => (fmtTy w.pfmt).decode (leNat (s.rdBytes (w.elemAt b i) 2))
  let r := reencodeBlock w xs (s.reg (.frrd w.die w.n) |>.setWidth 32)
  let a := w.sbase + b * w.recBytes
  let bad := (List.range w.shape.1).any fun i => s.poisoned (w.elemAt b i)
  let t := s.homeWrite none (r.1.zipIdx.map fun (x, i) => (a + i, x)) []
  let t := if w.sr then t.setReg (.frrd w.die w.n) (r.2.setWidth 64) else t
  if bad then (t.poison ((List.range w.recBytes).map (a + ·))).sendRec (memReport t a 4 w.die 0 none 0) else t

/-- Each stored byte that a line of a SPLIT window presents, with its presented address (R331). -/
def Win.splitPairs (w : Win) (line : Nat) : List (Nat × Nat) :=
  (List.range 128).filterMap fun i => (w.splitMap (line * 128 - w.pbase + i)).map fun a => (a, line * 128 + i)

/-- Writes a presented line back to its stored range (R335, R345). -/
def State.reencodeLine (s : State) (w : Win) (line : Nat) : State :=
  if w.expand then (w.blocksOf (line * 128 - w.pbase)).foldl (State.reencodeOne w) s
  else
    let m := w.splitPairs line
    (s.homeWrite none (m.map fun (a, p) => (a, s.rdByte p)) []).poison ((m.filter fun (_, p) => s.poisoned p).map Prod.fst)

/-! ### The last-level cache -/

/-- Slice of a line (R325): the exclusive OR of nine 5-bit fields of the physical address. -/
def sliceOf (line : Nat) : Nat := (List.range 9).foldl (fun x i => x ^^^ (line / 32 ^ i % 32)) 0

/-- Where a line may lie: its slice and set. -/
def llcPlace (line : Nat) : Nat × Nat := (sliceOf line, Config.llcSet line % 2048)

/-- Ways that a context may allocate in (R328). -/
def State.heldWays (s : State) (d slot : Nat) : Nat := s.regF (.llcway d slot) 31 16

/-- Poison of a line's granules from one table to another. -/
def copyPoison (line : Nat) (src dst : Tab Bool) : Tab Bool :=
  (List.range 4).foldl (fun p g => Tab.put false p (line * 4 + g) (Tab.get false src (line * 4 + g))) dst

/-- A line leaves the cache: a dirty presented line is re-encoded first (R335), a dirty line of memory is written back with its poison (R344). -/
def State.evictLine (s : State) (d : Nat) (l : LlcLine) : State :=
  let s := if l.dirty then
      (match s.winAt (l.line * 128) with | some w => s.reencodeLine w l.line | none => { s with mpoison := copyPoison l.line s.lpoison s.mpoison })
    else s
  s.updDie d fun x => { x with llc := x.llc.filter fun k => k.line != l.line }

/-- Makes room for a line in the held ways and lists it (R326, R328). -/
def State.allocLine (s : State) (d slot line : Nat) (p : Policy) (write : Bool) : State :=
  let ways := (List.range 16).filter fun w => (s.heldWays d slot).testBit w
  let here := (s.die d).llc.filter fun l => llcPlace l.line == llcPlace line
  let free := ways.find? fun w => !(here.any fun l => l.way == w)
  let mine := here.filter fun l => ways.contains l.way
  let victim := match (mine.reverse.find? fun l => !l.keep) with | some l => some l | none => mine.reverse.head?
  let (s, way) := match free, victim with
    | some w, _ => (s, w)
    | none, some v => (s.evictLine d v, v.way)
    | none, none => (s, 0)
  let e : LlcLine := { line, way, slot, dirty := write, keep := decide (p = .keep) }
  ({ s with lpoison := copyPoison line s.mpoison s.lpoison } : State).updDie d fun x => { x with llc := if p = .strm then x.llc ++ [e] else e :: x.llc }

/-- One access to a line at its home slice: a hit updates recency, a miss allocates as the context and its policy allow; a presented line
is filled first unless the access writes all of it; a context that holds no way acts as `.nal`, on a hit as by default (R326-R328, R333, R334). -/
def State.touchLine (s : State) (ctx : Nat) (p : Policy) (write full : Bool) (line : Nat) : State :=
  let d := s.homeDie (line * 128)
  let slot := ctx % 256
  let win := s.winAt (line * 128)
  match (s.die d).llc.find? fun l => l.line == line with
  | some l =>
    let p := if s.heldWays d slot = 0 then .normal else p
    let l' := { l with dirty := l.dirty || write, keep := l.keep || decide (p = .keep) }
    s.updDie d fun x =>
      { x with llc := if p = .strm then x.llc.map fun k => if k.line = line then { k with dirty := k.dirty || write } else k
                      else l' :: x.llc.filter fun k => k.line != line }
  | none =>
    let s := match win with | some w => if full then s else s.fillLine w line | none => s
    let p := if win.isSome ∧ p = .nal then .strm else p
    if s.heldWays d slot = 0 ∨ p = .nal then s else s.allocLine d slot line p write

/-- After a write: a presented line that no way could take leaves at once (R326, R335). -/
def State.settleLine (s : State) (line : Nat) : State :=
  match s.winAt (line * 128) with
  | none => s
  | some w =>
    if (s.die w.die).llc.any fun l => l.line == line then s else s.reencodeLine w line

/-- Accesses for reading: the lines of some addresses that a party of die `e` reads. -/
def State.prepRead (s : State) (e ctx : Nat) (p : Policy) (pas : List Nat) : State :=
  (distinct (pas.map (· / 128))).foldl (fun s l => if s.backing e (l * 128) = .none then s else s.touchLine ctx p false false l) s

/-- A write event arrives at the home on behalf of a party of die `e` (19 R334, R336): bytes to unbacked addresses are dropped and counted
once, bytes past the data of a window have no effect. -/
def State.arriveWrite (s : State) (writer : Option Writer) (e ctx : Nat) (p : Policy) (bytes : List (Nat × Byte)) (tags : List (Nat × Bool)) (clears : List Nat := []) :
    State :=
  let ok := fun (b : Nat × Byte) => match s.backing e b.1 with
    | .mem _ => true
    | .win w => if w.expand then decide ((b.1 - w.pbase) / 2 < w.nblk * w.shape.1) else (w.splitMap (b.1 - w.pbase)).isSome
    | .none => false
  let good := bytes.filter ok
  let lost := bytes.any fun b => decide (s.backing e b.1 = .none)
  let lines := distinct (good.map fun b => b.1 / 128)
  let full := fun (l : Nat) => (bytes.filter fun b => b.1 / 128 == l).length == 128
  let t := lines.foldl (fun s l => s.touchLine ctx p true (full l) l) s
  let t := t.homeWrite writer good (tags.filter fun g => good.any fun b => b.1 / 16 == g.1) clears
  let t := lines.foldl (fun s l => s.settleLine l) t
  if lost then t.bumpDie e .unbacked else t

/-- A write event by a party that no core's list of pending writes holds: it performs at its home. -/
def State.foreignWrite (s : State) (p : Party) (core e ctx : Nat) (bytes : List (Nat × Byte)) (tags : List (Nat × Bool) := []) : State :=
  s.fresh.arriveWrite (some { id := s.nextId, core, party := p }) e ctx .normal bytes tags

end Sys2Proof.Machine
end

