-- ==== Sys2Proof/Machine/Memory.lean ====
section
/-! DEFINITION. Memory as a core sees it: translation in three stages (19 R337-R341), the fault buffer and parking (06 R145, 12 R252),
what a read may return (11 R213-R215, R220), performing a write, releases and acquires (11 R216-R220), and the drops of reused loads (09
R177). -/

namespace Sys2Proof.Machine

/-! ### Translation -/

/-- The kinds of access, as ACC of the translation record (19 R341). -/
inductive AccKind
  | read | write | atomic | fetch
  deriving DecidableEq, Repr

def AccKind.code : AccKind → Nat | .read => 0 | .write => 1 | .atomic => 2 | .fetch => 3

/-- A failing stage: its number, KIND, the stage's input address, and whether a walk read failed (19 R339, R341). -/
structure TFault where
  stage : Nat
  kind : Nat
  iaddr : Nat
  walk : Bool := false
  deriving DecidableEq, Repr

/-- Cause of a translation fault (19 R339). -/
def TFault.code (f : TFault) : Nat := if f.kind = 0 then 0x20 else 0x21

/-- log2 of the page of a SIZE code (19 R338). -/
def pageLog (size : Nat) : Nat := ([12, 14, 16, 18, 20, 21, 22, 24, 25, 26, 28, 29, 30, 32, 34, 36][size]?).getD 12

/-- Levels of a stage from the top: the bits that index each (19 R338). -/
def stageLevels (stage : Nat) : List (Nat × Nat) :=
  if stage = 1 then [(56, 48), (47, 39), (38, 30), (29, 21), (20, 12)] else [(51, 48), (47, 39), (38, 30), (29, 21), (20, 12)]

/-- Whether a valid entry is malformed at a level counted from the bottom (19 R339). -/
def entryMalformed (e : DWord) (level : Nat) : Bool :=
  let leaf := e.getLsbD 1
  let size := fld e 11 8
  fld e 7 5 != 0 || fld e 63 52 != 0 ||
  (if leaf then
     (match level with | 0 => decide (4 < size) | 1 => decide (size < 5 ∨ 11 < size) | 2 => decide (size < 12) | _ => true) ||
     (fld e 51 12 * 4096) % 2 ^ pageLog size != 0
   else level == 0 || size != 0)

/-- Whether a leaf gives the permission that an access needs (19 R339). -/
def leafAllows (e : DWord) (k : AccKind) : Bool :=
  match k with
  | .read => e.getLsbD 2 | .write => e.getLsbD 3 | .atomic => e.getLsbD 2 && e.getLsbD 3 | .fetch => e.getLsbD 4

/-- The leaf of an address, by a walk that reads entries through `rd` (19 R338, R339). -/
def walkTable (stage x : Nat) (rd : Nat → Except TFault (DWord × Bool)) : Nat → List (Nat × Nat) → Except TFault DWord
  | _, [] => .error { stage, kind := 2, iaddr := x }
  | table, (hi, lo) :: rest =>
    match rd (table + 8 * (x / 2 ^ lo % 2 ^ (hi + 1 - lo))) with
    | .error f => .error f
    | .ok (e, poison) =>
      if poison then .error { stage, kind := 3, iaddr := x }
      else if !e.getLsbD 0 then .error { stage, kind := 0, iaddr := x }
      else if entryMalformed e rest.length then .error { stage, kind := 2, iaddr := x }
      else if e.getLsbD 1 then .ok e
      else walkTable stage x rd (fld e 51 12 * 4096) rest

/-- The output address of a leaf: its base with the low bits of the input (19 R338). -/
def leafOut (e : DWord) (x : Nat) : Nat := (fld e 51 12 * 4096) + x % 2 ^ pageLog (fld e 11 8)

/-- A root register of a context (19 R337). -/
def State.rootReg (s : State) (ctx stage : Nat) : DWord := s.reg (.ctxw ctx (3 + stage))

/-- What a walk by a party of die `e` reads of an entry at a physical address: unbacked memory is poison (19 R336, R340). -/
def State.readEntry (s : State) (e pa : Nat) : DWord × Bool :=
  if s.backing e pa = .none then (0, true) else (BitVec.ofNat 64 (leNat (s.homeBytes pa 8)), s.poisonAt pa)

/-- One stage, with the reader of its tables: the leaf, or none where the stage is disabled (19 R337-R339). -/
def stageLeaf (s : State) (ctx stage x : Nat) (rd : Nat → Except TFault (DWord × Bool)) : Except TFault (Option DWord) :=
  let r := s.rootReg ctx stage
  if !(r.getLsbD 0 || stage == 3) then
    if x < 2 ^ 52 then .ok none else .error { stage, kind := 2, iaddr := x }
  else (walkTable stage x rd (fld r 51 12 * 4096) (stageLevels stage)).map some

def finishStage (stage x : Nat) (k : AccKind) (leaf : Option DWord) : Except TFault Nat :=
  match leaf with
  | none => .ok x
  | some e => if leafAllows e k then .ok (leafOut e x) else .error { stage, kind := 1, iaddr := x }

def asWalk {α : Type} (r : Except TFault α) : Except TFault α := r.mapError fun f => { f with walk := true }

/-- Table reads of each stage: a stage 3 table by physical address, the others through the stages below (19 R338). -/
def rdStage3 (s : State) (e : Nat) (a : Nat) : Except TFault (DWord × Bool) := .ok (s.readEntry e a)
def xlate3 (s : State) (e ctx x : Nat) (k : AccKind) : Except TFault Nat := do
  finishStage 3 x k (← stageLeaf s ctx 3 x (rdStage3 s e))
def rdStage2 (s : State) (e ctx : Nat) (a : Nat) : Except TFault (DWord × Bool) := do
  let pa ← asWalk (xlate3 s e ctx a .read)
  .ok (s.readEntry e pa)
def xlate2 (s : State) (e ctx x : Nat) (k : AccKind) : Except TFault Nat := do
  finishStage 2 x k (← stageLeaf s ctx 2 x (rdStage2 s e ctx))
def rdStage1 (s : State) (e ctx : Nat) (a : Nat) : Except TFault (DWord × Bool) := do
  let w ← asWalk (xlate2 s e ctx a .read)
  let pa ← asWalk (xlate3 s e ctx w .read)
  .ok (s.readEntry e pa)

/-- The leaf that a stage's walk finds now. -/
def freshLeaf (s : State) (e ctx stage x : Nat) : Except TFault (Option DWord) :=
  match stage with
  | 1 => stageLeaf s ctx 1 x (rdStage1 s e ctx)
  | 2 => stageLeaf s ctx 2 x (rdStage2 s e ctx)
  | _ => stageLeaf s ctx 3 x (rdStage3 s e)

/-- Whether a cached entry covers an input address. -/
def TlbEntry.hits (t : TlbEntry) (ctx stage x : Nat) : Bool :=
  t.ctx == ctx && t.stage == stage && t.frame * 4096 / 2 ^ pageLog (fld t.leaf 11 8) == x / 2 ^ pageLog (fld t.leaf 11 8)

/-- One stage for a core: a cached leaf that differs from the walk's may be used as well (19 R340). -/
def coreStage (s : State) (core ctx stage x : Nat) (k : AccKind) : Except TFault Nat :=
  let walk := freshLeaf s (dieOf core) ctx stage x
  match (s.core core).tlb.find? fun t => t.hits ctx stage x with
  | none => do finishStage stage x k (← walk)
  | some t =>
    if walk.toOption = some (some t.leaf) then finishStage stage x k (some t.leaf)
    else if Config.choice s.draw stage then finishStage stage x k (some t.leaf)
    else do finishStage stage x k (← walk)

/-- The three stages (19 R337): a device virtual address to a physical one. -/
def translate (s : State) (core ctx va : Nat) (k : AccKind) : Except TFault Nat := do
  let a ← coreStage s core ctx 1 va k
  let b ← coreStage s core ctx 2 a k
  coreStage s core ctx 3 b k

/-- Translation for a party without a translation cache (Landing, inbound requests): every stage walks. `need` gives the permission of
each stage (21 R383). -/
def walkAll (s : State) (e ctx va : Nat) (k1 k2 k3 : AccKind) : Except TFault Nat := do
  let a ← finishStage 1 va k1 (← freshLeaf s e ctx 1 va)
  let b ← finishStage 2 a k2 (← freshLeaf s e ctx 2 a)
  finishStage 3 b k3 (← freshLeaf s e ctx 3 b)

/-- The entries that a walk reads, in its stage's output space. -/
def walkSteps (rd : Nat → Except TFault (DWord × Bool)) (x : Nat) : Nat → List (Nat × Nat) → List Nat
  | _, [] => []
  | table, (hi, lo) :: rest =>
    let a := table + 8 * (x / 2 ^ lo % 2 ^ (hi + 1 - lo))
    a :: match rd a with
      | .ok (e, poison) => if poison || !e.getLsbD 0 || entryMalformed e rest.length || e.getLsbD 1 then [] else walkSteps rd x (fld e 51 12 * 4096) rest
      | .error _ => []

def stageSteps (s : State) (ctx stage x : Nat) (rd : Nat → Except TFault (DWord × Bool)) : List Nat :=
  let r := s.rootReg ctx stage
  if r.getLsbD 0 || stage == 3 then walkSteps rd x (fld r 51 12 * 4096) (stageLevels stage) else []

/-- Physical addresses of the entries that a walk of a stage reads, those of the walks for its tables included (19 R338). -/
def walked3 (s : State) (e ctx x : Nat) : List Nat := stageSteps s ctx 3 x (rdStage3 s e)
def walked2 (s : State) (e ctx x : Nat) : List Nat :=
  (stageSteps s ctx 2 x (rdStage2 s e ctx)).flatMap fun a => walked3 s e ctx a ++ ((xlate3 s e ctx a .read).toOption).toList
def walked1 (s : State) (e ctx x : Nat) : List Nat :=
  (stageSteps s ctx 1 x (rdStage1 s e ctx)).flatMap fun a =>
    walked2 s e ctx a ++ match xlate2 s e ctx a .read with | .ok w => walked3 s e ctx w ++ ((xlate3 s e ctx w .read).toOption).toList | .error _ => []

def walked (s : State) (e ctx stage x : Nat) : List Nat :=
  match stage with | 1 => walked1 s e ctx x | 2 => walked2 s e ctx x | _ => walked3 s e ctx x

/-- What a stage gives for an address, by the tables now, for reading; the address itself where it gives nothing. -/
def stageOut (s : State) (e ctx stage x : Nat) : Nat :=
  match freshLeaf s e ctx stage x with
  | .ok l => (match finishStage stage x .read l with | .ok y => y | _ => x)
  | _ => x

/-- Physical addresses of the entries that the walks of all three stages read. -/
def walkedAll (s : State) (e ctx va : Nat) : List Nat :=
  let a := stageOut s e ctx 1 va
  walked s e ctx 1 va ++ walked s e ctx 2 a ++ walked s e ctx 3 (stageOut s e ctx 2 a)

/-- Caches the leaves that a translation just used; the walks were served at the slices of their entries (19 R325, R327, R340). -/
def State.cacheLeaves (s : State) (core ctx va : Nat) : State :=
  let e := dieOf core
  let add := fun (s : State) (stage x : Nat) =>
    match freshLeaf s e ctx stage x with
    | .ok (some leaf) =>
      if (s.core core).tlb.any (fun t => t.hits ctx stage x) then s
      else (s.prepRead e ctx .normal (walked s e ctx stage x)).updCore core fun c => { c with tlb := { ctx, stage, frame := x / 4096, leaf } :: c.tlb }
    | _ => s
  let a := stageOut s e ctx 1 va
  add (add (add s 1 va) 2 a) 3 (stageOut s e ctx 2 a)

/-- Physical addresses of consecutive bytes, one translation for each 4 KiB frame; of the frames that fail, the first that raises 0x21 counts,
else the first (06 R141). -/
def translateRange (s : State) (core ctx va n : Nat) (k : AccKind) : Except (Nat × TFault) (List Nat) :=
  let frames := (List.range n).filter fun i => i == 0 || (va + i) % 4096 == 0
  let rs := frames.map fun i => (i, translate s core ctx ((va + i) % 2 ^ 57) k)
  let errs := rs.filterMap fun (i, r) => match r with | .error f => some ((va + i) % 2 ^ 57, f) | .ok _ => none
  match (errs.find? fun e => e.2.kind != 0).or errs.head? with
  | some e => .error e
  | none => .ok (rs.flatMap fun (i, r) => match r with
      | .ok pa => (List.range (min (n - i) (4096 - (va + i) % 4096))).map (pa + ·)
      | .error _ => [])

/-! ### Translation records and parking -/

/-- The 32-byte translation record in its 64-byte entry (19 R341, 21 R371). -/
def transRecord (core : Nat) (tenant : Word) (f : TFault) (va acc entry : Nat) (eng : Bool) : PendRec :=
  { body := BitVec.ofNat 512 (va % 2 ^ 57 + (if f.walk then 4 else acc) * 2 ^ 57 + f.stage * 2 ^ 60 + f.kind * 2 ^ 62 +
      f.iaddr % 2 ^ 52 * 2 ^ 64 + entry * 2 ^ 128 + core % 64 * 2 ^ 134 + dieOf core * 2 ^ 140 + (if eng then 2 ^ 142 else 0) +
      tenant.toNat * 2 ^ 160 + 2 * 2 ^ 504),
    cls := 0, stage := some f.stage, tenant, toRoot := false, wave := none, waited := false }

def Req.isEng : Req → Bool | .wave _ => false | _ => true

/-- A not-present fault enters the core's fault buffer: it joins an entry of the same context, stage and frame, or opens the lowest free one
with a record, or waits for one (06 R145, 12 R252, 19 R341). -/
def State.enterFault (s : State) (core : Nat) (w : FbWait) : State :=
  let c := s.core core
  match c.fbuf.find? fun (_, x) => x.ctx == w.ctx && x.stage == w.stage && x.frame == w.iaddr / 4096 with
  | some (k, x) => s.setCore core { c with fbuf := Tab.set c.fbuf k { x with reqs := x.reqs ++ [(w.req, w.va)] } }
  | none =>
    match (List.range 64).find? fun k => (Tab.find c.fbuf k).isNone with
    | some k =>
      (s.setCore core { c with fbuf := Tab.set c.fbuf k { ctx := w.ctx, stage := w.stage, frame := w.iaddr / 4096, reqs := [(w.req, w.va)] } }).sendRec
        (transRecord core w.tenant { stage := w.stage, kind := 0, iaddr := w.iaddr, walk := w.acc == 4 } w.va w.acc k w.req.isEng)
    | none => s.setCore core { c with fbWait := c.fbWait ++ [w] }

/-- Parks a wave at its instruction on a not-present fault (06 R145). -/
def parkWave (s : State) (id : Nat) (w : Wave) (ctx va : Nat) (f : TFault) (k : AccKind) (lane : Option Nat := none) (mask : Mask := 0) : Out :=
  .next ((s.setWave id { w with cond := .parked lane mask va, held := none, run := none, waited := false, latches := lostLatches }).enterFault w.core
    { req := .wave id, ctx, stage := f.stage, va, iaddr := f.iaddr, acc := if f.walk then 4 else k.code, tenant := w.tenant })

/-- Delivers 0x21 with its translation record of the failing kind (19 R341). -/
def permFault (s : State) (id : Nat) (w : Wave) (va : Nat) (f : TFault) (k : AccKind) (lane : Option Nat) (mask : Mask) : Out :=
  faultWave (s.sendRec (transRecord w.core w.tenant f va k.code 0 false)) id w 0x21 { code := 0x21, lane, addr := va, stage := f.stage } mask

/-! ### Live barrier objects (12 R232) -/

/-- Live objects of a group as their first offsets. -/
def State.liveObjects (s : State) (core group : Nat) : List Nat :=
  (s.core core).barriers.filterMap fun (_, b) => if b.live && b.group == group then some b.off else none

/-! ### Reused loads (09 R177) -/

/-- Drops the class L entries of a quarter that `p` picks, counting each (R177, R178). -/
def State.dropEntries (p : Place → List Nat → Bool) (core : Nat) (s : State) (q : Nat) : State :=
  let hit := fun (e : SEntry) => match e.lines with | some (pl, ls) => p pl ls | none => false
  let qt := s.quarter (core * 4 + q)
  let n : Nat := (qt.sorrel.map fun e => (e.2.filter hit).length).sum
  if n = 0 then s
  else (s.setQuarter (core * 4 + q) { qt with sorrel := qt.sorrel.map fun (k, es) => (k, es.filter fun e => !hit e) }).bumpQ core q .loadDrop n

/-- Drops the class L entries of a core that `p` picks; loads in flight to those lines make no entry. -/
def State.dropLoads (s : State) (core : Nat) (p : Place → List Nat → Bool) : State :=
  let s := (List.range 4).foldl (State.dropEntries p core) s
  if (s.core core).loads.isEmpty then s
  else
    let mark := fun (l : LoadRec) =>
      if l.acc.any (fun a => p a.place (a.addr.map (· / 128))) then { l with dropped := true } else l
    s.updCore core fun c => { c with loads := c.loads.map mark }

/-- The drop that a write to some lines causes. -/
def State.dropLines (s : State) (core : Nat) (place : Place) (lines : List Nat) : State :=
  s.dropLoads core fun pl ls => pl == place && ls.any fun l => lines.contains l

/-! ### Scratchpad (08 R162, 10 R184) -/

/-- A write event at a group's window: bytes of a live object are kept, the granule tags and the poison follow (10 R192, R207, 12 R232). -/
def State.scrWrite (s : State) (x : Writer) (gid : Nat) (bytes : List (Nat × Byte)) (tags : List (Nat × Bool)) (clears : List Nat := []) : State :=
  match Tab.find s.groups gid with
  | none => s
  | some g =>
    let objs := s.liveObjects g.core gid
    let held := fun (a : Nat) => objs.any fun o => decide (o ≤ a ∧ a < o + 16)
    let good := bytes.filter fun b => !held b.1
    let pgs := distinct (good.map fun b => b.1 / 32)
    let whole := fun (k : Nat) => (List.range 32).all fun i => if clears.contains k then !held (32 * k + i) else good.any fun b => b.1 == 32 * k + i
    let u : Group := { g with
      scr := good.foldl (fun m b => Tab.put emptyByte m b.1 b.2) g.scr,
      scrTags := (tags.filter fun t => !held (16 * t.1)).foldl (fun (t : Tab Bool) e => Tab.put false t e.1 e.2)
        ((distinct (good.map fun b => b.1 / 16)).foldl (fun (t : Tab Bool) k => Tab.put false t k false) g.scrTags),
      scrPoison := (pgs.filter whole).foldl (fun p k => Tab.put false p k false) g.scrPoison }
    let s := s.record x (.scr gid) good (tags.filter fun t => !held (16 * t.1)) (fun a => Tab.get emptyByte g.scr a) fun t => Tab.get false g.scrTags t
    let s := (s.setGroup gid u).dropLines g.core (.scr gid) (distinct (bytes.map fun b => b.1 / 128))
    if good.length = bytes.length then s else s.bumpCore g.core .barWdrop

def Group.rd (g : Group) (a : Nat) : Byte := Tab.get emptyByte g.scr a

/-! ### What a party of a core reads (11 R213-R215) -/

def PWrite.byteAt (w : PWrite) (pl : Place) (a : Nat) : Option Byte :=
  if w.place = pl then (w.bytes.find? fun b => b.1 == a).map Prod.snd else none

/-- A pending write is seen by its own party, and a global one, which performs at its core, by the core's other parties once the releases before it
have completed (R214, R216). A scratchpad write performs at its bank. -/
def PWrite.visible (c : CoreSt) (w : PWrite) (p : Party) : Bool :=
  decide (w.party = p) || (decide (w.place = .glob) && w.after.all fun r => !(c.releases.any fun x => x.id == r))

/-- The pending write that a party sees at a byte: the latest. -/
def CoreSt.overlay (c : CoreSt) (p : Party) (pl : Place) (a : Nat) : Option (Nat × Byte) :=
  c.pend.reverse.findSome? fun w => if w.visible c p then (w.byteAt pl a).map fun b => (w.id, b) else none

/-- A byte as it stands at its home, for a party of a core; unbacked memory reads as zero (19 R336). -/
def State.homeByte (s : State) (core : Nat) (pl : Place) (a : Nat) : Byte :=
  match pl with
  | .scr g => match Tab.find s.groups g with | some g => g.rd a | none => 0
  | .glob => if s.backing (partyDie core) a = .none then 0 else s.rdByte a
def State.homeTag (s : State) (core : Nat) (pl : Place) (g : Nat) : Bool :=
  match pl with
  | .scr k => match Tab.find s.groups k with | some x => Tab.get false x.scrTags g | none => false
  | .glob => if s.backing (partyDie core) (16 * g) = .none then false else s.tagAt (16 * g)

/-- Bytes of which a read finds what stands at the home whatever is on its way: those of a live barrier object (12 R232), and unbacked ones. -/
def State.atHome (s : State) (core : Nat) (pl : Place) (a : Nat) : Bool :=
  match pl with
  | .scr g => (match Tab.find s.groups g with | some x => (s.liveObjects x.core g).any fun o => decide (o ≤ a ∧ a < o + 16) | none => true)
  | .glob => decide (s.backing (partyDie core) a = .none)

/-- The latest value of a byte that a party of a core may read: what it sees on its way, else what stands at the home (R214). -/
def State.viewByte (s : State) (core : Nat) (p : Party) (pl : Place) (a : Nat) : Byte :=
  if s.atHome core pl a then s.homeByte core pl a
  else match (s.core core).overlay p pl a with | some (_, b) => b | none => s.homeByte core pl a

def State.viewTag (s : State) (core : Nat) (p : Party) (pl : Place) (g : Nat) : Bool :=
  let c := s.core core
  if s.atHome core pl (16 * g) then s.homeTag core pl g
  else
    match c.pend.reverse.find? fun w => w.visible c p && w.place == pl && w.bytes.any fun b => b.1 / 16 == g with
    | some w => match w.tags.find? fun t => t.1 == g with | some t => t.2 | none => false
    | none => s.homeTag core pl g

/-- Who reads, and with which floor (R213); `until'`: the reader's own writes from that id on follow the read in its program order. -/
structure Reader where
  core : Nat
  party : Party
  base : Nat
  know : List Nat
  until' : Option Nat := none
  deriving DecidableEq, Repr

def Wave.reader (w : Wave) (id : Nat) : Reader := { core := w.core, party := .wave id, base := w.base, know := w.know }
/-- An engine command reads with the floor of its issuer at issue, raised by its acquire (R213, R224). -/
def Issuer.reader (b : Issuer) (core : Nat) (p : Party) : Reader := { core, party := p, base := b.base, know := b.know }

/-- Parties whose commands are one program: their own earlier writes stand in their floor (R213). An engine's floor is its command's (R224). -/
def Party.isProgram : Party → Bool | .wave _ | .landing _ => true | _ => false

/-- Whether a write is in the reader's floor: named, or made by the wave or the Landing core itself (R213). -/
def Reader.knows (r : Reader) (p : Party) (id : Nat) : Bool := r.know.contains id || (decide (p = r.party) && p.isProgram)
/-- Whether a write follows the read in the reader's program order (R214). -/
def Reader.future (r : Reader) (p : Party) (id : Nat) : Bool := decide (p = r.party) && (match r.until' with | some n => decide (n ≤ id) | none => false)

/-- A read event takes a write that it need not take: free, event by event (R215). One write event is taken whole by one read event (R221). -/
def State.takes (s : State) (ev id : Nat) : Bool := Config.choice s.draw (2 ^ 40 * (ev + 1) + id)

/-- A write on its way, and an arrived one, as a read event takes them: those in the floor, and others freely (R214, R215). -/
def State.takesP (s : State) (r : Reader) (ev : Nat) (w : PWrite) : Bool :=
  w.visible (s.core r.core) r.party && !r.future w.party w.id && (r.knows w.party w.id || s.takes ev w.id)
def State.takesH (s : State) (r : Reader) (ev : Nat) (e : HEv) : Bool :=
  !r.future e.party e.id && (decide (e.ix < r.base) || r.knows e.party e.id || s.takes ev e.id)

def HEv.byteAt (e : HEv) (pl : Place) (a : Nat) : Option (Byte × Byte) := if e.place = pl then (e.cells.find? fun c => c.1 == a).map Prod.snd else none
def HEv.tagAt (e : HEv) (pl : Place) (g : Nat) : Option (Bool × Bool) := if e.place = pl then (e.tags.find? fun c => c.1 == g).map Prod.snd else none

/-- One byte as a read event returns it, with the write that it comes from (R214, R215): the coherence-latest of the writes that the event takes;
before the first of them, what stood there. -/
def State.pick (s : State) (r : Reader) (ev : Nat) (pl : Place) (a : Nat) : Byte × Option Nat :=
  if s.atHome r.core pl a then (s.homeByte r.core pl a, none)
  else
    match (s.core r.core).pend.reverse.findSome? fun w => if s.takesP r ev w then (w.byteAt pl a).map fun b => (b, some w.id) else none with
    | some x => x
    | none =>
      match s.hist.reverse.findSome? fun e => if s.takesH r ev e then (e.byteAt pl a).map fun c => (c.1, some e.id) else none with
      | some x => x
      | none => (((s.hist.findSome? fun e => e.byteAt pl a).map Prod.snd).getD (s.homeByte r.core pl a), none)

/-- A granule's tag as the same read event returns it (R222). -/
def State.pickTag (s : State) (r : Reader) (ev : Nat) (pl : Place) (g : Nat) : Bool :=
  if s.atHome r.core pl (16 * g) then s.homeTag r.core pl g
  else
    match (s.core r.core).pend.reverse.find? fun w => s.takesP r ev w && w.place == pl && w.bytes.any fun b => b.1 / 16 == g with
    | some w => match w.tags.find? fun t => t.1 == g with | some t => t.2 | none => false
    | none =>
      match s.hist.reverse.findSome? fun e => if s.takesH r ev e then (e.tagAt pl g).map Prod.fst else none with
      | some t => t
      | none => ((s.hist.findSome? fun e => e.tagAt pl g).map Prod.snd).getD (s.homeTag r.core pl g)

/-- The latest value at the home, with the write that left it: what a `.vol` read and an atomic return (R214, 10 R188, R196). -/
def State.pickHome (s : State) (core : Nat) (pl : Place) (a : Nat) : Byte × Option Nat :=
  (s.homeByte core pl a, s.hist.reverse.findSome? fun e => (e.byteAt pl a).map fun _ => e.id)

/-- Whether a pending write makes every byte of a granule new, which ends its poison (10 R207). -/
def PWrite.mends (w : PWrite) (pl : Place) (g : Nat) : Bool :=
  decide (w.place = pl) && (w.clears.contains g || (List.range 32).all fun i => w.bytes.any fun b => b.1 == 32 * g + i)

/-- Whether a read of a byte finds poison; unbacked memory is poison (19 R336, R344). A write of the granule's every byte that the party sees
ends it; a partial one leaves it (10 R207). -/
def State.viewPoison (s : State) (core : Nat) (p : Party) (pl : Place) (a : Nat) : Bool :=
  let c := s.core core
  let mended := fun (_ : Unit) => c.pend.any fun w => w.visible c p && w.mends pl (a / 32)
  match pl with
  | .scr k => (match Tab.find s.groups k with | some x => Tab.get false x.scrPoison (a / 32) | none => false) && !mended ()
  | .glob => if s.backing (partyDie core) a = .none then true else s.poisoned a && !mended ()

/-! ### Writes, releases, acquires -/

/-- Releases of a party that have not completed: a later write of the party waits for them (11 R216). -/
def CoreSt.openReleases (c : CoreSt) (p : Party) : List Nat :=
  c.releases.filterMap fun r => if r.party = p ∧ r.scope ≠ .wave then some r.id else none

/-- Whether a pending write of the core overlaps some bytes of a place. -/
def CoreSt.overlaps (c : CoreSt) (pl : Place) (bytes : List (Nat × Byte)) : Bool :=
  c.pend.any fun v => decide (v.place = pl) && v.bytes.any fun b => bytes.any fun a => a.1 == b.1

/-- A group's window is held for compaction: an access that arrives at it waits until it has moved (18 R310). -/
def State.windowMoves (s : State) (g : Nat) : Bool := match Tab.find s.groups g with | some x => x.moving.isSome | none => false
def State.placeMoves (s : State) (pl : Place) : Bool := match pl with | .scr g => s.windowMoves g | .glob => false

/-- A write event performs at its core (11 R214, R223): a global write goes on its way to its home; a scratchpad write is at its home unless a
release of the party holds it back, an earlier write of the core to one of its bytes is still on its way, or the window moves. -/
def State.performWrite (s : State) (core : Nat) (p : Party) (ctx : Nat) (pl : Place) (bytes : List (Nat × Byte)) (tags : List (Nat × Bool))
    (after : List Nat := []) (cp : Policy := .normal) (clears : List Nat := []) : State :=
  if bytes.isEmpty then s
  else
    let lines := distinct (bytes.map fun b => b.1 / 128)
    let bank := match pl with | .glob => core | .scr g => (match Tab.find s.groups g with | some x => x.core | none => core)
    let s := s.dropLines bank pl lines
    let after := (s.core core).openReleases p ++ after
    let held := (s.core core).overlaps pl bytes || s.placeMoves pl
    match pl, after, held with
    | .scr g, [], false => s.fresh.scrWrite { id := s.nextId, core, party := p } g bytes tags clears
    | _, _, _ =>
      let x : PWrite := { id := s.nextId, party := p, place := pl, bytes, tags, after, ctx, cp, clears }
      (s.updCore core fun c => { c with pend := c.pend ++ [x] }).fresh

/-- The k-th pending write of a core reaches its home (11 R212): nothing earlier of the core that overlaps it is left behind. -/
def CoreSt.mayArrive (c : CoreSt) (k : Nat) : Bool :=
  match c.pend[k]? with
  | none => false
  | some w =>
    (w.after.all fun r => !(c.releases.any fun x => x.id == r)) &&
    (c.pend.take k).all fun v => v.place != w.place || !(v.bytes.any fun b => w.bytes.any fun a => a.1 == b.1)

/-- What a gate waits for has come. -/
def State.passGate (s : State) (g : Gate) : State :=
  { s with waves := s.waves.map fun (k, w) => (k, if w.gates.contains g then { w with gates := w.gates.filter fun x => x != g } else w) }

def State.arrive (s : State) (core k : Nat) : State :=
  match (s.core core).pend[k]? with
  | none => s
  | some w =>
    let t := s.updCore core fun c => { c with
      pend := c.pend.eraseIdx k, releases := c.releases.map fun r => { r with need := r.need.filter fun i => i != w.id } }
    match w.place with
    | .scr g => (t.passGate (.write w.id)).scrWrite { id := w.id, core, party := w.party } g w.bytes w.tags w.clears
    | .glob => (t.passGate (.write w.id)).arriveWrite (some { id := w.id, core, party := w.party }) (partyDie core) w.ctx w.cp w.bytes w.tags w.clears

/-- Whether a write waits for no release. -/
def PWrite.free (c : CoreSt) (w : PWrite) : Bool := w.after.all fun r => !(c.releases.any fun x => x.id == r)

/-- The pending writes of a core that must be home before an access at the home of some bytes (10 R188, R196): those that its party sees in its floor,
and, before each, every older one that it overlaps (11 R212). Ids, oldest first. -/
def CoreSt.ahead (c : CoreSt) (r : Reader) (pl : Place) (as : List Nat) : List Nat :=
  (c.pend.reverse.foldl (fun (acc : List Nat × List Nat) w =>
    let hit := fun (l : List Nat) => w.bytes.any fun b => l.contains b.1
    if w.place = pl ∧ ((r.knows w.party w.id ∧ hit as) ∨ hit acc.2) then (w.id :: acc.1, w.bytes.map Prod.fst ++ acc.2) else acc) ([], [])).1

/-- Those of them that a release holds back. -/
def CoreSt.stuck (c : CoreSt) (r : Reader) (pl : Place) (as : List Nat) : List Nat :=
  (c.ahead r pl as).filter fun id => c.pend.any fun w => w.id == id && !w.free c

/-- Brings them home, in order. -/
def State.flushOverlap (s : State) (r : Reader) (pl : Place) (as : List Nat) : State :=
  ((s.core r.core).ahead r pl as).foldl (fun s id =>
    match (s.core r.core).pend.findIdx? fun w => w.id == id with
    | some k => s.arrive r.core k
    | none => s) s

/-- What of a publication set has not arrived: the party's own pending writes and atomic requests, and the pending writes named (11 R216). -/
def CoreSt.publication (c : CoreSt) (p : Party) (ids : List Nat) : List Nat :=
  (c.pend.filterMap fun w => if decide (w.party = p) || ids.contains w.id then some w.id else none) ++
  (c.atoms.filterMap fun a => if .wave a.wave = p then some a.id else none)

/-- The writes of a party that a floor at a place of the home order does not take in by their place. -/
def State.ownIds (s : State) (core : Nat) (p : Party) (base : Nat) : List Nat :=
  (s.hist.filterMap fun e => if e.party = p ∧ base ≤ e.ix then some e.id else none) ++
  (s.core core).pend.filterMap fun w => if w.party = p then some w.id else none

/-- A wave's publication set now: its floor, what its reads returned, its own writes (11 R216). -/
def Wave.pub (w : Wave) (s : State) (id : Nat) : Pub := { base := w.base, ids := w.know ++ w.seen, owns := [(.wave id, s.nextId)] }

/-- A release by a party (11 R216): complete at once when nothing is left to arrive and no earlier one of the party is open. -/
def State.release (s : State) (core : Nat) (p : Party) (sc : Scope) (pub : Pub) (need : List Nat := []) : State :=
  let c := s.core core
  let need := distinct (c.publication p pub.ids ++ need)
  let t : State := { s with rels := s.rels ++ [{ id := s.nextId, core, party := p, scope := sc, pub }], nextId := s.nextId + 1 }
  if need.isEmpty && !(c.releases.any fun r => r.party == p) then t
  else t.setCore core { c with releases := c.releases ++ [{ id := s.nextId, party := p, scope := sc, need }] }

/-- Whether the k-th release of a core has completed: everything published is home and no earlier release of the party is open (10 R201). -/
def CoreSt.mayComplete (c : CoreSt) (k : Nat) : Bool :=
  match c.releases[k]? with
  | none => false
  | some r => r.need.isEmpty && (c.releases.take k).all fun q => q.party != r.party

/-- Whether a scope, from a party of a core, covers the home of a byte (11 R211). -/
def State.covers (s : State) (core : Nat) (sc : Scope) (pl : Place) (a : Nat) : Bool :=
  match pl, sc with
  | _, .wave => false
  | .scr g, .core => (match Tab.find s.groups g with | some x => x.core == core | none => false)
  | .scr g, _ => (match Tab.find s.groups g with | some x => decide (core < 256) && clusterOf x.core == clusterOf core | none => false)
  | .glob, .core => false
  | .glob, .clus | .glob, .die => s.homeDie a == partyDie core
  | .glob, .pkg | .glob, .sys => true

/-- Whether one party lies within a scope of another (00 R7, 11 R217). -/
def within (sc : Scope) (p : Party) (core : Nat) (q : Party) (other : Nat) : Bool :=
  match sc with
  | .wave => decide (p = q)
  | .core => core == other && p != .peer && q != .peer
  | .clus => decide (core < 256 ∧ other < 256) && clusterOf core == clusterOf other && p != .peer && q != .peer
  | .die => partyDie core == partyDie other && p != .peer && q != .peer
  | .pkg => p != .peer && q != .peer
  | .sys => true

/-- A write event as an acquire weighs it: an arrived one has its place in the home order. -/
structure EvRef where
  id : Nat
  ix : Option Nat
  core : Nat
  party : Party
  place : Place
  addr : Nat
  deriving DecidableEq, Repr

/-- The arrived writes, and those on their way from a core. -/
def State.events (s : State) (core : Nat) : List EvRef :=
  (s.hist.map fun e => ({ id := e.id, ix := some e.ix, core := e.core, party := e.party, place := e.place, addr := (e.cells.head?.map Prod.fst).getD 0 } : EvRef)) ++
  (s.core core).pend.map fun w => { id := w.id, ix := none, core, party := w.party, place := w.place, addr := (w.bytes.head?.map Prod.fst).getD 0 }

/-- Whether a publication set holds a write. -/
def Pub.holds (x : Pub) (e : EvRef) : Bool :=
  (match e.ix with | some n => decide (n < x.base) | none => false) || x.ids.contains e.id || x.owns.any fun o => decide (e.party = o.1 ∧ e.id < o.2)

/-- Q observes a release: a read of Q returned a write that its party performed after it, or a barrier that Q waited on had counted a signal that
the party issued after it (R217); `told`: the releases that those signals were. -/
def RelRec.observed (x : RelRec) (es : List EvRef) (seen : List Nat) (told : List RelRec) : Bool :=
  (told.any fun y => decide (y.party = x.party ∧ x.id ≤ y.id)) || es.any fun e => decide (e.party = x.party ∧ x.id < e.id) && seen.contains e.id

/-- The scope conditions of R217, between a release and an acquire by a party of a core. -/
def RelRec.mutual (x : RelRec) (sc : Scope) (p : Party) (core : Nat) : Bool := within x.scope x.party x.core p core && within sc p core x.party x.core

/-- Scopes whose acquire refreshes the core's snapshot (10 R202, 11 R218). -/
def scopeRefreshes : Scope → Bool | .wave | .core => false | _ => true

/-- The floor after an acquire (11 R213, R217, R219, R220): it takes in, of the writes whose homes the scope covers or whose writer is a party of
the same core, those that the reader's reads returned and those that a synchronising release published; and a refresh takes in every write that has
arrived at a home it covers, except what only a release published that was observed and does not synchronise (log 6). -/
def State.floorAfter (s : State) (r : Reader) (seen heard : List Nat) (sc : Scope) : Nat × List Nat :=
  if sc = .wave then (r.base, r.know)
  else
    let es := s.events r.core
    let told := s.rels.filter fun x => heard.contains x.id
    let obs := s.rels.filter fun x => x.observed es seen told
    let sync := obs.filter fun x => x.mutual sc r.party r.core
    let failed := obs.filter fun x => !x.mutual sc r.party r.core
    let cov := fun (e : EvRef) => s.covers r.core sc e.place e.addr
    let joins := fun (e : EvRef) => (cov e || e.core == r.core) && (seen.contains e.id || sync.any fun x => x.pub.holds e)
    let fresh := fun (e : EvRef) => scopeRefreshes sc && e.ix.isSome && cov e && !(failed.any fun x => x.pub.holds e)
    let old := fun (e : EvRef) => r.know.contains e.id || (match e.ix with | some n => decide (n < r.base) | none => false)
    let more := es.filter fun e => !old e && (joins e || fresh e)
    if (sc = .pkg ∨ sc = .sys) ∧ failed.isEmpty ∧ r.core < 256 then
      let b := max r.base s.homeIx
      (b, (r.know ++ more.map EvRef.id).filter fun n => es.any fun e => e.id == n && match e.ix with | some i => decide (b ≤ i) | none => true)
    else (r.base, r.know ++ more.map EvRef.id)

/-- The refresh of an acquire (10 R202): at cluster scope and wider the phase advances and every reused load of the core is dropped. -/
def State.refresh (s : State) (core : Nat) (sc : Scope) : State :=
  if scopeRefreshes sc then (s.updCore core fun c => { c with phase := c.phase + 1 }).dropLoads core fun _ _ => true else s

/-- The loads of a wave that are in flight have performed: what each read at issue is what it returns (11 R213, R216). -/
def State.fixLoads (s : State) (core wave : Nat) : State :=
  s.updCore core fun c => { c with loads := c.loads.map fun (r : LoadRec) => if r.wave = wave then { r with fixed := true } else r }

/-- The writes that those loads return. -/
def State.inFlightIds (s : State) (core wave : Nat) : List Nat :=
  (s.core core).loads.flatMap fun (r : LoadRec) => if r.wave = wave ∧ !r.fixed then r.ids else []

def Wave.sees (w : Wave) (ids : List Nat) : Wave := { w with seen := w.seen ++ (distinct ids).filter fun n => !w.seen.contains n }

/-- A wave at a release or an acquire: its loads in flight count among its reads. -/
def State.settleReads (s : State) (id : Nat) (w : Wave) : State × Wave := (s.fixLoads w.core id, w.sees (s.inFlightIds w.core id))

/-- Signals whose releases a wave has observed (11 R217, R225). -/
def Wave.hears (w : Wave) (rels : List Nat) : Wave := { w with heard := w.heard ++ (distinct rels).filter fun n => !w.heard.contains n }

/-- A release by a wave. -/
def State.releaseBy (s : State) (id : Nat) (w : Wave) (sc : Scope) : State × Wave :=
  let (t, v) := s.settleReads id w
  (t.release v.core (.wave id) sc (v.pub t id), v)

/-- An acquire by a wave: its floor, and the refresh (11 R213, R217, R220). -/
def State.acquire (s : State) (id : Nat) (w : Wave) (sc : Scope) : State :=
  let (t, v) := s.settleReads id w
  let f := t.floorAfter (v.reader id) v.seen v.heard sc
  (t.refresh v.core sc).setWave id { v with base := f.1, know := f.2 }

/-- LOSS of a context, saturating (10 R206). -/
def State.addLoss (s : State) (ctx n : Nat) : State :=
  s.setReg (.ctxw ctx 3) (BitVec.ofNat 64 (min (2 ^ 32 - 1) (s.regF (.ctxw ctx 3) 31 0 + n)))

end Sys2Proof.Machine
end

