-- ==== Sys2Proof/Machine/Operands.lean ====
section
/-! DEFINITION. Every operand form of a wave instruction (02 R45-R51): registers, pairs, quads, latches, ABS and NEG, immediates; and
the one way in which a result reaches its destination: registers, tags, latches, flags, physical names (01 R17, 02 R53-R55, 09 R168). -/

namespace Sys2Proof.Machine

/-! ### Sources -/

/-- A latch entry in a lane; a lost one reads as zero (02 R54, R55). -/
def Wave.latchLane (w : Wave) (n l : Nat) : DWord :=
  match w.latches[n]? with
  | some (some v) => Lanes.at' 0 v l
  | _ => 0

/-- An operand in a lane, 64 bits where `wide` and 32 else, before ABS and NEG (02 R45, R46, R54). -/
def Wave.opnd (w : Wave) (wide : Bool) (x : Opnd) (l : Nat) : DWord :=
  match x, wide with
  | .latch n, true => w.latchLane n.toNat l
  | .latch n, false => ((w.latchLane n.toNat l).setWidth 32).setWidth 64
  | .reg n _ _, true => w.pairLane n.toNat l
  | .reg n _ _, false => (w.regLane n.toNat l).setWidth 64

/-- A 32-bit operand. -/
def Wave.opnd32 (w : Wave) (x : Opnd) (l : Nat) : Word := (w.opnd false x l).setWidth 32

/-- ABS first, NEG second, on the sign bit of every element (02 R45). -/
def applyMods (ty : Nat) (x : Opnd) (v : DWord) : DWord :=
  match x with
  | .latch _ => v
  | .reg _ abs neg =>
    let m := signMask ty
    let v := if abs then v &&& ~~~m else v
    if neg then v ^^^ m else v

/-- A float operand of a TY code. -/
def Wave.fopnd (w : Wave) (ty : Nat) (x : Opnd) (l : Nat) : DWord := applyMods ty x (w.opnd (ty == 1) x l)

/-- IMM of format I as an integer type's pattern (02 R51). -/
def immInt (ty : Nat) (imm : Word) : DWord := if ty = 3 then imm.signExtend 64 else imm.setWidth 64

/-- IMM as a float type's pattern: for `.f64` an FP32 value widened exactly, a signalling NaN to a signalling one (02 R51). -/
def immFloat (ty : Nat) (imm : Word) : DWord :=
  if ty = 1 then BitVec.ofNat 64 ((fmtTy 1).widen ((fmtTy 0).decode imm.toNat)) else imm.setWidth 64

/-- A quad named by an operand field: its 128 bits and tag in a lane (01 R15). -/
def Wave.quadOpnd (w : Wave) (x : Opnd) (l : Nat) : Cap := w.quadLane x.num l

/-- OP of a wave instruction. -/
def opOf (i : Instr) : Nat := match i.wave with | some (op, _, _) => op | none => 0

/-- Whether the instruction reads a lost latch (02 R55). -/
def readsLost (i : Instr) (x : W) (w : Wave) : Bool :=
  let lost := fun (k : Sk) (o : Opnd) =>
    k != .no && (match o with | .latch n => (match w.latches[n.toNat]? with | some (some _) => false | _ => true) | .reg .. => false)
  lost i.row.a x.a || lost i.row.b x.b || lost i.row.c x.c

/-! ### Destinations -/

/-- Lanes of the slices that hold a live lane: the others are returned and read as zero (01 R14, 09 R166). -/
def sliceMask (live : Mask) : Mask := maskOf fun l => fld live (l / 8 * 8 + 7) (l / 8 * 8) != 0

/-- Writes one register in the lanes of `act`: their tag bits clear, other lanes keep value and tag (01 R17, 09 R166). -/
def Wave.putLanes (w : Wave) (key : Nat) (act : Mask) (f : Nat → Word) : Wave :=
  let old := Tab.get zeroReg w.regs key
  let keep := sliceMask w.live
  { w with
    regs := Tab.put zeroReg w.regs key
      (lanes fun l => if act.getLsbD l then f l else if keep.getLsbD l then Lanes.at' 0 old l else 0)
    tags := Tab.put 0 w.tags key (Tab.get 0 w.tags key &&& keep &&& ~~~act) }

/-- Writes a result to D, or to the pair D, D + 1 (02 R46). -/
def Wave.putDst (w : Wave) (wide : Bool) (d : Nat) (act : Mask) (v : Lanes DWord) : Wave :=
  let w := w.putLanes (w.key d) act fun l => (Lanes.at' 0 v l).setWidth 32
  if wide then w.putLanes (w.key (d + 1)) act fun l => (Lanes.at' 0 v l >>> 32).setWidth 32 else w

/-- A capability write: all four registers, each lane's tag bit set to the tag of its result (01 R17, 09 R166). -/
def Wave.putQuad (w : Wave) (d : Nat) (act : Mask) (f : Nat → Cap) : Wave :=
  (List.range 4).foldl (fun w k =>
    let w := w.putLanes (w.key (d + k)) act fun l => ((f l).bits >>> (32 * k)).setWidth 32
    { w with tags := Tab.put 0 w.tags (w.key (d + k)) (Tab.get 0 w.tags (w.key (d + k)) ||| maskOf fun l => act.getLsbD l && (f l).tag) }) w

/-- The entry of a result into the latches (02 R53). -/
def Wave.enterLatch (w : Wave) (act : Mask) (v : Lanes DWord) : Wave :=
  { w with latches := some (lanes fun l => if act.getLsbD l then Lanes.at' 0 v l else 0) :: w.latches.take 3 }

/-- Flags are sticky (01 R23). -/
def Wave.flag (w : Wave) (flags : Nat) : Wave := { w with fpc := w.fpc ||| BitVec.ofNat 32 flags }

/-- The flags of the active lanes together (03 R82). -/
def orFlags (act : Mask) (f : Nat → Nat) : Nat := (laneList act).foldl (fun a l => a ||| f l) 0

/-! ### Physical names (09 R166-R171) -/

/-- The physical name of a register. -/
def Wave.name (w : Wave) (key : Nat) : Nat := (Tab.find w.names key).getD (w.nameBase + key)

/-- The registers of a wave that map to a name. -/
def Wave.mapped (w : Wave) (n : Nat) : List Nat :=
  (w.names.filterMap fun (k, m) => if m = n then some k else none) ++
  (if w.nameBase ≤ n ∧ n < w.nameBase + 1024 ∧ (Tab.find w.names (n - w.nameBase)).isNone then [n - w.nameBase] else [])

/-- References to a name on a quarter, as (wave, key) (R171). -/
def State.refs (s : State) (qk n : Nat) : List (Nat × Nat) :=
  s.waves.flatMap fun (id, w) => if w.quarterKey = qk ∧ w.evicted.isNone then (w.mapped n).map fun k => (id, k) else []

/-- Contents and tags of a name. -/
def State.nameData (s : State) (qk n : Nat) : Option (VReg × Mask) :=
  match (s.refs qk n).head? with
  | none => none
  | some (id, k) => (Tab.find s.waves id).map fun w => (Tab.get zeroReg w.regs k, Tab.get 0 w.tags k)

/-- Names that an entry holds: sources, guard, prior destinations, results. -/
def SEntry.names (e : SEntry) : List Nat :=
  e.key.names ++ (match e.key.part with | some (_, ds) => ds | none => []) ++ e.results

/-- A wave of a group stopped holding some slices of a name (R167): the accounting passes to the remaining other wave with the lowest slot, and a slice
that goes to another group is copied into its banks. -/
def State.passSlices (s : State) (qk wave group n : Nat) (slices : List Nat) : State :=
  let others := ((distinct ((s.refs qk n).map Prod.fst)).filter (· != wave)).filterMap fun id => (Tab.find s.waves id).map fun w => (w.slot, id, w.group)
  match others.foldl (fun best x => match best with | none => some x | some (b : Nat × Nat × Nat) => if x.1 < b.1 then some x else some b) none with
  | none => s
  | some (_, heir, g) =>
    slices.foldl (fun s k =>
      let q := s.quarter qk
      if Tab.find q.owner (4 * n + k) = some wave then
        s.setQuarter qk { q with
          owner := Tab.set q.owner (4 * n + k) heir
          sliceCopies := if g = group then q.sliceCopies else q.sliceCopies ++ [(4 * n + k, group, g)] }
      else s) s

/-- A wave of a group dropped some mappings. A name without references is free: every dedup way and Sorrel entry that names it goes, and a compare of it is
abandoned (R170, R171); a name that others still map passes its accounting (R167). -/
def State.dropRefs (s : State) (qk wave group : Nat) (olds : List Nat) : State :=
  let dead := olds.filter fun n => (s.refs qk n).isEmpty
  let left := olds.filter fun n => !((s.refs qk n).any fun r => r.1 == wave) && !dead.contains n
  let s := left.foldl (fun s n => s.passSlices qk wave group n [0, 1, 2, 3]) s
  if dead.isEmpty then s
  else
    s.updQuarter qk fun q => { q with
      dedup := (q.dedup.map fun (b, ws) => (b, ws.filter fun (x : DedupWay) => !dead.contains x.name)).filter fun e => !e.2.isEmpty
      sorrel := (q.sorrel.map fun (k, es) => (k, es.filter fun (e : SEntry) => !(e.names.any dead.contains))).filter fun e => !e.2.isEmpty
      compares := q.compares.filter fun c => !(dead.contains c.new || dead.contains c.old)
      owner := q.owner.filter fun e => !dead.contains (e.1 / 4) }

/-- Gives each written register a new name; `looked` is spent (R168). A result awaited for one of them no longer comes (08 R157). -/
def Wave.rename (w : Wave) (keys : List Nat) (base : Nat) : Wave :=
  { w with names := keys.zipIdx.foldl (fun t (k, i) => Tab.set t k (base + i)) w.names, looked := none,
           scoreboard := w.scoreboard.filter fun e => !keys.contains e.1 }

/-- The quarter's side of a write: new names on their way to writeback with the entry that they may make, old ones freed (R168, R171, R174).
`w` is the wave before the write, `w'` after it; `wbk` says whether the names go to writeback now. -/
def State.noteNames (s : State) (id : Nat) (w w' : Wave) (keys : List Nat) (key : Option SKey) (flags : Nat) (wbk : Bool) : State :=
  let qk := w.quarterKey
  let base := (s.quarter qk).nextName
  let news := (List.range keys.length).map (base + ·)
  let wb : List PendWb :=
    if w.shares && wbk then [{ wave := id, names := news, key, flags := BitVec.ofNat 32 (flags &&& 0x3F00), lines := none, share := true }] else []
  let t := (s.setWave id w').updQuarter qk fun q => { q with nextName := base + keys.length, wb := q.wb ++ wb }
  t.dropRefs qk id w.group (keys.map w.name)

def State.noteWrite (s : State) (id : Nat) (w w' : Wave) (keys : List Nat) (flags : Nat) : State :=
  s.noteNames id w w' keys w.looked flags true

/-- A write of registers by an instruction that completes: `w'` holds the results. -/
def finish (s : State) (id : Nat) (w w' : Wave) (keys : List Nat) (flags : Nat) : Out :=
  let w' := w'.rename keys (s.quarter w.quarterKey).nextName
  .next (advance (s.noteWrite id w w' keys flags) id w')

/-- The keys of the registers that a destination covers. -/
def Wave.dstKeys (w : Wave) (d n : Nat) : List Nat := (List.range n).map fun k => w.key (d + k)

/-- Completion of an instruction with one destination that enters the latches (02 R48, R53). -/
def retire (s : State) (id : Nat) (w : Wave) (i : Instr) (x : W) (act : Mask) (wide : Bool) (v : Lanes DWord) (flags : Nat) : Out :=
  let all := flags ||| (if readsLost i x w then fLLOST else 0)
  let w1 := if x.nw then w else w.putDst wide x.d.toNat act v
  finish s id w ((w1.enterLatch act v).flag all) (if x.nw then [] else w.dstKeys x.d.toNat (if wide then 2 else 1)) flags

/-- Completion of an instruction that reads operands and writes no register: only a lost latch shows (02 R55). -/
def doneL (s : State) (id : Nat) (w : Wave) (i : Instr) (x : W) : Out :=
  done s id (w.flag (if readsLost i x w then fLLOST else 0))

/-- A 64-bit type of the instruction's own class (02 R46). -/
def wideOf (i : Instr) (x : W) : Bool := is64 (opOf i) x.ty.toNat

/-- A lane-by-lane instruction without flags: `f` gives each active lane's result. -/
def laneOp (i : Instr) (x : W) (s : State) (wide : Bool) (f : Wave → Nat → DWord) : Out :=
  withWave s fun id w => retire s id w i x (w.active x.g) wide (lanes (f w)) 0

/-- A lane-by-lane float instruction: results with flags (03 R82). -/
def laneOpF (i : Instr) (x : W) (s : State) (wide : Bool) (f : Wave → Nat → DWord × Nat) : Out :=
  withWave s fun id w =>
    let act := w.active x.g
    let r := lanes (f w)
    retire s id w i x act wide (lanes fun l => (Lanes.at' (0, 0) r l).1) (orFlags act fun l => (Lanes.at' (0, 0) r l).2)

/-- A boolean result. -/
def bit (b : Bool) : DWord := if b then 1 else 0

end Sys2Proof.Machine
end

