-- ==== Sys2Proof/Machine/Fetch.lean ====
section
/-! DEFINITION. Fetch lines (02 R33-R36): where a line lies, its word, parity and kind; and the check of a transfer's target (R34, R37, 04
R104). -/

namespace Sys2Proof.Machine

/-- The instruction in slot `k` of a line's 512 bits, and the line word (R33). -/
def slotWord (line k : Nat) : IWord := BitVec.ofNat 96 (line / 2 ^ (96 * k))
def lineWord (line : Nat) : Word := BitVec.ofNat 32 (line / 2 ^ 480)

/-- Even parity of a slot: the exclusive OR of its 96 bits (R35). -/
def parity (x : IWord) : Bool := (List.range 96).foldl (fun p i => p != x.getLsbD i) false

/-- PAR of a slot does not match (R36). -/
def parBad (line k : Nat) : Bool := parity (slotWord line k) != (lineWord line).getLsbD k

/-- A KIND that holds no code, or nonzero reserved bits (R36). -/
def kindBad (lw : Word) : Bool := decide (2 ≤ kindOf lw) || fld lw 31 16 != 0

/-- The physical addresses of the line of a PC: one translation with EX (19 R339). -/
def fetchLine (s : State) (w : Wave) (pc : PC) : Except TFault (List Nat) :=
  (translateRange s w.core (s.ctxOf w) (lineOf pc).toNat 64 .fetch).mapError Prod.snd

/-- The 512 bits of a fetched line. -/
def State.lineBits (s : State) (e : Nat) (pas : List Nat) : Nat :=
  leNat (pas.map fun pa => if s.backing e pa = .none then 0 else s.homeAt pa)

/-- Poison in a fetched line counts as a parity fault of every slot (log 40). -/
def State.linePoison (s : State) (e : Nat) (pas : List Nat) : Bool :=
  pas.any fun pa => decide (s.backing e pa = .none) || s.poisonAt pa

/-- An illegal PC (R34). -/
def illegalPc (pc : PC) : Bool := fld pc 5 3 != 0 || decide (5 ≤ slotOf pc)

/-- What the check of a transfer's target finds (R34, R37). -/
inductive Target
  | good | cause (code : Nat) | trans (f : TFault)
  deriving DecidableEq, Repr

def checkTarget (s : State) (w : Wave) (pc : PC) : Target :=
  match fetchLine s w pc with
  | .error f => if illegalPc pc then .cause 0x03 else .trans f
  | .ok pas =>
    let lw := lineWord (s.lineBits (dieOf w.core) pas)
    if 2 ≤ kindOf lw then .cause 0x04
    else if illegalPc pc || !lw.getLsbD (5 + slotOf pc) then .cause 0x03
    else .good

/-- A fault of a fetch: 0x20 parks the wave at its instruction, any other stops it with 0x21 and its translation record (19 R339, R341). -/
def fetchFault (s : State) (id : Nat) (w : Wave) (pc : PC) (f : TFault) : Out :=
  if f.kind = 0 then parkWave s id w (s.ctxOf w) (lineOf pc).toNat f .fetch
  else permFault s id w (lineOf pc).toNat f .fetch none 0

/-- Runs `k` where the target of a transfer is legal; else the transferring instruction has no effect (R37). -/
def withTarget (s : State) (id : Nat) (w : Wave) (pc : PC) (k : Out) : Out :=
  match checkTarget s w pc with
  | .good => k
  | .cause c => trapCode s id w c
  | .trans f => fetchFault s id w pc f

/-- Target of a 32-bit field: signed line offset above a slot number (04 R104). -/
def target32 (pc : PC) (imm : Word) : PC :=
  lineOf pc + (BitVec.ofInt 57 (64 * (imm.toInt / 8))) + BitVec.ofNat 57 (fld imm 2 0)
/-- Target of a 16-bit field (04 R104). -/
def target16 (pc : PC) (x : BitVec 16) : PC :=
  lineOf pc + (BitVec.ofInt 57 (64 * (x.toInt / 8))) + BitVec.ofNat 57 (fld x 2 0)

/-- A transfer completes: the flow leaves by the branch, so R38 does not apply. -/
def transfer (s : State) (id : Nat) (w : Wave) (pc : PC) : Out := .next (s.setWave id (w.goto pc))

/-! ### What stands next, and readiness (02 R39, R41, 08 R156, R157) -/

/-- The line of a wave's PC, where it can be fetched. -/
def nextLine (s : State) (w : Wave) : Option Nat :=
  match fetchLine s w w.pc with | .ok pas => some (s.lineBits (dieOf w.core) pas) | .error _ => none

/-- The instruction at a wave's PC, where its word is legal. -/
def nextInstr (s : State) (w : Wave) : Option Instr :=
  (nextLine s w).bind fun line => (decodeWave (slotWord line (slotOf w.pc))).toOption

/-- The wave's next instruction continues its run (R39). A run is forgotten by whatever ends it. -/
def Wave.continuesRun (w : Wave) : Bool :=
  match w.run with
  | some p => lineOf p == lineOf w.pc && slotOf w.pc == slotOf p + 1 && w.line.getLsbD (10 + slotOf p)
  | none => false

/-- An issue that continues no run begins one: the ageing check may switch the path, and every latch is lost (01 R30, R39, R55). An instruction
that waited has been issued already. -/
def Wave.begin (w : Wave) : Wave :=
  if w.continuesRun || w.held.isSome then w else { w.switchPath with run := none, latches := lostLatches }

/-- Registers that an instruction names, as keys of the mapped window. -/
def Wave.namedKeys (w : Wave) (i : Instr) : List Nat := i.named.flatMap fun (r, n) => (List.range n).map fun k => w.key (r + k)

/-- Registers that an instruction writes. -/
def Wave.writeKeys (w : Wave) (i : Instr) : List Nat :=
  match i.wave with
  | none => []
  | some (op, _, x) =>
    if x.nw || i.row.dst == .no then [] else w.dstKeys x.d.toNat (match i with | .ldvM .. => fld x.mod 4 0 + 1 | _ => i.row.dst.count op x.ty.toNat)

/-- Registers that an instruction reads, guard included, each as often as it is named, but for the destination itself: a lane that the mask
leaves out keeps its value without a read. -/
def Wave.readKeys (w : Wave) (i : Instr) : List Nat := (w.namedKeys i).diff (w.writeKeys i)

/-- The bank set of a wave may start instructions: a write of CORE_GATE counts from the next region cycle (08 R164); a run goes on to its end (02
R41). -/
def State.setEnabled (s : State) (w : Wave) : Bool :=
  match (s.core w.core).gateWas with
  | some (at', old) => if s.cycle w.core ≤ at' then old.testBit w.bset else (s.reg (.coreGate w.core)).getLsbD w.bset
  | none => (s.reg (.coreGate w.core)).getLsbD w.bset

/-- Nothing but time and the next instruction's registers keeps the wave from issuing. -/
def State.issuable (s : State) (w : Wave) : Bool :=
  decide (w.cond = .running) && w.evicted.isNone && w.gates.isEmpty && w.waitUntil.isNone && w.refetched.isNone && !(s.core w.core).lost &&
  (match Tab.find s.groups w.group with | some g => g.moving.isNone | none => true) &&
  ((s.setEnabled w && !w.leaving && !(match Tab.find s.groups w.group with | some g => g.saving | none => false)) || w.continuesRun)

/-- No register that the next instruction reads awaits a result, nor one that it writes in some of its live lanes only (R157). `w` is the wave as
it begins its issue. -/
def State.scoreClear (s : State) (w : Wave) : Bool :=
  w.scoreboard.isEmpty ||
  (match w.held.or (nextInstr s w) with
   | some i =>
     let g := match i.wave with | some (_, _, x) => x.g | none => .always
     (w.readKeys i).all (fun k => !w.awaits k) && (w.active g == w.live || (w.writeKeys i).all fun k => !w.awaits k)
   | none => true)

/-- The second member of an independent pair, whose first member has started (02 R40, R156). -/
def Wave.isApart (w : Wave) : Bool := w.continuesRun && w.apart == some w.pc

/-- A ready wave (R156): no instruction of it holds a strand, or the next one may run beside it. -/
def State.ready (s : State) (w : Wave) : Bool := s.issuable w && (decide (w.busyUntil ≤ s.cycle w.core) || w.isApart) && s.scoreClear w.begin

/-- The waves resident on a quarter. -/
def State.residents (s : State) (core q : Nat) : List (Nat × Wave) :=
  s.waves.filter fun (_, w) => w.core == core && w.qtr == q && w.evicted.isNone

end Sys2Proof.Machine
end

