-- ==== Sys2Proof/Machine/Ending.lean ====
section
/-! DEFINITION. The end of a wave (04 R112, 11 R226, 14 R304), the gang barrier's completion (18 R319), lanes that leave (01 R14), and what
leaves the quarter with them (09 R167, R171). -/

namespace Sys2Proof.Machine

/-! ### Names and slices that a wave gives back -/

/-- The names that a wave maps and that others or a table may know. -/
def State.knownNames (s : State) (w : Wave) : List Nat :=
  let q := s.quarter w.quarterKey
  let told := (q.sorrel.flatMap fun (_, es) => es.flatMap SEntry.names) ++ (q.dedup.flatMap fun (_, ws) => ws.map DedupWay.name) ++
    (q.compares.flatMap fun c => [c.new, c.old]) ++
    s.waves.flatMap fun (_, v) => if v.quarterKey = w.quarterKey then v.names.map Prod.snd else []
  distinct (w.names.map Prod.snd ++ told.filter fun n => decide (w.nameBase ≤ n ∧ n < w.nameBase + 1024))

/-- A wave's mappings are released (09 R167, R171, R181); `s` no longer maps them. -/
def State.releaseNames (s : State) (id : Nat) (w : Wave) : State := s.dropRefs w.quarterKey id w.group (s.knownNames w)

/-- Slices of which every lane has just exited: their accounting passes on (01 R14, 09 R167). -/
def State.returnSlices (s : State) (id : Nat) (w : Wave) (live' : Mask) : State :=
  let gone := (List.range 4).filter fun k => fld w.live (8 * k + 7) (8 * k) != 0 && fld live' (8 * k + 7) (8 * k) == 0
  if gone.isEmpty then s
  else
    let held := (s.knownNames w).filter fun n => !(w.mapped n).isEmpty
    held.foldl (fun s n => s.passSlices w.quarterKey id w.group n gone) s

/-- The registers of a wave whose lanes have exited: a returned slice that no other wave maps is absent and reads as zero (09 R166). -/
def State.absentSlices (s : State) (id : Nat) (w : Wave) : Wave :=
  let keep := sliceMask w.live
  let alone := fun (k : Nat) => (s.refs w.quarterKey (w.name k)).all fun r => r.1 == id
  let cut := fun (t : Tab VReg) (k : Nat) => if alone k then Tab.put zeroReg t k (lanes fun l => if keep.getLsbD l then Lanes.at' 0 (Tab.get zeroReg t k) l else 0) else t
  { w with regs := (w.regs.map Prod.fst).foldl cut w.regs }

/-! ### The gang barrier (18 R319) -/

/-- A phase completes when every wave of the gang that has not ended has arrived. -/
def Gang.check (g : Gang) : Gang :=
  if !g.arrived.isEmpty && g.nwaves ≤ g.arrived.length + g.ended.length then { g with phnum := g.phnum + 1, arrived := [] } else g

def Gang.endWave (g : Gang) (id : Nat) : Gang :=
  let ended := if g.ended.contains id then g.ended else g.ended ++ [id]
  let arrived := g.arrived.filter fun k => k != id
  Gang.check { g with ended, arrived }

/-- The gang of a wave's group. -/
def State.gangOf (s : State) (w : Wave) : Option Nat := (Tab.find s.groups w.group).bind Group.gang

/-! ### Fault-buffer requesters that leave -/

def CoreSt.dropReq (c : CoreSt) (r : Req) : CoreSt :=
  let out := fun (e : FbEntry) => { e with reqs := e.reqs.filter fun q => q.1 != r }
  let fbuf := (c.fbuf.map fun (k, e) => (k, out e)).filter fun x => !x.2.reqs.isEmpty
  let fbWait := c.fbWait.filter fun x => x.req != r
  { c with fbuf, fbWait }

/-! ### The end of a wave -/

/-- The physical address of a task queue's descriptor (14 R302). -/
def State.taskDesc (s : State) (ctx q : Nat) : Nat :=
  (match Tab.find s.ctxs ctx with | some c => c.taskArea | none => 0) + 64 * q

/-- DONE grows by a task wave's count, once a release at package scope has published the wave's writes (14 R304). -/
def State.taskDone (s : State) (id : Nat) (w : Wave) : State :=
  match Tab.find s.groups w.group with
  | none => s
  | some g =>
    match g.task with
    | none => s
    | some (q, _, n) =>
      let (t, _) := s.releaseBy id w .pkg
      let req : AtReq := {
        id := t.nextId, inst := t.nextId, wave := id, dest := none, kind := .int .add 4, place := .glob
        addr := t.taskDesc g.ctx q + 32, size := 8, lanes := [(0, BitVec.ofNat 64 n, 0)], after := [s.nextId], ctx := g.ctx }
      (t.updCore w.core fun c => { c with atoms := c.atoms ++ [req] }).fresh

/-- WAVE_END: the wave's release at `.core` (11 R226); it leaves its quarter, group and gang. -/
def State.endWave (s : State) (id : Nat) (w : Wave) : State :=
  let t := (s.taskDone id w).releaseBy id w .core |>.1
  let t := match t.gangOf w with | some k => t.updGang k fun g => g.endWave id | none => t
  let t := t.updGroup w.group fun g => { g with waves := g.waves.filter (· != id) }
  let t := t.updCore w.core fun c => c.dropReq (.wave id)
  let quit := fun (v : Wave) => { v with yieldTo := v.yieldTo.filter fun k => k != id }
  let waves := (Tab.erase t.waves id).map fun (k, v) => (k, quit v)
  let starts := t.starts.filter fun k => k != id
  let t : State := { t with waves, starts, saveArea := Tab.erase t.saveArea id }
  t.releaseNames id w

end Sys2Proof.Machine
end

