-- ==== Sys2Proof/Machine/CapOps.lean ====
section
/-! DEFINITION. Capabilities: their fields (01 R15, R16), derivation and tests (04 R98-R103). -/

namespace Sys2Proof.Machine

/-! ### Fields -/

def Cap.base (c : Cap) : Nat := fld c.bits 56 0
def Cap.len (c : Cap) : Nat := fld c.bits 103 64
/-- RD, WR, MX, CS, CT, AT at bits 0-5 (bits [62:57]). -/
def Cap.perms (c : Cap) : Nat := fld c.bits 62 57
def Cap.scr (c : Cap) : Bool := c.bits.getLsbD 63
def Cap.fmt (c : Cap) : Nat := fld c.bits 111 104
def Cap.pitch (c : Cap) : Nat := fld c.bits 127 112
/-- Bytes covered: up to min(BASE + LEN, 2^57) (01 R16). -/
def Cap.cov (c : Cap) : Nat := min (c.base + c.len) (2 ^ 57) - c.base
/-- The end of the covered range. -/
def Cap.top (c : Cap) : Nat := c.base + c.cov
def Cap.has (c : Cap) (bit : Nat) : Bool := c.perms.testBit bit
def pRD : Nat := 0
def pWR : Nat := 1
def pMX : Nat := 2
def pCS : Nat := 3
def pCT : Nat := 4
def pAT : Nat := 5

/-- Replaces bits [hi:lo] of a 128-bit value. -/
def put128 (x : BitVec 128) (hi lo v : Nat) : BitVec 128 :=
  (x &&& ~~~(BitVec.ofNat 128 (bitsMask hi lo))) ||| BitVec.ofNat 128 ((v % 2 ^ (hi + 1 - lo)) <<< lo)

/-- Builds a capability from its fields. -/
def mkCap (base len perms fmt pitch : Nat) (scr : Bool := false) : Cap :=
  { bits := BitVec.ofNat 128 (base % 2 ^ 57 + perms % 64 * 2 ^ 57 + (if scr then 2 ^ 63 else 0) + len % 2 ^ 40 * 2 ^ 64 + fmt % 256 * 2 ^ 104 +
      pitch % 65536 * 2 ^ 112), tag := true }

/-! ### Derivation -/

/-- A derivation: every active lane's result or its failing check; no lane is written unless all pass (R98). -/
def deriveOp (i : Instr) (x : W) (s : State) (f : Wave → Nat → Except Chk Cap) : Out :=
  withWave s fun id w =>
    let act := w.active x.g
    let r := (laneList act).map fun l => (l, f w l)
    match pickChk (r.filterMap fun (_, e) => match e with | .error c => some c | .ok _ => none) with
    | some c => faultChks s id w (r.filterMap fun (_, e) => match e with | .error c => some c | .ok _ => none) c
    | none =>
      let cap := fun (l : Nat) => match f w l with | .ok c => c | .error _ => ⟨0, false⟩
      let fl := if readsLost i x w then fLLOST else 0
      finish s id w ((w.putQuad x.d.toNat act cap).flag fl) (w.dstKeys x.d.toNat 4) 0

/-- `CNARROW` in a lane (R99). -/
def narrow (c : Cap) (off len : Nat) (l : Nat) : Except Chk Cap :=
  if !c.tag then .error { code := 0x10, lane := some l }
  else if c.cov < off + len then .error { code := 0x11, lane := some l, addr := c.base + max off c.cov }
  else .ok { bits := put128 (put128 c.bits 56 0 (c.base + off)) 103 64 len, tag := true }

def execCnarrow (w : W) (s : State) : Out :=
  deriveOp (.cnarrow w) w s fun v l => narrow (v.quadOpnd w.a l) (v.opnd true w.b l).toNat (v.opnd true w.c l).toNat l

/-- `CNARROW.set` in a lane (R100). -/
def narrowSet (auth raw : Cap) (l : Nat) : Except Chk Cap :=
  if !auth.tag then .error { code := 0x10, lane := some l }
  else if raw.base < auth.base ∨ auth.top < raw.base + raw.len then
    .error { code := 0x11, lane := some l, addr := if raw.base < auth.base ∨ auth.top ≤ raw.base then raw.base else auth.top }
  else if raw.scr ≠ auth.scr ∨ raw.perms &&& (auth.perms ^^^ 63) ≠ 0 then .error { code := 0x12, lane := some l }
  else .ok { raw with tag := true }

def execCnarrowSet (w : W) (s : State) : Out :=
  deriveOp (.cnarrowSet w) w s fun v l => narrowSet (v.quadOpnd w.a l) (v.quadOpnd w.b l) l

/-- `CPERM` in a lane: permissions only clear, FMT and PITCH replaced where asked (R101). -/
def permit (c : Cap) (imm : Word) (l : Nat) : Except Chk Cap :=
  if !c.tag then .error { code := 0x10, lane := some l }
  else
    let b := put128 c.bits 62 57 (c.perms &&& fld imm 5 0)
    let b := if imm.getLsbD 6 then put128 b 111 104 (fld imm 14 7) else b
    .ok { bits := if imm.getLsbD 15 then put128 b 127 112 (fld imm 31 16) else b, tag := true }

def execCperm (w : W) (s : State) : Out := deriveOp (.cperm w) w s fun v l => permit (v.quadOpnd w.a l) w.tail l

/-! ### Tests -/

/-- A field of a capability, read whatever its tag (R102). -/
def capField (f : CapField) (c : Cap) : Nat :=
  match f with
  | .tag => if c.tag then 1 else 0
  | .base => c.base | .len => c.len | .perm => fld c.bits 63 57 | .fmt => c.fmt | .pitch => c.pitch

def execCget (f : CapField) (w : W) (s : State) : Out :=
  laneOp (.cget f w) w s (decide (f = .base ∨ f = .len)) fun v l => BitVec.ofNat 64 (capField f (v.quadOpnd w.a l))

/-- Whether `n` bytes from an address lie in the covered range; none need to for n = 0 (R103). -/
def Cap.holds (c : Cap) (addr n : Nat) : Bool := n == 0 || decide (c.base ≤ addr ∧ addr + n ≤ c.top)

def execCchk (w : W) (s : State) : Out :=
  laneOp (.cchk w) w s false fun v l =>
    let c := v.quadOpnd w.a l
    bit (c.tag && c.holds (v.opnd true w.b l).toNat (v.opnd32 w.c l).toNat && (w.mod.toNat &&& (c.perms ^^^ 63)) == 0)

end Sys2Proof.Machine
end

