-- ==== Sys2Proof/Machine/Access.lean ====
section
/-! DEFINITION. How a wave's access finds its bytes: the address forms of each lane (10 R183-R185, R194, 18 R309), the checks of every lane
before any effect (R186, 06 R141), and the waits that keep a wave's own accesses in order (R188, R204). -/

namespace Sys2Proof.Machine

/-! ### Address forms -/

/-- Where a lane's access goes, before its checks: a capability and an address, a raw global or scratchpad address, a cluster address, or
an operand that lacks its tag. -/
inductive Form
  | untagged | cap (c : Cap) (a : Int) | glob (va : Nat) | scr (a : Int) | cl (a : Int)
  deriving DecidableEq, Repr

/-- Format M (R183): the capability form where the quad is tagged in the lane, else the raw form of the space. -/
def Wave.formM (w : Wave) (space : Space) (a : Opnd) (ofs : Int) (l : Nat) : Form :=
  let c := w.quadLane a.num l
  if space = .cl then .cl ((w.opnd32 a l).toNat + ofs)
  else if a.num % 4 = 0 ∧ c.tag then .cap c (c.base + ofs)
  else if space = .gl then
    let p := w.opnd true a l
    if fld p 63 57 ≠ 0 then .untagged else .glob ((p.toNat + ofs) % 2 ^ 57).toNat
  else .scr ((w.opnd32 a l).toNat + ofs)

/-- `LDG` and `STS` (R194): base + index × scale + offset, capability form only. -/
def Wave.formG (w : Wave) (x : W) (l : Nat) : Form :=
  let c := w.quadOpnd x.a l
  let ofs := (BitVec.ofNat 16 (x.bits 95 80)).toInt
  if c.tag then .cap c (c.base + (w.opnd32 x.b l).toNat * 2 ^ x.bits 76 75 + ofs) else .untagged

/-! ### Checks -/

/-- What an access needs: its space, bytes per lane, permission, natural alignment, and kind for translation. -/
structure Need where
  sp : Space
  n : Nat
  perm : Nat
  align : Bool
  kind : AccKind
  deriving DecidableEq, Repr

/-- The lowest byte of an access that lies outside a range (06 R146, ADDR of 0x11). -/
def firstOut (base top : Nat) (a : Int) : Nat := ((if a < base then a else max a top) % 2 ^ 57).toNat

/-- Whether `n` bytes from an address lie in a range. -/
def inside (base top : Nat) (a : Int) (n : Nat) : Bool := decide (base ≤ a ∧ a + n ≤ top)

/-- The group and offset that a cluster address names (18 R309). -/
def clTarget (s : State) (gid : Nat) (a : Int) (n : Nat) : Option (Nat × Nat) :=
  match Tab.find s.groups gid with
  | none => none
  | some g =>
    let x := a.toNat
    let rank := x / 2 ^ 22 % 8
    let target :=
      if a < 0 ∨ 2 ^ 25 ≤ x then none
      else if g.gangs then
        (match g.gang.bind (Tab.find s.gangs) with | some k => if rank < g.gsize then k.groups[rank]? else none | none => none)
      else if rank = 0 then some gid else none
    match target with
    | none => none
    | some t =>
      match Tab.find s.groups t with
      | none => none
      | some tg => if x % 2 ^ 22 + n ≤ tg.window then some (t, x % 2 ^ 22) else none

/-- The highest cause that a lane's form raises before translation (R183-R187, R309). -/
def formChk (s : State) (gid : Nat) (nd : Need) (f : Form) (l : Nat) : Option Chk :=
  let win := match Tab.find s.groups gid with | some g => g.window | none => 0
  let skew := fun (a : Int) => nd.align && decide (a % nd.n ≠ 0)
  match f with
  | .untagged => some { code := 0x10, lane := some l }
  | .cap c a =>
    let scrOk := c.scr == decide (nd.sp = .sp)
    if !inside c.base c.top a nd.n then some { code := 0x11, lane := some l, addr := firstOut c.base c.top a }
    else if c.scr && scrOk && !inside 0 win a nd.n then some { code := 0x11, lane := some l, addr := firstOut 0 win a }
    else if !c.has nd.perm || !scrOk || skew a then some { code := 0x12, lane := some l }
    else none
  | .glob va => if skew va then some { code := 0x12, lane := some l } else none
  | .scr a =>
    if !inside 0 win a nd.n then some { code := 0x11, lane := some l, addr := firstOut 0 win a }
    else if skew a then some { code := 0x12, lane := some l } else none
  | .cl a =>
    if (clTarget s gid a nd.n).isNone then some { code := 0x11, lane := some l, addr := (a % 2 ^ 57).toNat }
    else if skew a then some { code := 0x12, lane := some l } else none

/-- The bytes of a checked form, by translation for global memory. -/
def locate (s : State) (core ctx gid : Nat) (nd : Need) (f : Form) (l : Nat) : Except (Nat × TFault) LaneAcc :=
  let seq := fun (o : Nat) => (List.range nd.n).map (o + ·)
  let glob := fun (va : Nat) => (translateRange s core ctx va nd.n nd.kind).map fun pas => ({ lane := l, va, place := .glob, addr := pas } : LaneAcc)
  match f with
  | .untagged => .ok { lane := l, va := 0, place := .glob, addr := [] }
  | .cap c a => if c.scr then .ok { lane := l, va := a.toNat, place := .scr gid, addr := seq a.toNat } else glob a.toNat
  | .glob va => glob va
  | .scr a => .ok { lane := l, va := a.toNat, place := .scr gid, addr := seq a.toNat }
  | .cl a =>
    match clTarget s gid a nd.n with
    | some (t, o) => .ok { lane := l, va := a.toNat, place := .scr t, addr := seq o }
    | none => .ok { lane := l, va := a.toNat, place := .scr gid, addr := [] }

/-- A translation that fails in some lanes (06 R141): 0x21 stops the wave in the lowest lane that raises it, else 0x20 parks it. -/
def transStop (s : State) (id : Nat) (w : Wave) (ctx : Nat) (k : AccKind) (errs : List (Nat × Nat × TFault)) : Option Out :=
  let mask := fun (p : TFault → Bool) => maskOf fun l => errs.any fun e => e.1 == l && p e.2.2
  let perm := fun (f : TFault) => f.kind != 0
  match errs.find? fun e => perm e.2.2, errs.head? with
  | some (l, va, f), _ => some (permFault s id w va f k (some l) (mask perm))
  | none, some (l, va, f) => some (parkWave s id w ctx va f k (some l) (mask fun f => !perm f))
  | none, none => none

/-- A wave that waits, at its instruction, for accesses of its own (R188, R204): it issues the instruction again afterwards. -/
def waitGates (s : State) (id : Nat) (w : Wave) (i : Instr) (gs : List Gate) : Out := .next (s.setWave id { w with gates := gs, held := some i })

/-- Atomic instructions of a wave that have requests left and touch some bytes: a later access of the wave follows them (11 R213). -/
def State.atomsOn (s : State) (core wave : Nat) (accs : List LaneAcc) : List Nat :=
  let hits := fun (r : AtReq) => r.wave == wave &&
    accs.any fun a => a.place == r.place && a.addr.any fun x => decide (r.addr ≤ x ∧ x < r.addr + r.size)
  distinct ((s.core core).atoms.filterMap fun r => if hits r then some r.inst else none)

/-- Every check of every lane of `act`, then `k` with the lanes' bytes (R186). -/
def withAccess (s : State) (id : Nat) (w : Wave) (i : Instr) (nd : Need) (act : Mask) (form : Nat → Form) (k : State → List LaneAcc → Out) : Out :=
  let ctx := s.ctxOf w
  let ls := laneList act
  let bad := ls.filterMap fun l => formChk s w.group nd (form l) l
  match pickChk bad with
  | some c => faultChks s id w bad c
  | none =>
    let r := ls.map fun l => (l, locate s w.core ctx w.group nd (form l) l)
    match transStop s id w ctx nd.kind (r.filterMap fun (l, e) => match e with | .error (va, f) => some (l, va, f) | .ok _ => none) with
    | some o => o
    | none =>
      let accs := r.filterMap fun (_, e) => e.toOption
      let pages := distinct (accs.filterMap fun a => if a.place = .glob then some (a.va / 4096) else none)
      let s := pages.foldl (fun s p => s.cacheLeaves w.core ctx (p * 4096)) s
      match s.atomsOn w.core id accs with
      | [] => k s accs
      | insts => waitGates s id w i (insts.map .atom)

/-! ### Events of an access (R187, 11 R221) -/

/-- A fully coalesced access: 32 lanes of 4 bytes that fill one line in lane order. -/
def coalesced (accs : List LaneAcc) : Bool :=
  match accs with
  | [] => false
  | a :: _ =>
    let base := a.addr.headD 1
    decide (accs.length = 32 ∧ base % 128 = 0) &&
    accs.all fun b => b.place == a.place && b.addr == (List.range 4).map (base + 4 * b.lane + ·)

/-- The events of one lane, each a number and its addresses: pieces between 8-byte boundaries, or one for all, of a number given. -/
def laneEvents (whole : Option Nat) (a : LaneAcc) : List (Nat × List Nat) :=
  match whole with
  | some ev => [(ev, a.addr)]
  | none => ((distinct (a.addr.map (· / 8))).zipIdx).map fun (g, i) => (1 + 4 * a.lane + i, a.addr.filter fun x => x / 8 == g)

/-- What a reader reads in a lane, each byte with the write that it comes from: an event at a time, or the latest at the home (11 R214, R221). -/
def State.readLane (s : State) (r : Reader) (home : Bool) (whole : Option Nat) (a : LaneAcc) : List (Byte × Option Nat) :=
  (laneEvents whole a).flatMap fun (ev, as) => as.map fun x => if home then s.pickHome r.core a.place x else s.pick r ev a.place x

/-- The lanes of an access that find poison (19 R344). -/
def State.poisonLanes (s : State) (core : Nat) (p : Party) (accs : List LaneAcc) : List LaneAcc :=
  accs.filter fun a => a.addr.any fun x => s.viewPoison core p a.place x

/-- Cause 0x22 of a strict context, in the lowest poisoned lane (R206). -/
def poisonStop (s : State) (id : Nat) (w : Wave) (bad : List LaneAcc) : Out :=
  let first := fun (a : LaneAcc) => a.va + (a.addr.findIdx? fun x => s.viewPoison w.core (.wave id) a.place x).getD 0
  faultWave s id w 0x22 { code := 0x22, lane := bad.head?.map LaneAcc.lane, addr := (bad.head?.map first).getD 0 }
    (maskOf fun l => bad.any fun a => a.lane == l)

/-- One write event of a store: its place, bytes and granule tags, and the poison granules that it completes. -/
structure WEvent where
  place : Place
  bytes : List (Nat × Byte)
  tags : List (Nat × Bool) := []
  clears : List Nat := []
  deriving DecidableEq, Repr

/-- The events of a store in order (R187): one for a coalesced access, else one for each piece of a lane, or for each lane where `whole`. -/
def storeEvents (whole : Bool) (accs : List LaneAcc) (data : Nat → List Byte) (tag : Nat → Option Bool) : List WEvent :=
  if coalesced accs && !whole then
    match accs with
    | [] => []
    | a :: _ => [{ place := a.place, bytes := accs.flatMap fun b => b.addr.zip (data b.lane) }]
  else
    accs.flatMap fun a =>
      let cells := a.addr.zip (data a.lane)
      if whole then [{ place := a.place, bytes := cells, tags := match tag a.lane with | some t => [(a.addr.headD 0 / 16, t)] | none => [] }]
      else (distinct (a.addr.map (· / 8))).map fun g => { place := a.place, bytes := cells.filter fun c => c.1 / 8 == g }

/-- Gives each poison granule that the whole store covers to the last event that touches it (R207). -/
def markClears (all : List WEvent) : List WEvent → List WEvent
  | [] => []
  | e :: t =>
    let full := fun (g : Nat) => (List.range 32).all fun i => all.any fun f => f.place == e.place && f.bytes.any fun b => b.1 == 32 * g + i
    let later := fun (g : Nat) => t.any fun f => f.place == e.place && f.bytes.any fun b => b.1 / 32 == g
    { e with clears := (distinct (e.bytes.map fun b => b.1 / 32)).filter fun g => full g && !later g } :: markClears all t

/-- A write that performs at its home at once (R188). -/
def State.writeHome (s : State) (x : Writer) (ctx : Nat) (cp : Policy) (pl : Place) (bytes : List (Nat × Byte)) (tags : List (Nat × Bool))
    (clears : List Nat := []) : State :=
  match pl with
  | .scr g => s.scrWrite x g bytes tags clears
  | .glob => (s.dropLines x.core .glob (distinct (bytes.map fun b => b.1 / 128))).arriveWrite (some x) (partyDie x.core) ctx cp bytes tags clears

/-- Bytes of a TY of OP 0xA0-0xB3 (R182). -/
def tyBytes (ty : Nat) : Nat := ([4, 4, 4, 8, 8, 2, 2, 1, 1][ty]?).getD 4

/-- A loaded value in the layout of its type (03 R68, R190). -/
def loadVal (ty n : Nat) : DWord :=
  match ty with
  | 5 => ((BitVec.ofNat 16 n).signExtend 32).setWidth 64
  | 7 => ((BitVec.ofNat 8 n).signExtend 32).setWidth 64
  | _ => BitVec.ofNat 64 n

/-- Loss of some lanes or requests that read poison (R206). -/
def State.addLossIf (s : State) (ctx n : Nat) : State := if n = 0 then s else s.addLoss ctx n

end Sys2Proof.Machine
end

