-- ==== Sys2Proof/Machine/Share.lean ====
section
/-! DEFINITION. Result sharing: the content hash and the dedup table (09 R168-R170), the Sorrel key, lookup and entry (R172-R175), entries of
loads (R176-R178). Architecturally a hit writes what execution would have written. -/

namespace Sys2Proof.Machine

/-! ### The content hash (R168) -/

def crcPoly : Nat := 0x4820009
def crcBit (r : Nat) (b : Bool) : Nat := (2 * r % 2 ^ 40) ^^^ (if (r.testBit 39) != b then crcPoly else 0)
def crcByte (r : Nat) (b : Nat) : Nat := [7, 6, 5, 4, 3, 2, 1, 0].foldl (fun r i => crcBit r (b.testBit i)) r

/-- The 128 bytes of a register in ascending order, then its tag vector. -/
def contentBytes (v : VReg) (tags : Mask) : List Nat :=
  (v.toList ++ [tags]).flatMap fun (w : Word) => [fld w 7 0, fld w 15 8, fld w 23 16, fld w 31 24]

def contentHash (v : VReg) (tags : Mask) : Nat := (contentBytes v tags).foldl crcByte 0

/-! ### Writeback and compares (R169-R171) -/

/-- Two registers become one: every reference to `new` goes to `old` (R169). -/
def State.mergeName (s : State) (qk new old : Nat) : State :=
  (s.refs qk new).foldl (fun s (id, k) => s.updWave id fun w => { w with names := Tab.set w.names k old }) s

/-- Records to whom the slices of a name are accounted when it is first shared (R167). -/
def State.accountName (s : State) (qk n : Nat) : State :=
  match (s.refs qk n).head? with
  | none => s
  | some (id, _) =>
    let own := fun (t : Tab Nat) (k : Nat) => match Tab.find t (4 * n + k) with | some _ => t | none => Tab.set t (4 * n + k) id
    s.updQuarter qk fun q => { q with owner := (List.range 4).foldl own q.owner }

/-- One new register's turn at the dedup table (R169). -/
def State.dedup (s : State) (qk bset n : Nat) : State :=
  match s.nameData qk n with
  | none => s
  | some (v, tags) =>
    let h := contentHash v tags
    let b := h % 4096
    let tag := h / 4096
    let q := s.quarter qk
    let ways : List DedupWay := Tab.get [] q.dedup b
    match ways.find? (fun x => x.hash == tag && x.bset == bset && !x.conf) with
    | some x =>
      let ways' := x :: ways.filter (fun y => y != x)
      s.setQuarter qk { q with
        dedup := Tab.set q.dedup b ways'
        compares := q.compares ++ [{ new := n, old := x.name, bucket := b, refs := s.refs qk n }] }
    | none => s.setQuarter qk { q with dedup := Tab.set q.dedup b (({ hash := tag, bset, name := n, conf := false } :: ways).take 2) }

/-- Whether the references to N are those that its compare began with, extended by Sorrel hits (R170): a register that maps N now and did not
then got it by a hit (a merge onto N ends N's own compare), so it is enough that none of the first has gone. -/
def Compare.kept (c : Compare) (now : List (Nat × Nat)) : Bool := c.refs.all now.contains

/-- The end of a compare (R169-R171). An equal compare whose references have changed counts nothing, whatever the counts (log 60). -/
def State.endCompare (s : State) (core qi : Nat) (c : Compare) : State :=
  let qk := core * 4 + qi
  match s.nameData qk c.new, s.nameData qk c.old with
  | some a, some b =>
    if a = b then
      if !c.kept (s.refs qk c.new) then s
      else if 255 < (s.refs qk c.new).length + (s.refs qk c.old).length then s.bumpQ core qi .refSat
      else
        let t := (s.accountName qk c.old).mergeName qk c.new c.old
        let t := t.updQuarter qk fun q => { q with compares := q.compares.filter fun x => x.new != c.old }
        (t.dropRefs qk 0 0 [c.new]).bumpQ core qi .merge
    else
      let q := s.quarter qk
      let mark := fun (ws : List DedupWay) => ws.map fun x => if x.name = c.old then { x with conf := true } else x
      (s.setQuarter qk { q with dedup := Tab.upd q.dedup c.bucket mark }).bumpQ core qi .hashColl
  | _, _ => s

/-! ### The Sorrel table (R172-R174) -/

/-- The fold of a key that picks its set. -/
def SKey.set (k : SKey) : Nat :=
  Config.sorrelFold ([k.op, k.sub, k.ty, k.md, k.guard, k.tail, k.bset, k.fpc] ++ k.names ++
    (match k.part with | some (m, ds) => m.toNat :: ds | none => [])) % 512

/-- The space of a shareable load, as `.sp` or `.gl`. -/
def loadSpace : Instr → Space | .ld s _ => s | .ldg s _ => s | _ => .gl

/-- Registers that operand A covers in the key: the whole quad of an address register when it holds a capability in an active lane (10 R183). -/
def addrRegs (w : Wave) (i : Instr) (x : W) : Nat :=
  if fmtOf (opOf i) = .m then
    if loadSpace i ≠ .cl ∧ x.a.num % 4 = 0 ∧ (laneList (w.active x.g)).any (fun l => (w.quadLane x.a.num l).tag) then 4
    else if loadSpace i = .gl then 2 else 1
  else i.row.a.count (opOf i) x.ty.toNat

/-- The key of an instruction (R172). -/
def shareKey (w : Wave) (phase : Word) (i : Instr) (sub : Nat) (x : W) : SKey :=
  let op := opOf i
  let ty := x.ty.toNat
  let nm := fun (first n : Nat) => (List.range n).map fun k => w.name (w.key (first + k))
  let act := w.active x.g
  let fmt := fmtOf op
  let isL := decide (i.share w.fpc = .l)
  { op, sub, ty, md := x.mod.toNat,
    guard := match x.g with | .always => 0 | .on inv _ => if inv then 3 else 1
    tail := if fmt = .v then x.tail.toNat / 2048 else x.tail.toNat
    mods := [x.a, x.b, (if fmt = .v then x.c else Opnd.zero)].map fun o => match o with | .reg _ a n => (a, n) | .latch _ => (false, false)
    names := nm x.a.num (addrRegs w i x) ++ nm x.b.num (i.row.b.count op ty) ++ nm x.c.num (i.row.c.count op ty) ++
      (match x.g with | .always => [] | .on _ g => nm g.toNat 1)
    bset := w.bset
    part := if act = BitVec.allOnes 32 then none else some (act, nm x.d.toNat (i.row.dst.count op ty))
    fpc := if floatOp op then fld w.fpc 4 0 else 0
    phase := if isL then some (phase, (loadSpace i).code, if loadSpace i = .sp then w.group else 0) else none }

/-- Whether an instruction is looked up at all (R173, R56, 05 R120). -/
def looksUp (w : Wave) (i : Instr) (x : W) : Bool :=
  let latch := fun (k : Sk) (o : Opnd) => k != .no && o.isLatch
  w.shares && !x.nw && i.share w.fpc != .n && !(latch i.row.a x.a || latch i.row.b x.b || latch i.row.c x.c) &&
  (!crossLane (opOf i) || w.live == BitVec.allOnes 32) &&
  (match i with | .ld s _ => s != .cl | _ => true)

/-- An entry that a lookup may use in a cycle. -/
def State.sorrelFind (s : State) (qk : Nat) (k : SKey) (cyc : Nat) : Option SEntry :=
  (Tab.get [] (s.quarter qk).sorrel k.set).find? fun e => e.key == k && decide (e.validFrom ≤ cyc)

/-- Makes an entry, unless one of its key exists or a name of it is free (R171, R174). -/
def State.sorrelEnter (s : State) (qk : Nat) (e : SEntry) : State :=
  let q := s.quarter qk
  let set := Tab.get [] q.sorrel e.key.set
  if set.any (fun x => x.key == e.key) || e.names.any (fun n => (s.refs qk n).isEmpty) then s
  else s.setQuarter qk { q with sorrel := Tab.set q.sorrel e.key.set ((e :: set).take 4) }

/-- The values that a hit maps: contents and tags of each result, where every count is below 255 (R173). -/
def State.hitData (s : State) (qk : Nat) (e : SEntry) : Option (List (VReg × Mask)) :=
  if e.results.all fun n => (s.refs qk n).length < 255 then e.results.mapM (s.nameData qk) else none

/-- The wave after a hit: destinations mapped to the results, flags, `$share`, latches (R173). -/
def Wave.hit (w : Wave) (i : Instr) (x : W) (e : SEntry) (vals : List (VReg × Mask)) : Wave :=
  let keys := w.dstKeys x.d.toNat vals.length
  let w1 := (keys.zip (vals.zip e.results)).foldl (fun w (k, (v, t), n) =>
    { w with regs := Tab.put zeroReg w.regs k v, tags := Tab.put 0 w.tags k t, names := Tab.set w.names k n }) w
  let w2 := { w1 with fpc := w1.fpc ||| e.flags, share := w1.share + 1, looked := none }
  if i.latching then
    w2.enterLatch (w.active x.g) (lanes fun l => if vals.length = 2 then w2.pairLane x.d.toNat l else (w2.regLane x.d.toNat l).setWidth 64)
  else w2

/-- Retiring by sharing (R173): no execution. A reused load observes the writes that the load observed (11 R217). -/
def State.retireHit (s : State) (id : Nat) (w : Wave) (i : Instr) (x : W) (e : SEntry) (vals : List (VReg × Mask)) : State :=
  let qk := w.quarterKey
  let w' := w.hit i x e vals
  let w' := w'.sees e.ids
  let t := e.results.foldl (fun s n => s.accountName qk n) s
  let t := (t.setWave id w').dropRefs qk id w.group ((w.dstKeys x.d.toNat vals.length).map w.name)
  let front := fun (es : List SEntry) => if es.contains e then e :: es.filter fun y => y.key != e.key else es
  let t := t.updQuarter qk fun q => { q with sorrel := Tab.upd q.sorrel e.key.set front }
  let t := t.bumpQ w.core w.qtr .sorrelHit
  let t := if e.lines.isSome then t.bumpQ w.core w.qtr .loadReuse else t
  advance t id w'

/-- One writeback of a quarter (R168, R169, R174). -/
def State.writeBack (s : State) (core qi : Nat) (p : PendWb) : State :=
  let qk := core * 4 + qi
  let bset := match Tab.find s.waves p.wave with | some w => w.bset | none => 0
  let s := p.names.foldl (fun s n => s.dedup qk bset n) s
  match p.key with
  | some k => s.sorrelEnter qk { key := k, results := p.names, flags := p.flags, validFrom := s.cycle core + 1, lines := p.lines }
  | none => s

end Sys2Proof.Machine
end

