-- ==== Sys2Proof/Machine/Loads.lean ====
section
/-! DEFINITION. Loads, stores, capability load and store, gather and scatter, spill and fill (10 R190-R195), and the return of a load's
data (R190, R206, 09 R176-R178, 11 R215). -/

namespace Sys2Proof.Machine

/-! ### Loads -/

/-- The ordering that an access asks for: volatile, acquire, release (R188). -/
structure MemOrd where
  vol : Bool := false
  acq : Bool := false
  rel : Bool := false
  scope : Scope := .wave
  cp : Policy := .normal
  deriving DecidableEq, Repr

/-- ORD, SCOPE and CP of format M. -/
def ordM (x : W) : MemOrd :=
  { vol := decide (x.ordM = .vol), acq := decide (x.ordM = .acq ∨ x.ordM = .ar), rel := decide (x.ordM = .rel ∨ x.ordM = .ar)
    scope := x.scopeM, cp := x.cpM }

/-- VOL and CP of `LDG` and `STS` (R194). -/
def ordG (x : W) : MemOrd := { vol := x.tail.getLsbD 13, cp := .ofCode (x.bits 79 78) }

/-- The event number of a lane's read that is one event (11 R221): the whole line, or a capability's granule. -/
def wholeEvent (accs : List LaneAcc) (isCap : Bool) (lane : Nat) : Option Nat := if isCap then some (200 + lane) else if coalesced accs then some 0 else none

/-- What the lanes of a load read: the value, a capability's upper half and its tag; a poisoned lane reads zero (R190, R193, R206). -/
def State.sampleLanes (s : State) (r : Reader) (home isCap : Bool) (ty : Nat) (accs : List LaneAcc) : List (Nat × DWord × DWord × Bool) :=
  accs.map fun a =>
    let n := leNat ((s.readLane r home (wholeEvent accs isCap a.lane) a).map Prod.fst)
    if a.addr.any fun x => s.viewPoison r.core r.party a.place x then (a.lane, 0, 0, false)
    else if isCap then
      let g := a.addr.headD 0 / 16
      (a.lane, BitVec.ofNat 64 n, BitVec.ofNat 64 (n / 2 ^ 64), if home then s.homeTag r.core a.place g else s.pickTag r (200 + a.lane) a.place g)
    else (a.lane, loadVal ty n, 0, false)

/-- The writes that those reads return (11 R216). -/
def State.sampleIds (s : State) (r : Reader) (home isCap : Bool) (accs : List LaneAcc) : List Nat :=
  distinct (accs.flatMap fun a => (s.readLane r home (wholeEvent accs isCap a.lane) a).filterMap Prod.snd)

/-- A wave's outstanding releases, as gates. -/
def CoreSt.relGates (c : CoreSt) (p : Party) : List Gate := (c.openReleases p).map .rel

/-- What a wave's accesses before a fence must have done: every load and atomic request of the wave, and every scratchpad write of its own that is
not yet at its bank (R204, 11 R223). -/
def State.fenceGates (s : State) (core wave : Nat) : List Gate :=
  ((s.core core).loads.filterMap fun (r : LoadRec) => if r.wave = wave then some (Gate.load r.id) else none) ++
  (distinct ((s.core core).atoms.filterMap fun (r : AtReq) => if r.wave = wave then some r.inst else none)).map .atom ++
  ((s.core core).pend.filterMap fun (w : PWrite) => if w.party = .wave wave ∧ w.place ≠ .glob then some (Gate.write w.id) else none)

/-- What an access waits for before it issues (R188): an ordered access at `.wave` for what a fence waits for (11 R218), a `.vol` access for the
wave's releases and for the writes ahead of it that are held back. -/
def State.orderGates (s : State) (id : Nat) (w : Wave) (o : MemOrd) (accs : List LaneAcc) : List Gate :=
  (if (o.acq || o.rel) && o.scope == .wave then s.fenceGates w.core id else []) ++
  (if o.vol then (s.core w.core).relGates (.wave id) ++
      (distinct (accs.flatMap fun a => (s.core w.core).stuck (w.reader id) a.place a.addr)).map .write else [])

/-- A load issues (R190): its data is read, the destination awaits it, and a strict context or an acquire holds the wave (06 R143, R188). -/
def loadIssue (s : State) (id : Nat) (w : Wave) (i : Instr) (o : MemOrd) (dest count ty : Nat) (isCap : Bool) (act : Mask) (accs : List LaneAcc) :
    Out :=
  let p : Party := .wave id
  let r := w.reader id
  match s.orderGates id w o accs with
  | g :: gs => waitGates s id w i (g :: gs)
  | [] =>
    let ctx := s.ctxOf w
    let s := if o.vol then accs.foldl (fun s a => s.flushOverlap r a.place a.addr) s else s
    let s := s.prepRead (dieOf w.core) ctx o.cp (accs.flatMap fun a => if a.place = .glob then a.addr else [])
    let bad := s.poisonLanes w.core p accs
    if w.strict ∧ bad ≠ [] then poisonStop s id w bad
    else
      let s := s.addLossIf ctx bad.length
      let rec_ : LoadRec := {
        id := s.nextId, wave := id, dest, count, ty, isCap, act, acc := accs
        data := s.sampleLanes r o.vol isCap ty accs, ids := s.sampleIds r o.vol isCap accs
        clean := bad.isEmpty, vol := o.vol, base := w.base, know := w.know, key := w.looked, dropped := false }
      let keys := (List.range count).map (dest + ·)
      let gates := (if w.strict ∨ o.acq then [Gate.load s.nextId] else []) ++ (if o.acq then [Gate.acq o.scope] else [])
      let w' := { w.await keys s.nextId with looked := none, gates }
      let s := (s.updCore w.core fun c => { c with loads := c.loads ++ [rec_] }).fresh.drawn
      .next (advance s id w')

/-- A load over lane forms. -/
def loadOp (i : Instr) (x : W) (s : State) (space : Space) (o : MemOrd) (isCap : Bool) (form : Wave → Nat → Form) : Out :=
  withWave s fun id w =>
    let ty := x.ty.toNat
    let act := w.active x.g
    let nd : Need := { sp := space, n := if isCap then 16 else tyBytes ty, perm := pRD, align := isCap, kind := .read }
    let count := if isCap then 4 else if is64 0xA0 ty then 2 else 1
    withAccess s id w i nd act (form w) fun s accs => loadIssue s id w i o (w.key x.d.toNat) count ty isCap act accs

def execLd (space : Space) (w : W) (s : State) : Out :=
  loadOp (.ld space w) w s space (ordM w) false fun v l => v.formM space w.a w.ofs l
def execLdc (space : Space) (w : W) (s : State) : Out :=
  loadOp (.ldc space w) w s space (ordM w) true fun v l => v.formM space w.a w.ofs l
def execLdg (space : Space) (w : W) (s : State) : Out :=
  loadOp (.ldg space w) w s space (ordG w) false fun v l => v.formG w l

/-! ### The data returns -/

/-- The data that a load delivers, with the writes that it comes from: what it read at issue, or, while no release or acquire of the wave has followed,
what the lanes may read now with the floor of its issue (11 R213-R215). -/
def State.loadData (s : State) (core : Nat) (r : LoadRec) : List (Nat × DWord × DWord × Bool) × List Nat :=
  let p : Reader := { core, party := .wave r.wave, base := r.base, know := r.know, until' := some r.id }
  if !r.vol && r.clean && !r.fixed && (s.poisonLanes core p.party r.acc).isEmpty && Config.choice s.draw 0 then
    (s.sampleLanes p false r.isCap r.ty r.acc, s.sampleIds p false r.isCap r.acc)
  else (r.data, r.ids)

/-- Some registers keep what they held before. -/
def Wave.keepOthers (u w : Wave) (keys : List Nat) : Wave :=
  { u with regs := keys.foldl (fun t k => Tab.put zeroReg t k (Tab.get zeroReg w.regs k)) u.regs
           tags := keys.foldl (fun t k => Tab.put 0 t k (Tab.get 0 w.tags k)) u.tags }

/-- The destination registers of a load. -/
def LoadRec.keys (r : LoadRec) : List Nat := (List.range r.count).map (r.dest + ·)

/-- The destination registers that still await the load receive its data, in the lanes that have not left with their slice (01 R14, R17, 08 R157). -/
def Wave.putLoad (w : Wave) (r : LoadRec) (data : List (Nat × DWord × DWord × Bool)) : Wave :=
  let at' := fun (l : Nat) => ((data.find? fun d => d.1 == l).map fun d => d.2).getD (0, 0, false)
  let act := r.act &&& sliceMask w.live
  let u := { w with win := r.dest / 256 }
  let u := if r.isCap then u.putQuad (r.dest % 256) act fun l => { bits := (at' l).2.1 ++ (at' l).1, tag := (at' l).2.2 }
           else u.putDst (decide (r.count = 2)) (r.dest % 256) act (lanes fun l => (at' l).1)
  { u with win := w.win }.keepOthers w (r.keys.filter fun k => !w.owes k r.id)

/-- The class L entry of a returned load (09 R176, R178). -/
def State.enterLoad (s : State) (core : Nat) (w : Wave) (r : LoadRec) (names ids : List Nat) : State :=
  match r.key with
  | none => s
  | some k =>
    if !r.clean then s
    else if r.dropped || k.phase.map Prod.fst != some (s.core core).phase then s.bumpQ core w.qtr .loadDrop
    else
      let place := (r.acc.head?.map LaneAcc.place).getD .glob
      s.sorrelEnter w.quarterKey
        { key := k, results := names, flags := 0, validFrom := s.cycle core + 1, ids, lines := some (place, distinct (r.acc.flatMap fun a => a.addr.map (· / 128))) }

/-- The k-th load in flight of a core returns. -/
def State.loadReturn (s : State) (core k : Nat) (r : LoadRec) : State :=
  let t := s.updCore core fun c => { c with loads := c.loads.eraseIdx k }
  match Tab.find s.waves r.wave with
  | none => t
  | some w =>
    let keys := r.keys.filter fun k => w.owes k r.id
    let base := (s.quarter w.quarterKey).nextName
    let names := (List.range keys.length).map (base + ·)
    let (data, ids) := s.loadData core r
    let u := ((w.putLoad r data).rename keys base).sees (if r.fixed then [] else ids)
    let u := { u with gates := u.gates.filter fun g => g != .load r.id }
    let t := t.noteNames r.wave w u keys none 0 true
    (if keys = r.keys then t.enterLoad core u r names ids else t).drawn

def execLoadDataReturn (core k : Nat) (s : State) : Out :=
  match (s.core core).loads[k]? with
  | none => .fault .notEnabled
  | some r => .next (s.loadReturn core k r)

/-! ### Stores -/

/-- A store issues (R191): after the release that its ordering asks for, its events perform at the core, or a `.vol` store at the home. -/
def storeIssue (s : State) (id : Nat) (w : Wave) (i : Instr) (o : MemOrd) (accs : List LaneAcc) (data : Nat → List Byte) (tag : Nat → Option Bool) :
    Out :=
  let p : Party := .wave id
  let ctx := s.ctxOf w
  match s.orderGates id w o accs with
  | g :: gs => waitGates s id w i (g :: gs)
  | [] =>
    let (s, w) := if o.rel && o.scope != .wave then s.releaseBy id w o.scope else (s, w)
    let es := storeEvents (o.vol || accs.any fun a => (tag a.lane).isSome) accs data tag
    let put := fun (s : State) (e : WEvent) =>
      if o.vol then
        let t := s.flushOverlap (w.reader id) e.place (e.bytes.map Prod.fst)
        t.fresh.writeHome { id := t.nextId, core := w.core, party := p } ctx o.cp e.place e.bytes e.tags e.clears
      else s.performWrite w.core p ctx e.place e.bytes e.tags [] o.cp e.clears
    let s := (markClears es es).foldl put s
    .next (advance s id w)

/-- A store over lane forms; `data` is each lane's value and, for `STC`, its tag. -/
def storeOp (i : Instr) (x : W) (s : State) (space : Space) (o : MemOrd) (n : Nat) (isCap : Bool) (form : Wave → Nat → Form)
    (data : Wave → Nat → List Byte) (tag : Wave → Nat → Option Bool) : Out :=
  withWave s fun id w =>
    let nd : Need := { sp := space, n, perm := pWR, align := isCap, kind := .write }
    withAccess s id w i nd (w.active x.g) (form w) fun s accs => storeIssue s id w i o accs (data w) (tag w)

/-- The low bytes of an operand (R191). -/
def storeBytes (ty : Nat) (w : Wave) (x : Opnd) (l : Nat) : List Byte := leBytes (tyBytes ty) (w.opnd (is64 0xA1 ty) x l).toNat

def execSt (space : Space) (w : W) (s : State) : Out :=
  storeOp (.st space w) w s space (ordM w) (tyBytes w.ty.toNat) false (fun v l => v.formM space w.a w.ofs l)
    (fun v l => storeBytes w.ty.toNat v w.b l) fun _ _ => none
def execStc (space : Space) (w : W) (s : State) : Out :=
  storeOp (.stc space w) w s space (ordM w) 16 true (fun v l => v.formM space w.a w.ofs l)
    (fun v l => leBytes 16 (v.quadOpnd w.b l).bits.toNat) fun v l => some (v.quadOpnd w.b l).tag
def execSts (space : Space) (w : W) (s : State) : Out :=
  storeOp (.sts space w) w s space (ordG w) (tyBytes w.ty.toNat) false (fun v l => v.formG w l)
    (fun v l => storeBytes w.ty.toNat v w.c l) fun _ _ => none

/-! ### Spill and fill (R195) -/

/-- The form of register j's line: the lowest live lane's address with bits [6:0] cleared, plus 128 j. -/
def spillForm (w : Wave) (space : Space) (x : W) (j : Nat) : Form :=
  match lowest w.live with
  | none => .untagged
  | some l =>
    match w.formM space x.a x.ofs l with
    | .untagged => .untagged
    | .cap c a => .cap c (a / 128 * 128 + 128 * j)
    | .glob va => .glob ((va / 128 * 128 + 128 * j) % 2 ^ 57)
    | .scr a => .scr (a / 128 * 128 + 128 * j)
    | .cl a => .cl (a / 128 * 128 + 128 * j)

/-- Registers `js` in turn: the line of each is checked and moved before the next (R147, R195). A stop keeps what has moved. -/
def spillGo (i : Instr) (id : Nat) (nd : Need) (form : Nat → Form) (each : State → Wave → Nat → List LaneAcc → Except Out State) :
    List Nat → State → Out
  | [], s => match Tab.find s.waves id with | some w => done s id w | none => .fault .noWave
  | j :: js, s =>
    match Tab.find s.waves id with
    | none => .fault .noWave
    | some w =>
      let w := { w with xcnt := j }
      let l := (lowest w.live).getD 0
      withAccess s id w i nd (1#32 <<< l) (fun _ => form j) fun s accs =>
        match each s w j accs with
        | .error o => o
        | .ok t => spillGo i id nd form each js t

/-- The registers of a `STV.M` or `LDV.M` still to move. -/
def spillRest (w : Wave) (x : W) : List Nat := (List.range (fld x.mod 4 0 + 1)).filter fun j => decide (w.xcnt ≤ j)

/-- The 128 bytes of a register, lane l at byte 4 l; exited lanes write zero. -/
def regBytes (w : Wave) (n : Nat) : List Byte :=
  (List.range 32).flatMap fun l => leBytes 4 (if w.live.getLsbD l then (w.regLane n l).toNat else 0)

def execStvM (space : Space) (w : W) (s : State) : Out :=
  withWave s fun id v =>
    let nd : Need := { sp := space, n := 128, perm := pWR, align := false, kind := .write }
    let each := fun (s : State) (u : Wave) (j : Nat) (accs : List LaneAcc) =>
      let put := fun (s : State) (a : LaneAcc) =>
        s.performWrite u.core (.wave id) (s.ctxOf u) a.place (a.addr.zip (regBytes u (w.b.num + j))) [] [] w.cpM
      (.ok (accs.foldl put (s.setWave id u)) : Except Out State)
    spillGo (.stvM space w) id nd (spillForm v space w) each (spillRest v w) s

/-- The lanes of one line of `LDV.M`, as lanes of a load. -/
def lineLanes (live : Mask) (a : LaneAcc) : List LaneAcc :=
  (laneList live).map fun l => { a with lane := l, addr := (a.addr.drop (4 * l)).take 4 }

def execLdvM (space : Space) (w : W) (s : State) : Out :=
  withWave s fun id v =>
    let nd : Need := { sp := space, n := 128, perm := pRD, align := false, kind := .read }
    let each := fun (s : State) (u : Wave) (j : Nat) (accs : List LaneAcc) =>
      match accs with
      | [] => .ok s
      | a :: _ =>
        let p : Party := .wave id
        let ctx := s.ctxOf u
        let s := s.prepRead (dieOf u.core) ctx w.cpM (if a.place = .glob then a.addr else [])
        let ls := lineLanes u.live a
        let bad := s.poisonLanes u.core p ls
        if u.strict ∧ bad ≠ [] then .error (poisonStop s id u bad)
        else
          let s := s.addLossIf ctx bad.length
          let line := s.readLane (u.reader id) false (some 0) a
          let old := fun (l : LaneAcc) => leNat (((line.drop (4 * l.lane)).take 4).map Prod.fst)
          let data := ls.map fun l => if bad.contains l then (l.lane, 0, 0, false) else (l.lane, BitVec.ofNat 64 (old l), (0 : DWord), false)
          let r : LoadRec := {
            id := s.nextId, wave := id, dest := u.key (w.d.toNat + j), count := 1, ty := 2, isCap := false, act := u.live, acc := ls, data
            ids := distinct (line.filterMap Prod.snd)
            clean := bad.isEmpty, vol := true, base := u.base, know := u.know, key := none, dropped := false }
          let gates := if u.strict then u.gates ++ [Gate.load s.nextId] else u.gates
          let u := { u.await [u.key (w.d.toNat + j)] s.nextId with gates }
          .ok ((s.setWave id u).updCore u.core fun c => { c with loads := c.loads ++ [r] }).fresh.drawn
    spillGo (.ldvM space w) id nd (spillForm v space w) each (spillRest v w) s

end Sys2Proof.Machine
end

