-- ==== Sys2Proof/Machine/Atomics.lean ====
section
/-! DEFINITION. Atomics and reductions (10 R196-R200), `REL`, `ACQ`, `PHX`, `FENCE` (R201-R205), and the events that perform requests, bring
writes home, complete releases and refresh snapshots (11 R212-R220). -/

namespace Sys2Proof.Machine

/-! ### The operations (R198-R200) -/

/-- Bytes of an atomic's location. -/
def AtKind.size : AtKind → Nat
  | .int _ ty | .cas ty => if ty = 3 ∨ ty = 4 then 8 else 4
  | .flt _ .f64 _ => 8
  | .flt .. => 4

/-- op(m, v) of an integer atomic (R198). -/
def intAtomic (o : AtOp) (ty : Nat) (m v : DWord) : DWord :=
  match o with
  | .add => m + v
  | .min => if readInt ty v < readInt ty m then v else m
  | .max => if readInt ty m < readInt ty v then v else m
  | .and => m &&& v
  | .or => m ||| v
  | .xor => m ^^^ v
  | .exch => v

/-- One element of a float atomic: its control field replaces `$fpc`, and an infinite result may saturate (R200). -/
def fltElem (f : FFmt) (o : RedF) (md m v : Nat) : Nat :=
  let c : FCtl := { mode := .rne, ftz := md.testBit 2, dn := md.testBit 3 }
  let r := match o with
    | .add => (f.addOp c m v).bits
    | .min => (f.minMax c.ftz c.dn false m v).bits
    | .max => (f.minMax c.ftz c.dn true m v).bits
  let x := f.decode r
  if md.testBit 4 && x.isInf then f.maxBits x.neg else r

/-- op(m, v) of a float atomic, element by element. -/
def fltAtomic (o : RedF) (t : AtFt) (md : Nat) (m v : DWord) : DWord :=
  let pair := fun (f : FFmt) =>
    BitVec.ofNat 64 (fltElem f o md (fld m 15 0) (fld v 15 0) + fltElem f o md (fld m 31 16) (fld v 31 16) * 2 ^ 16)
  match t with
  | .f32 => BitVec.ofNat 64 (fltElem (fmtTy 0) o md (fld m 31 0) (fld v 31 0))
  | .f64 => BitVec.ofNat 64 (fltElem (fmtTy 1) o md m.toNat v.toNat)
  | .bf16x2 => pair (fmtTy 3)
  | .f16x2 => pair (fmtTy 4)

/-- A value kept to the location's width. -/
def AtKind.keep (k : AtKind) (v : DWord) : DWord := if k.size = 8 then v else (v.setWidth 32).setWidth 64

def AtKind.op (k : AtKind) (m v : DWord) : DWord :=
  k.keep (match k with | .int o ty => intAtomic o ty (k.keep m) (k.keep v) | .flt o t md => fltAtomic o t md m v | .cas _ => m)

/-- One request at the home (R197): each lane's old value, and the value left. Lanes are a number, an operand and an expected value. -/
def AtKind.serve (k : AtKind) (old : DWord) (ls : List (Nat × DWord × DWord)) : List (Nat × DWord) × DWord :=
  match k with
  | .cas _ =>
    ls.foldl (fun (acc : List (Nat × DWord) × DWord) (l, v, e) =>
      (acc.1 ++ [(l, acc.2)], if k.keep acc.2 = k.keep e then k.keep v else acc.2)) ([], old)
  | _ =>
    match ls with
    | [] => ([], old)
    | (l1, v1, _) :: rest =>
      let r := rest.foldl (fun (acc : List (Nat × DWord) × DWord) (l, v, _) => (acc.1 ++ [(l, k.op old acc.2)], k.op acc.2 v)) ([(l1, old)], k.keep v1)
      (r.1, k.op old r.2)

/-! ### Issue (R197) -/

/-- The requests of an atomic: one for each distinct place and address. -/
def atRequests (accs : List LaneAcc) : List (Place × Nat × List LaneAcc) :=
  let key := fun (a : LaneAcc) => (a.place, a.addr.headD 0)
  accs.foldl (fun (acc : List (Place × Nat × List LaneAcc)) a =>
    if acc.any fun r => r.1 == a.place && r.2.1 == (key a).2 then
      acc.map fun r => if r.1 == a.place && r.2.1 == (key a).2 then (r.1, r.2.1, r.2.2 ++ [a]) else r
    else acc ++ [(a.place, (key a).2, [a])]) []

/-- An atomic or reduction issues: checks, the release of its ordering, the requests; D awaits the old values (R188, R196, R197). -/
def atomIssue (i : Instr) (x : W) (s : State) (k : AtKind) (wantsD : Bool) (b : Wave → Nat → DWord) (e : Wave → Nat → DWord) : Out :=
  withWave s fun id w =>
    let act := w.active x.g
    let nd : Need := { sp := x.atSpace, n := k.size, perm := pAT, align := true, kind := .atomic }
    withAccess s id w i nd act (fun l => w.formM x.atSpace x.a x.ofs l) fun s accs =>
      let p : Party := .wave id
      let ctx := s.ctxOf w
      let o := ordM x
      let ready := s.prepRead (dieOf w.core) ctx .normal (accs.flatMap fun a => if a.place = .glob then a.addr else [])
      let bad := ready.poisonLanes w.core p accs
      if w.strict ∧ bad ≠ [] then poisonStop ready id w bad
      else
        match s.orderGates id w o accs with
        | g :: gs => waitGates s id w i (g :: gs)
        | [] =>
        let s := if w.strict then ready else s
        let (s, w) := if o.rel && o.scope != .wave then s.releaseBy id w o.scope else (s, w)
        let after := (s.core w.core).openReleases p
        let inst := s.nextId
        let count := if k.size = 8 then 2 else 1
        let dest := w.key x.d.toNat
        let keys := (List.range count).map (dest + ·)
        let reqs := (atRequests accs).zipIdx.map fun ((pl, addr, ls), n) =>
          ({ id := inst + n, inst, wave := id, dest := if wantsD then some dest else none, kind := k, place := pl, addr, size := k.size
             lanes := ls.map fun a => (a.lane, b w a.lane, e w a.lane), after, ctx } : AtReq)
        let s := { s.updCore w.core fun c => { c with atoms := c.atoms ++ reqs } with nextId := inst + reqs.length + 1 }
        let hold := o.acq || (w.strict && wantsD)
        let gates := (if hold && !reqs.isEmpty then [Gate.atom inst] else []) ++ (if o.acq then [Gate.acq o.scope] else [])
        let w1 := { w with gates, looked := none }
        if wantsD && !reqs.isEmpty then
          let u := (w1.rename keys (s.quarter w.quarterKey).nextName).await keys inst
          .next (advance (s.noteNames id w u keys none 0 false) id u)
        else .next (advance s id w1)

def execAtom (o : AtOp) (w : W) (s : State) : Out :=
  atomIssue (.atom o w) w s (.int o w.ty.toNat) true (fun v l => v.opnd (is64 0xB0 w.ty.toNat) w.b l) fun _ _ => 0
def execRed (o : AtOp) (w : W) (s : State) : Out :=
  atomIssue (.red o w) w s (.int o w.ty.toNat) false (fun v l => v.opnd (is64 0xB3 w.ty.toNat) w.b l) fun _ _ => 0
def execAtomCas (w : W) (s : State) : Out :=
  let wide := is64 0xB1 w.ty.toNat
  atomIssue (.atomCas w) w s (.cas w.ty.toNat) true (fun v l => v.opnd wide w.b l) fun v l => v.opnd wide (.reg w.d false false) l
def execAtomFloat (o : RedF) (t : AtFt) (w : W) (s : State) : Out :=
  atomIssue (.atomFloat o t w) w s (.flt o t w.mod.toNat) true (fun v l => v.fopnd t.ty w.b l) fun _ _ => 0
def execRedFloat (o : RedF) (t : AtFt) (w : W) (s : State) : Out :=
  atomIssue (.redFloat o t w) w s (.flt o t w.mod.toNat) false (fun v l => v.fopnd t.ty w.b l) fun _ _ => 0

/-! ### A request performs at the home (R196, R197, R206) -/

/-- The old values, with the writes that they come from (11 R217), reach D in the lanes of the request; the last request of the instruction ends the wait for D. -/
def State.atomReturn (s : State) (r : AtReq) (olds : List (Nat × DWord)) (ids : List Nat) : State :=
  match Tab.find s.waves r.wave with
  | none => s
  | some w =>
    let more := (s.core w.core).atoms.any fun q => q.inst == r.inst
    let act := maskOf (fun l => olds.any fun o => o.1 == l) &&& sliceMask w.live
    let put := fun (d : Nat) =>
      let u := { w with win := d / 256 }
      let u := u.putDst (r.size == 8) (d % 256) act (lanes fun l => ((olds.find? fun o => o.1 == l).map Prod.snd).getD 0)
      { u with win := w.win }
    let keys := match r.dest with | some d => (List.range (if r.size = 8 then 2 else 1)).map (d + ·) | none => []
    let owed := keys.filter fun k => w.owes k r.inst
    let u := match r.dest with | some d => (put d).keepOthers w (keys.filter fun k => !w.owes k r.inst) | none => w
    let u := if r.dest.isSome then u.sees ids else u
    if more then s.setWave r.wave u
    else
      let gates := u.gates.filter fun g => g != .atom r.inst
      let u := { u.came keys r.inst with gates }
      let wb : List PendWb := if w.shares && !owed.isEmpty then
        [{ wave := r.wave, names := owed.map u.name, key := none, flags := 0, lines := none, share := true }] else []
      (s.setWave r.wave u).updQuarter w.quarterKey fun q => { q with wb := q.wb ++ wb }

/-- The reader that a request stands for: its wave with the floor that it has now. -/
def State.atReader (s : State) (core : Nat) (r : AtReq) : Reader :=
  match Tab.find s.waves r.wave with | some w => { w.reader r.wave with core } | none => { core, party := .wave r.wave, base := 0, know := [] }

/-- The k-th request of a core performs. -/
def State.performAtomic (s : State) (core k : Nat) (r : AtReq) : State :=
  let as := (List.range r.size).map (r.addr + ·)
  let p : Party := .wave r.wave
  let drop := fun (q : Release) => { q with need := q.need.filter fun n => n != r.id }
  let s := s.updCore core fun c => { c with atoms := c.atoms.eraseIdx k, releases := c.releases.map drop }
  let s := s.flushOverlap (s.atReader core r) r.place as
  let s := if r.place = .glob then s.prepRead (dieOf core) r.ctx .normal as else s
  let bad := as.any fun a => s.viewPoison core p r.place a
  let was := as.map fun a => s.pickHome core r.place a
  let old := if bad then 0 else BitVec.ofNat 64 (leNat (was.map Prod.fst))
  let (olds, v) := r.kind.serve old r.lanes
  let s := s.addLossIf r.ctx (if bad then 1 else 0)
  let s := s.writeHome { id := r.id, core, party := p } r.ctx .normal r.place (as.zip (leBytes r.size v.toNat)) []
  s.atomReturn r olds (distinct (was.filterMap Prod.snd))

/-- A request may perform once the releases before it have completed and no write ahead of it is held back (R188, R196, 11 R216). -/
def execAtomicRequestPerform (core k : Nat) (s : State) : Out :=
  match (s.core core).atoms[k]? with
  | none => .fault .notEnabled
  | some r =>
    let as := (List.range r.size).map (r.addr + ·)
    when (!s.placeMoves r.place && (r.after.all fun n => !((s.core core).releases.any fun x => x.id == n)) && ((s.core core).stuck (s.atReader core r) r.place as).isEmpty)
      (s.performAtomic core k r)

/-! ### REL, ACQ, PHX, FENCE (R201-R205) -/

/-- A release by a wave, and the gate on its completion where it is not complete at once. -/
def State.releaseGate (s : State) (id : Nat) (w : Wave) (sc : Scope) : State × Wave × List Gate :=
  let (t, v) := s.releaseBy id w sc
  (t, v, if (t.core w.core).releases.any fun r => r.id == s.nextId then [.rel s.nextId] else [])

def execRel (w : W) (s : State) : Out :=
  withWave s fun id v =>
    if w.scopeM = .wave then done s id { v with gates := s.fenceGates v.core id }
    else let (t, v) := s.releaseBy id v w.scopeM; done t id v

def execAcq (w : W) (s : State) : Out :=
  withWave s fun id v =>
    let pre := if w.scopeM = .wave then s.fenceGates v.core id else []
    done s id { v with gates := pre ++ [.acq w.scopeM] }

def execPhx (w : W) (s : State) : Out :=
  withWave s fun id v =>
    if w.scopeM = .wave then done s id { v with gates := s.fenceGates v.core id ++ [.acq .wave] }
    else
      let (t, v, g) := s.releaseGate id v w.scopeM
      done t id { v with gates := g ++ [.acq w.scopeM] }

def execFence (_w : W) (s : State) : Out := withWave s fun id v => done s id { v with gates := s.fenceGates v.core id }

/-! ### Arrivals, completions, refreshes -/

/-- The k-th pending write of a core reaches its home (11 R212, R220). -/
def execWriteArrival (core k : Nat) (s : State) : Out := when ((s.core core).mayArrive k && !(match (s.core core).pend[k]? with | some w => s.placeMoves w.place | none => false)) (s.arrive core k)

/-- The end of a release: what waits for it goes on (R201, R203). -/
def State.endRelease (s : State) (core : Nat) (r : Release) : State :=
  let t := s.updCore core fun c => { c with releases := c.releases.filter fun x => x.id != r.id }
  let quit := fun (w : Wave) => { w with gates := w.gates.filter fun g => g != .rel r.id }
  let waves := t.waves.map fun (k, w) => (k, quit w)
  let open' := fun (l : LCore) => if l.gate = some r.id then { l with gate := none } else l
  let lcores := t.lcores.map fun (k, l) => (k, open' l)
  { t with waves, lcores }

def execReleaseComplete (core k : Nat) (s : State) : Out :=
  match (s.core core).releases[k]? with
  | none => .fault .notEnabled
  | some r => when ((s.core core).mayComplete k) (s.endRelease core r)

/-- A wave's acquire is next: the refresh of the core's snapshot (R202, 11 R213, R217, R220). -/
def execAcquireRefresh (wave : Nat) (s : State) : Out :=
  match Tab.find s.waves wave with
  | none => .fault .notEnabled
  | some w =>
    match w.gates with
    | .acq sc :: rest => .next ((s.acquire wave w sc).updWave wave fun u => { u with gates := rest })
    | _ => .fault .notEnabled

end Sys2Proof.Machine
end

