-- ==== Sys2Proof/Machine/Barriers.lean ====
section
/-! DEFINITION. The barrier table, its objects and its instructions (12 R228-R242). -/

namespace Sys2Proof.Machine

/-! ### Objects (R231) -/

inductive Obj
  | phase (expect arrived : Nat) (pend : Int) (phnum : Nat) (flt : Bool)
  | count (value : Nat) (flt : Bool)
  deriving DecidableEq, Repr

def Obj.bits : Obj → BitVec 128
  | .phase e a p n f =>
    BitVec.ofNat 128 (e + a * 2 ^ 16 + (p % 2 ^ 56).toNat * 2 ^ 32 + 1 * 2 ^ 88 + (if f then 2 ^ 90 else 0) + n * 2 ^ 96)
  | .count v f => BitVec.ofNat 128 (v + 2 * 2 ^ 88 + if f then 2 ^ 90 else 0)

def Obj.ofBits (count : Bool) (x : BitVec 128) : Obj :=
  if count then .count (fld x 63 0) (x.getLsbD 90)
  else .phase (fld x 15 0) (fld x 31 16) (BitVec.ofNat 56 (fld x 87 32)).toInt (fld x 127 96) (x.getLsbD 90)

def Obj.flt : Obj → Bool | .phase _ _ _ _ f => f | .count _ f => f
def Obj.setFlt : Obj → Obj | .phase e a p n _ => .phase e a p n true | .count v _ => .count v true

/-- The condition of a phase after an update (R233). -/
def Obj.settle : Obj → Obj
  | .phase e a p n f => if a = e ∧ p = 0 then .phase e 0 0 ((n + 1) % 2 ^ 32) f else .phase e a p n f
  | o => o

/-! ### Entries and handles (R228-R230) -/

/-- A handle of an entry. -/
def handleOf (idx gen : Nat) : Word := BitVec.ofNat 32 (idx + gen * 256)

/-- The entry that a handle names for a group; none where the handle is stale (R229). -/
def State.entryOf (s : State) (core gid : Nat) (h : Word) : Option Nat :=
  let k := fld h 7 0
  let e := Tab.get {} (s.core core).barriers k
  if fld h 15 8 ≠ 0 ∧ fld h 31 16 = 0 ∧ e.live ∧ e.gen = fld h 15 8 ∧ e.group = gid then some k else none

def State.entry (s : State) (core k : Nat) : BEntry := Tab.get {} (s.core core).barriers k

/-- The object of a live entry. -/
def State.obj (s : State) (core k : Nat) : Obj :=
  let e := s.entry core k
  match Tab.find s.groups e.group with
  | some g => .ofBits e.count (BitVec.ofNat 128 (leNat ((List.range 16).map fun i => g.rd (e.off + i))))
  | none => .ofBits e.count 0

/-- The barrier unit writes an object: its granule's tag clears, reused loads of its line drop, and what stood there before is no longer read (R232). -/
def State.putObj (s : State) (gid off : Nat) (v : BitVec 128) : State :=
  match Tab.find s.groups gid with
  | none => s
  | some g =>
    let scr := ((leBytes 16 v.toNat).zipIdx).foldl (fun m (b, i) => Tab.put emptyByte m (off + i) b) g.scr
    let s := s.forget (.scr gid) ((List.range 16).map (off + ·))
    (s.setGroup gid { g with scr, scrTags := Tab.put false g.scrTags (off / 16) false }).dropLines g.core (.scr gid) [off / 128]

/-- One update of a barrier, indivisible (R233). -/
def State.updObj (s : State) (core k : Nat) (f : Obj → Obj) : State :=
  let e := s.entry core k
  s.putObj e.group e.off (f (s.obj core k)).settle.bits

/-- Live entries that a bank set owns (R242). -/
def State.barUsed (s : State) (core n : Nat) : Nat :=
  ((s.core core).barriers.filter fun (_, e) => e.live && (match Tab.find s.groups e.group with | some g => g.bset == n | none => false)).length

/-- BARLIM.USED follows the table (R242). -/
def State.noteUsed (s : State) (core : Nat) : State :=
  (List.range 8).foldl (fun s n => if s.regF (.barlim core n) 17 9 = s.barUsed core n then s else s.setRegF (.barlim core n) 17 9 (s.barUsed core n)) s

/-- An entry becomes free: next generation, object bytes zero; who waits on it finds it gone (R230, R237, R241). -/
def State.freeEntry (s : State) (core k : Nat) : State :=
  let e := s.entry core k
  let h := handleOf k e.gen
  let s := s.putObj e.group e.off 0
  let s := s.updCore core fun c => { c with barriers := Tab.set c.barriers k { e with live := false, gen := if e.gen = 255 then 1 else e.gen + 1 } }
  let wake := fun (w : Wave) =>
    match w.cond with
    | .waiting (.waitb _ x b) => if w.core = core ∧ w.group = e.group ∧ x = h then { w with cond := .waiting (.waitb true x b) } else w
    | _ => w
  let waves := s.waves.map fun (i, w) => (i, wake w)
  ({ s with waves } : State).noteUsed core

/-! ### Who names a barrier (R237) -/

def isCpy (c : Copy) : Bool := match c.kind with | .lin | .tile => true | _ => false

/-- A ring copy (R244): a fabric command has the number of its window or group in that bit. -/
def Copy.ring (c : Copy) : Bool := isCpy c && c.word.tail.getLsbD 12

/-- Handles that a copy names: H, or FILLED and FREED of a ring (R246). -/
def Copy.handles (c : Copy) : List Word :=
  match c.kind with
  | .lin | .tile =>
    let d := (c.desc[3]?).getD 0
    if c.ring then [BitVec.ofNat 32 (fld d 15 0), BitVec.ofNat 32 (fld d 31 16)] else [BitVec.ofNat 32 (fld d 15 0)]
  | _ => [(c.desc[3]?).getD 0]

/-- A record that closes its batch (13 R262, R279, R282). -/
def MRec.closes (r : MRec) : Bool := match r.inst with | .mbatch _ | .batonPass _ | .batonPassSignal _ => true | _ => false

/-- Whether a copy, an uncompleted batch or the baton of a group names an entry's handle. -/
def State.named (s : State) (core gid : Nat) (h : Word) : Bool :=
  ((s.core core).copies.any fun c => c.by_.group == gid && c.handles.contains h) ||
  (match Tab.find s.groups gid with
   | some g => (g.queue.any fun r => r.closes && r.desc.head? == some h) || (match g.baton with | some (b, _) => b == h | none => false)
   | none => false)

/-! ### Instructions (R234-R241) -/

/-- What a signal by a wave waits for: its atomics have performed, and no release of its own keeps an earlier write of its from the core (R225; log 31). -/
def State.signalGates (s : State) (core wave : Nat) : List Gate :=
  let c := s.core core
  (distinct (c.pend.flatMap fun (v : PWrite) => if v.party = .wave wave then v.after.filter fun r => c.releases.any fun x => x.id == r else [])).map .rel ++
  (distinct (c.atoms.filterMap fun (r : AtReq) => if r.wave = wave then some r.inst else none)).map .atom

/-- A barrier has counted a signal: its release is kept for those who wait (11 R225). -/
def State.noteSignal (s : State) (core k rel : Nat) : State :=
  let e := s.entry core k
  s.updCore core fun c => { c with barriers := Tab.set c.barriers k { e with rels := e.rels ++ [rel] } }

/-- Runs an instruction of R234 on its lowest active lane; without one it has no effect (R235). -/
def barOp (s : State) (k : Nat → Wave → Nat → Out) : Out :=
  withWave s fun id w =>
    match lowest w.exm with
    | none => done s id w
    | some l => k id w l

/-- A barrier operand: a live handle of the kind (0x30 before 0x32), then `k` (R229, R235). -/
def withEntry (s : State) (id : Nat) (w : Wave) (h : Word) (count : Bool) (k : Nat → Out) : Out :=
  match s.entryOf w.core w.group h with
  | none => trapCode s id w 0x30
  | some e => if (s.entry w.core e).count ≠ count then trapCode s id w 0x32 else k e

/-- A signal by a wave: once its earlier writes are with the core, a release at `.core` and the update (R225, R238). -/
def signalOp (i : Instr) (x : W) (s : State) (id : Nat) (w : Wave) (e : Nat) (f : Obj → Obj) : Out :=
  match s.signalGates w.core id with
  | [] =>
    let (t, v) := s.releaseBy id w .core
    doneL ((t.noteSignal w.core e s.nextId).updObj w.core e f) id v i x
  | gs => waitGates s id w i gs

/-- A result of a wave instruction that enters no latch, the same in every lane of `act`. -/
def writeUniform (s : State) (id : Nat) (w : Wave) (i : Instr) (x : W) (act : Mask) (v : Word) : Out :=
  let w' := (w.putDst false x.d.toNat act (lanes fun _ => v.setWidth 64)).flag (if readsLost i x w then fLLOST else 0)
  finish s id w w' (w.dstKeys x.d.toNat 1) 0

/-- `BALLOC` (R236), its causes by 06 R141. -/
def ballocOp (i : Instr) (x : W) (s : State) (count : Bool) : Out :=
  barOp s fun id w l =>
    let off := (w.opnd32 x.a l).toNat
    let p := (w.opnd32 x.b l).toNat
    let one := maskOf fun k => k == l
    match Tab.find s.groups w.group with
    | none => .fault .noWave
    | some g =>
      if g.window < off + 16 then faultWave s id w 0x11 { code := 0x11, lane := some l, addr := off } one
      else if off % 16 ≠ 0 then faultWave s id w 0x12 { code := 0x12, lane := some l } one
      else if !count ∧ (p = 0 ∨ 65535 < p) then trapCode s id w 0x32
      else
        let c := s.core w.core
        match c.barriers.find? fun (_, e) => e.live && e.group == w.group && e.off == off with
        | some (k, e) =>
          let same : Bool := match s.obj w.core k with | .phase x .. => x == p | .count .. => true
          if e.count = count ∧ same then writeUniform s id w i x w.exm (handleOf k e.gen) else trapCode s id w 0x32
        | none =>
          match (List.range 256).find? fun k => !(s.entry w.core k).live with
          | none => writeUniform s id w i x w.exm 0
          | some k =>
            if min 256 (s.regF (.barlim w.core g.bset) 8 0) ≤ s.barUsed w.core g.bset then writeUniform s id w i x w.exm 0
            else
              let gen := (s.entry w.core k).gen
              let s := s.setCore w.core { c with barriers := Tab.set c.barriers k { live := true, group := w.group, count, gen, off } }
              let o : Obj := if count then .count p false else .phase p 0 0 0 false
              writeUniform ((s.putObj w.group off o.bits).noteUsed w.core) id w i x w.exm (handleOf k gen)

def execBallocPhase (w : W) (s : State) : Out := ballocOp (.ballocPhase w) w s false
def execBallocCount (w : W) (s : State) : Out := ballocOp (.ballocCount w) w s true

def execBfree (w : W) (s : State) : Out :=
  barOp s fun id v l =>
    let h := v.opnd32 w.a l
    match s.entryOf v.core v.group h with
    | none => trapCode s id v 0x30
    | some k => if s.named v.core v.group h then trapCode s id v 0x32 else doneL (s.freeEntry v.core k) id v (.bfree w) w

/-- `BARRIVE` (R238). -/
def execBarrive (w : W) (s : State) : Out :=
  barOp s fun id v l =>
    withEntry s id v (v.opnd32 w.a l) false fun k =>
      let n := w.bits 79 64
      match s.obj v.core k with
      | .phase e a _ _ _ =>
        if e < a + n then trapCode s id v 0x32
        else signalOp (.barrive w) w s id v k fun o => match o with | .phase e a p m f => .phase e (a + n) p m f | o => o
      | .count .. => trapCode s id v 0x32

/-- `BEXPECT` (R239). -/
def execBexpect (w : W) (s : State) : Out :=
  barOp s fun id v l =>
    withEntry s id v (v.opnd32 w.a l) false fun k =>
      let b := (v.opnd true w.b l).toNat
      match s.obj v.core k with
      | .phase _ _ p _ _ =>
        if 2 ^ 55 ≤ b ∨ p + b < -2 ^ 55 ∨ 2 ^ 55 - 1 < p + b then trapCode s id v 0x32
        else
          let add := fun (o : Obj) => match o with | .phase e a p m f => .phase e a (p + b) m f | o => o
          doneL (s.updObj v.core k add) id v (.bexpect w) w
      | .count .. => trapCode s id v 0x32

/-- Adds to a COUNT object. -/
def addCount (n : Nat) (o : Obj) : Obj := match o with | .count v f => .count (v + n) f | o => o

/-- `BSIG` (R240). -/
def bsigOp (i : Instr) (x : W) (s : State) (n : Wave → Nat → Nat) : Out :=
  barOp s fun id w l =>
    withEntry s id w (w.opnd32 x.a l) true fun k =>
      match s.obj w.core k with
      | .count v _ => if 2 ^ 64 ≤ v + n w l then trapCode s id w 0x32 else signalOp i x s id w k (addCount (n w l))
      | .phase .. => trapCode s id w 0x32

def execBsigImm (w : W) (s : State) : Out := bsigOp (.bsigImm w) w s fun _ _ => w.bits 79 64
def execBsigReg (w : W) (s : State) : Out := bsigOp (.bsigReg w) w s fun v l => (v.opnd true w.b l).toNat

/-! ### WAITB (R241) -/

/-- Whether an object satisfies a wait. -/
def Obj.passes (b : DWord) : Obj → Bool
  | .phase _ _ _ n _ => let d := (n + (2 ^ 32 - (b.toNat % 2 ^ 32))) % 2 ^ 32; decide (1 ≤ d ∧ d ≤ 2 ^ 31)
  | .count v _ => decide (b.toNat ≤ v)

/-- One evaluation of a wait: passed, with the signals counted; a cause; or on. -/
inductive WaitRes
  | pass (rels : List Nat) | cause (code : Nat) | stay
  deriving DecidableEq, Repr

def State.evalWait (s : State) (w : Wave) (count freed : Bool) (h : Word) (b : DWord) : WaitRes :=
  if freed then .cause 0x30
  else
    match s.entryOf w.core w.group h with
    | none => .cause 0x30
    | some k =>
      let o := s.obj w.core k
      if (s.entry w.core k).count ≠ count then .cause 0x32
      else if o.passes b then .pass (s.entry w.core k).rels
      else if o.flt then .cause 0x32
      else .stay

/-- The wait is over: an acquire at `.core` that observes the signals counted, then the instruction completes (R225, R241). -/
def passWait (s : State) (id : Nat) (w : Wave) (rels : List Nat) : Out :=
  let t := s.acquire id (w.hears rels) .core
  match Tab.find t.waves id with | some u => done t id u | none => .fault .noWave

def waitbOp (i : Instr) (x : W) (s : State) (count : Bool) : Out :=
  barOp s fun id w l =>
    let h := w.opnd32 x.a l
    let b := w.opnd count x.b l
    let w' := w.flag (if readsLost i x w then fLLOST else 0)
    match s.evalWait w count false h b with
    | .pass rels => passWait s id w' rels
    | .cause c => trapCode s id w c
    | .stay => waitAt s id w' (.waitb false h b) i

def execWaitbPh (w : W) (s : State) : Out := waitbOp (.waitbPh w) w s false
def execWaitbCt (w : W) (s : State) : Out := waitbOp (.waitbCt w) w s true

/-- A waiting `WAITB` whose barrier has been updated: it returns, or raises what it finds (R237, R241). -/
def execWaitbWake (wave : Nat) (s : State) : Out :=
  match Tab.find s.waves wave with
  | none => .fault .notEnabled
  | some w =>
    match w.cond with
    | .waiting (.waitb freed h b) =>
      let count := match w.held with | some (.waitbCt _) => true | _ => false
      if w.evicted.isSome then .fault .notEnabled
      else
        match s.evalWait w count freed h b with
        | .pass rels => passWait s wave w rels
        | .cause c => trapCode s wave w c
        | .stay => .fault .notEnabled
    | _ => .fault .notEnabled

end Sys2Proof.Machine
end

