-- ==== Sys2Proof/Machine/Engine.lean ====
section
/-! DEFINITION. What the copy, matrix and fabric engines share: the issuer that a command keeps, issue checks of captured capabilities (12 R247, 13
R266), engine reads and writes with their faults and poison (11 R224, 12 R256, 13 R283, R285), the engine fault record (21 R373). -/

namespace Sys2Proof.Machine

/-- What a command keeps of its wave: its floor, which holds its own writes, and its publication set (11 R213, R224, 21 R373). -/
def State.issuer (s : State) (id : Nat) (w : Wave) : Issuer :=
  let p : Party := .wave id
  let pub := w.pub s id
  { wave := id, group := w.group, ctx := s.ctxOf w, pc := w.pc, waveW := w.waveW, tenant := w.tenant, gridW := w.gridW
    groupW := s.recGroup w, base := w.base, know := w.know ++ s.ownIds w.core p w.base, pub, need := (s.core w.core).publication p pub.ids
    strict := w.strict }

/-! ### Issue checks -/

/-- Rows of bytes that a command touches: offset of the first row, rows, pitch in bytes, bytes of a row. -/
structure Span where
  off : Nat
  rows : Nat
  pitch : Nat
  n : Nat
  deriving DecidableEq, Repr

/-- The lowest byte outside a capability, or outside the group's window, among some rows (R247, 06 R146). -/
def Span.outside (c : Cap) (win : Nat) (p : Span) : Option Nat :=
  let lim := if c.scr then min c.top win else c.top
  let bad := (List.range p.rows).filterMap fun i =>
    let a := c.base + p.off + i * p.pitch
    if p.n ≠ 0 ∧ lim < a + p.n then some (max a lim) else none
  bad.min?

/-- Tag, bounds and permission of a captured quad in the lane that it was read from (01 R16). -/
def capChks (c : Cap) (win : Nat) (spans : List Span) (perms : List Nat) (more12 : Bool) (l : Nat) : List Chk :=
  if !c.tag then [{ code := 0x10, lane := some l }]
  else
    (match (spans.filterMap fun p => p.outside c win).min? with | some a => [{ code := 0x11, lane := some l, addr := a % 2 ^ 57 }] | none => []) ++
    (if perms.all c.has && !more12 then [] else [{ code := 0x12, lane := some l }])

/-- A check without a lane. -/
def chkIf (b : Bool) (code : Nat) : List Chk := if b then [{ code }] else []

/-- Runs an engine command on its lowest active lane: no effect without one; its causes by R141; then `k`. -/
def cmdOp (s : State) (chks : State → Wave → Nat → List Chk) (k : State → Nat → Wave → Nat → Out) : Out :=
  withWave s fun id w =>
    match lowest w.exm with
    | none => done s id w
    | some l =>
      match pickChk (chks s w l) with
      | some c => faultChks s id w (chks s w l) c
      | none => k s id w l

/-- The quad that Q1 or Q2 names, in a lane. -/
def Wave.quadQ (w : Wave) (q l : Nat) : Cap := w.quadLane (4 * q) l
/-- The four descriptor words of operand A, in a lane. -/
def Wave.descQ (w : Wave) (a : Opnd) (l : Nat) : List Word := (List.range 4).map fun k => w.regLane (a.num + k) l
def descW (d : List Word) (k : Nat) : Nat := ((d[k]?).getD 0).toNat

/-! ### Reads and writes of an engine -/

/-- The bytes at an offset of a capability, global ones translated by the engine (12 R256, 13 R283). -/
def State.capBytes (s : State) (core : Nat) (b : Issuer) (c : Cap) (off n : Nat) (k : AccKind) : Except (Nat × TFault) (Place × List Nat) :=
  if c.scr then .ok (.scr b.group, (List.range n).map (c.base + off + ·))
  else (translateRange s core b.ctx ((c.base + off) % 2 ^ 57) n k).map fun as => (.glob, as)

/-- Poisoned 32-byte granules among some bytes. -/
def State.poisonGranules (s : State) (core : Nat) (p : Party) (pl : Place) (as : List Nat) : List Nat :=
  distinct ((as.filter fun a => s.viewPoison core p pl a).map (· / 32))

/-- The address of the first poisoned byte among some bytes from a base on (06 R136's ADDR, 21 R373's ADDR). -/
def State.poisonVa (s : State) (core : Nat) (p : Party) (pl : Place) (as : List Nat) (base : Nat) : Nat :=
  base + (as.findIdx? fun a => s.viewPoison core p pl a).getD 0

/-- What an engine reads, each byte with the write that it comes from; poisoned granules read as zero (11 R224, 12 R256, 13 R285). -/
def State.engineBytes (s : State) (core : Nat) (p : Party) (b : Issuer) (pl : Place) (as : List Nat) : List (Byte × Option Nat) :=
  let bad := s.poisonGranules core p pl as
  (laneEvents none { lane := 0, va := 0, place := pl, addr := as }).flatMap fun (ev, xs) =>
    xs.map fun a => if bad.contains (a / 32) then (0, none) else s.pick (b.reader core p) ev pl a

def State.engineRead (s : State) (core : Nat) (p : Party) (b : Issuer) (pl : Place) (as : List Nat) : List Byte := (s.engineBytes core p b pl as).map Prod.fst

/-- The writes that an engine's reads have returned (11 R216). -/
def State.engIds (s : State) (p : Party) : List Nat := ((s.engSeen.find? fun e => e.1 == p).map Prod.snd).getD []

/-- A read of an engine is noted; the next reads are new events. -/
def State.engineSees (s : State) (p : Party) (ids : List (Option Nat)) : State :=
  let old := s.engIds p
  let new := old ++ (distinct (ids.filterMap id)).filter fun n => !old.contains n
  ({ s with engSeen := (p, new) :: s.engSeen.filter fun e => e.1 != p } : State).drawn

/-- What an engine publishes for a command: its own writes, what its reads returned, the command's floor, and the issuing wave's set at issue (11 R216,
R224). -/
def State.enginePub (s : State) (p : Party) (b : Issuer) : Pub :=
  { base := max b.base b.pub.base, ids := b.know ++ b.pub.ids ++ s.engIds p, owns := (p, s.nextId) :: b.pub.owns }

/-- Nothing that an engine would publish for a command is on its way: a release of it completes at once (11 R216). -/
def State.published (s : State) (core : Nat) (p : Party) (b : Issuer) : Bool :=
  let ids := b.need ++ (s.enginePub p b).ids
  !((s.core core).pend.any fun w => decide (w.party = p) || ids.contains w.id) && !((s.core core).atoms.any fun a => b.need.contains a.id)

/-- A release of an engine for a command (11 R224, R225). -/
def State.engineRelease (s : State) (core : Nat) (p : Party) (b : Issuer) (sc : Scope) : State :=
  s.release core p sc (s.enginePub p b) (b.need.filter fun n => (s.core core).pend.any (fun w => w.id == n) || (s.core core).atoms.any fun a => a.id == n)

/-- The command's acquire, which raises its floor (11 R213, R224), and the refresh. -/
def State.engineAcquire (s : State) (core : Nat) (p : Party) (b : Issuer) (sc : Scope) : State × Issuer :=
  let f := s.floorAfter (b.reader core p) (s.engIds p) [] sc
  (s.refresh core sc, { b with base := f.1, know := f.2 })

/-- No release of an engine keeps a write of its from the core's other parties: what it has landed may be signalled (11 R225). -/
def State.engineClear (s : State) (core : Nat) (p : Party) : Bool := (s.core core).pend.all fun w => w.party != p || w.free (s.core core)

/-- Caches leaves for the pages of a global access. -/
def State.cachePages (s : State) (core ctx va n : Nat) : State :=
  (distinct ((List.range n).map fun i => (va + i) % 2 ^ 57 / 4096)).foldl (fun s p => s.cacheLeaves core ctx (p * 4096)) s

/-- Caches leaves for some rows of a captured global quad (19 R340). -/
def State.cacheRows (s : State) (core ctx : Nat) (c : Cap) (p : Span) : State :=
  if c.scr then s else (List.range p.rows).foldl (fun s i => s.cachePages core ctx (c.base + p.off + i * p.pitch) p.n) s

/-! ### Faults of an engine -/

/-- The engine fault record (21 R373): ENG 0 copy, 1 matrix, 2 collective. -/
def engineRecord (b : Issuer) (code eng addr prog : Nat) (h : Word) : PendRec :=
  { body := BitVec.ofNat 512 (code + eng * 2 ^ 8 + b.pc.toNat * 2 ^ 64 + addr % 2 ^ 57 * 2 ^ 128 + prog % 2 ^ 32 * 2 ^ 192 + h.toNat % 2 ^ 16 * 2 ^ 224 +
      b.waveW.toNat * 2 ^ 256 + b.tenant.toNat * 2 ^ 288 + b.gridW.toNat * 2 ^ 320 + b.groupW.toNat * 2 ^ 352 + 3 * 2 ^ 504)
    cls := 2, stage := none, tenant := b.tenant, toRoot := false, wave := none, waited := false }

/-- An engine's not-present fault in the core's fault buffer (12 R251, R252). -/
def State.parkReq (s : State) (core : Nat) (r : Req) (b : Issuer) (va : Nat) (f : TFault) (k : AccKind) : State :=
  s.enterFault core { req := r, ctx := b.ctx, stage := f.stage, va, iaddr := f.iaddr, acc := if f.walk then 4 else k.code, tenant := b.tenant }

/-- FLT of a barrier that an abandoned operation was to update (12 R257). -/
def State.setFlt (s : State) (core gid : Nat) (h : Word) : State :=
  match s.entryOf core gid h with
  | some k => s.updObj core k Obj.setFlt
  | none => s

/-- A signal by an engine on a barrier of a group: a release at `.core`, counted with the update (11 R225). -/
def State.engineSignal (s : State) (core gid : Nat) (p : Party) (b : Issuer) (h : Word) (f : Obj → Obj) : State :=
  match s.entryOf core gid h with
  | some k => ((s.engineRelease core p b .core).noteSignal core k s.nextId).updObj core k f
  | none => s

/-- VALUE grows by 1; a sum above the range sets FLT instead (13 R279). -/
def Obj.addOne : Obj → Obj
  | .count v f => if v + 1 < 2 ^ 64 then .count (v + 1) f else .count v true
  | o => o

/-! ### Matrix queue bookkeeping (13 R260, R287) -/

/-- MXSTAT.QDEPTH follows the resident matrix group's queue. -/
def State.noteQueue (s : State) (core : Nat) : State :=
  let n : Nat := (s.groups.map fun (_, g) => if g.core = core then g.queue.length else 0).sum
  if s.regF (.mxstat core) 14 8 = n then s else s.setRegF (.mxstat core) 14 8 n

end Sys2Proof.Machine
end

