-- ==== Sys2Proof/Machine/Matrix.lean ====
section
/-! DEFINITION. The matrix engine's commands: issue checks, the group's queue, batches and the baton (13 R258-R282). -/

namespace Sys2Proof

/-! ### Fields of the command words (R267, R272, R275-R277) -/

def W.sv (x : W) : Bool := x.mod.getLsbD 5
def W.acc (x : W) : Nat := x.bits 81 76
def W.wslot (x : W) : Nat := x.bits 85 82
def W.ks (x : W) : Nat := x.bits 89 86

end Sys2Proof

namespace Sys2Proof.Machine

/-! ### Extents (R268, R273) -/

def fmtOk (f : Nat) : Bool := (fmtElem f).isSome
/-- A format carried in `n` depths of one row, in bytes; none of a reserved format (R71). -/
def rowLen (f n : Nat) : Nat := match fmtElem f with | some el => rowBytes el n | none => 0
/-- Bytes of the scale entries of one row over `n` depths (R268). -/
def scaleLen (f n : Nat) : Nat :=
  if !fmtScaled f then 0
  else match scaleShape f with | (0, e) => e | (bs, e) => (n + bs - 1) / bs * e

/-- A tile's slots span two where the format is FP32 or FP19 (R269, R273). -/
def pairFmt (f : Nat) : Bool := f == 1 || f == 2

/-- The chain of an `MMA`'s slots, from the slot records (R269). -/
def chainGo (slots : Tab WSlot) (m : Nat) : Nat → List Nat
  | 0 => []
  | n + 1 =>
    let span := match Tab.find slots m with | some x => if pairFmt x.fmt then 2 else 1 | none => 1
    m :: chainGo slots ((m + span) % 16) n

/-- A slot of a chain that is not loaded, or an odd first half of a pair. -/
def slotBad (slots : Tab WSlot) (m : Nat) : Bool :=
  match Tab.find slots m with | some x => pairFmt x.fmt && m % 2 == 1 | none => true

/-- ROWS of an `MMA` (R267). -/
def mmaRows (d : List Word) : Nat := if descW d 2 % 256 = 0 then 128 else descW d 2 % 256

/-! ### Issue checks (R265-R269, R274-R277) -/

/-- The group that a wave belongs to, for its accumulator banks. -/
def State.accb (s : State) (w : Wave) : Nat := match Tab.find s.groups w.group with | some g => accbOf g.part | none => 0
def State.window (s : State) (w : Wave) : Nat := match Tab.find s.groups w.group with | some g => g.window | none => 0

/-- The baton check (R281): cause 0x31 for a wave that does not hold it. -/
def State.batonChk (s : State) (w : Wave) : List Chk :=
  match Tab.find s.groups w.group with
  | some g =>
    match g.baton with
    | none => []
    | some (h, n) =>
      match s.entryOf w.core w.group h with
      | some k => (match s.obj w.core k with | .count v _ => chkIf (n ≤ w.wig || v % n != w.wig) 0x31 | .phase .. => [])
      | none => []
  | none => []

/-- A COUNT handle of a command (R279). -/
def State.countChk (s : State) (w : Wave) (h : Word) : List Chk :=
  match s.entryOf w.core w.group h with
  | none => chkIf true 0x30
  | some k => chkIf (!(s.entry w.core k).count) 0x32

def mmaChks (x : W) (s : State) (w : Wave) (l : Nat) : List Chk :=
  let d := w.descQ x.a l
  let a := w.quadQ x.q1 l
  let sc := w.quadQ x.q2 l
  let depth := 128 * (x.ks + 1)
  let rows := min 128 (mmaRows d)
  let win := s.window w
  let slots := match Tab.find s.groups w.group with | some g => g.slots | none => []
  let bad := a.pitch == 0 || (x.sv && sc.pitch == 0) || decide (128 < mmaRows d) || descW d 2 / 256 != 0 || descW d 3 != 0 || (!x.sv && descW d 1 != 0) ||
    (fmtOk a.fmt && x.sv != fmtScaled a.fmt) || decide (s.accb w ≤ x.acc) || (chainGo slots x.wslot (x.ks + 1)).any (slotBad slots)
  capChks a win [⟨descW d 0, rows, 16 * a.pitch, rowLen a.fmt depth⟩] [pRD, pMX] (!fmtOk a.fmt) l ++
  (if x.sv then capChks sc win [⟨descW d 1, rows, 16 * sc.pitch, scaleLen a.fmt depth⟩] [pRD] false l else []) ++
  s.batonChk w ++ chkIf bad 0x32

/-- Formats that a layout accepts (R273): 0 `.dense`, 1 `.s24`, 2 `.s14`, 3 `.pal16`. -/
def layoutOk (lay f : Nat) : Bool :=
  match lay with
  | 0 => decide (1 ≤ f ∧ f ≤ 0x18) | 1 | 2 => decide (3 ≤ f ∧ f ≤ 0x18) | _ => decide (3 ≤ f ∧ f ≤ 0x0B)

/-- Bytes of a stored row of a slot's column (R273). -/
def storedRow (lay f : Nat) : Nat := match lay with | 0 => rowLen f 128 | 1 => rowLen f 64 | 2 => rowLen f 32 | _ => 64
/-- Bytes of one palette entry (R273). -/
def palBytes (f : Nat) : Nat := if f = 3 ∨ f = 4 then 2 else 1
/-- The rows of metadata or palette of a layout. -/
def extraSpan (lay f off : Nat) : Option Span :=
  match lay with
  | 0 => none | 1 => some ⟨off, 128, 16, 16⟩ | 2 => some ⟨off, 128, 16, 8⟩ | _ => some ⟨off, 1, 0, 16 * palBytes f⟩
/-- The rows of scale entries of a slot (R273). -/
def slotScales (f off pitch : Nat) : Span := if f = 0x0E then ⟨off, 1, 0, 4⟩ else ⟨off, 128, pitch, scaleLen f 128⟩

def wbldChks (x : W) (s : State) (w : Wave) (l : Nat) : List Chk :=
  let d := w.descQ x.a l
  let b := w.quadQ x.q1 l
  let sc := w.quadQ x.q2 l
  let lay := x.bits 81 80
  let slot := x.bits 79 76
  let win := s.window w
  let spans := if fmtOk b.fmt then ⟨descW d 0, 128, 16 * b.pitch, storedRow lay b.fmt⟩ :: (extraSpan lay b.fmt (descW d 2)).toList else []
  let bad := b.pitch == 0 || (x.sv && sc.pitch == 0 && b.fmt != 0x0E) || descW d 3 != 0 || (!x.sv && descW d 1 != 0) || (lay == 0 && descW d 2 != 0) || s.accb w == 0 ||
    (layoutOk lay b.fmt && x.sv != fmtScaled b.fmt) || (pairFmt b.fmt && slot % 2 == 1)
  capChks b win spans [pRD, pMX] (!layoutOk lay b.fmt) l ++
  (if x.sv then capChks sc win [slotScales b.fmt (descW d 1) (16 * sc.pitch)] [pRD] false l else []) ++
  chkIf bad 0x32

def acczChks (x : W) (s : State) (w : Wave) (_l : Nat) : List Chk := chkIf (decide (s.accb w ≤ x.acc)) 0x32

/-- Bytes of a source element of `ACCLD`: `.f32`, `.bf16`, `.f16`. -/
def accldSize (x : W) : Nat := if x.bits 83 82 = 0 then 4 else 2

def accldChks (x : W) (s : State) (w : Wave) (l : Nat) : List Chk :=
  let d := w.descQ x.a l
  let c := w.quadQ x.q1 l
  capChks c (s.window w) [⟨descW d 0, 128, 16 * c.pitch, 128 * accldSize x⟩] [pRD] false l ++
  chkIf (c.pitch == 0 || decide (s.accb w ≤ x.acc) || descW d 1 != 0 || descW d 2 != 0 || descW d 3 != 0) 0x32

/-- TY code of the target format of `ACCST`, and its bytes (R277). -/
def accstTy (x : W) : Nat := match x.bits 84 82 with | 0 => 0 | 1 => 3 | 2 => 4 | 3 => 6 | _ => 5
def accstSize (x : W) : Nat := match x.bits 84 82 with | 0 => 4 | 1 | 2 => 2 | _ => 1
def accstRows (d : List Word) : Nat := descW d 2 % 128 + 1
def accstCols (d : List Word) : Nat := descW d 2 / 256 % 128 + 1

def accstChks (x : W) (s : State) (w : Wave) (l : Nat) : List Chk :=
  let d := w.descQ x.a l
  let c := w.quadQ x.q1 l
  let spare := descW d 2 &&& 0xFFFF_8080
  capChks c (s.window w) [⟨descW d 0, accstRows d, 16 * c.pitch, accstCols d * accstSize x⟩] [pWR] false l ++
  chkIf (c.pitch == 0 || decide (s.accb w ≤ x.acc) || spare != 0 || (x.bits 87 85 != 4 && descW d 3 != 0)) 0x32

/-! ### The queue (R260-R262) -/

/-- A command's record joins its group's queue. -/
def State.pushRec (s : State) (core gid : Nat) (r : MRec) : State :=
  ((s.updGroup gid fun g => { g with queue := g.queue ++ [r] }).fresh).noteQueue core

/-- The record of a command, with what it captured. -/
def State.mrec (s : State) (id : Nat) (w : Wave) (l : Nat) (i : Instr) (x : W) (d : List Word) : MRec :=
  let g := Tab.find s.groups w.group
  { id := s.nextId, inst := i, by_ := s.issuer id w, cap1 := w.quadQ x.q1 l, cap2 := w.quadQ x.q2 l, desc := d
    chain := [], batch := (g.map Group.openBatch).getD 0, foOf := none }

/-- Records of a group. -/
def State.queued (s : State) (gid : Nat) : Nat := match Tab.find s.groups gid with | some g => g.queue.length | none => 0

/-- A checked command enters the queue, waits while 64 records stand there (R260), or first lets its wave's writes reach the core. The wave's loads in
flight count among the reads before it (11 R216, R224). -/
def enqueue (i : Instr) (s : State) (id : Nat) (w : Wave) (k : State → Wave → Out) : Out :=
  if 64 ≤ s.queued w.group then waitAt s id w .matrixQueue i
  else
    match s.signalGates w.core id with
    | [] => let (t, v) := s.settleReads id w; k t v
    | gs => waitGates s id w i gs

/-- The record of an `MMA`: its chain is fixed at issue (R269). -/
def State.mmaRec (s : State) (id : Nat) (w : Wave) (l : Nat) (i : Instr) (x : W) : MRec :=
  let slots := match Tab.find s.groups w.group with | some g => g.slots | none => []
  { s.mrec id w l i x (w.descQ x.a l) with chain := chainGo slots x.wslot (x.ks + 1) }

def mmaOp (i : Instr) (x : W) (s : State) : Out :=
  cmdOp s (mmaChks x) fun s id w l =>
    enqueue i s id w fun s w => done (s.pushRec w.core w.group (s.mmaRec id w l i x)) id w

def execMma (w : W) (s : State) : Out := mmaOp (.mma w) w s
def execMmaZ (w : W) (s : State) : Out := mmaOp (.mmaZ w) w s

/-- `WBLD`: the slot's record is made at issue (R274). -/
def execWbld (w : W) (s : State) : Out :=
  cmdOp s (wbldChks w) fun s id v l =>
    enqueue (.wbld w) s id v fun s v =>
      let r := s.mrec id v l (.wbld w) w (v.descQ w.a l)
      let m := w.bits 79 76
      let mk := fun (upper : Bool) => ({ fmt := r.cap1.fmt, layout := w.bits 81 80, upper } : WSlot)
      let note := fun (t : Tab WSlot) => if pairFmt r.cap1.fmt then Tab.set (Tab.set t m (mk false)) (m + 1) (mk true) else Tab.set t m (mk false)
      done ((s.pushRec v.core v.group r).updGroup v.group fun g => { g with slots := note g.slots }) id v

/-- A command whose record holds only what it captured. -/
def plainCmd (i : Instr) (x : W) (s : State) (chks : State → Wave → Nat → List Chk) : Out :=
  cmdOp s chks fun s id w l =>
    enqueue i s id w fun s w => done (s.pushRec w.core w.group (s.mrec id w l i x (w.descQ x.a l))) id w

def execAccz (w : W) (s : State) : Out := plainCmd (.accz w) w s (acczChks w)
def execAccld (w : W) (s : State) : Out := plainCmd (.accld w) w s (accldChks w)
def execAccst (w : W) (s : State) : Out := plainCmd (.accst w) w s (accstChks w)

/-! ### MBATCH and the baton (R279-R282) -/

/-- A record that closes the open batch; a new batch opens (R262). -/
def closeBatch (i : Instr) (x : W) (s : State) (id : Nat) (w : Wave) (l : Nat) (handle : Bool) : State :=
  let r := s.mrec id w l i x (if handle then [w.opnd32 x.a l] else [])
  (s.pushRec w.core w.group r).updGroup w.group fun g => { g with openBatch := g.openBatch + 1 }

def execMbatch (w : W) (s : State) : Out :=
  cmdOp s (fun s v l => s.countChk v (v.opnd32 w.a l) ++ chkIf (s.accb v == 0) 0x32) fun s id v l =>
    enqueue (.mbatch w) s id v fun s v => doneL (closeBatch (.mbatch w) w s id v l true) id v (.mbatch w) w

def execBatonSet (w : W) (s : State) : Out :=
  let chks := fun (s : State) (v : Wave) (l : Nat) =>
    (if v.opnd32 w.a l = 0 then [] else s.countChk v (v.opnd32 w.a l)) ++ chkIf (s.accb v == 0) 0x32
  cmdOp s chks fun s id v l =>
    let h := v.opnd32 w.a l
    let baton := if h = 0 then none else some (h, w.bits 69 64)
    doneL (s.updGroup v.group fun g => { g with baton }) id v (.batonSet w) w

/-- `BATON.PASS`: closes the batch, and at issue the baton's VALUE grows by 1 as a release at `.core` (R282). -/
def passOp (i : Instr) (x : W) (s : State) (handle : Bool) : Out :=
  let baton := fun (s : State) (w : Wave) => (Tab.find s.groups w.group).bind Group.baton
  let chks := fun (s : State) (w : Wave) (l : Nat) =>
    s.batonChk w ++ (if handle then s.countChk w (w.opnd32 x.a l) else []) ++ chkIf (s.accb w == 0 || (baton s w).isNone) 0x32
  cmdOp s chks fun s id w l =>
    enqueue i s id w fun s w =>
      let t := closeBatch i x s id w l handle
      match (baton s w).bind fun b => t.entryOf w.core w.group b.1 with
      | some k =>
        let (u, v) := t.releaseBy id w .core
        doneL ((u.noteSignal w.core k t.nextId).updObj w.core k Obj.addOne) id v i x
      | none => doneL t id w i x

def execBatonPass (w : W) (s : State) : Out := passOp (.batonPass w) w s false
def execBatonPassSignal (w : W) (s : State) : Out := passOp (.batonPassSignal w) w s true

/-- A wave that waits for room in its queue issues its command again (R260). -/
def execMatrixQueueWaitEnd (wave : Nat) (s : State) : Out :=
  match Tab.find s.waves wave with
  | none => .fault .notEnabled
  | some w =>
    when (w.cond == .waiting .matrixQueue && w.evicted.isNone && decide (s.queued w.group < 64))
      (s.setWave wave { w with cond := .running })

end Sys2Proof.Machine
end

