-- ==== Sys2Proof/Machine/Launch.lean ====
section
/-! DEFINITION. The instructions of roles, tasks, device-side launch and joins (14 R300-R306) and of the gang barrier (18 R319-R321). -/

namespace Sys2Proof.Machine

/-! ### Shared -/

/-- A result for each lane of `act` that enters no latch (R288). -/
def writePlain (s : State) (id : Nat) (w : Wave) (i : Instr) (x : W) (act : Mask) (f : Nat → Word) : Out :=
  let w' := (w.putDst false x.d.toNat act (lanes fun l => (f l).setWidth 64)).flag (if readsLost i x w then fLLOST else 0)
  finish s id w w' (w.dstKeys x.d.toNat 1) 0

/-- A release by the wave at a scope, complete before `k`, which is given its id; until then the wave waits at its instruction (11 R216). -/
def withRelease (s : State) (id : Nat) (w : Wave) (i : Instr) (sc : Scope) (k : State → Wave → Nat → Out) : Out :=
  match s.releaseGate id w sc with
  | (t, v, []) => k t v s.nextId
  | (t, v, gs) => waitGates t id v i gs

/-- What a core's units read at some physical addresses, at the home (19 R325, R333). -/
def State.readHome (s : State) (core ctx : Nat) (as : List Nat) : State × List Byte :=
  let t := s.prepRead (dieOf core) ctx .normal as
  (t, as.map fun a => if t.backing (dieOf core) a = .none then 0 else t.rdByte a)

/-! ### ROLE (R300) -/

def roleOf (x : W) : Nat := fld x.mod 1 0

/-- Nothing that `ROLE` waits for is left. -/
def State.drained (s : State) (id : Nat) (w : Wave) : Bool :=
  w.scoreboard.isEmpty && !((s.core w.core).releases.any fun r => decide (r.party = .wave id)) &&
  !((s.core w.core).copies.any fun c => c.by_.wave == id)

/-- The window is switched and the wave goes on at the target; `ROLE` ends the run. -/
def Wave.switchRole (w : Wave) (x : W) : Wave :=
  let n := w.goto (target32 w.pc x.tail)
  { n with win := roleOf x, exm := w.live, run := none, latches := lostLatches }

def execRole (w : W) (s : State) : Out :=
  withWave s fun id v =>
    withTarget s id v (target32 v.pc w.tail)
      (if v.windows ≤ roleOf w || !v.tokens.isEmpty then trapCode s id v 0x32
       else if s.drained id v then .next (s.setWave id (v.switchRole w))
       else waitAt s id v .roleDrain (.role w))

def execRoleDrainEnd (wave : Nat) (s : State) : Out :=
  match Tab.find s.waves wave with
  | none => .fault .notEnabled
  | some w =>
    match w.cond, w.held with
    | .waiting .roleDrain, some (.role x) => when (w.evicted.isNone && s.drained wave w) (s.setWave wave (w.switchRole x))
    | _, _ => .fault .notEnabled

/-! ### Task queues (R302, R303) -/

/-- A queue's descriptor. -/
def State.taskQueue (s : State) (ctx q : Nat) : BitVec 512 := BitVec.ofNat 512 (leNat (s.homeBytes (s.taskDesc ctx q) 64))

def tqValid (d : BitVec 512) : Bool := d.getLsbD 0 && decide (fld d 11 8 ≤ 9) && decide (fld d 23 12 ≠ 0)
def tqCap (d : BitVec 512) : Nat := 2 ^ (fld d 11 8 + 6)
def tqRecord (d : BitVec 512) : Nat := 16 * fld d 23 12
def tqWait (d : BitVec 512) : Nat := fld d 63 32
def tqHeader (d : BitVec 512) : Nat := fld d 120 64
def tqPool (d : BitVec 512) (tag : Bool) : Cap := { bits := BitVec.ofNat 128 (fld d 255 128), tag }
def tqNext (d : BitVec 512) : Nat := fld d 350 320
def tqRing (d : BitVec 512) : Nat := fld d 403 352
def tqHead (d : BitVec 512) : Nat := fld d 447 416
def tqTail (d : BitVec 512) : Nat := fld d 479 448
/-- Positions in use. -/
def tqUsed (d : BitVec 512) : Nat := (tqTail d + 2 ^ 32 - tqHead d) % 2 ^ 32

/-- The task pool of a queue, with the granule tag that its descriptor holds (10 R192). -/
def State.taskPool (s : State) (ctx q : Nat) : Cap := tqPool (s.taskQueue ctx q) (s.tagAt (s.taskDesc ctx q + 16))

/-- The die's units write root memory at its home. -/
def State.rootWrite (s : State) (ctx addr : Nat) (bytes : List Byte) : State :=
  let lc := ctx / 256 * 8
  s.foreignWrite (.landing lc) (landingCore lc) (ctx / 256) ctx (bytes.zipIdx.map fun (b, i) => (addr + i, b))

/-- A ring entry: entry PC, record offset, id, V. -/
def ringEntry (pc off id : Nat) : List Byte := leBytes 16 (pc % 2 ^ 57 + off * 2 ^ 64 + id * 2 ^ 96 + 2 ^ 127)

/-- The enqueues of a `TASKADD`: TAIL, NEXTID, whether the queue was found full, each lane's result. -/
structure Enq where
  s : State
  tail : Nat
  next : Nat
  full : Bool
  out : Tab Word
  nfull : Nat

/-- One lane's turn (R303). -/
def enqueueLane (ctx q : Nat) (d : BitVec 512) (pc off : Nat → Nat) (e : Enq) (l : Nat) : Enq :=
  if e.full || (e.tail + 2 ^ 32 - tqHead d) % 2 ^ 32 == tqCap d then
    { e with full := true, out := Tab.set e.out l 0xFFFFFFFF, nfull := e.nfull + 1 }
  else
    let pos := e.tail % tqCap d
    let t := e.s.rootWrite ctx (tqRing d + 16 * pos) (ringEntry (pc l) (off l) e.next)
    let now := t.ref (ctx / 256)
    let t := t.updCtx ctx fun c => { c with taskTimes := Tab.set c.taskTimes (16 * e.tail + q) now }
    { e with s := t, tail := (e.tail + 1) % 2 ^ 32, next := (e.next + 1) % 2 ^ 31, out := Tab.set e.out l (BitVec.ofNat 32 e.next) }

/-- Bits of an entry PC that R303 refuses whatever its queue. -/
def badPc (pc : DWord) : Bool := fld pc 63 57 != 0 || illegalPc (pc.setWidth 57)

/-- An entry line outside the kernel whose header is given (R303). -/
def badEntry (hdr : List Byte) (pc : DWord) : Bool :=
  let h := BitVec.ofNat 512 (leNat hdr)
  let first := fld h 248 192
  !decide (first ≤ pc.toNat / 64 * 64 ∧ pc.toNat / 64 * 64 < first + 64 * fld h 191 160)

/-- `TASKADD` (R303), its causes by 06 R141. -/
def execTaskadd (w : W) (s : State) : Out :=
  withWave s fun id v =>
    let i := Instr.taskadd w
    let act := v.active w.g
    let ls := laneList act
    let ctx := s.ctxOf v
    let q := fld w.tail 3 0
    let d := s.taskQueue ctx q
    let pc := fun (l : Nat) => v.opnd true w.b l
    let off := fun (l : Nat) => (v.opnd32 w.a l).toNat
    let pool := s.taskPool ctx q
    let long := ls.filter fun l => pool.len < off l + tqRecord d
    if ls.isEmpty then doneL s id v i w
    else if ls.any fun l => badPc (pc l) then trapCode s id v 0x03
    else if !tqValid d then trapCode s id v 0x32
    else
      let tooLong := fun (o : Out) =>
        match long with
        | l :: _ => faultWave s id v 0x11 { code := 0x11, lane := some l, addr := (pool.base + max pool.len (off l)) % 2 ^ 57 } (maskOf fun k => long.contains k)
        | [] => o
      match translateRange s v.core ctx (tqHeader d) 64 .read with
      | .error (va, f) => tooLong (if f.kind = 0 then parkWave s id v ctx va f .read else permFault s id v va f .read none 0)
      | .ok as =>
        let (s, hdr) := s.readHome v.core ctx as
        if ls.any fun l => badEntry hdr (pc l) then trapCode s id v 0x03
        else
          tooLong (withRelease s id v i .pkg fun s v _ =>
            let e : Enq := { s, tail := tqTail d, next := tqNext d, full := false, out := [], nfull := 0 }
            let e := ls.foldl (enqueueLane ctx q d (fun l => (pc l).toNat) off) e
            let t := (e.s.rootWrite ctx (s.taskDesc ctx q + 40) (leBytes 4 e.next)).rootWrite ctx (s.taskDesc ctx q + 56) (leBytes 4 e.tail)
            let t := if e.nfull = 0 then t else t.bumpCore v.core .launchFull e.nfull
            writePlain t id v i w act fun l => Tab.get 0 e.out l)

/-! ### Device-side launch (R305) -/

/-- Records that the overflow ring of a die holds at most (21 R390). -/
def State.ringRoom (s : State) (d : Nat) : Nat := if (s.reg (.ovflctl d)).getLsbD 57 then 2 ^ min 20 (s.regF (.ovflctl d) 56 52) else 0
def poolSize : Nat := 4096
def State.launchFull (s : State) (d : Nat) : Bool := decide (poolSize ≤ (s.die d).pool.length ∧ s.ringRoom d ≤ (s.die d).overflow.length)

/-- COUNT and HIWAT follow the ring (21 R390). -/
def State.noteRing (s : State) (d : Nat) : State :=
  let n := (s.die d).overflow.length
  (s.setRegF (.ovflst d) 20 0 n).setRegF (.ovflst d) 63 32 (max n (s.regF (.ovflst d) 63 32))

/-- Where the n-th record from its head lies in the ring, in root memory (21 R390). -/
def State.ringAt (s : State) (d n : Nat) : Nat :=
  128 * (s.regF (.ovflctl d) 51 7 + ((s.die d).ringHead + n) % 2 ^ min 20 (s.regF (.ovflctl d) 56 52))
def State.ringPut (s : State) (d n : Nat) (bytes : List Byte) : State := s.rootWrite (d * 256) (s.ringAt d n) bytes

/-- The records of the ring as root memory holds them. -/
def State.ringRecords (s : State) (d : Nat) : List PendRecord := (s.die d).overflow.zipIdx.map fun (r, n) => { r with bytes := s.homeBytes (s.ringAt d n) 128 }

/-- Places a record: on the die's pool, or at the tail of its overflow ring. -/
def State.placeRecord (s : State) (d : Nat) (r : PendRecord) : State :=
  let x := s.die d
  if x.pool.length < poolSize ∧ x.overflow = [] then s.updDie d fun x => { x with pool := x.pool ++ [r] }
  else ((s.ringPut d x.overflow.length r.bytes).updDie d fun x => { x with overflow := x.overflow ++ [r] }).noteRing d

/-- Keeps some records of a die; those of the ring close up to its head. -/
def State.keepRecords (s : State) (d : Nat) (p : PendRecord → Bool) : State :=
  let keep := (s.ringRecords d).filter p
  let t := s.updDie d fun x => { x with pool := x.pool.filter p, overflow := keep }
  if keep.length = (s.die d).overflow.length then t else (keep.zipIdx.foldl (fun t (r, n) => t.ringPut d n r.bytes) t).noteRing d

/-- Free entries of a context's join table (R306). -/
def Ctx.freeJoins (c : Ctx) : List Nat := (List.range 1024).filter fun j => !(Tab.get {} c.joins j).valid

/-- What a launch finds: FULL, or a status with the record placed (R305). -/
def State.launch (s : State) (core ctx q : Nat) (nj : Bool) (bytes : List Byte) : Option (State × Word) :=
  let d := dieOf core
  match Tab.find s.ctxs ctx with
  | none => none
  | some c =>
    let budget := s.regF (.dlctl c.vdev q) 63 32
    if s.launchFull d then none
    else if budget = 0 then some (s, 0x80000003)
    else
      let free := c.freeJoins
      if !nj && free.isEmpty then some (s, 0x80000002)
      else
        let s := s.setRegF (.dlctl c.vdev q) 63 32 (budget - 1)
        let r : PendRecord := { ctx, queue := q, bytes, ticket := none, order := c.order }
        let c := { c with order := c.order + 1 }
        if nj then some (({ s with ctxs := Tab.set s.ctxs ctx c } : State).placeRecord d r, 0)
        else
          let j := (free[Config.pick s.draw free.length % free.length]?).getD 0
          let e := Tab.get {} c.joins j
          let c := { c with joins := Tab.set c.joins j { e with valid := true, done := false, status := 0 } }
          some (({ s with ctxs := Tab.set s.ctxs ctx c } : State).drawn.placeRecord d { r with ticket := some j }, BitVec.ofNat 32 (j + e.gen * 1024))

/-- Whether the launch would place a record, so that its release comes first. -/
def State.launchPlaces (s : State) (core ctx q : Nat) (nj : Bool) : Bool :=
  match Tab.find s.ctxs ctx with
  | none => false
  | some c => !s.launchFull (dieOf core) && s.regF (.dlctl c.vdev q) 63 32 != 0 && (nj || !c.freeJoins.isEmpty)

/-- Causes of the record's quad and of the queue. -/
def launchChks (x : W) (s : State) (w : Wave) (l : Nat) : List Chk :=
  let c := w.quadQ x.q1 l
  let v := match Tab.find s.ctxs (s.ctxOf w) with | some k => k.vdev | none => 0
  capChks c (s.window w) [⟨0, 1, 0, 128⟩] [pRD] (c.base % 128 != 0) l ++ chkIf (!(s.reg (.dlctl v (x.bits 79 76))).getLsbD 0) 0x32

def glaunchOp (i : Instr) (x : W) (s : State) (wait : Bool) : Out :=
  withWave s fun id w =>
    match lowest w.exm with
    | none => doneL s id w i x
    | some l =>
      let ctx := s.ctxOf w
      let c := w.quadQ x.q1 l
      let b := s.issuer id w
      let cs := launchChks x s w l
      let one := maskOf fun k => k == l
      match pickChk (cs.filter fun k => causeRank k.code < 8), s.capBytes w.core b c 0 128 .read with
      | some k, _ => faultChks s id w cs k
      | none, .error (va, f) => if f.kind = 0 then parkWave s id w ctx va f .read (some l) one else permFault s id w va f .read (some l) one
      | none, .ok (pl, as) =>
        let p : Party := .wave id
        let s := if pl = .glob then s.prepRead (dieOf w.core) ctx .normal as else s
        let bad := s.poisonGranules w.core p pl as
        match w.strict && bad != [], pickChk cs with
        | true, _ => faultWave s id w 0x22 { code := 0x22, lane := some l, addr := s.poisonVa w.core p pl as c.base } one
        | false, some k => faultChks s id w cs k
        | false, none =>
          let q := x.bits 79 76
          let nj := x.tail.getLsbD 16
          if s.launchFull (dieOf w.core) then
            let t := s.bumpCore w.core .launchFull
            if wait then waitAt t id w .glaunch i else writePlain t id w i x w.exm fun _ => 0x80000001
          else
            let go := fun (s : State) (w : Wave) =>
              let rd := s.engineBytes w.core p b pl as
              let t := s.addLossIf ctx (if bad = [] then 0 else 1)
              let v := w.sees (rd.filterMap Prod.snd)
              match t.drawn.launch w.core ctx q nj (rd.map Prod.fst) with
              | some (t, st) => writePlain t id v i x v.exm fun _ => st
              | none => waitAt t id v .glaunch i
            if s.launchPlaces w.core ctx q nj then withRelease s id w i .pkg fun t v _ => go t v else go s w

def execGlaunch (w : W) (s : State) : Out := glaunchOp (.glaunch w) w s false
def execGlaunchW (w : W) (s : State) : Out := glaunchOp (.glaunchW w) w s true

/-- A record has left the pool or the ring: a waiting `GLAUNCH.W` issues again. -/
def execGlaunchWRetry (wave : Nat) (s : State) : Out :=
  match Tab.find s.waves wave with
  | none => .fault .notEnabled
  | some w =>
    when (w.cond == .waiting .glaunch && w.evicted.isNone && !s.launchFull (dieOf w.core)) (s.setWave wave { w with cond := .running })

/-- The ring's oldest record moves, as root memory holds it, to a freed record of the pool. -/
def execOverflowRecordMove (die : Nat) (s : State) : Out :=
  match s.ringRecords die, (s.die die).overflow with
  | r :: _, _ :: rest =>
    let t := s.prepRead die (die * 256) .normal ((List.range 128).map (s.ringAt die 0 + ·))
    when (decide ((s.die die).pool.length < poolSize))
      ((t.updDie die fun x => { x with pool := x.pool ++ [r], overflow := rest, ringHead := x.ringHead + 1 }).noteRing die)
  | _, _ => .fault .notEnabled

/-! ### Joins (R306) -/

/-- The generation after one. -/
def nextGen (g bits : Nat) : Nat := if g + 1 = 2 ^ bits then 1 else g + 1

/-- The live entry that a ticket names. -/
def State.joinOf (s : State) (ctx : Nat) (t : Word) : Option (Nat × Join) :=
  match Tab.find s.ctxs ctx with
  | none => none
  | some c =>
    let j := fld t 9 0
    let e := Tab.get {} c.joins j
    if e.valid ∧ t.getLsbD 31 = false ∧ e.gen = fld t 30 10 then some (j, e) else none

def gjoinOp (i : Instr) (x : W) (s : State) (try' : Bool) : Out :=
  withWave s fun id w =>
    match lowest w.exm with
    | none => doneL s id w i x
    | some l =>
      let ctx := s.ctxOf w
      match s.joinOf ctx (w.opnd32 x.a l) with
      | none => trapCode s id w 0x32
      | some (j, e) =>
        if e.done then
          let free : Join := { gen := nextGen e.gen 21, valid := false, done := false, status := 0 }
          let t := (s.updCtx ctx fun c => { c with joins := Tab.set c.joins j free }).acquire id { w with base := max w.base e.base } .pkg
          let u := match Tab.find t.waves id with | some u => u | none => w
          writePlain t id u i x w.exm fun _ => BitVec.ofNat 32 e.status
        else if try' then writePlain s id w i x w.exm fun _ => 0xFFFFFFFF
        else waitAt s id w .gjoin i

def execGjoin (w : W) (s : State) : Out := gjoinOp (.gjoin w) w s false
def execGjoinTry (w : W) (s : State) : Out := gjoinOp (.gjoinTry w) w s true

/-- The ticket of a waiting `GJOIN`. -/
def Wave.ticket (w : Wave) : Option Word :=
  match w.held, lowest w.exm with | some (.gjoin x), some l => some (w.opnd32 x.a l) | _, _ => none

/-- The entry has changed: the wave evaluates its `GJOIN` again. -/
def execGjoinWake (wave : Nat) (s : State) : Out :=
  match Tab.find s.waves wave with
  | none => .fault .notEnabled
  | some w =>
    let changed : Bool := match w.ticket with
      | none => false
      | some t => match s.joinOf (s.ctxOf w) t with | none => true | some (_, e) => e.done
    when (w.cond == .waiting .gjoin && w.evicted.isNone && changed) (s.setWave wave { w with cond := .running })

/-! ### The gang barrier (18 R319-R321) -/

/-- The gang entry of a wave whose grid has GANG = 1. -/
def State.gangEntry (s : State) (w : Wave) : Option (Nat × Gang) :=
  match Tab.find s.groups w.group with
  | some g => if g.gangs then g.gang.bind fun k => (Tab.find s.gangs k).map fun e => (k, e) else none
  | none => none

/-- A phase has completed since p. -/
def phasePassed (phnum p : Word) : Bool := let d := (phnum - p).toNat; decide (1 ≤ d ∧ d ≤ 2 ^ 31)

/-- The wait of a gang barrier is over: an acquire at `.clus` that observes the arrivals of the phase, then the instruction completes (R321). -/
def passGang (s : State) (id : Nat) (w : Wave) (p : Word) : Out :=
  let rels := match s.gangEntry w with | some (_, g) => g.rels.filterMap fun r => if r.1 = p then some r.2 else none | none => []
  let t := s.acquire id (w.hears rels) .clus
  match Tab.find t.waves id with | some u => done t id u | none => .fault .noWave

/-- Arrives: the release at `.clus`, the phase number, the arrival bit, the completion check (R319, R321). -/
def arriveGang (s : State) (id : Nat) (w : Wave) (i : Instr) (k : Nat → Gang → State → Wave → Out) : Out :=
  match s.gangEntry w with
  | none => trapCode s id w 0x32
  | some (n, g) =>
    if g.arrived.contains id then trapCode s id w 0x32
    else
      withRelease s id w i .clus fun t v rel =>
        k n g (t.updGang n fun g => let arrived := g.arrived ++ [id]; Gang.check { g with arrived, rels := g.rels ++ [(g.phnum, rel)] }) v

/-- The phase number of a gang. -/
def State.phnum (s : State) (n : Nat) : Word := match Tab.find s.gangs n with | some g => g.phnum | none => 0

def execGsync (w : W) (s : State) : Out :=
  withWave s fun id v =>
    arriveGang s id v (.gsync w) fun n g t v =>
      if phasePassed (t.phnum n) g.phnum then passGang t id v g.phnum else waitAt t id v (.gang g.phnum) (.gsync w)

def execGarrive (w : W) (s : State) : Out :=
  withWave s fun id v =>
    arriveGang s id v (.garrive w) fun _ g t v => writePlain t id v (.garrive w) w v.live fun _ => g.phnum

def execGwait (w : W) (s : State) : Out :=
  withWave s fun id v =>
    match s.gangEntry v with
    | none => trapCode s id v 0x32
    | some (n, _) =>
      let p := v.opnd32 w.a ((lowest v.live).getD 0)
      if phasePassed (s.phnum n) p then passGang s id v p else waitAt s id v (.gang p) (.gwait w)

/-- PHNUM has changed and the awaited phase has passed. -/
def execGangWaitWake (wave : Nat) (s : State) : Out :=
  match Tab.find s.waves wave with
  | none => .fault .notEnabled
  | some w =>
    match w.cond, s.gangEntry w with
    | .waiting (.gang p), some (n, _) => if w.evicted.isNone && phasePassed (s.phnum n) p then passGang s wave w p else .fault .notEnabled
    | _, _ => .fault .notEnabled

end Sys2Proof.Machine
end

