-- ==== Sys2Proof/Machine/WaveImage.lean ====
section
/-! DEFINITION. The image of a wave as bytes (14 R296), with its tokens (01 R29): what an eviction and a save write. -/

namespace Sys2Proof.Machine

def zeros (n : Nat) : List Byte := List.replicate n 0
def wordBytes (x : Word) : List Byte := leBytes 4 x.toNat
def bitIf (b : Bool) (k : Nat) : Nat := if b then 2 ^ k else 0
/-- Pads or cuts to a length. -/
def fit (n : Nat) (l : List Byte) : List Byte := l.take n ++ zeros (n - l.length)
def TokKind.code : TokKind → Nat | .join => 0 | .path => 1 | .loop => 2

def tokenBytes (t : Token) : List Byte :=
  leBytes 16 (t.pc.toNat + t.kind.code * 2 ^ 57 + t.mask.toNat * 2 ^ 64 + t.age % 65536 * 2 ^ 96)

def Cond.waitk : Cond → Nat
  | .waiting (.waitb ..) => 1 | .waiting .gjoin => 2 | .waiting .glaunch => 3 | _ => 0

def Wave.stateWord (w : Wave) : Nat :=
  let parked := match w.cond with | .parked .. => true | _ => false
  let stopped := match w.cond with | .stopped _ => true | _ => false
  w.xcnt % 64 + w.cond.waitk * 2 ^ 6 + bitIf parked 8 + bitIf stopped 9 + bitIf (w.cond == .waiting .roleDrain) 10 + w.win % 4 * 2 ^ 11 +
    w.tokens.length % 128 * 2 ^ 13 + bitIf w.hold3 20

/-- The registers of an image, in its order: keys. -/
def imageKeys (regs nwin : Nat) : List Nat := (List.range nwin).flatMap fun k => (List.range regs).map fun n => 256 * k + n

/-- A wave's image (R296); `left`: its remaining deadline time, zero for a save. -/
def Wave.imageBytes (w : Wave) (left : Nat := 0) : List Byte :=
  let keys := imageKeys w.declared w.windows
  leBytes 8 w.pc.toNat ++ wordBytes w.live ++ wordBytes w.exm ++ wordBytes w.fpc ++ wordBytes w.share ++ wordBytes w.cause ++ leBytes 4 w.stateWord ++
  wordBytes w.kprog ++ leBytes 4 w.wig ++ wordBytes w.groupW ++ wordBytes w.gangW ++ wordBytes w.gridW ++ wordBytes w.tenant ++
  wordBytes w.cycHi ++ wordBytes w.refHi ++ leBytes 8 left ++ zeros 56 ++
  ((List.range 32).flatMap fun l => wordBytes (Tab.get 0 w.seed l)) ++
  fit 1024 (w.tokens.reverse.flatMap tokenBytes) ++
  (keys.flatMap fun k => (Tab.get zeroReg w.regs k).toList.flatMap wordBytes) ++ (keys.flatMap fun k => wordBytes (Tab.get 0 w.tags k))

end Sys2Proof.Machine
end

