-- ==== Sys2Proof/Machine/Admit.lean ====
section
/-! DEFINITION. Admission of a group to a core (08 R159-R163), compaction (R162), eviction requests, eviction and re-admission of waves (14
R292-R295, 09 R181), boosts (14 R290) and the Landing's writes of bank sets and gates (08 R163, R164). -/

namespace Sys2Proof.Machine

/-! ### Scheduling words (14 R291) -/

def State.prio (s : State) (ctx : Nat) : Nat := s.regF (.ctxw ctx 2) 1 0
/-- RADL and MINRES in reference cycles. -/
def State.radl (s : State) (ctx : Nat) : Nat := max 1 (s.regF (.ctxw ctx 2) 17 4) * 1024
def State.minres (s : State) (ctx : Nat) : Nat := s.regF (.ctxw ctx 2) 31 18 * 256

/-! ### Tiller limits (20 R354) -/

/-- N, W, BASE and KGR of an actuator. -/
def State.actN (s : State) (ctx i : Nat) : Nat := s.regF (.ctxw ctx (24 + i)) 8 0
def State.actW (s : State) (ctx i : Nat) : Nat := s.regF (.ctxw ctx (24 + i)) 24 9
def State.actOn (s : State) (ctx i : Nat) : Bool := s.actN ctx i != 0 && s.actW ctx i != 0
def State.setting (s : State) (ctx i : Nat) : Nat := s.regF (.ctxw ctx (24 + i)) 33 25 + s.regF (.ctxw ctx (24 + i)) 51 43

/-- Resident waves of a context that a core may hold. -/
def State.waveLimit (s : State) (ctx : Nat) : Nat := if s.actOn ctx 0 then min 128 (s.setting ctx 0) else 128
/-- Cores that a context may use. -/
def State.coreLimit (s : State) (ctx : Nat) : Nat := if s.actOn ctx 1 then s.setting ctx 1 else 256

/-- The cores that hold groups of a context, in the order in which it took them. -/
def State.ctxCores (s : State) (ctx : Nat) : List Nat :=
  distinct ((s.groups.filter fun (_, g) => g.ctx == ctx).map fun (_, g) => g.core)

/-- The resident waves of a core. -/
def State.coreWaves (s : State) (core : Nat) : List (Nat × Wave) := s.waves.filter fun (_, w) => w.core == core && w.evicted.isNone

/-! ### Bank sets (08 R163) -/

/-- The bank set of a core that the Landing has given to a context. -/
def State.setOf (s : State) (core ctx : Nat) : Option Nat := ((s.core core).setOwner.find? fun (_, c) => c == ctx).map Prod.fst

def State.inMask (s : State) (core n b : Nat) : Bool := (s.reg (.bsmask core n)).getLsbD b
def State.spillBank (s : State) (core n : Nat) : Option Nat :=
  if (s.reg (.bsctl core n)).getLsbD 6 then some (s.regF (.bsctl core n) 5 0) else none

/-- Banks of a group: registers, the window at its place and at the place it moves to, accumulators. -/
def Group.banks (g : Group) : List Nat :=
  let win := fun (b : Nat) => (List.range (scrbOf g.part)).map (b + ·)
  g.regBanks ++ win g.b0 ++ (match g.moving with | some (b, _) => win b | none => []) ++ g.accBanks

def State.usedBanks (s : State) (core : Nat) : List Nat :=
  (s.groups.filter fun (_, g) => g.core == core).flatMap (fun (_, g) => g.banks) ++ (s.core core).held.flatMap Prod.snd

def State.freeBanks (s : State) (core n : Nat) : List Nat :=
  let used := s.usedBanks core
  (List.range 64).filter fun b => s.inMask core n b && s.spillBank core n != some b && !used.contains b

/-- Register banks for `n` waves of a quarter (R161). -/
def regNeed (n regs nwin : Nat) : Nat := (n * regs * nwin + 511) / 512

/-! ### The admission plan (R161) -/

structure Plan where
  core : Nat
  bset : Nat
  q0 : Nat
  regBanks : List Nat
  b0 : Nat
  accBanks : List Nat
  /-- Quarter and slot of each wave. -/
  slots : List (Nat × Nat)
  deriving DecidableEq, Repr

/-- Waves of a group of `n` on quarter `q` when the first is on `q0`. -/
def wavesOn (n q0 q : Nat) : Nat := ((List.range n).filter fun w => (q0 + w) % 4 == q).length

/-- Free wave slots of a quarter. -/
def State.freeSlots (s : State) (core q : Nat) : List Nat :=
  let used := (s.residents core q).map fun (_, w) => w.slot
  (List.range 32).filter fun k => !used.contains k

/-- A list begun at a free choice. -/
def rotateBy (k : Nat) (l : List Nat) : List Nat := if l.length = 0 then l else l.drop (k % l.length) ++ l.take (k % l.length)

/-- The runs of banks in which a window can start. -/
def runs (free : List Nat) (n : Nat) : List Nat := (List.range (65 - n)).filter fun b => (List.range n).all fun i => free.contains (b + i)

/-- The banks for a placement that starts on `q0`: registers, first bank of the window, accumulators. The spec names no order: the window takes the lowest
run that leaves room for the rest, registers and accumulators the lowest free banks (log 63). -/
def bankPlan (free : List Nat) (n regs nwin scrb accb regb q0 : Nat) : Option (List Nat × Nat × List Nat) :=
  let need := fun (q : Nat) => regNeed (wavesOn n q0 q) regs nwin
  let total := ((List.range 4).map need).sum
  if regb < total then none
  else
    ((if scrb = 0 then [0] else runs free scrb).filterMap fun b0 =>
      let rest := free.filter fun b => !decide (b0 ≤ b ∧ b < b0 + scrb)
      let mine := fun (q : Nat) => rest.filter fun b => b / 16 == q
      let reg := (List.range 4).flatMap fun q => (mine q).take (need q)
      let left := rest.filter fun b => !reg.contains b
      if (List.range 4).all (fun q => need q ≤ (mine q).length) && decide (accb ≤ left.length) then some (reg, b0, left.take accb) else none).head?

/-- Evicted waves of a core whose sets are enabled. -/
def State.waitingBack (s : State) (core : Nat) : List (Nat × Wave) :=
  s.waves.filter fun (_, w) => w.core == core && w.evicted.isSome && s.setEnabled w

def isGang (ferry : DWord) : Bool := ferry.getLsbD 39
/-- Groups per element (18 R312). -/
def gangSize (ferry : DWord) : Nat := if isGang ferry then fld ferry 42 40 + 1 else 1

/-- What a claim is made for still waits to be placed. -/
def State.standing (s : State) (o : Owner) : Bool :=
  match o with
  | .grid k => (match Tab.find s.grids k with | some g => decide (g.status = .running) && !g.ended | none => false)
  | .image k => (Tab.find s.images k).isSome
  | .tasks ctx q => (Tab.find s.ctxs ctx).isSome && tqValid (s.taskQueue ctx q) && tqUsed (s.taskQueue ctx q) != 0

/-- Evictions make room on a core for something other than what is named. -/
def State.claimed (s : State) (o : Option Owner) (core : Nat) : Bool :=
  s.claims.any fun c => some c.owner != o && decide (c.core ≤ core ∧ core < c.core + c.size) && s.standing c.owner

/-- Resident waves of a context on a core. -/
def State.ctxWaves (s : State) (core ctx : Nat) : Nat := ((s.coreWaves core).filter fun (_, w) => s.ctxOf w == ctx).length

/-- A quarter can take an evicted wave: a free slot, banks for its reservation, and the context's wave slots (R292, 20 R354); room made for an
element is not for it. -/
def State.fitsBack (s : State) (w : Wave) (q : Nat) : Bool :=
  match Tab.find s.groups w.group with
  | none => false
  | some g =>
    let n := ((s.residents w.core q).filter fun (_, v) => v.group == w.group).length
    let have' := (g.regBanks.filter fun b => b / 16 == q).length
    let free := ((s.freeBanks w.core g.bset).filter fun b => b / 16 == q).length
    !s.claimed none w.core && decide (s.ctxWaves w.core g.ctx < s.waveLimit g.ctx) && !(s.freeSlots w.core q).isEmpty &&
    decide (regNeed (n + 1) w.declared w.windows ≤ have' + free)

def State.anyFit (s : State) (core : Nat) : Bool := (s.waitingBack core).any fun (_, w) => (List.range 4).any fun q => s.fitsBack w q

/-- Whether a core can serve at all. -/
def State.coreUp (s : State) (core : Nat) : Bool :=
  !(s.core core).lost && !(s.die (dieOf core)).fenced && (s.reg .pkgst0).getLsbD (28 + dieOf core)

/-- How a core would take a group of a context with a partition word and a kernel's `$kprog` if the banks named were free (R161, 13 R259, 20 R354, R358). -/
def State.planIn (s : State) (core ctx : Nat) (part kprog : Word) (free : List Nat) : Option Plan :=
  match s.setOf core ctx with
  | none => none
  | some n =>
    let waves := fld kprog 11 7 + 1
    let (regs, nwin) := ((fld kprog 4 0 + 1) * 8, fld kprog 6 5 + 1)
    let others := s.groups.any fun (_, g) => g.core == core && accbOf g.part != 0
    if !s.coreUp core || (s.spillBank core n).isNone || (accbOf part != 0 && others) || s.waveLimit ctx < s.ctxWaves core ctx + waves ||
        !(if (s.ctxCores ctx).contains core then ((s.ctxCores ctx).take (s.coreLimit ctx)).contains core
          else decide ((s.ctxCores ctx).length < s.coreLimit ctx)) then none
    else
      let ok := fun (q0 : Nat) =>
        if (List.range 4).all fun q => wavesOn waves q0 q ≤ (s.freeSlots core q).length
        then (bankPlan free waves regs nwin (scrbOf part) (accbOf part) (regbOf part) q0).map fun p => (q0, p) else none
      let plans := (List.range 4).filterMap ok
      match plans[Config.pick s.draw plans.length % max 1 plans.length]? with
      | none => none
      | some (q0, reg, b0, acc) =>
        let slot := fun (w : Nat) =>
          let q := (q0 + w) % 4
          (q, ((rotateBy (Config.pick (s.draw + 1) q) (s.freeSlots core q))[w / 4]?).getD 0)
        some { core, bset := n, q0, regBanks := reg, b0, accBanks := acc, slots := (List.range waves).map slot }

/-- How a core would take a group in the room that it has. -/
def State.planRoom (s : State) (core ctx : Nat) (part kprog : Word) : Option Plan :=
  s.planIn core ctx part kprog (match s.setOf core ctx with | some n => s.freeBanks core n | none => [])

/-- Evicted waves that fit take the room first (14 R294). -/
def State.planGroup (s : State) (core ctx : Nat) (part kprog : Word) : Option Plan := if s.anyFit core then none else s.planRoom core ctx part kprog

/-! ### Compaction (R162) -/

/-- A group whose window no operation is using, from its own core or another (R162, 18 R310). -/
def State.quiescent (s : State) (gid : Nat) (g : Group) : Bool :=
  let c := s.core g.core
  let at' := fun (p : Place) => p == .scr gid
  g.queue.isEmpty && !(c.copies.any fun x => x.by_.group == gid) &&
  !(s.cores.any fun (k, c) => c.atoms.any (fun a => at' a.place) || c.pend.any (fun p => at' p.place) ||
    (k != g.core && c.loads.any fun l => l.acc.any fun a => at' a.place))

/-- Places for some windows one after another, of which `met` accepts the banks left free. -/
def arrange (met : List Nat → Bool) : List (Nat × Group) → List Nat → Option (List (Nat × Nat))
  | [], free => if met free then some [] else none
  | (k, g) :: t, free =>
    let n := scrbOf g.part
    let rs := runs free n
    ((if rs.contains g.b0 then [g.b0] else []) ++ rs.filter (· != g.b0)).findSome? fun b =>
      (arrange met t (free.filter fun x => !decide (b ≤ x ∧ x < b + n))).map fun ms => if b = g.b0 then ms else (k, b) :: ms

/-- New places of quiescent windows of the bank set that let a core take a group. The spec does not say which windows move nor where to: each stays where
it is if it can, else it takes the lowest run, the windows in the order of their groups (log 63). -/
def State.compactPlan (s : State) (core ctx n : Nat) (part kprog : Word) : Option (List (Nat × Nat)) :=
  let movable := s.groups.filter fun (k, g) => g.core == core && g.bset == n && scrbOf g.part != 0 && g.moving.isNone && s.quiescent k g
  let own := movable.flatMap fun (_, g) => (List.range (scrbOf g.part)).map (g.b0 + ·)
  let free := (List.range 64).filter fun b => (s.freeBanks core n).contains b || own.contains b
  arrange (fun left => (s.planIn core ctx part kprog left).isSome) movable free

/-- Starts compaction for a group that a core could take but for a run of banks: register, window and accumulator banks together suffice in number (R162;
log 63). The windows' waves are held at issue. -/
def State.startCompaction (s : State) (core ctx : Nat) (part kprog : Word) : Option State :=
  match s.setOf core ctx with
  | none => none
  | some n =>
    if !(s.reg (.bsctl core n)).getLsbD 7 || scrbOf part = 0 || !(runs (s.freeBanks core n) (scrbOf part)).isEmpty then none
    else
      match s.compactPlan core ctx n part kprog with
      | none | some [] => none
      | some ms => some (ms.foldl (fun s (k, b) => s.updGroup k fun g => { g with moving := some (b, s.cycle core + 512 * scrbOf g.part) }) s)

/-- A compaction that is to let a core take such a group is under way. -/
def State.compacting (s : State) (core : Nat) : Bool := s.groups.any fun (_, g) => g.core == core && g.moving.isSome

/-- The windows of a core have been moved: banks count in COMPACT, the waves go on. -/
def execCompactionEnd (core : Nat) (s : State) : Out :=
  let ready := s.groups.filter fun (_, g) => g.core == core && (match g.moving with | some (_, t) => decide (t ≤ s.cycle core) | none => false)
  let n : Nat := (ready.map fun (_, g) => scrbOf g.part).sum
  let land := fun (g : Group) => match g.moving with | some (b, _) => { g with b0 := b, moving := none } | none => g
  when (!ready.isEmpty) ((ready.foldl (fun s (k, _) => s.updGroup k land) s).bumpCore core .compact n)

/-! ### A new group -/

/-- The seed of a lane (01 R28). -/
def seedOf (gseed : Word) (x : Nat) : Word := let v := gseed ^^^ BitVec.ofNat 32 (x * 0x9E3779B9); if v = 0 then 1 else v

/-- A quad in every lane of one window, tagged where `tag`. -/
def quadRegs (t : Tab VReg × Tab Mask) (key : Nat) (c : Cap) : Tab VReg × Tab Mask :=
  (List.range 4).foldl (fun (t : Tab VReg × Tab Mask) k =>
    (Tab.put zeroReg t.1 (key + k) (lanes fun _ => (c.bits >>> (32 * k)).setWidth 32), Tab.put 0 t.2 (key + k) (if c.tag then BitVec.allOnes 32 else 0))) t

/-- A wave of a grid's group in its initial state (01 R32, 14 R301): its floor takes in what has arrived at its start (11 R227). -/
def State.freshWave (s : State) (gid : Nat) (g : Group) (c0 : Cap) (gridW gseed : Word) (wig qtr slot : Nat) : Wave :=
  let ctx := g.ctx
  let share := !(s.reg (.ctxw ctx 1)).getLsbD 1
  let kprog := if share then g.kprog else g.kprog &&& ~~~(0x1000 : Word)
  let gangW := if g.gangs then g.rank + (g.gsize - 1) * 8 + g.index / g.gsize * 64 else 0
  let seed := (List.range 32).foldl (fun (t : Tab Word) l => Tab.set t l (seedOf gseed (g.index * 1024 + wig * 32 + l))) []
  let (regs, tags) := (List.range (fld g.kprog 6 5 + 1)).foldl (fun t k => quadRegs t (256 * k) c0) ([], [])
  let now := s.cycle g.core
  { group := gid, core := g.core, qtr, slot, wig, kprog, groupW := BitVec.ofNat 32 g.index, gangW := BitVec.ofNat 32 gangW, gridW
    tenant := s.tenantOf ctx + BitVec.ofNat 32 (g.bset * 2 ^ 20), bset := g.bset, pc := BitVec.ofNat 57 g.entry, live := BitVec.allOnes 32
    exm := BitVec.allOnes 32, cause := 0, fpc := 0, share := 0, seed, cycHi := 0, refHi := 0, win := 0, regs, tags, names := []
    nameBase := (s.quarter (g.core * 4 + qtr)).nextName, latches := lostLatches, tokens := [], ageLimit := max 16 (s.regF (.ctxw ctx 1) 31 16)
    strict := (s.reg (.ctxw ctx 1)).getLsbD 0, run := none, entering := true, line := 0, refetched := none, held := none, xcnt := 0, hold3 := false, cond := .running
    gates := [], scoreboard := [], busyUntil := 0, waitUntil := none, admitted := now, lastStart := now, boosted := false, yieldTo := []
    evicted := none, protect := 0, leaving := false, base := s.homeIx, know := [], seen := [], looked := none }

/-- Lists a wave on its quarter with 1,024 names of its own. -/
def State.addWave (s : State) (id : Nat) (w : Wave) : State :=
  (s.setWave id w).updQuarter w.quarterKey fun q => { q with nextName := q.nextName + 1024 }

/-- Admits a group by a plan: its record, its waves; its start on the core is an acquire at `.pkg` (11 R227). -/
def State.admitWith (s : State) (p : Plan) (g : Group) (c0 : Cap) (gridW gseed : Word) : State × Nat :=
  let s := s.refresh p.core .pkg
  let gid := s.nextId
  let ids := (List.range p.slots.length).map (gid + 1 + ·)
  let g : Group := { g with core := p.core, bset := p.bset, regBanks := p.regBanks, b0 := p.b0, accBanks := p.accBanks, waves := ids,
                            admitted := gid }
  let s : State := { s.setGroup gid g with nextId := gid + 1 + ids.length, draw := s.draw + 2 }
  let add := fun (s : State) (x : (Nat × Nat) × Nat) => s.addWave (gid + 1 + x.2) (s.freshWave gid g c0 gridW gseed x.2 x.1.1 x.1.2)
  (p.slots.zipIdx.foldl add s, gid)

/-! ### Leaving a core (R292, 09 R167, R177) -/

/-- Banks that a group gives back: held until the copies of shared slices out of them have completed (09 R167). -/
def State.giveBanks (s : State) (core gid : Nat) (banks : List Nat) : State :=
  let busy := (List.range 4).any fun q => (s.quarter (core * 4 + q)).sliceCopies.any fun x => x.2.1 == gid
  if busy && !banks.isEmpty then s.updCore core fun c => { c with held := c.held ++ [(gid, banks)] } else s

/-- Register banks in which no resident wave of a group has a reservation go back (R292). -/
def State.shrinkBanks (s : State) (gid : Nat) : State :=
  match Tab.find s.groups gid with
  | none => s
  | some g =>
    let keep := (List.range 4).flatMap fun q =>
      let ws := (s.residents g.core q).filter fun (_, v) => v.group == gid
      let n := match ws with | (_, w) :: _ => regNeed ws.length w.declared w.windows | [] => 0
      (g.regBanks.filter fun b => b / 16 == q).take n
    let gone := g.regBanks.filter fun b => !keep.contains b
    (s.setGroup gid { g with regBanks := keep }).giveBanks g.core gid gone

/-- Every class L entry of a bank set on a quarter drops, and its loads in flight make none (09 R177, R178). -/
def State.dropSet (s : State) (core qi bset : Nat) : State :=
  let hit := fun (e : SEntry) => e.lines.isSome && e.key.bset == bset
  let q := s.quarter (core * 4 + qi)
  let n : Nat := (q.sorrel.map fun (_, es) => (es.filter hit).length).sum
  let here := fun (r : LoadRec) => match Tab.find s.waves r.wave with | some w => w.core == core && w.qtr == qi && w.bset == bset | none => false
  let s := if (s.core core).loads.any here then
      s.updCore core fun c => { c with loads := c.loads.map fun (r : LoadRec) => if here r then { r with dropped := true } else r } else s
  if n = 0 then s
  else (s.setQuarter (core * 4 + qi) { q with sorrel := q.sorrel.map fun (k, es) => (k, es.filter fun e => !hit e) }).bumpQ core qi .loadDrop n

/-- The wave's place on its quarter is given up; a `WAIT.CYC` is over (04 R116). -/
def State.unseat (s : State) (id : Nat) (w : Wave) (mark : Option (Int × Option Nat)) : State :=
  let v : Wave := { w with evicted := mark, run := none, latches := lostLatches, leaving := false, boosted := false, yieldTo := [], looked := none,
                           protect := 0, refetched := none, waitUntil := none }
  let quit := fun (u : Wave) => { u with yieldTo := u.yieldTo.filter fun k => k != id }
  let waves := (Tab.set s.waves id v).map fun (k, u) => (k, quit u)
  let starts := s.starts.filter fun k => k != id
  let t : State := { s with waves, starts }
  let t := t.releaseNames id w
  let t := t.setWave id { v with names := [] }
  ((t.dropSet w.core w.qtr w.bset).shrinkBanks w.group)

/-- Steps 1 to 4 of R292 are over: no run, no strand, no awaited result, nothing of the wave's on its way. -/
def State.settled (s : State) (id : Nat) (w : Wave) : Bool :=
  let c := s.core w.core
  !w.continuesRun && w.gates.isEmpty && w.scoreboard.isEmpty && decide (w.busyUntil ≤ s.cycle w.core) && !s.starts.contains id &&
  (c.publication (.wave id) (w.pub s id).ids).isEmpty && !(c.releases.any fun r => r.party == .wave id)

/-- Held at issue because its group is to be saved (R297, R299). -/
def State.isSaving (s : State) (w : Wave) : Bool := match Tab.find s.groups w.group with | some g => g.saving | none => false

/-- A wave that has settled leaves: the release at `.pkg` (11 R226), its image in the save area, its mappings released (R292). -/
def execEvictWave (wave : Nat) (s : State) : Out :=
  match Tab.find s.waves wave with
  | none => .fault .notEnabled
  | some w =>
    let left := s.radl (s.ctxOf w)
    let (t, v) := s.releaseBy wave w .pkg
    let t : State := { t with saveArea := Tab.set t.saveArea wave (v.imageBytes left) }
    when (w.leaving && w.evicted.isNone && !s.isSaving w && s.settled wave w) ((t.unseat wave v (some (left, none))).bumpCore w.core .evict)

/-! ### Eviction requests (R293) -/

def lexLe : List Nat → List Nat → Bool
  | [], _ => true
  | _ :: _, [] => false
  | a :: s, b :: t => if a = b then lexLe s t else decide (a < b)

/-- Insertion into a list sorted by keys. -/
def insertKey (x : List Nat × Nat) : List (List Nat × Nat) → List (List Nat × Nat)
  | [] => [x]
  | y :: t => if lexLe x.1 y.1 then x :: y :: t else y :: insertKey x t
def sortKeys (l : List (List Nat × Nat)) : List Nat := (l.foldr insertKey []).map Prod.snd

/-- Rank 1: waves that only wait (R293). -/
def Wave.waitsOnly (w : Wave) : Bool :=
  match w.cond with
  | .waiting (.waitb ..) | .waiting .gjoin | .waiting .glaunch | .waiting .roleDrain | .parked .. => true
  | _ => false

/-- Candidates of a request in their order; a group that is being saved leaves anyway (R299). -/
def State.candidates (s : State) (core prio : Nat) (force : Bool) (ctx grid notGroup : Option Nat) : List Nat :=
  let ok := fun (w : Wave) =>
    !w.leaving && w.protect == 0 && !s.isSaving w && (force || decide (s.prio (s.ctxOf w) ≤ prio)) && (ctx.isNone || ctx == some (s.ctxOf w)) &&
    some w.group != notGroup && (grid.isNone || (Tab.find s.groups w.group).bind Group.grid != grid)
  let key := fun (w : Wave) => [if w.waitsOnly then 1 else 2, s.prio (s.ctxOf w), 2 ^ 64 - w.admitted, 32 - w.slot]
  sortKeys (((s.coreWaves core).filter fun (_, w) => ok w).map fun (id, w) => (key w, id))

/-- The state as if some waves had left, for asking what then fits. -/
def State.without (s : State) (ids : List Nat) : State :=
  ids.foldl (fun s id => match Tab.find s.waves id with
    | some w => (s.setWave id { w with evicted := some (2 ^ 64, none) }).shrinkBanks w.group
    | none => s) s

/-- Takes candidates in order until the need is met; none where it cannot be. -/
def takeUntil (met : List Nat → Bool) : List Nat → List Nat → Option (List Nat)
  | taken, [] => if met taken then some taken else none
  | taken, c :: t => if met taken then some taken else takeUntil met (taken ++ [c]) t

def State.markLeaving (s : State) (ids : List Nat) : State := ids.foldl (fun s id => s.updWave id fun w => { w with leaving := true }) s

/-- A request for an evicted wave's own room. -/
def State.requestBack (s : State) (id : Nat) (w : Wave) (force : Bool) : State :=
  let met := fun (ids : List Nat) =>
    let t := s.without ids
    (List.range 4).any fun q => t.fitsBack w q
  match takeUntil met [] ((s.candidates w.core (s.prio (s.ctxOf w)) force none none none).filter fun k => k != id) with
  | some ids => (s.markLeaving ids).bumpCore w.core .dlForce ids.length
  | none => s

/-- A request that names a context evicts only its waves (R293, 20 R358). -/
def State.requestCtx (s : State) (core ctx n : Nat) : Option State :=
  match takeUntil (fun ids => n ≤ ids.length) [] (s.candidates core (s.prio ctx) false (some ctx) none none) with
  | some ids => some (s.markLeaving ids)
  | none => none

/-- Waves of a context on a core above its limit. -/
def State.excess (s : State) (core ctx : Nat) : Nat :=
  ((s.coreWaves core).filter fun (_, w) => s.ctxOf w == ctx && !w.leaving).length - s.waveLimit ctx

def execEvictionRequest (core ctx prio slots : Nat) (wave : Option Nat) (s : State) : Out :=
  match wave with
  | some id =>
    match Tab.find s.waves id with
    | some w =>
      let due := match w.evicted with | some (_, b) => b.isSome | none => false
      when (due && w.core == core && s.ctxOf w == ctx && s.prio ctx == prio && slots == 1) (s.requestBack id w false)
    | none => .fault .notEnabled
  | none => if prio = s.prio ctx ∧ slots ≠ 0 ∧ slots ≤ s.excess core ctx then
      match s.requestCtx core ctx slots with | some t => .next t | none => .fault .notEnabled
    else .fault .notEnabled

/-! ### Re-admission and deadlines (R294) -/

/-- Time to an evicted wave's deadline. -/
def Wave.deadline (w : Wave) : Int := match w.evicted with | some (t, _) => t | none => 0

/-- The writebacks of a wave whose registers are written anew: every declared register of every window, ascending (09 R181). -/
def Wave.restoredWb (v : Wave) (id : Nat) : List PendWb :=
  if v.shares then
    (imageKeys v.declared v.windows).map fun k => { wave := id, names := [v.nameBase + k], key := none, flags := 0, lines := none, share := true }
  else []

/-- An evicted wave returns to a quarter of its core, before every wave with a later deadline; its floors are kept (11 R226). -/
def State.seat (s : State) (id : Nat) (w : Wave) (q : Nat) : State :=
  match Tab.find s.groups w.group with
  | none => s
  | some g =>
    let slot := ((rotateBy (Config.pick s.draw q) (s.freeSlots w.core q)).head?).getD 0
    let n := ((s.residents w.core q).filter fun (_, v) => v.group == w.group).length
    let have' := (g.regBanks.filter fun b => b / 16 == q).length
    let more := ((s.freeBanks w.core g.bset).filter fun b => b / 16 == q).take (regNeed (n + 1) w.declared w.windows - have')
    let share := g.kprog.getLsbD 12 && !(s.reg (.ctxw g.ctx 1)).getLsbD 1
    let bits := w.kprog &&& ~~~(0x1000 : Word)
    let base := (s.quarter (w.core * 4 + q)).nextName
    let now := s.cycle w.core
    let v : Wave := { w with
      qtr := q, slot, kprog := if share then bits ||| 0x1000 else bits, evicted := none, admitted := now, lastStart := now
      protect := if s.minres g.ctx = 0 then 0 else s.minres g.ctx + 1, nameBase := base, names := []
      strict := (s.reg (.ctxw g.ctx 1)).getLsbD 0, ageLimit := max 16 (s.regF (.ctxw g.ctx 1) 31 16) }
    let t := ((s.setGroup w.group { g with regBanks := g.regBanks ++ more }).addWave id v).drawn
    let t : State := { t with saveArea := Tab.erase t.saveArea id }
    t.updQuarter v.quarterKey fun x => { x with wb := x.wb ++ v.restoredWb id }

def execReadmitWave (wave q : Nat) (s : State) : Out :=
  match Tab.find s.waves wave with
  | none => .fault .notEnabled
  | some w =>
    let first := (s.waitingBack w.core).all fun (k, v) =>
      k == wave || decide (w.deadline ≤ v.deadline) || !((List.range 4).any fun q => s.fitsBack v q)
    when (w.evicted.isSome && q < 4 && s.fitsBack w q && s.setEnabled w && first && s.coreUp w.core) ((s.seat wave w q).bumpCore w.core .readmit)

def execDeadlineExpire (wave : Nat) (s : State) : Out :=
  match Tab.find s.waves wave with
  | none => .fault .notEnabled
  | some w =>
    match w.evicted with
    | some (t, none) =>
      when (decide (t ≤ 0) && !((List.range 4).any fun q => s.fitsBack w q))
        ((s.setWave wave { w with evicted := some (t, some (s.radl (s.ctxOf w))) }).requestBack wave w false)
    | _ => .fault .notEnabled

/-- RADL after its deadline the wave's request takes waves of any priority, and again as long as it stays out. -/
def execDeadlineForce (wave : Nat) (s : State) : Out :=
  match Tab.find s.waves wave with
  | none => .fault .notEnabled
  | some w =>
    match w.evicted with
    | some (t, some 0) =>
      when (!((List.range 4).any fun q => s.fitsBack w q))
        ((s.setWave wave { w with evicted := some (t, some (s.radl (s.ctxOf w))) }).requestBack wave w true)
    | _ => .fault .notEnabled

/-- The last cycle of MINRES has passed. -/
def execMinresExpire (wave : Nat) (s : State) : Out :=
  match Tab.find s.waves wave with
  | none => .fault .notEnabled
  | some w => when (w.protect == 1) (s.setWave wave { w with protect := 0 })

/-- A ready wave without a start for 4,096 region cycles (R290). -/
def execWaveBoost (wave : Nat) (s : State) : Out :=
  match Tab.find s.waves wave with
  | none => .fault .notEnabled
  | some w =>
    when (s.ready w && !w.boosted && decide (w.lastStart + 4096 ≤ s.cycle w.core)) ((s.setWave wave { w with boosted := true }).bumpCore w.core .boost)

/-! ### Bank sets and gates as the Landing writes them (08 R163, R164) -/

/-- A write of CORE_GATE; until the next region cycle the quarters obey what stood there (08 R164). -/
def execCoreGateWrite (core : Nat) (v : Word) (s : State) : Out :=
  let now := s.cycle core
  let keep := match (s.core core).gateWas with | some (t, old) => if t = now then some (t, old) else none | none => none
  let t := s.updCore core fun c => { c with gateWas := some (keep.getD (now, (s.reg (.coreGate core)).toNat)) }
  when (decide (core < 256)) (t.writeReg (.coreGate core) (v.setWidth 64))

/-- Banks of a set that resident groups or its spill bank use. -/
def State.boundBanks (s : State) (core n : Nat) : List Nat :=
  (s.groups.filter fun (_, g) => g.core == core && g.bset == n).flatMap (fun (_, g) => g.banks) ++
  (match s.spillBank core n with | some b => [b] | none => [])

/-- Each bit stands unless it would put a bank in two sets or take away one in use. -/
def execBsmaskWrite (core n : Nat) (v : DWord) (s : State) : Out :=
  let old := s.reg (.bsmask core n)
  let bound := s.boundBanks core n
  let keep := fun (b : Nat) =>
    if v.getLsbD b then (List.range 8).any fun m => m != n && s.inMask core m b else bound.contains b
  let bit' := fun (b : Nat) => if keep b then old.getLsbD b else v.getLsbD b
  when (decide (core < 256 ∧ n < 8)) (s.setReg (.bsmask core n) ((BitVec.ofBoolListLE ((List.range 64).map bit')).setWidth 64))

/-- A spill bank outside the mask is not taken. -/
def execBsctlWrite (core n : Nat) (v : Word) (s : State) : Out :=
  let x := v.setWidth 64
  let cmp := if v.getLsbD 7 then 1 else 0
  when (decide (core < 256 ∧ n < 8)) (if s.inMask core n (fld v 5 0) then s.writeReg (.bsctl core n) x else s.setRegF (.bsctl core n) 7 7 cmp)

end Sys2Proof.Machine
end

