-- ==== Sys2Proof/Machine/MatrixRun.lean ====
section
/-! DEFINITION. The matrix engine at work: values of operands, k-steps, the other records, completion of batches, faults and abandonment (13
R261-R286), and its power states (R287). -/

namespace Sys2Proof.Machine

/-! ### Values -/

/-- An exact sum with the NaN, infinity and zero rules of a partial sum (03 R85). -/
def sumFV (xs : List FV) : FV :=
  let neg := fun (x : FV) => x.isInf && x.neg
  let pos := fun (x : FV) => x.isInf && !x.neg
  if xs.any FV.isNan || (xs.any neg && xs.any pos) then canonFV
  else if xs.any FV.isInf then .inf (xs.any neg)
  else
    let add := fun (acc : Int × Int) (x : FV) =>
      match x with
      | .fin n m e =>
        let v : Int := if n then -(m : Int) else m
        if acc.2 ≤ e then (acc.1 + v * 2 ^ (e - acc.2).toNat, acc.2) else (acc.1 * 2 ^ (acc.2 - e).toNat + v, e)
      | _ => acc
    let (v, q) := xs.foldl add (0, 0)
    if v = 0 then .fin (!xs.isEmpty && xs.all fun x => x.isZero && x.neg) 0 0 else .fin (decide (v < 0)) v.natAbs q

/-- A scale entry as a factor and a zero point; one read from poison is a zero scale (R285). -/
def entryScale (f : Nat) (entry : Option Nat) : FV × Nat := match entry with | some n => innerScale f n | none => (.fin false 0 0, 0)

/-- The values of 128 depths from a row of stored elements, each naming its depth (R273). A depth that no kept value names is +0 unscaled, also in a block
with an infinite scale, and kept values of one depth are scaled and then added (log 62). -/
def depthVals (f : Nat) (el : Elem) (elems : List (Nat × Nat)) (entry : Nat → Option Nat) : List FV :=
  (List.range 128).map fun d =>
    match elems.filter fun e => e.1 == d with
    | [] => .fin false 0 0
    | [e] => scaledElem f el e.2 (entryScale f (entry d))
    | es => sumFV (es.map fun e => scaledElem f el e.2 (entryScale f (entry d)))

/-- The scale entry that covers a depth, from the bytes of the entries of one row of one k-step; none where a byte of it is poisoned (R285). -/
def entryAt (f : Nat) (scales : List (Option Byte)) (d : Nat) : Option Nat :=
  let bytes := match scaleShape f with | (0, e) => scales.take e | (bs, e) => (scales.drop (d / bs * e)).take e
  (bytes.mapM id).map leNat

/-- Bytes as they are read: a poisoned one as zero (R285). -/
def plain (l : List (Option Byte)) : List Byte := l.map fun b => b.getD 0

/-- One row of A in one k-step: its 128 values (R268). -/
def rowVals (f : Nat) (row scales : List (Option Byte)) : List FV :=
  match fmtElem f with
  | none => []
  | some el => let n := leNat (plain row); depthVals f el ((List.range 128).map fun d => (d, elemRaw el n d)) (entryAt f scales)

/-- The part of a list that belongs to column `j`. -/
def colPart {α : Type} (l : List α) (stride j : Nat) : List α := (l.drop (j * stride)).take stride

/-- Column `j` of a slot: its 128 values (R273). -/
def colVals (w : WData) (j : Nat) : List FV :=
  match fmtElem w.fmt with
  | none => []
  | some el =>
    let row := leNat (colPart w.elems (storedRow w.layout w.fmt) j)
    let sc := colPart w.scales (scaleLen w.fmt 128) j
    let pick := fun (stride per n : Nat) =>
      let idx := leNat (colPart w.extra stride j)
      (List.range n).map fun m => (4 * (m / per) + idx / 4 ^ m % 4, elemRaw el row m)
    let elems := match w.layout with
      | 0 => (List.range 128).map fun d => (d, elemRaw el row d)
      | 1 => pick 16 2 64
      | 2 => pick 8 1 32
      | _ => (List.range 128).map fun d => (d, leNat (colPart w.extra (palBytes w.fmt) (row / 16 ^ d % 16)) % 2 ^ elemWidth el)
    depthVals w.fmt el elems (entryAt w.fmt sc)

def fpOne : Nat := 0x3F80_0000
/-- Rounding of the engine (R85). -/
def mxCtl : FCtl := { mode := .rne, dn := true }

/-- The outer scale of a row of A (R270): per k-step for 0x0E, per row for 0x18. -/
def outerA (f : Nat) (entry : List (Option Byte)) : Nat := if f = 0x0E ∨ f = 0x18 then leNat (plain entry) else fpOne
/-- The outer scale of a column of a slot. -/
def outerB (w : WData) (j : Nat) : Nat :=
  match w.fmt with | 0x0E => leNat (plain (w.scales.take 4)) | 0x18 => leNat (plain (colPart w.scales 4 j)) | _ => fpOne

/-- One element of a k-step (03 R85). -/
def kstepElem (acc : Word) (as bs : List FV) (oa ob : Nat) : Word :=
  let p := sumFV ((as.zip bs).map fun (a, b) => mulFV a b)
  let sc := (fmtTy 0).decode ((fmtTy 0).mulOp mxCtl oa ob).bits
  let ps := mulFV p sc
  let a := (fmtTy 0).decode acc.toNat
  BitVec.ofNat 32 ((fmtTy 0).addV mxCtl a ps [a, ps]).bits

/-! ### The queue's head -/

def State.head (s : State) (gid : Nat) : Option (Group × MRec) :=
  match Tab.find s.groups gid with
  | none => none
  | some g => g.queue.head?.map fun r => (g, r)

def State.updHead (s : State) (gid : Nat) (f : MRec → MRec) : State :=
  s.updGroup gid fun g => { g with queue := match g.queue with | r :: t => f r :: t | [] => [] }

/-- The head leaves the queue; an idle array starts its idle time (R287). -/
def State.popHead (s : State) (core gid : Nat) : State :=
  ((s.updGroup gid fun g => { g with queue := g.queue.drop 1 }).updCore core fun c => { c with mxIdle := 0 }).noteQueue core

/-- The handle that closes a batch, where its closure is in the queue. -/
def Group.closer (g : Group) (batch : Nat) : Word :=
  match g.queue.find? fun r => r.closes && r.batch == batch with | some r => (r.desc.head?).getD 0 | none => 0

/-- The head is abandoned: the rest of its batch completes without effect and the engine reports (R284). -/
def State.abandonHead (s : State) (g : Group) (gid : Nat) (r : MRec) (code addr : Nat) : State :=
  let h := g.closer r.batch
  let t := s.sendRec (engineRecord r.by_ code 1 addr r.prog h)
  let t := t.updGroup gid fun g => { g with failed := if g.failed.contains r.batch then g.failed else g.failed ++ [r.batch] }
  t.popHead g.core gid

/-- A translation fault of the head: not present parks it at its progress, another abandons it (R283, R284). -/
def State.headFault (s : State) (g : Group) (gid : Nat) (r : MRec) (va : Nat) (f : TFault) (k : AccKind) : State :=
  if f.kind = 0 then (s.updHead gid fun r => { r with parked := true }).parkReq g.core (.matrix gid) r.by_ va f k
  else (s.sendRec (transRecord g.core r.by_.tenant f va k.code 0 true)).abandonHead g gid r 0x21 va

/-! ### Reading operands -/

/-- What the engine found: bytes of each row, none where poisoned; the poisoned granules, each with the first poisoned address of its row; and the writes
that it read. -/
structure RowsRead where
  rows : List (List (Option Byte)) := []
  bad : List (Place × Nat × Nat) := []
  ids : List (Option Nat) := []
  deriving DecidableEq, Repr

def RowsRead.append (a b : RowsRead) : RowsRead := { rows := a.rows ++ b.rows, bad := a.bad ++ b.bad, ids := a.ids ++ b.ids }

/-- Rows of bytes at an offset of a captured quad (R283, R285). -/
def State.readRows (s : State) (g : Group) (b : Issuer) (c : Cap) (off rows pitch n : Nat) : Except (Nat × TFault) RowsRead :=
  let p : Party := .matrix g.core
  (List.range rows).foldl (fun (acc : Except (Nat × TFault) RowsRead) i => do
    let r ← acc
    let (pl, as) ← s.capBytes g.core b c (off + i * pitch) n .read
    let gs := s.poisonGranules g.core p pl as
    let bytes := s.engineBytes g.core p b pl as
    .ok (r.append {
      rows := [(as.zip bytes).map fun (a, x) => if gs.contains (a / 32) then none else some x.1]
      bad := gs.map fun x => (pl, x, s.poisonVa g.core p pl as (c.base + off + i * pitch)), ids := bytes.map Prod.snd })) (.ok {})

/-- The lines of some rows of a captured global quad are read at their homes (19 R325, R333). -/
def State.touchRows (s : State) (g : Group) (b : Issuer) (c : Cap) (p : Span) : State :=
  let s := s.cacheRows g.core b.ctx c p
  if c.scr then s
  else (List.range p.rows).foldl (fun s i =>
    match s.capBytes g.core b c (p.off + i * p.pitch) p.n .read with
    | .ok (_, as) => s.prepRead (dieOf g.core) b.ctx .normal as
    | .error _ => s) s

/-- Continues with rows that were read: a poisoned one in a strict context abandons the record, elsewhere each granule is a loss (R284, R285). -/
def State.withRows (s : State) (g : Group) (gid : Nat) (r : MRec) (x : Except (Nat × TFault) RowsRead) (k : State → List (List (Option Byte)) → State) : State :=
  match x with
  | .error (va, f) => s.headFault g gid r va f .read
  | .ok y =>
    let once := y.bad.foldl (fun (acc : List (Place × Nat)) y => if acc.contains (y.1, y.2.1) then acc else acc ++ [(y.1, y.2.1)]) []
    match r.by_.strict, y.bad with
    | true, b :: _ => s.abandonHead g gid r 0x22 b.2.2
    | _, _ => k ((s.addLossIf r.by_.ctx once.length).engineSees (.matrix g.core) y.ids) y.rows

/-! ### Poison in an accumulator bank (R285) -/

/-- Poisoned granules of the rows of a tile. -/
def Group.accBad (g : Group) (n rows : Nat) : List Nat := (List.range (4 * rows)).map (512 * n + ·) |>.filter fun k => Tab.get false g.accPoison k

/-- An element of a tile as a record reads it: zero where its granule is poisoned. -/
def Group.accAt (g : Group) (n i j : Nat) : Word := if Tab.get false g.accPoison (512 * n + 4 * i + j / 32) then 0 else Tab.get 0 g.acc (16384 * n + 128 * i + j)

/-- Rows of a tile have been written whole: their poison is gone. -/
def Group.accMend (g : Group) (n first rows : Nat) : Group :=
  { g with accPoison := g.accPoison.filter fun e => !(decide (512 * n + 4 * first ≤ e.1 ∧ e.1 < 512 * n + 4 * (first + rows))) }

/-- A record reads rows of a tile: poison abandons it in a strict context, elsewhere each granule is a loss (R284, R285). -/
def State.withAcc (s : State) (g : Group) (gid : Nat) (r : MRec) (n rows : Nat) (k : State → State) : State :=
  match g.accBad n rows, r.by_.strict with
  | _ :: _, true => s.abandonHead g gid r 0x22 0
  | bad, _ => k (s.addLossIf r.by_.ctx bad.length)

/-! ### Starting a record (R261, R284) -/

/-- Fields of a record's word. -/
def MRec.word (r : MRec) : W :=
  match r.inst with
  | .mma w | .mmaZ w | .wbld w | .accz w | .accld w | .accst w | .mbatch w | .batonPass w | .batonPassSignal w => w
  | _ => { ty := 0, nw := false, d := 0, a := .zero, b := .zero, g := .always, mod := 0, tail := 0 }

/-- Records other than the closing ones: those that a start and a completion concern. -/
def MRec.works (r : MRec) : Bool :=
  match r.inst with | .mma _ | .mmaZ _ | .wbld _ | .accz _ | .accld _ | .accst _ => true | _ => false

/-- The acquire flag of a record. -/
def MRec.acquires (r : MRec) : Bool :=
  match r.inst with | .mma w | .mmaZ w | .wbld w | .accld w => w.acqX | _ => false

/-- The head starts, once its copy has landed and the array is active; one whose copy was abandoned, and every later record of its batch, completes
without effect (R284). -/
def execMatrixRecordStart (group : Nat) (s : State) : Out :=
  match s.head group with
  | none => .fault .notEnabled
  | some (g, r) =>
    let act := decide (s.regF (.mxstat g.core) 1 0 = 0)
    let ok := r.works && !r.started && !r.parked && r.foOf.isNone && act
    let t :=
      if g.failed.contains r.batch then s.popHead g.core group
      else if r.dead then (s.updGroup group fun g => { g with failed := g.failed ++ [r.batch] }).popHead g.core group
      else
        let (t, b) := if r.acquires && !r.acqDone then s.engineAcquire g.core (.matrix g.core) r.by_ r.word.scopeX else (s, r.by_)
        t.updHead group fun r => { r with started := true, acqDone := true, by_ := b }
    when ok t

/-! ### k-steps (R270) -/

/-- The bytes of one k-step in a row of A. -/
def kstepLen (f : Nat) : Nat := rowLen f 128

/-- What a slot holds: the last `WBLD` that executed; DESIGN CHOICE: a slot that no `WBLD` has ever loaded, since its only one was abandoned, holds unstated
bytes (R274, R284; log 15). -/
def State.slotData (s : State) (g : Group) (m : Nat) : WData :=
  match Tab.find g.wbuf m with
  | some w => w
  | none =>
    let (f, lay) := match Tab.find g.slots m with | some x => (x.fmt, x.layout) | none => (1, 0)
    let byte := fun (k i : Nat) => (Config.unstated (100 + 16 * k + m) (2 ^ 16 * s.draw + i)).setWidth 8
    { fmt := f, layout := lay, elems := (List.range (128 * storedRow lay f)).map (byte 0), scales := (List.range (128 * scaleLen f 128)).map fun i => some (byte 1 i)
      extra := (List.range 2048).map (byte 2) }

def State.kstep (s : State) (g : Group) (gid : Nat) (r : MRec) : State :=
  let x := r.word
  let f := r.cap1.fmt
  let d := r.desc
  let t := r.prog
  let rows := mmaRows d
  let perStep := match scaleShape f with | (0, _) => 0 | (bs, e) => 128 / bs * e
  let span : Span := ⟨descW d 0 + t * kstepLen f, rows, 16 * r.cap1.pitch, kstepLen f⟩
  let spanS : Span := ⟨descW d 1 + t * perStep, rows, 16 * r.cap2.pitch, scaleLen f 128⟩
  let s := s.touchRows g r.by_ r.cap1 span
  let s := if x.sv then s.touchRows g r.by_ r.cap2 spanS else s
  let both : Except (Nat × TFault) RowsRead := do
    let p ← s.readRows g r.by_ r.cap1 span.off rows span.pitch span.n
    let q ← if x.sv then s.readRows g r.by_ r.cap2 spanS.off rows spanS.pitch spanS.n else .ok { rows := (List.range rows).map fun _ => [] }
    .ok (p.append q)
  let first := decide (t = 0) && (match r.inst with | .mmaZ _ => true | _ => false)
  s.withRows g gid r both fun s out => s.withAcc g gid r x.acc (if first then 0 else rows) fun s =>
    let wd := s.slotData g ((r.chain[t]?).getD 0)
    let cols := (List.range 128).map fun j => (j, colVals wd j, outerB wd j)
    let key := fun (i j : Nat) => 16384 * x.acc + 128 * i + j
    let cells := (List.range rows).flatMap fun i =>
      let sv := (out[rows + i]?).getD []
      let av := rowVals f ((out[i]?).getD []) sv
      cols.map fun (j, bv, ob) => (key i j, kstepElem (if first then 0 else g.accAt x.acc i j) av bv (outerA f sv) ob)
    let zeros := if first then (List.range (128 - rows)).flatMap fun i => (List.range 128).map fun j => (key (rows + i) j, (0 : Word)) else []
    let put := fun (m : Tab Word) (c : Nat × Word) => Tab.put 0 m c.1 c.2
    let write := fun (g : Group) => { g with acc := (cells ++ zeros).foldl put g.acc }.accMend x.acc 0 (if first then 128 else rows)
    ((s.updGroup gid write).updHead gid fun r => { r with prog := t + 1 }).bumpCore g.core .mxKstep

def isMma : Instr → Bool | .mma _ | .mmaZ _ => true | _ => false

def execMmaKstepCommit (group : Nat) (s : State) : Out :=
  match s.head group with
  | none => .fault .notEnabled
  | some (g, r) => when (isMma r.inst && r.started && !r.parked && decide (r.prog ≤ r.word.ks)) (s.kstep g group r)

/-! ### The other records (R272-R278) -/

/-- `WBLD` fills its slot (R273, R274). -/
def State.runWbld (s : State) (g : Group) (gid : Nat) (r : MRec) : State :=
  let x := r.word
  let d := r.desc
  let f := r.cap1.fmt
  let lay := x.bits 81 80
  let spans : List (Cap × Option Span) :=
    [(r.cap1, some ⟨descW d 0, 128, 16 * r.cap1.pitch, storedRow lay f⟩), (r.cap1, extraSpan lay f (descW d 2)),
     (r.cap2, if x.sv then some (slotScales f (descW d 1) (16 * r.cap2.pitch)) else none)]
  let s := spans.foldl (fun s (c, p) => match p with | some p => s.touchRows g r.by_ c p | none => s) s
  let part := fun (c : Cap) (p : Option Span) => match p with | some p => s.readRows g r.by_ c p.off p.rows p.pitch p.n | none => .ok {}
  let flat : Except (Nat × TFault) RowsRead := spans.foldl (fun (acc : Except (Nat × TFault) RowsRead) (c, p) => do
    let y ← acc
    let z ← part c p
    .ok (y.append { z with rows := [z.rows.flatten] })) (.ok {})
  s.withRows g gid r flat fun s parts =>
    let part := fun (k : Nat) => (parts[k]?).getD []
    let wd : WData := { fmt := f, layout := lay, elems := plain (part 0), scales := part 2, extra := plain (part 1) }
    (s.updGroup gid fun g => { g with wbuf := Tab.set g.wbuf (x.bits 79 76) wd }).popHead g.core gid

/-- `ACCZ` (R275). -/
def State.runAccz (s : State) (g : Group) (gid : Nat) (r : MRec) : State :=
  let n := r.word.acc
  let keep := fun (c : Nat × Word) => decide (c.1 / 16384 ≠ n)
  (s.updGroup gid fun g => { g with acc := g.acc.filter keep }.accMend n 0 128).popHead g.core gid

/-- One row of `ACCLD` (R276): widened exactly, NaNs canonical. -/
def State.accldRow (s : State) (g : Group) (gid : Nat) (r : MRec) : State :=
  let x := r.word
  let n := accldSize x
  let s := s.touchRows g r.by_ r.cap1 ⟨descW r.desc 0 + r.prog * 16 * r.cap1.pitch, 1, 0, 128 * n⟩
  let src := fmtTy (match x.bits 83 82 with | 0 => 0 | 1 => 3 | _ => 4)
  let rd := s.readRows g r.by_ r.cap1 (descW r.desc 0 + r.prog * 16 * r.cap1.pitch) 1 0 (128 * n)
  s.withRows g gid r rd fun s rows =>
    let row := leNat (plain rows.flatten)
    let put := fun (m : Tab Word) (j : Nat) =>
      let v := src.decode (row / 256 ^ (n * j) % 256 ^ n)
      Tab.put 0 m (16384 * x.acc + 128 * r.prog + j) (BitVec.ofNat 32 ((fmtTy 0).convert mxCtl v).bits)
    (s.updGroup gid fun g => { g with acc := (List.range 128).foldl put g.acc }.accMend x.acc r.prog 1).updHead gid fun r => { r with prog := r.prog + 1 }

/-- One row of `ACCST` as bytes, with the generator's next state (R278). -/
def accstRow (g : Group) (r : MRec) (seed : Word) : List Byte × Word :=
  let x := r.word
  let f := fmtTy (accstTy x)
  let sc := (fmtTy 0).decode (descW r.desc 1)
  let rm := x.bits 87 85
  (List.range (accstCols r.desc)).foldl (fun (acc : List Byte × Word) j =>
    let sd := if rm = 4 then srNext acc.2 else acc.2
    let mode := if rm = 4 then RMode.sr (srR sd) else RMode.ofRM rm
    let v := mulFV ((fmtTy 0).decode (g.accAt x.acc r.prog j).toNat) sc
    let y := (f.convert { mode, dn := true, sat := x.tail.getLsbD 24 } v).bits
    (acc.1 ++ leBytes (accstSize x) y, sd)) ([], seed)

/-- One row of `ACCST` reaches memory, each 128-byte chunk as one write event (R278, 12 R248). -/
def State.accstRowRun (s : State) (g : Group) (gid : Nat) (r : MRec) : State :=
  let seed := r.seed.getD (if descW r.desc 3 = 0 then 1 else BitVec.ofNat 32 (descW r.desc 3))
  let (bytes, seed') := accstRow g r seed
  let off := descW r.desc 0 + r.prog * 16 * r.cap1.pitch
  let s := s.cacheRows g.core r.by_.ctx r.cap1 ⟨off, 1, 0, bytes.length⟩
  match s.capBytes g.core r.by_ r.cap1 off bytes.length .write with
  | .error (va, f) => s.headFault g gid r va f .write
  | .ok (pl, as) =>
    let bad := ((List.range 4).filter fun k => decide (32 * k < accstCols r.desc) && Tab.get false g.accPoison (512 * r.word.acc + 4 * r.prog + k)).length
    if r.by_.strict ∧ bad ≠ 0 then s.abandonHead g gid r 0x22 0
    else
      let cells := as.zip bytes
      let chunks := distinct (as.map (· / 128))
      let t := chunks.foldl (fun s c => s.performWrite g.core (.matrix g.core) r.by_.ctx pl (cells.filter fun b => b.1 / 128 == c) []) s
      (t.addLossIf r.by_.ctx bad).updHead gid fun r => { r with prog := r.prog + 1, seed := some seed' }

/-- Rows one after another while nothing stops the head (R276, R278, R283). -/
def rowsGo (gid id : Nat) (row : State → Group → MRec → State) : Nat → State → State
  | 0, s => s
  | n + 1, s =>
    match s.head gid with
    | some (g, r) => if r.id = id ∧ !r.parked then rowsGo gid id row n (row s g r) else s
    | none => s

/-- The head record completes (R273, R275, R278): an `MMA` whose k-steps are done, a `WBLD` or `ACCZ` with its effect, an `ACCLD` or `ACCST` whose
rows have moved and whose release has completed. -/
def execMatrixRecordComplete (group : Nat) (s : State) : Out :=
  match s.head group with
  | none => .fault .notEnabled
  | some (g, r) =>
    if !r.started || r.parked then .fault .notEnabled
    else
      match r.inst with
      | .mma w | .mmaZ w => when (w.ks < r.prog) (s.popHead g.core group)
      | .wbld _ => .next (s.runWbld g group r)
      | .accz _ => .next (s.runAccz g group r)
      | .accld _ =>
        let t := rowsGo group r.id (fun s g r => s.accldRow g group r) (128 - r.prog) s
        match t.head group with
        | some (_, q) => .next (if q.id = r.id ∧ 128 ≤ q.prog then t.popHead g.core group else t)
        | none => .next t
      | .accst w =>
        let n := accstRows r.desc
        let t := rowsGo group r.id (fun s g r => s.accstRowRun g group r) (n - r.prog) s
        match t.head group with
        | some (_, q) =>
          let p : Party := .matrix g.core
          if q.id = r.id ∧ n ≤ q.prog ∧ (!w.relX || t.published g.core p r.by_) then
            .next ((if w.relX then t.engineRelease g.core p r.by_ r.word.scopeX else t).popHead g.core group)
          else when (r.prog < n) t
        | none => .next t
      | _ => .fault .notEnabled

/-! ### Batches (R262, R279, R284) -/

/-- The batch at the head of the queue completes: after its release it signals, or sets FLT if a record of it was abandoned. -/
def execBatchComplete (group : Nat) (s : State) : Out :=
  match s.head group with
  | none => .fault .notEnabled
  | some (g, r) =>
    let bad := g.failed.contains r.batch
    let drop := fun (t : State) => (t.updGroup group fun g => { g with failed := g.failed.filter fun b => b != r.batch }).popHead g.core group
    let h := (r.desc.head?).getD 0
    let p : Party := .matrix g.core
    let rel := match r.inst with | .mbatch w => w.relX | _ => false
    let t := if rel then s.engineRelease g.core p r.by_ r.word.scopeX else s
    match r.inst with
    | .batonPass _ => .next (drop s)
    | .mbatch _ | .batonPassSignal _ =>
      if bad then .next (drop (s.setFlt g.core group h))
      else when (s.engineClear g.core p && (!rel || s.published g.core p r.by_)) (drop (t.engineSignal g.core group p r.by_ h Obj.addOne))
    | _ => .fault .notEnabled

/-! ### Power (R287) -/

/-- Whether a record of a core executes; one that is parked has not ended. -/
def State.mxBusy (s : State) (core : Nat) : Bool :=
  s.groups.any fun (_, g) => g.core == core && (match g.queue with | r :: _ => r.started | [] => false)

def execMxClockGate (core : Nat) (s : State) : Out :=
  let n := s.regF (.mxpwr core) 15 0
  when (s.regF (.mxstat core) 1 0 = 0 && !s.mxBusy core && n != 0 && n ≤ (s.core core).mxIdle)
    ((s.setRegF (.mxstat core) 1 0 1).updCore core fun c => { c with mxIdle := 0 })

def execMxPowerGate (core : Nat) (s : State) : Out :=
  let n := s.regF (.mxpwr core) 31 16
  when (s.regF (.mxstat core) 1 0 = 1 && n != 0 && n * 1024 ≤ (s.core core).mxIdle)
    ((s.setRegF (.mxstat core) 1 0 2).updCore core fun c => { c with mxIdle := 0 })

/-- A record that arrives at a gated array wakes it. -/
def execMxWake (core : Nat) (s : State) : Out :=
  let st := s.regF (.mxstat core) 1 0
  let t := (s.setRegF (.mxstat core) 1 0 0).updCore core fun c => { c with mxIdle := 0 }
  when (st != 0 && s.regF (.mxstat core) 14 8 != 0) (if st = 2 then t.bumpCore core .mxWake else t)

end Sys2Proof.Machine
end

