-- ==== Sys2Proof/Machine/Copies.lean ====
section
/-! DEFINITION. The copy engine: `CPY` with its follow-on, chunks, signals, rings, faults and abandonment (12 R244-R257). -/

namespace Sys2Proof.Machine

/-! ### Fields (R245, R246) -/

/-- Row bytes and rows of a copy's descriptor. -/
def copyRows (tile : Bool) (d : List Word) : Nat × Nat := if tile then (descW d 2 % 65536, descW d 2 / 65536) else (descW d 2, 1)
def W.ringW (x : W) : Bool := x.tail.getLsbD 12
/-- N and SLOT of a ring. -/
def ringN (x : W) : Nat := 2 ^ x.bits 80 77
def ringSlot (x : W) : Nat := 2 ^ x.bits 85 81
/-- The target offset, moved to the slot of fill k in a ring (R246). -/
def ringOff (x : W) (d : List Word) (k : Nat) : Nat := if W.ringW x then descW d 1 + k % ringN x * ringSlot x else descW d 1

/-- H, or FILLED, of descriptor word 3; FREED of a ring. -/
def copyH (d : List Word) : Word := BitVec.ofNat 32 (descW d 3 % 65536)
def copyFreed (d : List Word) : Word := BitVec.ofNat 32 (descW d 3 / 65536)

/-! ### Issue checks (R247) -/

def copyChks (tile : Bool) (x : W) (s : State) (w : Wave) (l : Nat) : List Chk :=
  let d := w.descQ x.a l
  let t := w.quadQ x.q1 l
  let c := w.quadQ x.q2 l
  let k := (w.opnd true x.b l).toNat
  let (n, rows) := copyRows tile d
  let tp := if tile then 16 * t.pitch else 0
  let sp := if tile then 16 * c.pitch else 0
  let win := s.window w
  let ring := W.ringW x
  let stale := fun (h : Word) => (s.entryOf w.core w.group h).isNone
  let phase := fun (h : Word) => match s.entryOf w.core w.group h with | some e => !(s.entry w.core e).count | none => false
  let bad30 := if ring then stale (copyH d) || stale (copyFreed d) else stale (copyH d)
  let ext := if tile then (rows - 1) * tp + n else n
  let bad32 := (tile && (n == 0 || rows == 0)) || (ring && decide (ringSlot x < ext)) || (!ring && descW d 3 / 65536 != 0) ||
    (ring && (phase (copyH d) || phase (copyFreed d)))
  chkIf (x.bits 87 86 != 0 && t.scr && c.scr) 0x02 ++
  capChks t win [⟨ringOff x d k, rows, tp, n⟩] [pCT] (tile && t.pitch == 0) l ++
  capChks c win [⟨descW d 0, rows, sp, n⟩] [pCS] (tile && c.pitch == 0) l ++
  chkIf bad30 0x30 ++ chkIf bad32 0x32

/-- What stands behind a `CPY` with FO: its follow-on, the causes of its slot, the fault of its fetch, or a parity mismatch, after which the line is
fetched again (R247, 02 R36). -/
inductive FoSlot
  | mma (i : Instr) (x : W) (last : Bool) | causes (cs : List Chk) | trans (f : TFault) | refetch (pc : PC)
  deriving DecidableEq, Repr

def State.foSlot (s : State) (w : Wave) : FoSlot :=
  if w.leavesKernel then .causes (chkIf true 0x03)
  else
    let pc := nextPc w.pc
    match fetchLine s w pc with
    | .error f => .trans f
    | .ok pas =>
      let line := s.lineBits (dieOf w.core) pas
      let lw := lineWord line
      if kindBad lw then .causes (chkIf true 0x04)
      else if parBad line (slotOf pc) || s.linePoison (dieOf w.core) pas then .refetch pc
      else
        match decodeWave (slotWord line (slotOf pc)) with
        | .error .opcode => .causes (chkIf true 0x01)
        | .error .field => .causes (chkIf true 0x02)
        | .ok (.mma x) => .mma (.mma x) x (slotOf pc == 4 && kindOf lw == 1)
        | .ok (.mmaZ x) => .mma (.mmaZ x) x (slotOf pc == 4 && kindOf lw == 1)
        | .ok _ => .causes (chkIf true 0x32)

/-- The follow-on's own checks, on operands as they stand at the `CPY` (R247, R250, 01 R12). -/
def foChks (x : W) (i : Instr) (s : State) (w : Wave) (l : Nat) : List Chk :=
  if i.named.any fun (r, n) => decide (w.declared < r + n) then chkIf true 0x32 else mmaChks x s w l

/-- The causes of what stands behind a `CPY` with FO. -/
def State.foMore (s : State) (w : Wave) (l : Nat) : Option FoSlot → List Chk
  | some (.causes cs) => cs
  | some (.mma j y _) => foChks y j s w l
  | _ => []

/-! ### Issue (R247, R249, R250) -/

def copyLimit : Nat := 128

/-- The wave after a `CPY` with a follow-on: it goes on past the follow-on. Where that is the last slot, the 0x03 of 02 R38 gives the `CPY`'s PC as IPC, the
instruction that completes there (log 66). -/
def skipFo (s : State) (id : Nat) (w : Wave) (last : Bool) : Out :=
  let n := w.goto (nextPc (nextPc w.pc))
  if last then .next (deliver s id n { code := 0x03, kind := 1, rpc := n.pc, ipc := w.pc }) else .next (s.setWave id n)

/-- A copy enters flight; a ring copy whose slot is not free is blocked (R244). -/
def State.pushCopy (s : State) (core : Nat) (c : Copy) : State :=
  (s.updCore core fun k => { k with copies := k.copies ++ [c] }).fresh

/-- Whether FREED allows fill k (R244). -/
def State.slotFree (s : State) (core : Nat) (c : Copy) : Bool :=
  match s.entryOf core c.by_.group (copyFreed c.desc) with
  | some e => (match s.obj core e with | .count v _ => decide ((c.seq : Int) + 1 - ringN c.word ≤ v) | .phase .. => true)
  | none => true

/-- `CPY`. Without an active lane it has no effect, and the wave goes on at the next slot, a follow-on's too (R247, R250; log 65). -/
def cpyOp (i : Instr) (x : W) (s : State) (tile : Bool) : Out :=
  withWave s fun id w =>
    match lowest w.exm with
    | none => done s id w
    | some l =>
      let own := copyChks tile x s w l
      let fo := if x.mod.getLsbD 5 then some (s.foSlot w) else none
      let cs := own ++ s.foMore w l fo
      let stop := pickChk cs
      let early := match stop with | some c => decide (causeRank c.code < 8) | none => false
      match fo, stop, early with
      | some (.refetch pc), _, _ => .next (s.setWave id { w with refetched := some pc })
      | some (.trans _), some c, true => faultChks s id w cs c
      | some (.trans f), _, _ => fetchFault s id w (nextPc w.pc) f
      | _, some c, _ => faultChks s id w cs c
      | _, none, _ =>
        if copyLimit ≤ (s.core w.core).copies.length then waitAt s id w .copySlot i
        else
          let room := match fo with | some (.mma ..) => decide (s.queued w.group < 64) | _ => true
          if !room then waitAt s id w .matrixQueue i
          else
            match s.signalGates w.core id with
            | [] =>
              let (s, w) := s.settleReads id w
              let c : Copy := {
                id := s.nextId, kind := if tile then .tile else .lin, by_ := s.issuer id w, word := x, tcap := w.quadQ x.q1 l, scap := w.quadQ x.q2 l
                desc := w.descQ x.a l, seq := if W.ringW x then (w.opnd true x.b l).toNat else 0 }
              let c := if W.ringW x && !s.slotFree w.core c then { c with state := .blocked } else c
              match fo with
              | some (.mma j y last) =>
                let r := { (s.fresh).mmaRec id w l j y with foOf := some c.id }
                let t := (s.pushCopy w.core { c with fo := some r.id }).pushRec w.core w.group r
                skipFo t id w last
              | _ => done (s.pushCopy w.core c) id w
            | gs => waitGates s id w i gs

def execCpyLin (w : W) (s : State) : Out := cpyOp (.cpyLin w) w s false
def execCpyTile (w : W) (s : State) : Out := cpyOp (.cpyTile w) w s true

/-- A wave that waits for the count of copies in flight issues its command again (R247, 25 R428). -/
def execCopySlotWaitEnd (wave : Nat) (s : State) : Out :=
  match Tab.find s.waves wave with
  | none => .fault .notEnabled
  | some w =>
    when (w.cond == .waiting .copySlot && w.evicted.isNone && decide ((s.core w.core).copies.length < copyLimit))
      (s.setWave wave { w with cond := .running })

/-! ### Chunks (R248) -/

def Copy.isTile (c : Copy) : Bool := match c.kind with | .tile => true | _ => false
def Copy.rows (c : Copy) : Nat × Nat := copyRows c.isTile c.desc
/-- Address of the first target byte of a row, and offset of its first source byte. -/
def Copy.rowAt (c : Copy) (i : Nat) : Nat := c.tcap.base + ringOff c.word c.desc c.seq + (if c.isTile then i * 16 * c.tcap.pitch else 0)
def Copy.srcOff (c : Copy) (i : Nat) : Nat := descW c.desc 0 + if c.isTile then i * 16 * c.scap.pitch else 0

/-- Chunks of a row of `n` bytes that starts at an address, and the k-th of them. -/
def rowChunks (start n : Nat) : Nat := if n = 0 then 0 else (start % 128 + n + 127) / 128
def rowChunk (start n k : Nat) : Nat × Nat :=
  let lo := if k = 0 then 0 else 128 * k - start % 128
  (lo, min n (128 * (k + 1) - start % 128) - lo)

/-- The row, offset and length of chunk `j`. -/
def Copy.chunkGo (c : Copy) (n : Nat) : List Nat → Nat → Option (Nat × Nat × Nat)
  | [], _ => none
  | i :: t, j =>
    let m := rowChunks (c.rowAt i) n
    if j < m then some (i, rowChunk (c.rowAt i) n j) else c.chunkGo n t (j - m)

def Copy.chunk (c : Copy) (j : Nat) : Option (Nat × Nat × Nat) := c.chunkGo c.rows.1 (List.range c.rows.2) j
def Copy.chunks (c : Copy) : Nat := ((List.range c.rows.2).map fun i => rowChunks (c.rowAt i) c.rows.1).sum

def State.findCopy (s : State) (core id : Nat) : Option Copy := (s.core core).copies.find? fun c => c.id == id
def State.updCopy (s : State) (core id : Nat) (f : Copy → Copy) : State :=
  s.updCore core fun k => { k with copies := k.copies.map fun c => if c.id = id then f c else c }

/-- A copy leaves flight, and its collective instance ends at this member. -/
def State.dropCopy (s : State) (core id : Nat) : State :=
  let colls := s.colls.filter fun k => k.cmd != some (core, id)
  ({ s with colls } : State).updCore core fun k => { k.dropReq (.copy id) with copies := k.copies.filter fun c => c.id != id }

/-! ### Abandonment (R257, 13 R284) -/

/-- The follow-on of an abandoned copy is abandoned at its turn (13 R284). -/
def State.abandonFo (s : State) (core : Nat) (c : Copy) : State :=
  match Tab.find s.groups c.by_.group with
  | none => s
  | some g =>
    match g.queue.find? fun r => r.foOf == some c.id with
    | none => s
    | some r =>
      let t := s.sendRec (engineRecord r.by_ 0x32 1 0 0 (g.closer r.batch))
      let kill := fun (q : MRec) => if q.id = r.id then { q with foOf := none, dead := true } else q
      (t.updGroup c.by_.group fun g => { g with queue := g.queue.map kill }).noteQueue core

/-- A copy or fabric command is abandoned: FLT is set in its barrier, and its engine reports unless nobody could wait (R254, R257). -/
def State.abandonCopy (s : State) (core : Nat) (c : Copy) (code addr : Nat) (report : Bool := true) : State :=
  let h := (c.handles.head?).getD 0
  let eng := match c.kind with | .coll .. => 2 | _ => 0
  let t := s.setFlt core c.by_.group h
  let t := if report then t.sendRec (engineRecord c.by_ code eng addr c.prog h) else t
  (t.abandonFo core c).dropCopy core c.id

/-- A translation fault of a copy: not present parks it at its progress, another abandons it (R251, R257). -/
def State.copyFault (s : State) (core : Nat) (c : Copy) (va : Nat) (f : TFault) (k : AccKind) : State :=
  if f.kind = 0 then (s.updCopy core c.id fun c => { c with state := .parked }).parkReq core (.copy c.id) c.by_ va f k
  else (s.sendRec (transRecord core c.by_.tenant f va k.code 0 true)).abandonCopy core c 0x21 va

/-! ### Landing (R248, R249, R256) -/

/-- The acquire of a copy before its first read. -/
def State.copyAcquire (s : State) (core : Nat) (c : Copy) : State × Copy :=
  if c.word.acqX && !c.acqDone then
    let (t, b) := s.engineAcquire core (.copy core) c.by_ c.word.scopeX
    (t.updCopy core c.id fun c => { c with acqDone := true, by_ := b }, { c with acqDone := true, by_ := b })
  else (s, c)

/-- A copy that signals by landed bytes: its H is a PHASE barrier (R249). -/
def State.countsBytes (s : State) (core : Nat) (c : Copy) : Bool :=
  !c.ring && (match s.entryOf core c.by_.group (copyH c.desc) with | some k => !(s.entry core k).count | none => false)

/-- PEND of a PHASE barrier falls by landed bytes, as a release at `.core` (R249). -/
def State.landBytes (s : State) (core : Nat) (c : Copy) (n : Nat) : State :=
  if s.countsBytes core c then
    s.engineSignal core c.by_.group (.copy core) c.by_ (copyH c.desc) fun o => match o with | .phase e a p m f => .phase e a (p - n) m f | o => o
  else s

def State.landChunk (s : State) (core : Nat) (c : Copy) (i off n : Nat) : State :=
  let (s, c) := s.copyAcquire core c
  let p : Party := .copy core
  let b := c.by_
  let so := c.srcOff i + off
  let s := s.cacheRows core b.ctx c.scap ⟨so, 1, 0, n⟩
  let to' := c.rowAt i - c.tcap.base + off
  let s := s.cacheRows core b.ctx c.tcap ⟨to', 1, 0, n⟩
  match s.capBytes core b c.scap so n .read, s.capBytes core b c.tcap to' n .write with
  | .error (va, f), _ => s.copyFault core c va f .read
  | _, .error (va, f) => s.copyFault core c va f .write
  | .ok (sp, sa), .ok (tp, ta) =>
    let cp := Policy.ofCode (c.word.bits 87 86)
    let s := if sp = .glob then s.prepRead (dieOf core) b.ctx cp sa else s
    let bad := s.poisonGranules core p sp sa
    if b.strict ∧ bad ≠ [] then s.abandonCopy core c 0x22 (s.poisonVa core p sp sa (c.scap.base + so))
    else
      let new := bad.filter fun g => !c.lost.contains g
      let data := s.engineBytes core p b sp sa
      let s := (s.addLossIf b.ctx new.length).engineSees p (data.map Prod.snd)
      let s := s.performWrite core p b.ctx tp (ta.zip (data.map Prod.fst)) [] [] cp
      let s := s.updCopy core c.id fun c => { c with prog := c.prog + 1, lost := c.lost ++ new }
      if c.prog + 1 = c.chunks then s else s.landBytes core c n

/-- The next chunk lands; one that signals by its bytes waits while a release holds the engine's writes back (R248, R249). -/
def execCopyChunkLand (core copy : Nat) (s : State) : Out :=
  match s.findCopy core copy with
  | none => .fault .notEnabled
  | some c =>
    match c.chunk c.prog with
    | some (i, off, n) => when (isCpy c && decide (c.state = .running) && (!s.countsBytes core c || (s.core core).openReleases (.copy core) == [])) (s.landChunk core c i off n)
    | none => .fault .notEnabled

/-- Bytes of the last chunk. -/
def Copy.lastBytes (c : Copy) : Nat := match c.chunk (c.chunks - 1) with | some (_, _, n) => n | none => 0

/-- The copy has signalled: its follow-on may start, and it leaves flight (R249, R250). -/
def State.finishCopy (s : State) (core : Nat) (c : Copy) : State :=
  let go := fun (r : MRec) => if r.foOf = some c.id then { r with foOf := none } else r
  (s.updGroup c.by_.group fun g => { g with queue := g.queue.map go }).dropCopy core c.id

/-- FILLED of a ring copy. -/
def State.filled (s : State) (core : Nat) (c : Copy) : Nat :=
  match s.entryOf core c.by_.group (copyH c.desc) with
  | some k => (match s.obj core k with | .count v _ => v | .phase .. => 0)
  | none => 0

/-- The completion signal (R244, R249): a release at `.core` with the update. -/
def State.copySignal (s : State) (core : Nat) (c : Copy) : State :=
  let g := c.by_.group
  let one := s.engineSignal core g (.copy core) c.by_ (copyH c.desc) Obj.addOne
  if c.ring then
    if s.filled core c < c.seq then s.updCopy core c.id fun c => { c with state := .holding }
    else if c.seq < s.filled core c then s.abandonCopy core c 0x32 0
    else one.finishCopy core c
  else (if s.countsBytes core c then s.landBytes core c c.lastBytes else one).finishCopy core c

/-- The release flag of a command, after its last write (11 R224). -/
def State.flagRelease (s : State) (core : Nat) (p : Party) (c : Copy) : State :=
  if c.word.relX then s.engineRelease core p c.by_ c.word.scopeX else s

/-- Every chunk has landed, the release has completed, and what has landed is with the core. -/
def execCopySignal (core copy : Nat) (s : State) : Out :=
  match s.findCopy core copy with
  | none => .fault .notEnabled
  | some c =>
    let p : Party := .copy core
    let (s', c') := s.copyAcquire core c
    when (isCpy c && decide (c.state = .running) && decide (c.chunks ≤ c.prog) && s.engineClear core p && (!c.word.relX || s.published core p c'.by_))
      ((s'.flagRelease core p c').copySignal core c')

/-- FREED has grown enough for a blocked ring copy (R244). -/
def execRingCopyResume (core copy : Nat) (s : State) : Out :=
  match s.findCopy core copy with
  | none => .fault .notEnabled
  | some c => when (decide (c.state = .blocked) && s.slotFree core c) (s.updCopy core copy fun c => { c with state := .running })

/-- FILLED has reached, or passed, a held signal (R244). -/
def execRingSignalRelease (core copy : Nat) (s : State) : Out :=
  match s.findCopy core copy with
  | none => .fault .notEnabled
  | some c => when (decide (c.state = .holding) && decide (c.seq ≤ s.filled core c) && s.engineClear core (.copy core)) (s.copySignal core c)

end Sys2Proof.Machine
end

