-- ==== Sys2Proof/Machine/Save.lean ====
section
/-! DEFINITION. Saving and restoring whole groups (14 R297, R298, 18 R318), the end of a group (12 R254, 13 R263), ending a context (21 R378), and
the loss of a core or a die (18 R322, 24 R419). -/

namespace Sys2Proof.Machine

/-! ### Group save (R297) -/

/-- The groups that are saved together: a gang, or the group alone (18 R318). -/
def State.together (s : State) (gid : Nat) : List Nat :=
  match (Tab.find s.groups gid).bind Group.gang with
  | some k => (match Tab.find s.gangs k with | some g => g.groups.filter fun n => (Tab.find s.groups n).isSome | none => [gid])
  | none => [gid]

/-- Marks groups to be saved: their waves are held at issue. -/
def State.markSaving (s : State) (ids : List Nat) : State := ids.foldl (fun s n => s.updGroup n fun g => { g with saving := true }) s

/-- Steps 1 and 2 are over: waves settled, and nothing on its way that the group's engines wrote or are to publish (11 R224, R226). -/
def State.mayStop (s : State) (gid : Nat) (g : Group) : Bool :=
  let c := s.core g.core
  ((c.copies.filter fun x => x.by_.group == gid).all fun x => s.published g.core (.copy g.core) x.by_) &&
  (g.queue.all fun r => s.published g.core (.matrix g.core) r.by_) &&
  !(s.cores.any fun (_, c) => c.pend.any (fun p => p.place == .scr gid) || c.atoms.any (fun a => a.place == .scr gid)) &&
  (s.waves.all fun (id, w) => w.group != gid || w.evicted.isSome || s.settled id w)

/-- A wave as its image keeps it; a `WAIT.CYC` is over (04 R116). -/
def Wave.image (w : Wave) : Wave :=
  { w with evicted := none, names := [], latches := lostLatches, run := none, apart := none, leaving := false, boosted := false, yieldTo := []
           refetched := none, looked := none, gates := [], waitUntil := none, protect := 0 }

/-- The matrix queue as its image keeps it: the k-step in progress is discarded (13 R286). -/
def MRec.image (r : MRec) : MRec := { r with started := false, parked := false }

/-- The release at `.pkg` of each of some waves that are resident (11 R226). -/
def State.releaseAll (s : State) (waves : List (Nat × Wave)) : State :=
  waves.foldl (fun s (id, w) => if w.evicted.isNone then (s.releaseBy id w .pkg).1 else s) s

/-- One group leaves its core, with its image; the images of its evicted waves leave the save area with it (R297, R298). -/
def State.takeGroup (s : State) (gid : Nat) : State × Option GImage :=
  match Tab.find s.groups gid with
  | none => (s, none)
  | some g =>
    let c := s.core g.core
    let waves := s.waves.filter fun (_, w) => w.group == gid
    let entries := c.barriers.filter fun (_, e) => e.live && e.group == gid
    let copies := c.copies.filter fun x => x.by_.group == gid
    let img : GImage := {
      group := { g with saving := false, moving := none, queue := g.queue.map MRec.image }
      waves := waves.map fun (k, w) => (k, w.image)
      entries, copies, gang := g.gang.bind (Tab.find s.gangs) }
    let t := waves.foldl (fun s (id, w) => if w.evicted.isNone then s.unseat id w none else s) (s.releaseAll waves)
    let t : State := { t with saveArea := t.saveArea.filter fun x => !(waves.any fun w => w.1 == x.1) }
    let free := fun (b : Tab BEntry) (k : Nat) => Tab.upd b k fun e => { e with live := false, gen := nextGen e.gen 8 }
    let t := t.updCore g.core fun c =>
      let c := waves.foldl (fun c (id, _) => c.dropReq (.wave id)) c
      let c := copies.foldl (fun c x => c.dropReq (.copy x.id)) c
      let c := c.dropReq (.matrix gid)
      { c with copies := c.copies.filter (fun x => x.by_.group != gid), barriers := entries.foldl (fun b (k, _) => free b k) c.barriers }
    let keep := t.waves.filter fun (_, w) => w.group != gid
    let t : State := { t with waves := keep, groups := Tab.erase t.groups gid }
    (((t.giveBanks g.core gid g.regBanks).noteUsed g.core).noteQueue g.core, some img)

/-- Groups that are saved together leave, and with them their gang entry. -/
def State.saveGroups (s : State) (ids : List Nat) : State :=
  let gang := ids.head?.bind fun k => (Tab.find s.groups k).bind Group.gang
  let t := ids.foldl (fun s gid => match s.takeGroup gid with
    | (t, some img) => { t with images := Tab.set t.images gid img }
    | (t, none) => t) s
  match gang with | some k => { t with gangs := Tab.erase t.gangs k } | none => t

/-- A group that is to be saved, or its gang: of a context's, the most recently admitted first (20 R358, 21 R391). -/
def execGroupSave (group : Nat) (s : State) : Out :=
  match Tab.find s.groups group with
  | none => .fault .notEnabled
  | some g =>
    let ids := s.together group
    let later := s.groups.any fun (k, x) => x.saving && x.ctx == g.ctx && decide (g.admitted < x.admitted) && !ids.contains k
    let ok := fun (k : Nat) => match Tab.find s.groups k with | some g => g.saving && s.mayStop k g | none => true
    when (ids.all ok && !later) (s.saveGroups ids)

/-! ### Group restore (R298) -/

/-- A core can take the saved barrier entries at their indices (12 R243). -/
def State.entriesFit (s : State) (core n : Nat) (es : List Nat) : Bool :=
  es.all (fun k => !(s.entry core k).live) && decide (s.barUsed core n + es.length ≤ min 256 (s.regF (.barlim core n) 8 0))

/-- The plan by which a core takes a saved group back in the room that it has (R298). -/
def State.planImage (s : State) (core : Nat) (img : GImage) : Option Plan :=
  match if s.claimed none core then none else s.planRoom core img.group.ctx img.group.part img.group.kprog with
  | some p => if s.entriesFit core p.bset (img.entries.map Prod.fst) then some p else none
  | none => none

/-- What an engine's command knows after a restore: all that has arrived (11 R226, 12 R255). -/
def Issuer.restored (b : Issuer) (s : State) : Issuer := { b with base := s.homeIx, know := [], need := [] }

/-- A wave of a restored group: placed, its registers written anew, and its acquire at `.pkg`; of `$tenant` the context is the one that it is in, BSET
stays (01 R25; log 67). The line that holds its instruction tells 02 R38 where a wait is to end. -/
def State.putWave (s : State) (gid : Nat) (g : Group) (p : Plan) (x : Nat × Wave) : State :=
  let (qtr, slot) := (p.slots[x.2.wig]?).getD (0, 0)
  let share := g.kprog.getLsbD 12 && !(s.reg (.ctxw g.ctx 1)).getLsbD 1
  let bits := x.2.kprog &&& ~~~(0x1000 : Word)
  let now := s.cycle p.core
  let v : Wave := { x.2 with
    cond := match x.2.cond with | .parked .. => .running | c => c
    group := gid, core := p.core, qtr, slot, kprog := if share then bits ||| 0x1000 else bits, admitted := now, lastStart := now
    tenant := (s.tenantOf g.ctx &&& 0xFFFFF) ||| (x.2.tenant &&& 0x700000), bset := p.bset
    nameBase := (s.quarter (p.core * 4 + qtr)).nextName, names := [], busyUntil := 0, waitUntil := none
    strict := (s.reg (.ctxw g.ctx 1)).getLsbD 0, ageLimit := max 16 (s.regF (.ctxw g.ctx 1) 31 16) }
  let t := s.addWave x.1 v
  let v := match nextLine t v with | some l => { v with line := lineWord l } | none => v
  (t.acquire x.1 v .pkg).updQuarter v.quarterKey fun q => { q with wb := q.wb ++ v.restoredWb x.1 }

/-- Admits a saved group and rebuilds it: window, barrier entries, matrix state, copies, waves (R298). -/
def State.putGroup (s : State) (gid : Nat) (img : GImage) (p : Plan) : State :=
  let anew := fun (r : MRec) => { r with by_ := r.by_.restored s }
  let g : Group := { img.group with core := p.core, bset := p.bset, regBanks := p.regBanks, b0 := p.b0, accBanks := p.accBanks,
                                    admitted := s.nextId, queue := img.group.queue.map anew }
  let s : State := { s.fresh.setGroup gid g with images := Tab.erase s.images gid, claims := s.claims.filter fun c => c.owner != .image gid, draw := s.draw + 2 }
  let back := fun (c : Copy) => { c with state := if c.state = .parked then .running else c.state, by_ := c.by_.restored s }
  let bars := fun (c : CoreSt) => img.entries.foldl (fun b (k, e) => Tab.set b k { e with group := gid }) c.barriers
  let s := s.updCore p.core fun c => { c with barriers := bars c, copies := c.copies ++ img.copies.map back }
  let move := fun (k : Coll) => match k.cmd with
    | some (_, id) => if img.copies.any fun c => c.id == id then { k with cmd := some (p.core, id) } else k
    | none => k
  let s : State := { s with colls := s.colls.map move }
  (((img.waves.foldl (fun s x => s.putWave gid g p x) s).shrinkBanks gid).noteUsed p.core).noteQueue p.core

/-- Images of the groups saved with one (18 R318), in order of rank. -/
def State.imagesWith (s : State) (gid : Nat) : List (Nat × GImage) :=
  match Tab.find s.images gid with
  | none => []
  | some img =>
    match img.group.gang, img.gang with
    | some _, some g => g.groups.filterMap fun k => (Tab.find s.images k).map fun i => (k, i)
    | _, _ => [(gid, img)]

/-- Gang entries in use in a cluster (18 R319). -/
def State.gangsIn (s : State) (cluster : Nat) : Nat :=
  (s.gangs.filter fun (_, g) => g.groups.any fun k => match Tab.find s.groups k with | some x => clusterOf x.core == cluster | none => false).length

/-- Plans for the groups of some images at a place, each by its rank; a gang needs a free gang entry (18 R315). -/
def State.planAll (s : State) (core : Nat) (imgs : List (Nat × GImage)) : Option (List (Nat × GImage × Plan)) :=
  let gang := imgs.any fun (_, i) => i.group.gangs
  let size := match imgs with | (_, i) :: _ => i.group.gsize | [] => 1
  if imgs.isEmpty || (gang && (decide (8 ≤ s.gangsIn (clusterOf core)) || decide (8 < core % 8 + size))) then none
  else imgs.mapM fun (k, i) => (s.planImage (core + (if gang then i.group.rank else 0)) i).map fun p => (k, i, p)

/-- Restores groups that were saved together. -/
def State.restoreAll (s : State) (ps : List (Nat × GImage × Plan)) : State :=
  let s := match ps with
    | (_, i, _) :: _ => (match i.group.gang, i.gang with | some k, some g => { s with gangs := Tab.set s.gangs k g } | _, _ => s)
    | [] => s
  ps.foldl (fun s x => s.putGroup x.1 x.2.1 x.2.2) s

/-! ### The end of a group (12 R254, 13 R263) -/

/-- Takes a group out of its grid and its gang. -/
def State.forgetGroup (s : State) (gid : Nat) (g : Group) : State :=
  let s := match g.grid with | some k => s.updGrid k fun r => { r with groups := r.groups.filter fun n => n != gid } | none => s
  match g.gang with
  | some k =>
    let live := match Tab.find s.gangs k with
      | some e => e.groups.any fun n => n != gid && ((Tab.find s.groups n).isSome || (Tab.find s.images n).isSome)
      | none => true
    if live then s else { s with gangs := Tab.erase s.gangs k }
  | none => s

/-- The group ends: entries, window, banks and weight buffer are free. -/
def State.endGroup (s : State) (gid : Nat) (g : Group) : State :=
  let ks := ((s.core g.core).barriers.filter fun (_, e) => e.live && e.group == gid).map Prod.fst
  let t := ks.foldl (fun s k => s.freeEntry g.core k) s
  let t := ({ t with groups := Tab.erase t.groups gid } : State).giveBanks g.core gid g.regBanks
  ((t.forgetGroup gid g).noteUsed g.core).noteQueue g.core

/-- A copy that only another copy of its group could free: blocked on FREED, or holding its signal because FILLED is behind it (R254). -/
def State.stuckCopy (s : State) (core : Nat) (c : Copy) : Bool :=
  match c.state with
  | .blocked => !s.slotFree core c
  | .holding => decide (s.filled core c < c.seq)
  | _ => false

/-- No wave is left and every command has left flight; copies that only each other could free are abandoned without a record (R254). -/
def execGroupEnd (group : Nat) (s : State) : Out :=
  match Tab.find s.groups group with
  | none => .fault .notEnabled
  | some g =>
    let mine := (s.core g.core).copies.filter fun c => c.by_.group == group
    let stuck := mine.all (s.stuckCopy g.core)
    let t := mine.foldl (fun s c => s.abandonCopy g.core c 0x32 0 false) s
    match Tab.find t.groups group with
    | none => .fault .notEnabled
    | some g' =>
      let more := s.waves.any fun (_, w) => w.group == group
      when (!more && stuck && (!mine.isEmpty || g'.queue.isEmpty)) (if g'.queue.isEmpty then t.endGroup group g' else t)

/-- The quarter has copied a slice out of a group's banks; with the last such copy the banks that wait for it are released (09 R167). -/
def execSliceCopyComplete (core q k : Nat) (s : State) : Out :=
  match (s.quarter (core * 4 + q)).sliceCopies[k]? with
  | none => .fault .notEnabled
  | some (_, g, _) =>
    let t := s.updQuarter (core * 4 + q) fun x => { x with sliceCopies := x.sliceCopies.eraseIdx k }
    let busy := (List.range 4).any fun j => (t.quarter (core * 4 + j)).sliceCopies.any fun x => x.2.1 == g
    when (decide (q < 4)) (if busy then t else t.updCore core fun c => { c with held := c.held.filter fun h => h.1 != g })

/-! ### Ending waves and contexts (06 R148, 21 R378) -/

/-- Ends some waves as if their live lanes had executed `EXIT`. -/
def State.endWaves (s : State) (ids : List Nat) : State :=
  ids.foldl (fun s id => match Tab.find s.waves id with | some w => s.endWave id w | none => s) s

/-- The child status of a join entry is known, with the place of the home order that the child's writes precede (14 R306, 11 R227). -/
def State.reportJoin (s : State) (ctx : Nat) (ticket : Option Nat) (status : Nat) : State :=
  match ticket with
  | none => s
  | some j => s.updCtx ctx fun c => { c with joins := Tab.upd c.joins j fun e => { e with done := true, status, base := s.homeIx } }

/-- Pending launch records of a context leave the pools and rings, each with a status for its joiner. -/
def State.dropRecords (s : State) (ctx status : Nat) : State :=
  (List.range 4).foldl (fun s d =>
    let mine := ((s.die d).pool ++ (s.die d).overflow).filter fun r => r.ctx == ctx
    let t := mine.foldl (fun s r => s.reportJoin ctx r.ticket status) s
    if mine.isEmpty then t else t.keepRecords d fun r => r.ctx != ctx) s

/-- End context: every wave, saved group and grid of the context ends; each grid completes with status 3. -/
def State.endContext (s : State) (ctx : Nat) : State :=
  let ws := (s.waves.filter fun (_, w) => s.ctxOf w == ctx).map Prod.fst
  let t := s.endWaves ws
  let saved := t.images.filter fun (_, i) => i.group.ctx == ctx
  let t : State := saved.foldl (fun s (k, i) => ({ s with images := Tab.erase s.images k } : State).forgetGroup k i.group) t
  let grids := t.grids.map fun (k, g) => (k, if g.ctx = ctx then { g with ended := true, worst := 3 } else g)
  ({ t with grids } : State).dropRecords ctx 3

/-! ### Losing a core (18 R322) -/

/-- A load or an atomic in flight to a lost window: zero and a loss, or cause 0x22 in a strict context. -/
def State.strictLoss (s : State) (id : Nat) (w : Wave) (l : Nat) (a : Nat) (m : Mask) : State :=
  let at' := match w.run with | some p => p | none => w.pc
  deliver s id { w with gates := [], scoreboard := [] } { code := 0x22, lane := some l, mask := m, addr := a, rpc := at', ipc := at' }

def State.loseLoads (s : State) (core : Nat) (gone : List Nat) : State :=
  let hit := fun (a : LaneAcc) => match a.place with | .scr g => gone.contains g | .glob => false
  (s.core core).loads.foldl (fun s r =>
    let bad := r.acc.filter hit
    match bad, Tab.find s.waves r.wave with
    | [], _ => s
    | _, none => s
    | a :: _, some w =>
      if w.strict then
        (s.updCore core fun c => { c with loads := c.loads.filter fun x => x.id != r.id }).strictLoss r.wave w a.lane a.va
          (maskOf fun l => bad.any fun b => b.lane == l)
      else
        let zero := fun (d : Nat × DWord × DWord × Bool) => if bad.any fun b => b.lane == d.1 then (d.1, 0, 0, false) else d
        let fix := fun (x : LoadRec) => if x.id = r.id then { x with data := x.data.map zero, clean := false } else x
        (s.updCore core fun c => { c with loads := c.loads.map fix }).addLoss (s.ctxOf w) bad.length) s

def State.loseAtoms (s : State) (core : Nat) (gone : List Nat) : State :=
  (s.core core).atoms.foldl (fun s r =>
    match r.place with
    | .glob => s
    | .scr g =>
      if !gone.contains g then s
      else
        let drop := fun (q : Release) => { q with need := q.need.filter fun n => n != r.id }
        let t := s.updCore core fun c => { c with atoms := c.atoms.filter (fun x => x.id != r.id), releases := c.releases.map drop }
        match Tab.find t.waves r.wave with
        | some w =>
          if w.strict then t.strictLoss r.wave w ((r.lanes.head?.map Prod.fst).getD 0) r.addr (maskOf fun l => r.lanes.any fun x => x.1 == l)
          else (t.atomReturn r (r.lanes.map fun x => (x.1, 0)) []).addLoss r.ctx 1
        | none => t) s

def State.loseStores (s : State) (core : Nat) (gone : List Nat) : State :=
  let hit := fun (p : PWrite) => match p.place with | .scr g => gone.contains g | .glob => false
  let lost := (s.core core).pend.filter hit
  let ids := lost.map PWrite.id
  let t := lost.foldl (fun s p => s.addLoss p.ctx 1) s
  if lost.isEmpty then t
  else t.updCore core fun c => { c with
    pend := c.pend.filter (fun p => !hit p), releases := c.releases.map fun r => { r with need := r.need.filter fun n => !ids.contains n } }

/-- A core is lost: its groups with all that they hold, the gangs that touch it, what was on its way to it; the report goes to root. -/
def State.loseCore (s : State) (core : Nat) : State :=
  let mine := s.groups.filter fun (_, g) => g.core == core
  let gone := mine.map Prod.fst
  let gangs := distinct (mine.filterMap fun (_, g) => g.gang)
  let mates := gangs.flatMap fun k => match Tab.find s.gangs k with | some g => g.groups.filter fun n => !gone.contains n | none => []
  let hurt := distinct ((s.groups.filter fun (k, _) => gone.contains k || mates.contains k).filterMap fun (_, g) => g.grid)
  let t := s.cores.foldl (fun s (k, _) => if k = core then s else ((s.loseLoads k gone).loseAtoms k gone).loseStores k gone) s
  let dead := (t.waves.filter fun (_, w) => gone.contains w.group).map Prod.fst
  let waves := t.waves.filter fun (_, w) => !gone.contains w.group
  let starts := t.starts.filter fun k => !dead.contains k
  let saveArea := t.saveArea.filter fun x => !dead.contains x.1
  let t : State := { t with waves, starts, saveArea, groups := t.groups.filter fun (k, _) => !gone.contains k }
  let t := mine.foldl (fun s (k, g) => s.forgetGroup k g) t
  let t : State := { t with gangs := t.gangs.filter fun (k, _) => !gangs.contains k }
  let t := t.endWaves ((t.waves.filter fun (_, w) => mates.contains w.group).map Prod.fst)
  let t := hurt.foldl (fun s k => s.updGrid k fun g => { g with worst := 3 }) t
  let t := (List.range 4).foldl (fun s q => s.setQuarter (core * 4 + q) {}) t
  let t := t.updCore core fun c => { phase := c.phase, setOwner := c.setOwner, lost := true }
  ((t.noteUsed core).bumpDie (dieOf core) .coreLost).sendRec (memReport t 0 5 (dieOf core) (core % 64) none 0)

def execCoreUnresponsive (core : Nat) (s : State) : Out := when (decide (core < 256) && !(s.core core).lost) (s.loseCore core)
def execCoreLogicError (core : Nat) (s : State) : Out := when (decide (core < 256) && !(s.core core).lost) (s.loseCore core)

/-- A Landing core stops for good: its writes that have not arrived are discarded (21 R398, R399). -/
def State.stopL (s : State) (lc : Nat) : State :=
  let t := s.updLcore lc fun l => { l with fenced := true, gate := none }
  let t := t.updCore (landingCore lc) fun c => { c with pend := [], releases := [], atoms := [] }
  if lc < 8 then t.setRegF .supst (7 + lc) (7 + lc) 1 else t

/-- A die is fenced whole: every core lost, its Landing stopped, its memory unbacked, DIEUP clear (24 R419). -/
def State.fenceDie (s : State) (die : Nat) : State :=
  let t := (List.range 64).foldl (fun s i => if (s.core (die * 64 + i)).lost then s else s.loseCore (die * 64 + i)) s
  let t := (List.range 8).foldl (fun s i => if (s.lcore (die * 8 + i)).fenced then s else s.stopL (die * 8 + i)) t
  let t := (t.updDie die fun d => { d with fenced := true, up := false }).setRegF .pkgst0 (28 + die) (28 + die) 0
  t.sendRec (memReport t 0 6 die 0 none 0)

def execDieFence (die : Nat) (s : State) : Out :=
  when (decide (die < 4) && !(s.die die).fenced && (List.range 8).all fun i => (s.lcore (die * 8 + i)).fenced) (s.fenceDie die)

end Sys2Proof.Machine
end

