-- ==== Sys2Proof/Machine/Place.lean ====
section
/-! DEFINITION. The Ferryman: order of elements (18 R313, R314), the search for a place (R315), gangs that wait, migration (R316, R317), saved groups
(R318, 14 R298), rounds between virtual devices (21 R384), and the task gatherer's dispatch (14 R304). -/

namespace Sys2Proof.Machine

/-! ### The order of a grid's elements (R313) -/

/-- Even bits of a number packed, up to 8 of them. -/
def evenBits (m : Nat) : Nat := ((List.range 8).map fun i => m / 4 ^ i % 2 * 2 ^ i).sum

/-- The Hilbert curve's steps, s = 1, 2, 4 ... -/
def hilbert : Nat → Nat → Nat → Nat → Nat → Nat × Nat
  | 0, _, _, u, v => (u, v)
  | k + 1, s, t, u, v =>
    let rx := t / 2 % 2
    let ry := (t + rx) % 2
    let (u, v) := if ry = 0 then (let (u, v) := if rx = 1 then (s - 1 - u, s - 1 - v) else (u, v); (v, u)) else (u, v)
    hilbert k (2 * s) (t / 4) (u + s * rx) (v + s * ry)

def curve (c log m : Nat) : Nat × Nat :=
  let b := 2 ^ log
  match c with
  | 0 => (m % b, m / b)
  | 1 => (if m / b % 2 = 1 then b - 1 - m % b else m % b, m / b)
  | 2 => (evenBits m, evenBits (m / 2))
  | _ => hilbert log 1 m 0 0

def dimX (ferry : DWord) : Nat := fld ferry 15 0
def dimY (ferry : DWord) : Nat := fld ferry 31 16
def blkLog (ferry : DWord) : Nat := fld ferry 38 35

/-- Blocks of the grid, and the element at position `p` of the issue order, if there is one. -/
def blocksX (ferry : DWord) : Nat := (dimX ferry + 2 ^ blkLog ferry - 1) / 2 ^ blkLog ferry
def blocksY (ferry : DWord) : Nat := (dimY ferry + 2 ^ blkLog ferry - 1) / 2 ^ blkLog ferry
def positions (ferry : DWord) : Nat := blocksX ferry * blocksY ferry * 4 ^ blkLog ferry

def elementAt (ferry : DWord) (p : Nat) : Option Nat :=
  let b := 2 ^ blkLog ferry
  let k := p / (b * b)
  let (u, v) := curve (fld ferry 34 32) (blkLog ferry) (p % (b * b))
  let x := k % blocksX ferry * b + u
  let y := k / blocksX ferry * b + v
  if x < dimX ferry ∧ y < dimY ferry then some (y * dimX ferry + x) else none

/-- The next position at or after `p` that holds an element. -/
def seek (ferry : DWord) : Nat → Nat → Option (Nat × Nat)
  | 0, _ => none
  | n + 1, p => match elementAt ferry p with | some e => some (p, e) | none => seek ferry n (p + 1)

def Grid.next (g : Grid) : Option (Nat × Nat) := seek g.ferry (positions g.ferry - g.pos) g.pos

/-! ### What is placed -/

/-- One group to be placed: its rank, partition word and `$kprog`, and the barrier entries that a saved one keeps. -/
structure Part where
  rank : Nat
  part : Word
  kprog : Word
  entries : List Nat := []
  deriving DecidableEq, Repr

/-- Groups that are placed at once: a grid's element, what was saved together, a task wave. `grid` is spared by their requests (14 R293). -/
structure Item where
  owner : Owner
  ctx : Nat
  grid : Option Nat
  gang : Bool
  size : Nat
  parts : List Part
  last : Option Nat
  deriving DecidableEq, Repr

def Grid.item (grid : Nat) (g : Grid) : Item :=
  { owner := .grid grid, ctx := g.ctx, grid := some grid, gang := isGang g.ferry, size := gangSize g.ferry, last := g.lastCluster
    parts := (List.range (gangSize g.ferry)).map fun r => { rank := r, part := g.part, kprog := g.kprog } }

/-- What was saved with a group, as one thing to be placed (18 R318). -/
def State.savedItem (s : State) (image : Nat) : Option Item :=
  match s.imagesWith image with
  | [] => none
  | (k, i) :: rest =>
    some { owner := .image k, ctx := i.group.ctx, grid := i.group.grid, gang := i.group.gangs, size := if i.group.gangs then i.group.gsize else 1
           last := (i.group.grid.bind (Tab.find s.grids)).bind Grid.lastCluster
           parts := ((k, i) :: rest).map fun x => { rank := if i.group.gangs then x.2.group.rank else 0, part := x.2.group.part, kprog := x.2.group.kprog
                                                    entries := x.2.entries.map Prod.fst } }

/-! ### Candidates (R315) -/

/-- The dies of a context's hard partition, ascending. -/
def State.partDies (s : State) (ctx : Nat) : List Nat := (List.range 4).filter fun d => s.hpOf d == s.hpOf (ctx / 256)

/-- Clusters in the order of the search. -/
def State.clusterOrder (s : State) (ctx : Nat) (last : Option Nat) : List Nat :=
  let dies := s.partDies ctx
  let first := last.getD (8 * dies.headD 0)
  let ofDie := fun (d : Nat) => (List.range 8).map (8 * d + ·)
  first :: (ofDie (first / 8)).filter (· != first) ++ (dies.filter (· != first / 8)).flatMap ofDie

/-- A window that a waiting gang has reserved is closed to groups of equal or lower priority (R316). -/
def State.closed (s : State) (grid : Option Nat) (ctx core : Nat) : Bool :=
  s.grids.any fun (k, g) =>
    some k != grid && (match g.reserved with | some (c, n) => decide (c ≤ core ∧ core < c + n) && decide (s.prio ctx ≤ s.prio g.ctx) | none => false)

/-- How a core takes one group: in the room that it has after the evicted waves that fit, or (`made`) in room that was made for it (R315). -/
def State.planPart (s : State) (it : Item) (made : Bool) (core : Nat) (x : Part) : Option Plan :=
  if s.closed it.grid it.ctx core || s.claimed (some it.owner) core then none
  else (if made then s.planRoom core it.ctx x.part x.kprog else s.planGroup core it.ctx x.part x.kprog).filter fun p => s.entriesFit core p.bset x.entries

/-- A gang may enter a window: the cluster has a table entry, and the context may use that many cores. -/
def State.gangOpen (s : State) (core n ctx : Nat) : Bool :=
  let used := s.ctxCores ctx
  let fresh := ((List.range n).filter fun r => !used.contains (core + r)).length
  decide (s.gangsIn (clusterOf core) < 8) && decide (used.length + fresh ≤ s.coreLimit ctx)

/-- Every group of an item at once, on the cores of a place. -/
def State.planAt (s : State) (it : Item) (made : Bool) (core : Nat) : Option (List Plan) :=
  if it.gang && !s.gangOpen core it.size it.ctx then none else it.parts.mapM fun x => s.planPart it made (core + x.rank) x

/-- First cores of the places of an element in a cluster. -/
def placesIn (gang : Bool) (n cluster : Nat) : List Nat := if gang then (List.range (9 - n)).map (8 * cluster + ·) else (List.range 8).map (8 * cluster + ·)

/-- Places of an item, in order. -/
def State.placesOf (s : State) (it : Item) : List Nat := (s.clusterOrder it.ctx it.last).flatMap (placesIn it.gang it.size)

/-! ### Room that is made (R315, 08 R162, 14 R293) -/

def State.claimOf (s : State) (o : Owner) : Option Claim := s.claims.find? fun c => c.owner == o
def State.unclaim (s : State) (o : Owner) : State := { s with claims := s.claims.filter fun c => c.owner != o }
def State.claim (s : State) (it : Item) (core : Nat) (moves : List Nat := []) : State :=
  let t := s.unclaim it.owner
  { t with claims := t.claims ++ [{ owner := it.owner, core, size := it.size, moves }] }

/-- A candidate that admits the item once it has compacted: each core as it is or by compaction, which starts (08 R162). -/
def State.compactAt (s : State) (it : Item) (core : Nat) : Option State :=
  if it.gang && !s.gangOpen core it.size it.ctx then none
  else
    let one := fun (acc : Option (State × Bool)) (x : Part) =>
      acc.bind fun (t, any) =>
        let c := core + x.rank
        if (t.planPart it false c x).isSome then some (t, any)
        else if t.closed it.grid it.ctx c || t.claimed (some it.owner) c || t.anyFit c then none
        else (t.startCompaction c it.ctx x.part x.kprog).map fun u => (u, true)
    match it.parts.foldl one (some (s, false)) with
    | some (t, true) => some (t.claim it core)
    | _ => none

/-- What the first pass finds: a place with the plans of its cores, or a place that compacts first. -/
inductive Found
  | place (core : Nat) (plans : List Plan) | compact (t : State)

/-- The first pass: the first candidate that admits the item. -/
def State.firstPass (s : State) (it : Item) : Option Found :=
  (s.placesOf it).findSome? fun c => match s.planAt it false c with | some ps => some (.place c ps) | none => (s.compactAt it c).map .compact

def State.firstPlace (s : State) (it : Item) : Option (Nat × List Plan) :=
  match s.firstPass it with | some (.place c ps) => some (c, ps) | _ => none

/-- The second pass: the first candidate whose eviction requests succeed, which the item then holds; waves of the grid are spared (14 R293). -/
def State.secondPass (s : State) (it : Item) : Option State :=
  let cores := fun (c : Nat) => it.parts.map fun x => (c + x.rank, x)
  let take := fun (ids : List Nat) (c : Nat × Part) =>
    let met := fun (more : List Nat) => ((s.without (ids ++ more)).planPart it true c.1 c.2).isSome
    (takeUntil met [] (s.candidates c.1 (s.prio it.ctx) false none it.grid none)).map (ids ++ ·)
  let place := fun (c : Nat) =>
    if (it.gang && !s.gangOpen c it.size it.ctx) || (cores c).any (fun x => s.anyFit x.1) then none
    else ((cores c).foldl (fun acc k => acc.bind fun ids => take ids k) (some [])).map fun ids => (c, ids)
  match (s.placesOf it).findSome? place with
  | some (c, ids) => some ((s.markLeaving ids).claim it c)
  | none => none

/-! ### Migration (R317) -/

/-- A group that may be moved for a gang of a context. -/
def State.movable (s : State) (ctx : Nat) (g : Group) : Bool :=
  (s.reg (.ctxw g.ctx 1)).getLsbD 2 && decide (s.prio g.ctx ≤ s.prio ctx) && (!g.gangs || g.gsize == 1) &&
  (match g.movedAt with | some t => decide (t + s.minres g.ctx ≤ s.ref (dieOf g.core)) | none => true)

/-- Moves one group: a save followed at once by a restore on the first core of the cluster outside the window that admits it. -/
def State.moveGroup (s : State) (lo n gid : Nat) : Option State :=
  match s.takeGroup gid with
  | (_, none) => none
  | (t, some img) =>
    let cores := (List.range 8).map (8 * clusterOf lo + ·) |>.filter fun c => !decide (lo ≤ c ∧ c < lo + n)
    match cores.findSome? fun c => if t.closed img.group.grid img.group.ctx c then none else t.planImage c img with
    | none => none
    | some p =>
      let t := match img.group.gang, img.gang with | some k, some e => { t with gangs := Tab.set t.gangs k e } | _, _ => t
      some ((t.putGroup gid { img with group := { img.group with movedAt := some (s.ref (dieOf lo)) } } p).bumpDie (dieOf lo) .ferryMig)

/-- Takes movable groups of a window, one by one, until the gang fits, at most 8; with the state after the moves. A group that has no place outside is
left where it is. -/
def State.migrate (it : Item) (lo : Nat) : List Nat → List Nat → State → Option (List Nat × State)
  | left, moved, t =>
    if (t.planAt it true lo).isSome then some (moved, t)
    else
      match left with
      | [] => none
      | x :: rest =>
        if 8 ≤ moved.length then none
        else match t.moveGroup lo it.size x with
          | some u => State.migrate it lo rest (moved ++ [x]) u
          | none => State.migrate it lo rest moved t

/-- Groups that are no longer held at issue. -/
def State.unmarkSaving (s : State) (ids : List Nat) : State := ids.foldl (fun s n => s.updGroup n fun g => { g with saving := false }) s

/-- The first window that a migration opens: its groups are held at issue, and the gang claims it. -/
def State.tryMigrate (s : State) (it : Item) : Option State :=
  (s.placesOf it).findSome? fun lo =>
    if !(s.reg (.ferryctl (dieOf lo))).getLsbD 16 then none
    else
      let here := (s.groups.filter fun (_, x) => decide (lo ≤ x.core ∧ x.core < lo + it.size) && !x.saving && s.movable it.ctx x).map Prod.fst
      match State.migrate it lo here [] s with
      | some (k :: ks, _) => some ((s.markSaving (k :: ks)).claim it lo (k :: ks))
      | _ => none

/-! ### The search (R315, R316) -/

/-- One step of the search for an item: it is placed, the Ferryman makes room or gives up a place, or nothing is to be done. -/
inductive Seek
  | place (core : Nat) (plans : List Plan) (t : State) | next (t : State) | wait

/-- The wait of a grid's next element began (R316). -/
def State.noteWait (s : State) (grid : Option Nat) (ctx : Nat) : State :=
  match grid with
  | some k => s.updGrid k fun h => { h with waitSince := if h.waitSince = 0 then s.ref (ctx / 256) + 1 else h.waitSince }
  | none => s

/-- Room is still being made at a place. -/
def State.making (s : State) (c : Claim) : Bool :=
  let here := fun (k : Nat) => decide (c.core ≤ k ∧ k < c.core + c.size)
  (s.waves.any fun (_, w) => w.leaving && here w.core) || (s.groups.any fun (_, g) => g.moving.isSome && here g.core)

/-- A step at the place that the item has claimed: groups are moved once all have come to rest, or released if the plan fails (R317). -/
def State.seekClaim (s : State) (it : Item) (c : Claim) : Seek :=
  if c.moves ≠ [] then
    match State.migrate it c.core c.moves [] s with
    | none => .next ((s.unmarkSaving c.moves).unclaim it.owner)
    | some (_, t) =>
      if c.moves.all fun k => match Tab.find s.groups k with | some x => x.saving && s.mayStop k x | none => true then
        .next ((t.unmarkSaving c.moves).claim it c.core)
      else .wait
  else
    match s.planAt it true c.core with
    | some ps => .place c.core ps (s.unclaim it.owner)
    | none => if s.making c then .wait else .next (s.unclaim it.owner)

def State.seek (s : State) (it : Item) : Seek :=
  match s.claimOf it.owner with
  | some c => s.seekClaim it c
  | none =>
    match s.firstPass it with
    | some (.place c ps) => .place c ps s
    | some (.compact t) => .next (t.noteWait it.grid it.ctx)
    | none =>
      match s.secondPass it with
      | some t => .next (t.noteWait it.grid it.ctx)
      | none => match if it.gang then s.tryMigrate it else none with | some t => .next (t.noteWait it.grid it.ctx) | none => .wait

/-! ### Who is next (R315, 21 R384) -/

/-- A grid may have its next element admitted: dispatched, nothing of its queue before it has elements left, and no saved group of the context is to be
placed again, which comes first (20 R358). -/
def State.mayPlace (s : State) (grid : Nat) (g : Grid) : Bool :=
  decide (g.status = .running) && !g.ended && g.argSlot.isSome && g.next.isSome && !(s.images.any fun (_, i) => i.group.ctx == g.ctx) &&
  (match Tab.find s.ctxs g.ctx with | some c => !c.stopped | none => false) &&
  s.grids.all fun (k, h) => k == grid || h.ctx != g.ctx || h.queue != g.queue || decide (g.order < h.order) || h.ended || h.next.isNone ||
    decide (h.status = .done)

def State.admissible (s : State) (grid : Nat) (g : Grid) : Bool := s.mayPlace grid g && (s.firstPlace (g.item grid)).isSome

def State.weight (s : State) (v : Nat) : Nat := s.regF (.vdsched v) 7 0

/-- Devices, other than by weight 0, that have an admissible element. -/
def State.hungry (s : State) : List (Nat × VDev) :=
  s.vdevs.filter fun (v, d) => s.weight v != 0 && s.grids.any fun (k, g) => g.ctx == d.ctx && s.admissible k g

/-- The round is over: no weighted device with an admissible element has a share left. -/
def State.roundOver (s : State) : Bool := s.hungry.all fun (v, d) => decide (s.weight v ≤ d.round)

/-- Whether a grid's device and queue are next in the round. -/
def State.turnOf (s : State) (grid : Nat) (g : Grid) : Bool :=
  match Tab.find s.ctxs g.ctx with
  | none => false
  | some c =>
    let v := c.vdev
    let d := (Tab.find s.vdevs v).getD { ctx := 0, wpart := 0, rpart := 0, home := 0 }
    !(s.grids.any fun (k, h) => k != grid && h.ctx == g.ctx && decide (h.queue < g.queue) && s.admissible k h) &&
    (if s.weight v = 0 then s.hungry.isEmpty else decide (d.round < s.weight v) || s.roundOver)

/-- Counts an admission in the round. -/
def State.countRound (s : State) (ctx : Nat) : State :=
  match Tab.find s.ctxs ctx with
  | none => s
  | some c =>
    let ended := s.roundOver
    let one := fun (v : Nat) (d : VDev) =>
      let r := if ended then 0 else d.round
      { d with round := if v = c.vdev then r + 1 else r }
    { s with vdevs := s.vdevs.map fun (v, d) => (v, one v d) }

/-! ### Placing an element -/

/-- A group record for an element. -/
def elementGroup (grid : Nat) (g : Grid) (e rank : Nat) (gang : Option Nat) : Group :=
  { ctx := g.ctx, grid := some grid, core := 0, index := e * gangSize g.ferry + rank, gang, rank, gsize := gangSize g.ferry, gangs := isGang g.ferry
    part := g.part, kprog := g.kprog, bset := 0, regBanks := [], b0 := 0, accBanks := [], waves := [], entry := g.entry, nlines := g.nlines, task := none }

/-- Admits the groups of an element at once. -/
def State.placeAt (s : State) (grid : Nat) (g : Grid) (p e core : Nat) (plans : List Plan) : State :=
  let s := s.countRound g.ctx
  let gang := if isGang g.ferry then some s.nextId else none
  let s := if isGang g.ferry then s.fresh else s
  let add := fun (acc : State × List Nat) (x : Plan × Nat) =>
    let (t, k) := acc.1.admitWith x.1 (elementGroup grid g e x.2 gang) g.c0 g.gridW g.gseed
    (t, acc.2 ++ [k])
  let (t, ids) := plans.zipIdx.foldl add (s, [])
  let t := match gang with
    | some k => { t with gangs := Tab.set t.gangs k { grid, elem := e, groups := ids, nwaves := ids.length * wavesOf g.part } }
    | none => t
  t.updGrid grid fun h => { h with pos := p + 1, lastCluster := some (clusterOf core), waitSince := 0, reserved := none
                                   groups := h.groups ++ ids }

/-! ### The events -/

/-- A step of the search for a grid's next element. -/
def execPlaceElement (grid : Nat) (s : State) : Out :=
  match Tab.find s.grids grid with
  | none => .fault .notEnabled
  | some g =>
    if !s.mayPlace grid g then .fault .notEnabled
    else
      match s.seek (g.item grid), g.next with
      | .place c ps t, some (p, e) => when ((s.claimOf (.grid grid)).isSome || s.turnOf grid g) (t.placeAt grid g p e c ps)
      | .next t, _ => .next t
      | _, _ => .next (s.noteWait (some grid) g.ctx)

/-- A core admits the next element, a single group, where the search's first pass chooses it. -/
def execAdmitGroup (grid core : Nat) (s : State) : Out :=
  match Tab.find s.grids grid with
  | none => .fault .notEnabled
  | some g =>
    if !s.mayPlace grid g || isGang g.ferry || (s.claimOf (.grid grid)).isSome then .fault .notEnabled
    else
      match g.next, s.firstPlace (g.item grid) with
      | some (p, e), some (c, plans) => when (c == core && s.turnOf grid g) (s.placeAt grid g p e c plans)
      | _, _ => .fault .notEnabled

/-- The groups saved with one go back where the search places them (18 R318). -/
def State.restoreAt (s : State) (image : Nat) (it : Item) (core : Nat) (plans : List Plan) : State :=
  let t := s.restoreAll (((s.imagesWith image).zip plans).map fun (x, p) => (x.1, x.2, p))
  match it.grid with
  | some k => t.updGrid k fun h => { h with lastCluster := some (clusterOf core), waitSince := 0, reserved := if it.gang then none else h.reserved }
  | none => t

/-- A step of the search for a saved group, or its whole gang: `core` is where it is placed, or the first core of the place in which room is made. -/
def execGroupRestore (image core : Nat) (s : State) : Out :=
  match s.savedItem image with
  | none => .fault .notEnabled
  | some it =>
    let go := match Tab.find s.ctxs it.ctx with | some c => !c.stopped | none => true
    match s.seek it with
    | .place c ps t => when (go && c == core) (t.restoreAt image it c ps)
    | .next t => when (go && (((t.claimOf it.owner).or (s.claimOf it.owner)).map Claim.core == some core)) t
    | .wait => when (go && it.gang && (it.grid.bind (Tab.find s.grids)).map Grid.waitSince == some 0) (s.noteWait it.grid it.ctx)

/-! ### Windows for gangs that wait (R316) -/

/-- The state as if some waves of a core had been moved away: their slices and slots are free, and so is all else of a group that loses every wave. -/
def State.moved (s : State) (core : Nat) (ids : List Nat) : State :=
  let t := s.without ids
  let emptied := fun (k : Nat) => (ids.any fun id => match Tab.find s.waves id with | some w => w.group == k | none => false) &&
    !(s.waves.any fun (id, w) => w.group == k && w.evicted.isNone && !ids.contains id)
  { t with groups := t.groups.filter fun (k, g) => !(g.core == core && emptied k) }

/-- Slices and wave slots of some waves. -/
def State.sizeOf (s : State) (ids : List Nat) : List Nat :=
  [((ids.filterMap (Tab.find s.waves)).map fun (w : Wave) => 4 * w.declared * w.windows).sum, ids.length]

def lessOf (a b : Option (List Nat)) : Option (List Nat) :=
  match a, b with | some x, some y => if lexLe x y then some x else some y | some x, none => some x | none, y => y

/-- The least of the sizes of the sets of waves whose move lets a core take its group: `met` says which sets do. The waves come by groups and quarters, one
like another of its own. -/
def State.leastMoved (s : State) (met : List Nat → Bool) : List (List Nat) → List Nat → Option (List Nat)
  | [], ids => if met ids then some (s.sizeOf ids) else none
  | c :: t, ids => (List.range (c.length + 1)).foldl (fun best k => lessOf best (s.leastMoved met t (ids ++ c.take k))) none

/-- Slices and wave slots that must move from a core for one group of a gang (R316). -/
def State.coreCost (s : State) (it : Item) (core : Nat) (x : Part) : Option (List Nat) :=
  let ws := s.coreWaves core
  let classes := (distinct (ws.map fun (_, w) => 4 * w.group + w.qtr)).map fun k => (ws.filter fun (_, w) => 4 * w.group + w.qtr == k).map Prod.fst
  s.leastMoved (fun ids => (((s.moved core ids).planRoom core it.ctx x.part x.kprog).filter fun p => s.entriesFit core p.bset x.entries).isSome) classes []

/-- Slices and wave slots that must move from a window; none where no moves open it. -/
def State.windowCost (s : State) (it : Item) (c : Nat) : Option (List Nat) :=
  if !s.gangOpen c it.size it.ctx then none
  else (it.parts.mapM fun x => s.coreCost it (c + x.rank) x).map fun l => [(l.map fun v => v.headD 0).sum, (l.map fun v => (v.drop 1).headD 0).sum]

/-- A gang that waits in a grid: one that was saved, else the next element. -/
def State.waitingGang (s : State) (grid : Nat) (g : Grid) : Option Item :=
  if !isGang g.ferry && g.parent.isNone then none
  else
    match s.images.find? fun (_, i) => i.group.ctx == g.ctx && i.group.grid == some grid && i.group.gangs with
    | some (k, _) => s.savedItem k
    | none => if isGang g.ferry && s.mayPlace grid g then some (g.item grid) else none

def execGangReserveWindow (grid : Nat) (s : State) : Out :=
  match Tab.find s.grids grid with
  | none => .fault .notEnabled
  | some g =>
    match s.waitingGang grid g with
    | none => .fault .notEnabled
    | some it =>
      let die := g.ctx / 256
      let due := max 1 (s.regF (.ferryctl die) 15 0) * 1024
      let order := (s.placesOf it).zipIdx.filterMap fun (c, i) => (s.windowCost it c).map fun v => (v ++ [i], c)
      match sortKeys order with
      | c :: _ =>
        when (g.waitSince != 0 && g.reserved.isNone && decide (g.waitSince + due ≤ s.ref die + 1))
          ((s.updGrid grid fun h => { h with reserved := some (c, it.size) }).bumpDie (dieOf c) .gangRsv)
      | [] => .fault .notEnabled

/-! ### Task dispatch (14 R304) -/

/-- A ring entry: position, entry PC, offset, id, V. -/
structure Task where
  pos : Nat
  pc : Nat
  off : Nat
  id : Nat
  v : Bool
  deriving DecidableEq, Repr

/-- Entries from HEAD to TAIL − 1. -/
def State.tasks (s : State) (d : BitVec 512) : List Task :=
  (List.range (min (tqCap d) (tqUsed d))).map fun i =>
    let pos := (tqHead d + i) % 2 ^ 32
    let x : BitVec 128 := BitVec.ofNat 128 (leNat (s.homeBytes (tqRing d + 16 * (pos % tqCap d)) 16))
    { pos, pc := fld x 56 0, off := fld x 95 64, id := fld x 126 96, v := x.getLsbD 127 }

/-- The tasks that the gatherer collects: the oldest waiting one and those with its entry, up to 32. -/
def collect (ts : List Task) : List Task :=
  match ts.filter Task.v with
  | [] => []
  | t :: rest => t :: (rest.filter fun u => u.pc == t.pc).take 31

/-- Header fields of a kernel (21 R382): KPROG, NLINES, ENTRY, PART. -/
def hdrKprog (h : BitVec 512) : Word := BitVec.ofNat 32 (fld h 45 32)
def hdrLines (h : BitVec 512) : Nat := fld h 191 160
def hdrEntry (h : BitVec 512) : Nat := fld h 248 192
def hdrPart (h : BitVec 512) : Word := BitVec.ofNat 32 (fld h 287 256)

/-- A task wave's own state over a fresh wave: lanes, entry, `v2`, `v3`, `c1`, `$grid`, `$group`, seeds (01 R28, R32). -/
def taskWave (w : Wave) (q : Nat) (pool : Cap) (ts : List Task) : Wave :=
  let n := ts.length
  let live := maskOf fun l => decide (l < n)
  let at' := fun (l : Nat) => (ts[l]?).getD { pos := 0, pc := 0, off := 0, id := 0, v := false }
  let v2 := lanes fun l => if l < n then BitVec.ofNat 32 (at' l).off else 0
  let v3 := lanes fun l => if l < n then BitVec.ofNat 32 (at' l).id else 0
  let c1 := { bits := put128 pool.bits 62 57 (2 ^ pRD), tag := pool.tag : Cap }
  let reg := fun (k : Nat) => lanes fun l => if l < n then (c1.bits >>> (32 * k)).setWidth 32 else (0 : Word)
  let regs := (List.range 4).foldl (fun t k => Tab.put zeroReg t (4 + k) (reg k)) (Tab.put zeroReg (Tab.put zeroReg [] 2 v2) 3 v3)
  let tags := (List.range 4).foldl (fun (t : Tab Mask) k => Tab.put 0 t (4 + k) (if c1.tag then live else 0)) []
  let seed := ts.zipIdx.foldl (fun (t : Tab Word) x => Tab.set t x.2 (seedOf 0 x.1.id)) w.seed
  { w with live, exm := live, pc := BitVec.ofNat 57 (at' 0).pc, regs, tags, seed, groupW := 0, gangW := 0, gridW := BitVec.ofNat 32 q
           kprog := w.kprog ||| 0x2000 }

/-- Launches a task wave with the collected tasks. -/
def State.launchTasks (s : State) (ctx q : Nat) (d : BitVec 512) (ts : List Task) (hdr : BitVec 512) (p : Plan) : State :=
  let t := ts.foldl (fun s k =>
    (s.rootWrite ctx (tqRing d + 16 * (k.pos % tqCap d) + 12) (leBytes 4 k.id)).updCtx ctx fun c =>
      { c with taskTimes := Tab.erase c.taskTimes (16 * k.pos + q) }) s
  let lead := ((t.tasks d).takeWhile fun k => !k.v).length
  let t := t.rootWrite ctx (t.taskDesc ctx q + 52) (leBytes 4 ((tqHead d + lead) % 2 ^ 32))
  let id0 := match ts with | k :: _ => k.id | [] => 0
  let g : Group := {
    ctx, grid := none, core := 0, index := 0, gang := none, rank := 0, gsize := 1, gangs := false, part := hdrPart hdr, kprog := hdrKprog hdr, bset := 0
    regBanks := [], b0 := 0, accBanks := [], waves := [], entry := hdrEntry hdr, nlines := hdrLines hdr, task := some (q, BitVec.ofNat 32 id0, ts.length) }
  let (u, gid) := t.admitWith p g ⟨0, false⟩ 0 0
  u.updWave (gid + 1) fun w => taskWave w q (s.taskPool ctx q) ts

/-- The kernel header at KHDR, through the context's tables, and where it lies. -/
def State.taskHeader (s : State) (ctx : Nat) (d : BitVec 512) : Except TFault (Nat × BitVec 512) := do
  let pa ← walkAll s (ctx / 256) ctx (tqHeader d) .read .read .read
  .ok (pa, BitVec.ofNat 512 (leNat (s.homeBytes pa 64)))

/-- A task kernel declares `.waves 1` and `.roles 1` (R302). -/
def taskKernel (h : BitVec 512) : Bool := fld (hdrKprog h) 11 7 == 0 && fld (hdrKprog h) 6 5 == 0

/-- The group that a queue's collected tasks form, as the Ferryman places it. -/
def taskItem (ctx q : Nat) (h : BitVec 512) : Item :=
  { owner := .tasks ctx q, ctx, grid := none, gang := false, size := 1, last := none, parts := [{ rank := 0, part := hdrPart h, kprog := hdrKprog h }] }

/-- A dispatch of queue q: `due` says when the collected tasks go. A queue whose kernel declares more than one wave or role dispatches nothing (log 39). -/
def taskGo (ctx q : Nat) (s : State) (due : BitVec 512 → List Task → Bool) : Out :=
  let d := s.taskQueue ctx q
  let ts := collect (s.tasks d)
  let ready := match Tab.find s.ctxs ctx with | some c => !c.stopped | none => false
  let saved := s.images.any fun (_, i) => i.group.ctx == ctx
  if !(decide (q < 16) && ready && !saved && tqValid d && !ts.isEmpty && due d ts) then .fault .notEnabled
  else
    match s.taskHeader ctx d with
    | .error _ => .fault .notEnabled
    | .ok (pa, hdr) =>
      if !taskKernel hdr then .fault .notEnabled
      else
        let used := [s.taskDesc ctx q, pa] ++ (s.tasks d).map fun t => tqRing d + 16 * (t.pos % tqCap d)
        match (s.prepRead (ctx / 256) ctx .normal used).seek (taskItem ctx q hdr) with
        | .place _ (p :: _) t => .next (t.launchTasks ctx q d ts hdr p)
        | .next t => .next t
        | _ => .fault .notEnabled

def execTaskDispatch (ctx q : Nat) (s : State) : Out := taskGo ctx q s fun _ ts => ts.length == 32

/-- The oldest waiting task has waited GWAIT cycles. -/
def execTaskGwaitExpire (ctx q : Nat) (s : State) : Out :=
  taskGo ctx q s fun d ts =>
    match ts, Tab.find s.ctxs ctx with
    | k :: _, some c => decide (Tab.get 0 c.taskTimes (16 * k.pos + q) + tqWait d ≤ s.ref (ctx / 256))
    | _, _ => false

end Sys2Proof.Machine
end

