-- ==== Sys2Proof/Machine/Cache.lean ====
section
/-! DEFINITION. The last-level cache's ways and their draining (19 R328, R329), format-range registers (R330-R335), shoot-downs (R343) and memory errors
(R344, 21 R375). -/

namespace Sys2Proof.Machine

/-! ### Ways (R328, R329) -/

/-- Slots of a die whose LLCWAY has been written, with its value. -/
def State.waySlots (s : State) (d : Nat) : List (Nat × DWord) :=
  s.lregs.filterMap fun (r, v) => match r with | .llcway e n => if e = d then some (n, v) else none | _ => none

/-- A write of WAYS: cleared ways leave HELD and drain unless another slot held them; set ways enter HELD where nothing drains them. -/
def State.writeWays (s : State) (d n new : Nat) : State :=
  let r := s.reg (.llcway d n)
  let old := fld r 15 0
  let held := fld r 31 16
  let others := fun (w : Nat) => (s.waySlots d).any fun (k, v) => k != n && (fld v 31 16).testBit w && (fld v 15 0).testBit w
  let busy := fun (w : Nat) => (s.die d).drains.any fun x => x.1 == w
  let bits := fun (p : Nat → Bool) => ((List.range 16).map fun w => if p w then 2 ^ w else 0).sum
  let gone := (List.range 16).filter fun w => old.testBit w && !new.testBit w
  let held' := bits fun w => if old.testBit w && !new.testBit w then false else held.testBit w || (new.testBit w && !old.testBit w && !busy w)
  let drain := gone.filter fun w => !others w && !(s.die d).drains.contains (w, n)
  (s.setReg (.llcway d n) (BitVec.ofNat 64 (new % 65536 + held' * 65536))).updDie d fun x => { x with drains := x.drains ++ drain.map fun w => (w, n) }

def execLlcwayWrite (die slot : Nat) (v : Word) (i : Inst) (s : State) : Out :=
  when (decide (die < 4 ∧ slot < 256) && s.mayWrite i (.llcway die slot)) (s.writeWays die slot (fld v 15 0))

/-- The lines that a drain must visit. -/
def Die.draining (d : Die) (way n : Nat) : List LlcLine := d.llc.filter fun l => l.way == way && l.slot == n

/-- The cleaner visits one line: written back where dirty, then invalid. -/
def execWayDrainLine (die way line : Nat) (s : State) : Out :=
  match (s.die die).llc.find? fun l => l.line == line with
  | none => .fault .notEnabled
  | some l =>
    let t := s.evictLine die l
    when (l.way == way && (s.die die).drains.contains (way, l.slot)) (if l.dirty then t.bumpDie die .llcDrain else t)

/-- A drain has visited every line; where it was the way's last, the slots that wait for the way hold it. -/
def execWayDrainEnd (die way : Nat) (s : State) : Out :=
  match (s.die die).drains.find? fun x => x.1 == way && ((s.die die).draining way x.2).isEmpty with
  | none => .fault .notEnabled
  | some x =>
    let t := s.updDie die fun d => { d with drains := d.drains.filter fun y => y != x }
    let take := fun (s : State) (e : Nat × DWord) =>
      if e.2.getLsbD way then s.setReg (.llcway die e.1) (e.2 ||| (1 <<< (16 + way))) else s
    .next (if (t.die die).drains.any fun y => y.1 == way then t else (t.waySlots die).foldl take t)

/-! ### Format ranges (R330, R332) -/

/-- Two ranges of bytes overlap. -/
def overlaps (a n b m : Nat) : Bool := decide (a < b + m ∧ b < a + n ∧ n ≠ 0 ∧ m ≠ 0)

/-- Ranges of memory of a die (24 R406): base and bytes. -/
def State.memRanges (s : State) (d : Nat) : List (Nat × Nat) := [(d * 2 ^ 40, hbmBytes), (2 ^ 48 + d * 2 ^ 40, (s.die d).ddrCap)]

/-- Whether a write that sets V is refused. -/
def State.frrRefused (s : State) (w : Win) : Bool :=
  match frrShape w.sfmt with
  | none => true
  | some (_, _, _, _, expand) =>
    let others := s.windows.filter fun x => !(x.die == w.die && x.n == w.n)
    (w.expand && !expand) ||
    !((s.memRanges w.die).any fun (b, n) => decide (b ≤ w.sbase ∧ w.sbase + w.storedSize ≤ b + n)) ||
    (others.any fun x => overlaps w.sbase w.storedSize x.sbase x.storedSize || overlaps w.pbase w.size x.pbase x.size) ||
    ((List.range 4).any fun d => (s.memRanges d).any fun (b, n) => overlaps w.pbase w.size b n)

/-- A write of FRRC that sets V. -/
def execFrrValidate (die n : Nat) (v : DWord) (i : Inst) (s : State) : Out :=
  let r : LReg := .frrc die n
  when (decide (die < 4 ∧ n < 64) && s.mayWrite i r && v.getLsbD 63)
    (if (s.reg r).getLsbD 63 then s
     else
       let t := s.writeReg r (v &&& 0x7FFF_FFFF_FFFF_FFFF)
       if t.frrRefused (t.frr die n) then t.setRegF r 62 62 1 else (t.setRegF r 63 63 1).setRegF r 62 62 0)

/-- A write of FRRC that clears V: the window's lines leave the cache first. -/
def execFrrInvalidate (die n : Nat) (v : DWord) (i : Inst) (s : State) : Out :=
  let r : LReg := .frrc die n
  let w := s.frr die n
  let lines := (s.die die).llc.filter fun l => w.covers (l.line * 128)
  when (decide (die < 4 ∧ n < 64) && s.mayWrite i r && (s.reg r).getLsbD 63 && !v.getLsbD 63)
    ((lines.foldl (fun s l => s.evictLine die l) s).writeReg r v)

/-- A presented line that no cache line holds is decoded. -/
def execFrrLineFill (die line : Nat) (s : State) : Out :=
  match s.winAt (line * 128) with
  | some w => when (w.die == die && !((s.die die).llc.any fun l => l.line == line)) (s.fillLine w line)
  | none => .fault .notEnabled

/-- A dirty presented line leaves the cache. -/
def execFrrLineWriteback (die line : Nat) (s : State) : Out :=
  match (s.die die).llc.find? fun l => l.line == line, s.winAt (line * 128) with
  | some l, some w => when (w.die == die && l.dirty) (s.evictLine die l)
  | _, _ => .fault .notEnabled

/-! ### Shoot-down (R343) -/

/-- The holder who owns a stage of a context (R337, 21 R370). -/
def State.stageOwner (s : State) (ctx stage : Nat) : Inst := instOf (s.tenantOf ctx) (4 - stage)

/-- What a shoot-down covers: every translation of the context at the stage, or those of some frames. -/
def TlbEntry.covered (t : TlbEntry) (ctx stage first pages : Nat) : Bool :=
  let n := 2 ^ pageLog (fld t.leaf 11 8) / 4096
  let lo := t.frame / n * n
  t.ctx == ctx && t.stage == stage && (pages == 0 || decide (lo < first + pages ∧ first < lo + n))

/-- Cores of a context's partition. -/
def State.partCores (s : State) (ctx : Nat) : List Nat := (s.partDies ctx).flatMap fun d => (List.range 64).map (64 * d + ·)

/-- A core drops the covered translations and its reused global loads. -/
def State.shootCore (s : State) (ctx stage first pages k : Nat) : State :=
  let drop := fun (c : CoreSt) => { c with tlb := c.tlb.filter fun t => !t.covered ctx stage first pages }
  let t := if (s.core k).tlb.isEmpty then s else s.updCore k drop
  t.dropLoads k fun pl _ => pl == .glob

/-- Every core of the partition does so. -/
def State.shoot (s : State) (ctx stage first pages : Nat) : State :=
  (s.partCores ctx).foldl (fun s k => s.shootCore ctx stage first pages k) s

/-- A shoot-down in progress reaches a core at a moment of its own, between GO and DONE (R343). -/
def State.shootTick (s : State) (k : Nat) : State :=
  (List.range 4).foldl (fun s d =>
    match (s.die d).shoot with
    | none => s
    | some x =>
      if (s.partCores x.ctx).contains k && (Tab.find x.dropped k).isNone && Config.choice s.draw k then
        ((s.shootCore x.ctx x.stage x.first x.pages k).updDie d fun y => { y with shoot := some { x with dropped := Tab.set x.dropped k s.nextId } }).drawn
      else s) s

/-- A write of SHOOTB with GO, by the owner of the stage: from here on each core drops what is covered, and what it has cached may be used until then. -/
def execShootGo (die : Nat) (v : DWord) (i : Inst) (s : State) : Out :=
  let r : LReg := .shootb die
  let ctx := die * 256 + fld v 25 18
  let stage := fld v 17 16
  let t := s.writeReg r v
  when (decide (die < 4 ∧ stage ≠ 0) && v.getLsbD 63 && decide (i = s.stageOwner ctx stage))
    (if (s.reg r).getLsbD 62 then t
     else (t.setRegF r 62 62 1).updDie die fun d => { d with shoot := some { ctx, stage, first := s.regF (.shoota die) 56 12, pages := fld v 15 0 } })

/-- Accesses of a context issued before a model id that have not performed. -/
def State.oldAccess (s : State) (core ctx b : Nat) : Bool :=
  let c := s.core core
  c.pend.any (fun w => w.ctx == ctx && decide (w.id < b)) || c.atoms.any (fun a => a.ctx == ctx && decide (a.id < b)) ||
  c.loads.any fun l => decide (l.id < b) && (match Tab.find s.waves l.wave with | some w => s.ctxOf w == ctx | none => false)

/-- Every core has dropped what is covered, and every access that used it has performed; a core that has not dropped it yet does so now. -/
def execShootDone (die : Nat) (s : State) : Out :=
  match (s.die die).shoot with
  | none => .fault .notEnabled
  | some x =>
    let r : LReg := .shootb die
    let late := (s.partCores x.ctx).filter fun k => (Tab.find x.dropped k).isNone
    let t := late.foldl (fun s k => s.shootCore x.ctx x.stage x.first x.pages k) s
    when ((s.partCores x.ctx).all fun k => !s.oldAccess k x.ctx (Tab.get s.nextId x.dropped k))
      ((((t.updDie die fun d => { d with shoot := none }).setRegF r 62 62 0).setRegF r 61 61 1).bumpDie die .shootCnt)

/-! ### Memory errors (R344) -/

def execMemCorrected (die : Nat) (s : State) : Out := when (decide (die < 4)) (s.bumpDie die .memCorr)

/-- A poisoned granule is counted and reported. -/
def State.poisonError (s : State) (granule src die : Nat) (slot : Option Nat) : State :=
  let t := s.bumpDie die .memUnc
  let ctx := slot.map fun c => die * 256 + c % 256
  let tenant := match ctx with | some c => t.tenantOf c | none => 0
  t.sendRec (memReport t (granule * 32) src die 0 slot tenant)

/-- An uncorrectable error in memory poisons its granule there; a line that the cache holds is served as it is. -/
def execMemUncorrectable (granule : Nat) (slot : Option Nat) (s : State) : Out :=
  let pa := granule * 32
  when (s.memBacked pa) ((s.poison [pa]).poisonError granule (if pa < 2 ^ 42 then 0 else 1) (s.homeDie pa) slot)

/-- An error in a cached line: of a dirty line the granule is poisoned; a clean line is fetched again. -/
def execLlcSoftError (granule : Nat) (s : State) : Out :=
  let line := granule / 4
  match s.cached line with
  | none => .fault .notEnabled
  | some l =>
    .next (if l.dirty then ({ s with lpoison := Tab.put false s.lpoison granule true } : State).poisonError granule 2 (s.homeDie (line * 128)) none
           else match s.winAt (line * 128) with | some w => s.fillLine w line | none => { s with lpoison := copyPoison line s.mpoison s.lpoison })

end Sys2Proof.Machine
end

