-- ==== Sys2Proof/Machine/Beats.lean ====
section
/-! DEFINITION. Progress beats: the instructions (20 R349-R352), the Tiller (R353, R354), the Quay (R355-R358), writes of loop state and capacities
(R357, R360), merging (R359, 25 R436), and saves for a waiting device (21 R391). -/

namespace Sys2Proof.Machine

/-! ### Instructions (R349-R352) -/

/-- A beat sets off to its context's slot. -/
def execBeat (w : W) (s : State) : Out :=
  withWave s fun id v =>
    if (lowest v.exm).isNone then done s id v
    else
      let beats := s.beats ++ [(id, s.ctxOf v, w.bits 79 64)]
      done { s with beats } id v

/-- Field of a Tiller word TL0-TL7. -/
def State.tl (s : State) (ctx i hi lo : Nat) : Nat := s.regF (.ctxw ctx (16 + i)) hi lo
def State.setTl (s : State) (ctx i hi lo v : Nat) : State := s.setRegF (.ctxw ctx (16 + i)) hi lo v

def execBtarget (w : W) (s : State) : Out :=
  withWave s fun id v =>
    match lowest v.exm with
    | none => done s id v
    | some l =>
      let ctx := s.ctxOf v
      let a := v.opnd32 w.a l
      if fld a 31 24 ≠ 0 ∨ s.tl ctx 2 61 61 = 1 then trapCode s id v 0x32
      else doneL (s.setTl ctx 0 23 0 (fld a 23 0)) id v (.btarget w) w

/-- What `BREAD` reads of a selector: the state that the last interval end left; FLAGS describe the latest evaluation too (22 R402). -/
def State.breadOf (s : State) (ctx sel : Nat) : Word :=
  if sel = 5 then BitVec.ofNat 32 (s.tl ctx 4 63 56) else
  match Tab.find s.ctxs ctx with | some c => (c.bread[sel]?).getD 0 | none => 0

def execBread (w : W) (s : State) : Out :=
  withWave s fun id v =>
    if (lowest v.exm).isNone then done s id v
    else writePlain s id v (.bread w) w v.exm fun _ => s.breadOf (s.ctxOf v) (w.bits 67 64)

/-- One beat reaches its slot; the beats of one wave arrive in program order (R347). -/
def execBeatArrive (ctx : Nat) (s : State) : Out :=
  let mine := s.beats.filter fun b => b.2.1 == ctx
  match mine[Config.pick s.draw mine.length % max 1 mine.length]? with
  | none => .fault .notEnabled
  | some (wave, _, _) =>
    match s.beats.find? fun b => b.1 == wave && b.2.1 == ctx with
    | none => .fault .notEnabled
    | some b =>
      let beats := s.beats.erase b
      .next ((({ s with beats } : State).setReg (.ctxw ctx 22) (s.reg (.ctxw ctx 22) + BitVec.ofNat 64 b.2.2)).drawn)

/-! ### Cores and regions that a context holds (R354) -/

def State.ownsSet (s : State) (core ctx : Nat) : Bool :=
  match s.setOf core ctx with | some n => s.reg (.bsmask core n) != 0 | none => false

def State.holdsCore (s : State) (core ctx : Nat) : Bool :=
  s.ownsSet core ctx && (s.core core).setOwner.all fun (_, c) => c == ctx || !s.ownsSet core c

/-- A whole clock region: every core of the cluster that is not lost. -/
def State.holdsRegion (s : State) (cluster ctx : Nat) : Bool :=
  let cores := ((List.range 8).map (8 * cluster + ·)).filter fun k => !(s.core k).lost
  !cores.isEmpty && cores.all fun k => s.holdsCore k ctx

def State.holdsAnyRegion (s : State) (ctx : Nat) : Bool := (List.range 32).any fun c => s.holdsRegion c ctx

/-! ### The walk (R354) -/

/-- Steps for each actuator of N and W, and the demand left. -/
def walk : List (Nat × Nat) → Nat → List Nat × Nat
  | [], rem => ([], rem)
  | (n, w) :: t, rem =>
    let k := if w = 0 ∨ n = 0 then 0 else min n (rem / w)
    let (ks, r) := walk t (rem - k * w)
    (k :: ks, r)

/-- N and W of the five actuators; actuator 4 only where a whole region is held. -/
def State.actuators (s : State) (ctx : Nat) : List (Nat × Nat) :=
  (List.range 5).map fun i => if i = 4 ∧ !s.holdsAnyRegion ctx then (0, 0) else (s.actN ctx i, s.actW ctx i)

def satAll (acts : List (Nat × Nat)) (ks : List Nat) (rem d : Nat) : Bool :=
  let on := (acts.zip ks).filter fun x => x.1.1 != 0 && x.1.2 != 0
  match (on.map fun x => x.1.2).min? with
  | none => decide (0 < d)
  | some w => on.all (fun x => x.2 == x.1.1) && decide (w ≤ rem)

/-! ### Merging (R359, 25 R436) -/

def clampI (x lo hi : Int) : Int := if x < lo then lo else if hi < x then hi else x

/-- Members of a merge group other than the context, and its own index. -/
def State.mergeMembers (s : State) (ctx : Nat) : List Nat := List.range (s.regF (.mgcfg ctx) 19 10 + 1)
def State.mergeIdx (s : State) (ctx : Nat) : Nat := s.regF (.mgcfg ctx) 9 0

/-- The merged count: the least of the latest counts, the context's own CUM standing for its own; it never decreases, and with STALE it stays where it
stands. -/
def State.mergedCount (s : State) (ctx : Nat) (c : Ctx) : Nat :=
  let one := fun (m : Nat) => if m = s.mergeIdx ctx then (s.reg (.ctxw ctx 22)).toNat else (Tab.get (0, 0) c.kept m).1
  if s.tl ctx 4 59 59 = 1 then c.mergedMax else max c.mergedMax (((s.mergeMembers ctx).map one).min?.getD 0)

/-- The merged count as it stands is not gone back on. -/
def State.holdMerged (s : State) (ctx : Nat) : State := s.updCtx ctx fun c => { c with mergedMax := s.mergedCount ctx c }

/-- A context joins a merge group: no member has published to it yet. -/
def State.joinMerge (s : State) (ctx : Nat) : State :=
  let now := s.ref (ctx / 256)
  (s.setTl ctx 4 59 59 0).updCtx ctx fun c => { c with mergedMax := 0, kept := (s.mergeMembers ctx).map fun m => (m, (0, now)) }

/-- A PEERTAB entry, and whether it names a peer that traffic may go to (25 R423, R424, R438). -/
def State.peer (s : State) (hp n : Nat) : DWord := s.reg (.peertab hp n)
/-- The port of a peer: scale-up 0-47, Ultra Ethernet 48-55. -/
def portOf (p : DWord) : Nat := if p.getLsbD 1 then 48 + fld p 7 2 else fld p 7 2
def portDie (port : Nat) : Nat := if port < 48 then port / 12 else (port - 48) / 2
def State.portOpen (s : State) (port : Nat) : Bool :=
  let f := s.reg (.fbound (portDie port))
  decide (port < 56) && (if port < 48 then f.getLsbD (port % 12) && (s.reg .pkgst1).getLsbD port
    else f.getLsbD (12 + (port - 48) % 2) && (s.reg .pkgst0).getLsbD (32 + (port - 48)))
def State.peerValid (s : State) (hp n : Nat) : Bool :=
  let p := s.peer hp n
  p.getLsbD 0 && (!p.getLsbD 1 || (s.reg (.ueep (fld p 7 2) (fld p 19 8) 2)).getLsbD 36)

/-- Sends through the port of a peer; where the port is closed the packet is lost end to end (25 R424, R439). -/
def State.send (s : State) (hp peer : Nat) (m : OutMsg) : State :=
  let port := portOf (s.peer hp peer)
  if s.portOpen port then { s with outbox := s.outbox ++ [m], replays := Tab.erase s.replays port } else s.bumpPort (portOf (s.peer hp peer)) .e2eDrop

/-- A beat event of the flags that rose (21 R377). -/
def State.beatEvent (s : State) (ctx : Nat) (shed floor stale : Bool) : State :=
  let b := fun (x : Bool) (n : Nat) => if x then 2 ^ n else 0
  let kgr : Nat := ((List.range 5).map fun i => s.regF (.ctxw ctx (24 + i)) 51 43 * 2 ^ (9 * i)).sum
  let tenant := s.tenantOf ctx
  s.sendRec { body := BitVec.ofNat 512 (ctx % 256 + ctx / 256 * 2 ^ 8 + b shed 10 + b floor 11 + b stale 12 + s.tl ctx 4 55 24 * 2 ^ 32 +
      s.tl ctx 4 23 0 * 2 ^ 64 + s.tl ctx 3 47 32 * 2 ^ 96 + kgr * 2 ^ 128 + tenant.toNat * 2 ^ 192 + 6 * 2 ^ 504)
              cls := 5, stage := none, tenant, toRoot := false, wave := none, waited := false }

/-- Members that have been silent for 8 periods (R436). -/
def State.staleMembers (s : State) (ctx : Nat) (c : Ctx) : Bool :=
  let per := max 1 (s.regF (.mgcfg ctx) 27 20) * 1024
  (s.mergeMembers ctx).any fun m => m != s.mergeIdx ctx && decide ((Tab.get (0, 0) c.kept m).2 + 8 * per ≤ s.ref (ctx / 256))

/-- A publication reaches a member of the group: a smaller one is ignored; STALE clears once every member has published. -/
def State.keepCount (s : State) (ctx midx cum : Nat) : State :=
  let now := s.ref (ctx / 256)
  let t := (s.updCtx ctx fun c => { c with kept := Tab.set c.kept midx (max cum (Tab.get (0, 0) c.kept midx).1, now) }).holdMerged ctx
  match Tab.find t.ctxs ctx with
  | some c => if t.staleMembers ctx c then t else t.setTl ctx 4 59 59 0
  | none => t

/-- The member publishes to every other member that its merge list names (R436, R437). -/
def State.publish (s : State) (ctx : Nat) : State :=
  let mgrp := s.tl ctx 5 15 0
  let hp := s.hpOf (ctx / 256)
  let cum := s.reg (.ctxw ctx 22)
  let one := fun (s : State) (m : Nat) =>
    let e := s.reg (.mglist ctx m)
    if m = s.mergeIdx ctx ∨ !e.getLsbD 23 then s
    else if e.getLsbD 22 then
      let to' := fld e 21 20 * 256 + fld e 19 12
      if s.tl to' 5 15 0 = mgrp then s.keepCount to' (s.mergeIdx ctx) cum.toNat else s
    else if s.peerValid hp (fld e 11 0) then s.send hp (fld e 11 0) (.beat (fld e 11 0) mgrp (s.mergeIdx ctx) cum)
    else s
  let now := s.ref (ctx / 256)
  if mgrp = 0 then s else ((s.mergeMembers ctx).foldl one s).updCtx ctx fun c => { c with pubAt := now }

def execMergePublish (ctx : Nat) (s : State) : Out :=
  match Tab.find s.ctxs ctx with
  | none => .fault .notEnabled
  | some c =>
    when (s.tl ctx 5 15 0 != 0 && decide (c.pubAt + max 1 (s.regF (.mgcfg ctx) 27 20) * 1024 ≤ s.ref (ctx / 256))) (s.publish ctx)

/-- A publication arrives from the network for the group's members on this package. -/
def execMergePubReceive (mgrp midx : Nat) (cum : DWord) (s : State) : Out :=
  let mine := s.ctxs.filter fun (k, _) => s.tl k 5 15 0 == mgrp && s.mergeIdx k != midx
  when (mgrp != 0 && !mine.isEmpty) (mine.foldl (fun s (k, _) => s.keepCount k midx cum.toNat) s)

def execMergeStale (ctx : Nat) (s : State) : Out :=
  match Tab.find s.ctxs ctx with
  | none => .fault .notEnabled
  | some c =>
    when (s.tl ctx 5 15 0 != 0 && s.staleMembers ctx c && s.tl ctx 4 59 59 == 0)
      (let t := (s.holdMerged ctx).setTl ctx 4 59 59 1
       t.beatEvent ctx false false true)

/-! ### Interval ends (R353) -/

/-- The values that `BREAD` reads until the next interval end, but for FLAGS (R352). -/
def State.breadList (s : State) (ctx : Nat) : List Word :=
  let u := (BitVec.ofNat 16 (s.tl ctx 3 63 48)).signExtend 32
  [BitVec.ofNat 32 (s.tl ctx 4 23 0), BitVec.ofNat 32 (s.tl ctx 0 23 0), BitVec.ofNat 32 (s.tl ctx 3 31 0), u, BitVec.ofNat 32 (s.tl ctx 3 47 32),
   BitVec.ofNat 32 (s.tl ctx 4 63 56), BitVec.ofNat 32 (s.tl ctx 4 55 24)] ++
  (List.range 5).map fun i => BitVec.ofNat 32 (s.regF (.ctxw ctx (24 + i)) 51 43)

/-- The loop's new S and u from an error, with whether the bound of S acted. -/
def loopStep (e si smax : Int) (kp ki : Nat) : Int × Int × Bool :=
  let sn := clampI (si + e) (-smax) smax
  (sn, clampI (Int.fdiv (kp * e + ki * sn) 4096) (-32768) 32767, sn != si + e)

def State.endInterval (s : State) (ctx : Nat) (c : Ctx) : State :=
  let mgrp := s.tl ctx 5 15 0
  let cnt := if mgrp = 0 then (s.reg (.ctxw ctx 22)).toNat else s.mergedCount ctx c
  let prev := (s.reg (.ctxw ctx 23)).toNat
  let m := min (cnt - prev) (2 ^ 24 - 1)
  let msat := decide (2 ^ 24 - 1 < cnt - prev)
  let t := s.tl ctx 0 23 0
  let dbase := s.tl ctx 2 15 0
  let on := s.tl ctx 2 60 60 == 1 && t != 0
  let si := (BitVec.ofNat 32 (s.tl ctx 3 31 0)).toInt
  let (sn, u, isat) := if on then loopStep ((t : Int) - m) si (s.tl ctx 1 62 32) (s.tl ctx 1 15 0) (s.tl ctx 1 31 16)
    else (si, (BitVec.ofNat 16 (s.tl ctx 3 63 48)).toInt, false)
  let d := if on then (clampI ((dbase : Int) + u) 0 (s.tl ctx 2 31 16)).toNat else dbase
  let acts := s.actuators ctx
  let (ks, rem) := walk acts d
  let b := fun (x : Bool) => if x then 1 else 0
  let s := s.setReg (.ctxw ctx 23) (BitVec.ofNat 64 (max prev cnt))
  let s := s.setReg (.ctxw ctx 10) (s.reg (.ctxw ctx 10) + BitVec.ofNat 64 (max prev cnt - prev))
  let s := (((s.setTl ctx 3 31 0 (sn % 2 ^ 32).toNat).setTl ctx 3 47 32 d).setTl ctx 3 63 48 (u % 65536).toNat).setTl ctx 4 23 0 m
  let s := (s.setTl ctx 4 55 24 (s.tl ctx 4 55 24 + 1)).setTl ctx 5 49 16 0
  let s := ((s.setTl ctx 4 57 57 (b (satAll acts ks rem d))).setTl ctx 4 60 60 (b isat)).setTl ctx 4 61 61 (b msat)
  let s := s.setTl ctx 4 56 56 (b ((s.reg .pkgst0).getLsbD 40))
  let s := ks.zipIdx.foldl (fun s (k, i) => s.setRegF (.ctxw ctx (24 + i)) 42 34 k) s
  let len := max 1 (s.tl ctx 0 55 32)
  let vals := s.breadList ctx
  let s := s.updCtx ctx fun c => { c with bread := vals, ilen := len, mergedMax := if mgrp = 0 then c.mergedMax else cnt }
  (s.bumpDie (ctx / 256) .tillIntv).publish ctx

/-- The interval of a context is over (R348). -/
def State.intervalDue (s : State) (ctx : Nat) : Bool :=
  match Tab.find s.ctxs ctx with | some c => decide (c.ilen * 1024 ≤ s.tl ctx 5 49 16) | none => false

def execIntervalEnd (ctx : Nat) (s : State) : Out :=
  match Tab.find s.ctxs ctx with
  | none => .fault .notEnabled
  | some c => when (s.intervalDue ctx) (s.endInterval ctx c)

/-! ### The Quay (R355, R356) -/

/-- A context's part in a grant: what it still wants, its weight, what it has. -/
structure Ask where
  ctx : Nat
  d : Nat
  w : Nat
  g : Nat
  deriving DecidableEq, Repr

/-- One step each in ascending slot order while any is left. -/
def oneEach : List Ask → Nat → List Ask × Nat
  | [], left => ([], left)
  | a :: t, left =>
    if left = 0 ∨ a.d = 0 then (let (r, n) := oneEach t left; (a :: r, n))
    else (let (r, n) := oneEach t (left - 1); ({ a with g := a.g + 1, d := a.d - 1 } :: r, n))

/-- `share` of R356, with a bound on its rounds. -/
def shareOut : Nat → List Ask → Nat → List Ask × Nat
  | 0, as, left => (as, left)
  | k + 1, as, left =>
    let tot : Nat := (as.map fun a => if a.d = 0 then 0 else a.w).sum
    if left = 0 ∨ as.all (fun a => a.d == 0) then (as, left)
    else
      let q := fun (a : Ask) => min a.d (left * a.w / tot)
      if as.all fun a => q a == 0 then (let (r, n) := oneEach as left; shareOut k r n)
      else shareOut k (as.map fun a => { a with g := a.g + q a, d := a.d - q a }) (left - (as.map q).sum)

/-- Class of a context; 3 acts as 2. -/
def State.classOf (s : State) (ctx : Nat) : Nat := min 2 (s.tl ctx 2 33 32)

/-- Steps of the walk of a context's floor, or of the lesser of its demand and its floor. -/
def State.floorSteps (s : State) (ctx i : Nat) (d : Nat) : Nat := ((walk (s.actuators ctx) d).1[i]?).getD 0
/-- What an actuator asks for: KREQ of the last walk, and nothing while it is disabled (R354). -/
def State.kreq (s : State) (ctx i : Nat) : Nat :=
  if s.actOn ctx i && (i != 4 || s.holdsAnyRegion ctx) then s.regF (.ctxw ctx (24 + i)) 42 34 else 0

/-- Live cores of a hard partition. -/
def State.hpCores (s : State) (hp : Nat) : List Nat := (List.range 256).filter fun c => s.hpOf (dieOf c) == hp && s.coreUp c

/-- A core of a hard partition is lost, or the package is in reduced service (R355). -/
def State.lacking (s : State) (hp : Nat) : Bool :=
  (s.reg .pkgst0).getLsbD 40 || (List.range 256).any fun c => s.hpOf (dieOf c) == hp && ((s.core c).lost || (s.die (dieOf c)).fenced)

/-- A capacity of QCAP; while something is lost, no more than what exists (R355). -/
def State.capacity (s : State) (hp i : Nat) : Nat :=
  let q := s.reg (.qcap hp)
  let n := (s.hpCores hp).length
  let (f, most) := match i with
    | 0 => (fld q 15 0, 128 * n)
    | 1 => (fld q 24 16, n)
    | 2 => (fld q 29 25, if n = 0 then 0 else 16)
    | _ => (fld q 37 30, if n = 0 then 0 else 255)
  if s.lacking hp then min f most else f

/-- Contexts of a hard partition, by home die and slot. -/
def State.hpCtxs (s : State) (hp : Nat) : List Nat := (s.ctxs.map Prod.fst).filter fun c => s.hpOf (c / 256) == hp

/-- Grants of class 0 floors in ascending order. -/
def floors : List (Nat × Nat) → Nat → List Nat × Nat
  | [], left => ([], left)
  | (_, f) :: t, left => let (r, n) := floors t (left - min f left); (min f left :: r, n)

/-- Grants of one actuator to some contexts, and the steps that floors asked (R356). -/
def State.grants (s : State) (ctxs : List Nat) (i cap : Nat) : List Nat × List Nat :=
  let fl := fun (c : Nat) => if s.classOf c = 0 then min (s.floorSteps c i (min (s.tl c 3 47 32) (s.tl c 2 59 44))) (s.kreq c i) else 0
  let fs := ctxs.map fl
  let (g0, left) := floors (ctxs.zip fs) cap
  let wt := fun (c : Nat) => s.tl c 2 43 36
  let pool := (ctxs.zip g0).map fun (c, g) =>
    let d := if s.classOf c = 0 ∨ s.classOf c = 1 then (if wt c = 0 then 0 else s.kreq c i - g) else 0
    { ctx := c, d, w := wt c, g : Ask }
  let (a1, left) := shareOut (left + 1) pool left
  let rest := a1.map fun a => { a with d := if s.classOf a.ctx = 2 ∨ (s.classOf a.ctx = 1 ∧ wt a.ctx = 0) then s.kreq a.ctx i - a.g else 0, w := 1 }
  ((shareOut (left + 1) rest left).1.map Ask.g, fs)

/-- One evaluation of a hard partition. -/
def State.evaluate (s : State) (hp : Nat) : State :=
  let cs := s.hpCtxs hp
  let rs := (List.range 4).map fun i => s.grants cs i (s.capacity hp i)
  let kgr := fun (k c i : Nat) => if i = 4 then s.kreq c 4 else (((rs[i]?).getD ([], [])).1[k]?).getD 0
  let one := fun (t : State) (x : Nat × Nat) =>
    let (c, k) := x
    let shed := (List.range 5).any fun i => decide (kgr k c i < s.kreq c i)
    let miss := s.classOf c == 0 && (List.range 4).any fun i => decide (kgr k c i < (((rs[i]?).getD ([], [])).2[k]?).getD 0)
    let n := ((List.range 5).filter fun i => kgr k c i < s.kreq c i).length
    let (shed0, miss0) := (s.tl c 4 58 58 == 1, s.tl c 4 62 62 == 1)
    let t := (List.range 5).foldl (fun t i => t.setRegF (.ctxw c (24 + i)) 51 43 (kgr k c i)) t
    let t := (t.setTl c 4 58 58 (if shed then 1 else 0)).setTl c 4 62 62 (if miss then 1 else 0)
    let t := t.updCtx c fun x => { x with granted := true }
    let t := if (shed && !shed0) || (miss && !miss0) then t.beatEvent c (shed && !shed0) (miss && !miss0) false else t
    if n = 0 then t else t.bumpDie ((s.partDies c).headD 0) .quayShed n
  cs.zipIdx.foldl one s

/-- The lowest die of a hard partition, on which its Quay runs. -/
def State.quayDie (s : State) (hp : Nat) : Option Nat := (List.range 4).find? fun d => s.hpOf d == hp

/-- The Quay of a hard partition evaluates in this cycle of its die and has not yet. -/
def State.quayDue (s : State) (hp : Nat) : Bool :=
  match s.quayDie hp with
  | none => false
  | some d => s.ref d % 2 ^ min 24 (max 10 (s.regF (.qcap hp) 42 38)) == 0 && (s.die d).quayAt != some (s.ref d)

/-- An evaluation, after the interval ends of the same cycle. -/
def execQuayEval (hp : Nat) (s : State) : Out :=
  match s.quayDie hp with
  | none => .fault .notEnabled
  | some d =>
    when (s.quayDue hp && !((s.hpCtxs hp).any s.intervalDue))
      (((s.evaluate hp).updDie d fun x => { x with quayAt := some (s.ref d) }).bumpDie d .quayEval)

/-! ### Applying grants (R358) -/

def popcount (n : Nat) : Nat := ((List.range 16).filter n.testBit).length

/-- The numbers of a mask, and the mask of some numbers. -/
def waysOf (m : Nat) : List Nat := (List.range 16).filter m.testBit
def maskOfWays (l : List Nat) : Nat := (l.map fun w => 2 ^ w).sum

/-- Ways that some contexts keep of those that they have, one after another, each with its slot and its size. -/
def keptWays (has : Nat → List Nat) : List (Nat × Nat) → List Nat → List (Nat × Nat × List Nat)
  | [], _ => []
  | (slot, n) :: t, taken =>
    let mine := ((has slot).filter fun w => !taken.contains w).take n
    (slot, n, mine) :: keptWays has t (taken ++ mine)

/-- Free ways for what is missing, lowest first. -/
def moreWays : List (Nat × Nat × List Nat) → List Nat → List (Nat × List Nat)
  | [], _ => []
  | (slot, n, mine) :: t, free =>
    let k := n - mine.length
    (slot, mine ++ free.take k) :: moreWays t (free.drop k)

/-- The way masks of the granted contexts on a die: they do not overlap, each keeps what it can and takes the lowest free ways (R358). -/
def State.wayPlan (s : State) (die : Nat) : List (Nat × List Nat) :=
  let cs := ((s.hpCtxs (s.hpOf die)).filter fun c => s.actOn c 2).map fun c => (c % 256, min 16 (s.setting c 2))
  let kept := keptWays (fun slot => waysOf (s.regF (.llcway die slot) 15 0)) cs []
  let used := kept.flatMap fun x => x.2.2
  moreWays kept ((List.range 16).filter fun w => !used.contains w)

/-- Writes them: first what falls, then what rises. -/
def State.applyWays (s : State) (die : Nat) : State :=
  let plan := s.wayPlan die
  let fall := plan.foldl (fun t x => t.writeWays die x.1 (maskOfWays ((waysOf (s.regF (.llcway die x.1) 15 0)).filter x.2.contains))) s
  plan.foldl (fun t x => t.writeWays die x.1 (maskOfWays x.2)) fall

/-- CAP and HELD of the clock regions of a die (24 R410). -/
def State.noteClocks (s : State) (die : Nat) : State :=
  (List.range 9).foldl (fun s r =>
    let holder := if r < 8 then (s.ctxs.map Prod.fst).find? fun c => s.holdsRegion (8 * die + r) c else none
    let cap := match holder with
      | some c => if s.actOn c 4 then min 15 (s.setting c 4) else s.regF (.clkdef die) 3 0
      | none => s.regF (.clkdef die) 3 0
    (s.setRegF (.clkcap die r) 3 0 cap).setRegF (.clkcap die r) 8 8 (if holder.isSome then 1 else 0)) s

/-- Groups on cores beyond a context's count, when another context may take cores. -/
def State.beyond (s : State) (ctx : Nat) : List Nat :=
  let cores := (s.ctxCores ctx).drop (s.coreLimit ctx)
  let wanted := (s.hpCtxs (s.hpOf (ctx / 256))).any fun c => c != ctx && s.actOn c 1 && decide ((s.ctxCores c).length < s.coreLimit c)
  if wanted then (s.groups.filter fun (_, g) => g.ctx == ctx && cores.contains g.core).map Prod.fst else []

def State.applyGrants (s : State) (ctx : Nat) : State :=
  let t := s.updCtx ctx fun c => { c with granted := false }
  let t := (s.ctxCores ctx).foldl (fun t k =>
    let n := t.excess k ctx
    if n = 0 then t else (t.requestCtx k ctx n).getD t) t
  let t := t.markSaving ((t.beyond ctx).flatMap t.together)
  let t := if s.actOn ctx 2 then (s.partDies ctx).foldl State.applyWays t else t
  (s.partDies ctx).foldl (fun t d => t.noteClocks d) t

def execGrantApply (ctx : Nat) (s : State) : Out :=
  match Tab.find s.ctxs ctx with
  | none => .fault .notEnabled
  | some c => when c.granted (s.applyGrants ctx)

/-! ### Writes of loop state and capacities (R357, R360, R361) -/

/-- The floors of class 0 contexts fit in the capacities of a partition. -/
def State.floorsFit (s : State) (hp : Nat) : Bool :=
  let cs := (s.hpCtxs hp).filter fun c => s.classOf c == 0
  let q := s.reg (.qcap hp)
  let cap := fun (i : Nat) => match i with | 0 => fld q 15 0 | 1 => fld q 24 16 | 2 => fld q 29 25 | _ => fld q 37 30
  (List.range 4).all fun i => decide ((cs.map fun c => s.floorSteps c i (s.tl c 2 59 44)).sum ≤ cap i)

/-- A write of a loop word, after any interval end or evaluation of the same cycle (R360); one that the floors do not allow is refused (R357). -/
def execTillerWordWrite (ctx word : Nat) (v : DWord) (i : Inst) (s : State) : Out :=
  let r : LReg := .ctxw ctx word
  let t := s.writeReg r v
  let moved := t.tl ctx 2 33 32 != s.tl ctx 2 33 32 || t.tl ctx 2 59 44 != s.tl ctx 2 59 44
  let hp := s.hpOf (ctx / 256)
  when (decide (16 ≤ word ∧ word ≤ 28) && (Tab.find s.ctxs ctx).isSome && s.mayWrite i r && !s.intervalDue ctx && !s.quayDue hp)
    (if word = 18 then (if moved && !t.floorsFit hp then s.setTl ctx 2 62 62 1 else t.setTl ctx 2 62 62 0)
     else if word = 21 ∧ t.tl ctx 5 15 0 ≠ s.tl ctx 5 15 0 then t.joinMerge ctx
     else t)

/-- A write of QCAP, after any evaluation of the same cycle; none is made in that cycle by the new QLOG (R355, R357). -/
def execQcapWrite (hp : Nat) (v : DWord) (i : Inst) (s : State) : Out :=
  let r : LReg := .qcap hp
  let t := s.writeReg r v
  let u := t.setRegF r 43 43 0
  when (decide (hp < 4) && s.mayWrite i r && !s.quayDue hp)
    (if !t.floorsFit hp then s.setRegF r 43 43 1
     else match s.quayDie hp with | some d => u.updDie d fun x => { x with quayAt := some (s.ref d) } | none => u)

/-! ### Saves for a waiting device (21 R391) -/

/-- A device whose context holds a bank set on every core of its partition. -/
def State.bankResident (s : State) (ctx : Nat) : Bool := (s.partCores ctx).all fun k => !s.coreUp k || s.ownsSet k ctx

/-- A weighted device other than `ctx`'s has an element that waits for room. -/
def State.weightedWaits (s : State) (ctx : Nat) : Bool :=
  s.grids.any fun (k, g) => g.ctx != ctx && g.waitSince != 0 && s.mayPlace k g &&
    (match Tab.find s.ctxs g.ctx with | some c => s.weight c.vdev != 0 | none => false)

/-- A save takes the group and leaves its context no fewer cores than its class 0 floor grant (R356, 21 R391). -/
def State.aboveFloor (s : State) (group : Nat) (g : Group) : Bool :=
  let floor := if s.classOf g.ctx = 0 then s.regF (.ctxw g.ctx 25) 33 25 + min (s.floorSteps g.ctx 1 (s.tl g.ctx 2 59 44)) (s.kreq g.ctx 1) else 0
  (s.groups.any fun (k, x) => k != group && x.ctx == g.ctx && x.core == g.core) || decide (floor < (s.ctxCores g.ctx).length)

def execQuantumSave (v group : Nat) (s : State) : Out :=
  match Tab.find s.vdevs v, Tab.find s.groups group with
  | some d, some g =>
    let later := s.groups.any fun (k, x) => x.ctx == g.ctx && decide (g.admitted < x.admitted) && k != group && !x.saving && s.aboveFloor k x
    when (decide (g.ctx = d.ctx) && !s.bankResident g.ctx && decide (s.regF (.vdsched v) 31 8 * 100 ≤ d.heldFor) && s.weightedWaits g.ctx &&
        !later && !g.saving && s.aboveFloor group g)
      (s.markSaving (s.together group))
  | _, _ => .fault .notEnabled

end Sys2Proof.Machine
end

