-- ==== Sys2Proof/Machine/Approx.lean ====
section
/-! DEFINITION. The approximate functions `FRSQ`, `FEX2`, `FLG2`, `FSIN` and `FCOS` (05 R126, R127). The result is a free value wherever
that value lies within the entry's error bound; elsewhere it is the exact result in fixed point, rounded to nearest (log 7). -/

namespace Sys2Proof.Machine

def f32 : FFmt := fmtTy 0

/-- Fractional bits of the fixed-point references. -/
def fixBits : Nat := 224
def fixOne : Nat := 2 ^ fixBits

/-- Fractional bits of a `FEX2` argument: every FP32 number is a whole count of them. -/
def argBits : Nat := 160

/-- 2^(f / 2^argBits) for f below 2^argBits, in fixed point: the product of the roots of 2 at the set bits. -/
def exp2Go (f : Nat) : Nat → Nat → Nat → Nat
  | 0, _, acc => acc
  | k + 1, r, acc => let r := isqrt (r * fixOne); exp2Go f k r (if f.testBit k then acc * r / fixOne else acc)
def exp2Fix (f : Nat) : Nat := exp2Go f argBits (2 * fixOne) fixOne

/-- Binary digits of log2 x for x in [1, 2) in fixed point. -/
def log2Go : Nat → Nat → Nat → Nat
  | 0, _, acc => acc
  | k + 1, x, acc => let y := x * x / fixOne; if 2 * fixOne ≤ y then log2Go k (y / 2) (2 * acc + 1) else log2Go k y (2 * acc)
def logBits : Nat := 100

/-- pi in fixed point. -/
def piFix : Nat := 0x3_243F_6A88_85A3_08D3_1319_8A2E_0370_7344_A409_3822_299F_31D0_082E_FA98

/-- The Taylor sum of sin z, z in fixed point: term k is the last times z^2 / ((2k)(2k+1)). -/
def sinGo (z2 : Nat) : Nat → Nat → Nat → Nat → Nat → Nat
  | 0, _, _, plus, minus => plus - minus
  | n + 1, k, term, plus, minus =>
    let t := term * z2 / fixOne / (2 * k * (2 * k + 1))
    if k % 2 = 1 then sinGo z2 n (k + 1) t plus (minus + t) else sinGo z2 n (k + 1) t (plus + t) minus
/-- |sin(pi t)| and its sign, for t in [0, 2) in fixed point. -/
def sinPi (t : Nat) : Bool × Nat :=
  let neg := decide (fixOne ≤ t)
  let y := t % fixOne
  let y := if fixOne < 2 * y then fixOne - y else y
  let z := piFix * y / fixOne
  (neg, sinGo (z * z / fixOne) 36 1 z z 0)

/-- |a - b| ≤ m * 2^e. -/
def FV.within (a b : FV) (m : Nat) (e : Int) : Bool :=
  match a, b with
  | .fin .., .fin .. =>
    let (v, q) := FV.sum a b.negate
    let k := min q e
    decide (v.natAbs * 2 ^ (q - k).toNat ≤ m * 2 ^ (e - k).toNat)
  | _, _ => false

/-- Weight of the last place of a value in FP32. -/
def ulpExp (m : Nat) (e : Int) : Int := max (e + bitLen m - 1) f32.emin - f32.mb

/-- An approximate result: the free value where it is finite and within the bound, else the reference rounded (R126). It is inexact, so a
tiny one raises UF and NX, or is flushed, by R76, and every other one raises NX; `zneg` is the sign of a zero, which raises what the exact
result's rounding raises, and NX. -/
def approxResult (op : Nat) (ftz dn : Bool) (x : Nat) (neg : Bool) (m : Nat) (e : Int) (bm : Nat) (be : Int) (zneg : Bool) : FR :=
  let ref := f32.round .rne ftz false neg m e true
  let cand := f32.decode (Config.approx (op + (if ftz then 8 else 0) + (if dn then 16 else 0)) (BitVec.ofNat 32 x)).toNat
  match f32.decode ref.bits, cand with
  | .fin .., .fin n m' e' =>
    if FV.within cand (.fin neg m e) bm be then
      if m' = 0 then ⟨f32.signBit zneg, ref.flags ||| fNX⟩
      else
        f32.round .rne ftz false n m' e' true
    else ⟨ref.bits, ref.flags ||| fNX⟩
  | _, _ => ref

/-- The bound of so many units in the last place. -/
def approxUlps (op : Nat) (ftz dn : Bool) (x : Nat) (neg : Bool) (m : Nat) (e : Int) (ulps : Nat) : FR :=
  approxResult op ftz dn x neg m e ulps (ulpExp m e) neg

/-- `FRSQ` (R126, R127). -/
def rsqOp (ftz dn : Bool) (x : Nat) : FR :=
  let a := f32.flush ftz (f32.decode x)
  match a with
  | .nan .. => ⟨f32.nanResult dn [a], sigFlag [a]⟩
  | .inf n => if n then ⟨f32.nanResult dn [], fNV⟩ else ⟨0, 0⟩
  | .fin n m e =>
    if m = 0 then ⟨f32.infBits n, fDZ⟩
    else if n then ⟨f32.nanResult dn [], fNV⟩
    else
      let (m, e) := if e % 2 = 0 then (m, e) else (2 * m, e - 1)
      let r := isqrt (2 ^ 256 / m)
      if r * r * m = 2 ^ 256 ∧ (2 ^ (bitLen r - 1) = r) then f32.round .rne ftz false false r (-(e / 2) - 128)
      else approxUlps 1 ftz dn x false r (-(e / 2) - 128) 1

/-- An integer value of m * 2^e, if it is one. -/
def wholeOf (m : Nat) (e : Int) : Option Nat :=
  if 0 ≤ e then some (m * 2 ^ e.toNat) else if m % 2 ^ (-e).toNat = 0 then some (m / 2 ^ (-e).toNat) else none

/-- `FEX2` (R126, R127): exact at integers; far outside the exponent range the result overflows or is tiny. DESIGN CHOICE (log 58): an
overflow takes the RNE column of R75, +inf, whatever `$fpc`.RM, since `FEX2` has no mode of its own. -/
def ex2Op (ftz dn : Bool) (x : Nat) : FR :=
  let a := f32.flush ftz (f32.decode x)
  match a with
  | .nan .. => ⟨f32.nanResult dn [a], sigFlag [a]⟩
  | .inf n => ⟨if n then 0 else f32.infBits false, 0⟩
  | .fin n m e =>
    if m = 0 then ⟨f32.exact (.fin false 1 0), 0⟩
    else if 9 < e + bitLen m then f32.round .rne ftz false false 1 (if n then -400 else 400)
    else
      match wholeOf m e with
      | some k => f32.round .rne ftz false false 1 (if n then -k else k)
      | none =>
        let t : Int := m * 2 ^ (e + argBits).toNat
        let t := if n then -t else t
        approxUlps 3 ftz dn x false (exp2Fix (t % 2 ^ argBits).toNat) (t / 2 ^ argBits - fixBits) 2

/-- `FLG2` (R126, R127). DESIGN CHOICE (log 58): a zero within the bound takes the sign of the exact logarithm. -/
def lg2Op (ftz dn : Bool) (x : Nat) : FR :=
  let a := f32.flush ftz (f32.decode x)
  match a with
  | .nan .. => ⟨f32.nanResult dn [a], sigFlag [a]⟩
  | .inf n => if n then ⟨f32.nanResult dn [], fNV⟩ else ⟨f32.infBits false, 0⟩
  | .fin n m e =>
    if m = 0 then ⟨f32.infBits true, fDZ⟩
    else if n then ⟨f32.nanResult dn [], fNV⟩
    else
      let p := bitLen m - 1
      let k : Int := e + p
      if m = 2 ^ p then f32.round .rne ftz false (decide (k < 0)) k.natAbs 0
      else
        let v : Int := k * 2 ^ logBits + log2Go logBits (m * fixOne / 2 ^ p) 0
        if k = 0 ∨ k = -1 then approxResult 4 ftz dn x (decide (v < 0)) v.natAbs (-logBits) 1 (-22) (decide (v < 0))
        else approxUlps 4 ftz dn x (decide (v < 0)) v.natAbs (-logBits) 2

/-- sin(pi (a + shift / 2)) for a finite a (R126); the fixed point holds every FP32 argument exactly. -/
def sinCos (op shift : Nat) (ftz dn : Bool) (x : Nat) (n : Bool) (m : Nat) (e : Int) : FR :=
  let sgn := n && shift == 0
  match wholeOf (2 * m) e with
  | some k =>
    match (k + shift) % 4 with
    | 0 | 2 => ⟨f32.signBit sgn, 0⟩
    | 1 => ⟨f32.exact (.fin sgn 1 0), 0⟩
    | _ => ⟨f32.exact (.fin (!sgn) 1 0), 0⟩
  | none =>
    let t := m * 2 ^ (e + fixBits).toNat + shift * (fixOne / 2)
    let (neg, r) := sinPi (t % (2 * fixOne))
    approxResult op ftz dn x (neg != sgn) r (-fixBits) 1 (-22) sgn

/-- `FSIN` and `FCOS` (R126, R127). -/
def trigOp (op shift : Nat) (ftz dn : Bool) (x : Nat) : FR :=
  let a := f32.flush ftz (f32.decode x)
  match a with
  | .nan .. => ⟨f32.nanResult dn [a], sigFlag [a]⟩
  | .inf _ => ⟨f32.nanResult dn [], fNV⟩
  | .fin n m e => if m = 0 then (if shift = 0 then ⟨f32.signBit n, 0⟩ else ⟨f32.exact (.fin false 1 0), 0⟩) else sinCos op shift ftz dn x n m e

end Sys2Proof.Machine
end

