-- ==== Sys2Proof/Machine/Float.lean ====
section
/-! DEFINITION. Float arithmetic, compare, classify, reciprocal, root and approximations (05 R122-R127). -/

namespace Sys2Proof.Machine

/-- FTZ and DN of `$fpc` (01 R23). -/
def Wave.ftz (w : Wave) : Bool := w.fpc.getLsbD 3
def Wave.dn (w : Wave) : Bool := w.fpc.getLsbD 4

/-- The directed or nearest mode of MOD[2:0] (02 R52). -/
def modeOf (w : Wave) (md : Nat) : RMode :=
  match md with | 1 => .rne | 2 => .rtz | 3 => .rup | 4 => .rdn | _ => .ofRM (fld w.fpc 1 0)

/-- Controls of a rounding instruction: mode, FTZ, DN, `.sat` (MOD[3]). -/
def fctl (w : Wave) (x : W) : FCtl := { mode := modeOf w (fld x.mod 2 0), ftz := w.ftz, dn := w.dn, sat := x.mod.getLsbD 3 }

/-- A result in its register layout with its flags; packed types element by element (R122). -/
def perElem (ty : Nat) (f : Nat → FR) : DWord × Nat :=
  if packed ty then
    let r0 := f 0
    let r1 := f 1
    (BitVec.ofNat 64 (r0.bits + 65536 * r1.bits), r0.flags ||| r1.flags)
  else
    let r := f 0
    (BitVec.ofNat 64 (layOf ty r.bits), r.flags)

/-- Source B of a float row: a register, or IMM as the type's pattern (02 R51). -/
def fsrcB (i : Instr) (x : W) (w : Wave) (l : Nat) : DWord :=
  if fmtOf (opOf i) = .i then immFloat x.ty.toNat x.tail else w.fopnd x.ty.toNat x.b l

/-- An element-wise float operation over A, B and C (R122, R123). -/
def floatOp3 (i : Instr) (x : W) (s : State) (f : FFmt → FCtl → Nat → Nat → Nat → FR) : Out :=
  let ty := x.ty.toNat
  laneOpF i x s (wideOf i x) fun w l =>
    let a := w.fopnd ty x.a l
    let b := fsrcB i x w l
    let c := w.fopnd ty x.c l
    perElem ty fun k => f (fmtTy ty) (fctl w x) (rawOf ty k a) (rawOf ty k b) (rawOf ty k c)

def execFadd (w : W) (s : State) : Out := floatOp3 (.fadd w) w s fun f c a b _ => f.addOp c a b
def execFsub (w : W) (s : State) : Out := floatOp3 (.fsub w) w s fun f c a b _ => f.subOp c a b
def execFmul (w : W) (s : State) : Out := floatOp3 (.fmul w) w s fun f c a b _ => f.mulOp c a b
def execFmin (w : W) (s : State) : Out := floatOp3 (.fmin w) w s fun f c a b _ => f.minMax c.ftz c.dn false a b
def execFmax (w : W) (s : State) : Out := floatOp3 (.fmax w) w s fun f c a b _ => f.minMax c.ftz c.dn true a b
def execFaddImm (w : W) (s : State) : Out := floatOp3 (.faddImm w) w s fun f c a b _ => f.addOp c a b
def execFsubImm (w : W) (s : State) : Out := floatOp3 (.fsubImm w) w s fun f c a b _ => f.subOp c a b
def execFmulImm (w : W) (s : State) : Out := floatOp3 (.fmulImm w) w s fun f c a b _ => f.mulOp c a b
def execFminImm (w : W) (s : State) : Out := floatOp3 (.fminImm w) w s fun f c a b _ => f.minMax c.ftz c.dn false a b
def execFmaxImm (w : W) (s : State) : Out := floatOp3 (.fmaxImm w) w s fun f c a b _ => f.minMax c.ftz c.dn true a b
def execFma (w : W) (s : State) : Out := floatOp3 (.fma w) w s fun f k a b c => f.fmaOp k false a b c
def execFms (w : W) (s : State) : Out := floatOp3 (.fms w) w s fun f k a b c => f.fmaOp k true a b c

/-! ### Compare and classify (R124, R125) -/

/-- A float relation, with the flag that it raises. -/
def floatCond (c : FCc) (a b : FV) : Bool × Nat :=
  let un := a.isNan || b.isNan
  let ord := fun (r : Bool) => (!un && r, if un then fNV else 0)
  match c with
  | .eq => (FV.eq a b, sigFlag [a, b])
  | .ne => (!FV.eq a b, sigFlag [a, b])
  | .lt => ord (FV.lt false a b)
  | .le => ord (FV.lt false a b || FV.eq a b)
  | .gt => ord (FV.lt false b a)
  | .ge => ord (FV.lt false b a || FV.eq a b)
  | .un => (un, sigFlag [a, b])
  | .ord => (!un, sigFlag [a, b])

def execFcmp (c : FCc) (w : W) (s : State) : Out :=
  let ty := w.ty.toNat
  let f := fmtTy ty
  laneOpF (.fcmp c w) w s false fun v l =>
    let r := floatCond c (f.flush v.ftz (f.decode (rawOf ty 0 (v.fopnd ty w.a l)))) (f.flush v.ftz (f.decode (rawOf ty 0 (v.fopnd ty w.b l))))
    (bit r.1, r.2)

/-- The class bit of a value (R125). -/
def classBit (f : FFmt) (x : FV) : Nat :=
  match x with
  | .nan _ sig _ _ => if sig then 8 else 9
  | .inf n => if n then 0 else 7
  | .fin n m _ => if m = 0 then (if n then 3 else 4) else if m < 2 ^ f.mb then (if n then 2 else 5) else (if n then 1 else 6)

def execFclass (w : W) (s : State) : Out :=
  let ty := w.ty.toNat
  laneOp (.fclass w) w s false fun v l => BitVec.ofNat 64 (2 ^ classBit (fmtTy ty) ((fmtTy ty).decode (rawOf ty 0 (v.fopnd ty w.a l))))

/-! ### Reciprocal, root, approximations (R126, R127) -/

/-- A one-source operation. -/
def floatOp1 (i : Instr) (x : W) (s : State) (f : FFmt → FCtl → Nat → FR) : Out :=
  let ty := x.ty.toNat
  laneOpF i x s (wideOf i x) fun w l => perElem ty fun _ => f (fmtTy ty) (fctl w x) (rawOf ty 0 (w.fopnd ty x.a l))

def execFrcp (w : W) (s : State) : Out := floatOp1 (.frcp w) w s fun f c a => f.rcpOp c a
def execFsqrt (w : W) (s : State) : Out := floatOp1 (.fsqrt w) w s fun f c a => f.sqrtOp c a
def execFrsq (w : W) (s : State) : Out := floatOp1 (.frsq w) w s fun _ c a => rsqOp c.ftz c.dn a
def execFex2 (w : W) (s : State) : Out := floatOp1 (.fex2 w) w s fun _ c a => ex2Op c.ftz c.dn a
def execFlg2 (w : W) (s : State) : Out := floatOp1 (.flg2 w) w s fun _ c a => lg2Op c.ftz c.dn a
def execFsin (w : W) (s : State) : Out := floatOp1 (.fsin w) w s fun _ c a => trigOp 5 0 c.ftz c.dn a
def execFcos (w : W) (s : State) : Out := floatOp1 (.fcos w) w s fun _ c a => trigOp 6 1 c.ftz c.dn a

end Sys2Proof.Machine
end

