-- ==== Sys2Proof/Machine/CrossLane.lean ====
section
/-! DEFINITION. Lane moves, votes, reductions and scans (05 R134-R138, 03 R83, R84). -/

namespace Sys2Proof.Machine

/-- A source lane whatever its state: live lanes as they stand, exited lanes zero (R134). -/
def Wave.laneVal (w : Wave) (wide : Bool) (o : Opnd) (l : Nat) : DWord := if w.live.getLsbD l then w.opnd wide o l else 0

/-- The source lane of `XLANE` (R135). -/
def xlaneFrom (m : XMode) (l k : Nat) : Nat :=
  match m with
  | .abs => k % 32
  | .rot => (l + k) % 32
  | .bfly => l ^^^ (k % 32)
  | .seg => l - l % 2 ^ min k 5

def execXlane (m : XMode) (w : W) (s : State) : Out :=
  laneOp (.xlane m w) w s false fun v l => v.laneVal false w.a (xlaneFrom m l (v.opnd32 w.b l).toNat)
def execXlaneImm (m : XMode) (w : W) (s : State) : Out :=
  laneOp (.xlaneImm m w) w s false fun v l => v.laneVal false w.a (xlaneFrom m l (w.bits 68 64))

/-- A uniform result written to every active lane. -/
def uniformOp (i : Instr) (x : W) (s : State) (f : Wave → Mask → DWord) : Out :=
  withWave s fun id w =>
    let act := w.active x.g
    let v := f w act
    retire s id w i x act false (lanes fun _ => v) 0

def execBcastFirst (w : W) (s : State) : Out :=
  uniformOp (.bcastFirst w) w s fun v act => match lowest act with | some l => v.opnd false w.a l | none => 0
def execVoteAny (w : W) (s : State) : Out :=
  uniformOp (.voteAny w) w s fun v act => bit ((laneList act).any fun l => v.opnd32 w.a l != 0)
def execVoteAll (w : W) (s : State) : Out :=
  uniformOp (.voteAll w) w s fun v act => bit ((laneList act).all fun l => v.opnd32 w.a l != 0)
def execVoteEq (w : W) (s : State) : Out :=
  uniformOp (.voteEq w) w s fun v act =>
    bit (match laneList act with | [] => true | k :: t => t.all fun l => v.opnd32 w.a l == v.opnd32 w.a k)
def execBallot (w : W) (s : State) : Out :=
  uniformOp (.ballot w) w s fun v act => (maskOf fun l => act.getLsbD l && v.opnd32 w.a l != 0).setWidth 64

/-! ### Trees (03 R83, R84) -/

/-- A node: two children combined, or the one that is not empty, unrounded. -/
def treeNode (op : FR → FR → FR) : Option FR → Option FR → Option FR
  | some a, some b => some (op a b)
  | some a, none => some a
  | none, b => b

/-- One level up. -/
def pairUp (op : FR → FR → FR) : List (Option FR) → List (Option FR)
  | a :: b :: t => treeNode op a b :: pairUp op t
  | t => t

/-- The six levels of the tree over 32 leaves. -/
def treeLevels (op : FR → FR → FR) (leaves : List (Option FR)) : List (List (Option FR)) :=
  let l1 := pairUp op leaves
  let l2 := pairUp op l1
  let l3 := pairUp op l2
  let l4 := pairUp op l3
  [leaves, l1, l2, l3, l4, pairUp op l4]

def treeRoot (op : FR → FR → FR) (leaves : List (Option FR)) : Option FR :=
  match treeLevels op leaves with
  | [_, _, _, _, _, [r]] => r
  | _ => none

/-- Aligned nodes that decompose lanes 0 to n - 1, largest first, as (level, index): the set bits of n (R84). -/
def scanNodes (n : Nat) : List (Nat × Nat) :=
  ([5, 4, 3, 2, 1, 0].filter fun j => n.testBit j).map fun j => (j, n / 2 ^ (j + 1) * 2)

/-- The combination of lanes 0 to n - 1. -/
def scanAt (op : FR → FR → FR) (levels : List (List (Option FR))) (n : Nat) : Option FR :=
  (scanNodes n).foldl (fun acc (j, i) => treeNode op acc (((levels[j]?).bind fun l => l[i]?).join)) none

/-- A combining step that keeps the flags of every node below it (R138). -/
def nodeOp (f : Nat → Nat → FR) (a b : FR) : FR :=
  let r := f a.bits b.bits
  ⟨r.bits, a.flags ||| b.flags ||| r.flags⟩

/-- The leaves: active lanes only. -/
def leavesOf (act : Mask) (leaf : Nat → Nat) : List (Option FR) :=
  (List.range 32).map fun l => if act.getLsbD l then some ⟨leaf l, 0⟩ else none

/-- `LRED`: the root to every active lane. -/
def reduceOp (i : Instr) (x : W) (s : State) (wide : Bool) (leaf : Wave → Nat → Nat) (f : Wave → Nat → Nat → FR) : Out :=
  withWave s fun id w =>
    let act := w.active x.g
    let r := (treeRoot (nodeOp (f w)) (leavesOf act (leaf w))).getD ⟨0, 0⟩
    retire s id w i x act wide (lanes fun _ => BitVec.ofNat 64 r.bits) r.flags

/-- `LSCAN`: inclusive, or with MOD[3] the combination of the active lanes below; an identity where there is none (R138). -/
def scanOp (i : Instr) (x : W) (s : State) (wide : Bool) (ident : Nat) (leaf : Wave → Nat → Nat) (f : Wave → Nat → Nat → FR) : Out :=
  withWave s fun id w =>
    let act := w.active x.g
    let op := nodeOp (f w)
    let levels := treeLevels op (leavesOf act (leaf w))
    let excl := x.mod.getLsbD 3
    let r := lanes fun l => (scanAt op levels (if excl then l else l + 1)).getD ⟨ident, 0⟩
    retire s id w i x act wide (lanes fun l => BitVec.ofNat 64 (Lanes.at' ⟨0, 0⟩ r l).bits) (orFlags act fun l => (Lanes.at' ⟨0, 0⟩ r l).flags)

/-! ### Float reductions -/

/-- A leaf: FTZ applies to it (R138, 03 R76). -/
def floatLeaf (x : W) (w : Wave) (l : Nat) : Nat :=
  let ty := x.ty.toNat
  let raw := rawOf ty 0 (w.fopnd ty x.a l)
  if w.ftz ∧ ((fmtTy ty).flush true ((fmtTy ty).decode raw)).isZero then (fmtTy ty).signBit ((fmtTy ty).decode raw).neg else raw

def redFloatOp (o : RedF) (x : W) (w : Wave) (a b : Nat) : FR :=
  let f := fmtTy x.ty.toNat
  match o with
  | .add => f.addOp { fctl w x with sat := false } a b
  | .min => f.minMax w.ftz w.dn false a b
  | .max => f.minMax w.ftz w.dn true a b

def redFloatIdent (o : RedF) (ty : Nat) : Nat :=
  match o with
  | .add => (fmtTy ty).signBit true
  | .min => (fmtTy ty).infBits false
  | .max => (fmtTy ty).infBits true

def execLredFloat (o : RedF) (w : W) (s : State) : Out :=
  reduceOp (.lredFloat o w) w s (w.ty == 1) (floatLeaf w) (redFloatOp o w)
def execLscanFloat (o : RedF) (w : W) (s : State) : Out :=
  scanOp (.lscanFloat o w) w s (w.ty == 1) (redFloatIdent o w.ty.toNat) (floatLeaf w) (redFloatOp o w)

/-! ### Integer reductions -/

def redIntOp (o : RedI) (a b : Nat) : FR :=
  let sg := fun (x : Nat) => (BitVec.ofNat 32 x).toInt
  match o with
  | .addN => ⟨(a + b) % 2 ^ 32, 0⟩
  | .minS => ⟨if sg b < sg a then b else a, 0⟩
  | .maxS => ⟨if sg a < sg b then b else a, 0⟩
  | .minN => ⟨min a b, 0⟩
  | .maxN => ⟨max a b, 0⟩
  | .andB => ⟨a &&& b, 0⟩
  | .orB => ⟨a ||| b, 0⟩
  | .xorB => ⟨a ^^^ b, 0⟩

def redIntIdent : RedI → Nat
  | .addN | .maxN | .orB | .xorB => 0
  | .minS => 0x7FFF_FFFF
  | .maxS => 0x8000_0000
  | .minN | .andB => 0xFFFF_FFFF

def execLredInt (o : RedI) (w : W) (s : State) : Out :=
  reduceOp (.lredInt o w) w s false (fun v l => (v.opnd32 w.a l).toNat) fun _ => redIntOp o
def execLscanInt (o : RedI) (w : W) (s : State) : Out :=
  scanOp (.lscanInt o w) w s false (redIntIdent o) (fun v l => (v.opnd32 w.a l).toNat) fun _ => redIntOp o

end Sys2Proof.Machine
end

