-- ==== Sys2Proof/Machine/Crypto.lean ====
section
/-! DEFINITION. SHA-512 and HMAC-SHA-512, which the spec names and does not define: FIPS 180-4 and FIPS 198-1 (log 50). -/

namespace Sys2Proof.Machine

/-- The first 80 primes. -/
def primes : List Nat := (List.range 410).filter fun n => decide (2 ≤ n) && (List.range 21).all fun d => d < 2 || n ≤ d || n % d != 0

/-- The first 64 bits of the fraction of a root of a prime: the largest r with r^k at most p * 2^(64 k). -/
def rootFraction (k p : Nat) : DWord :=
  BitVec.ofNat 64 ((List.range 70).reverse.foldl (fun r b => if (r + 2 ^ b) ^ k ≤ p * 2 ^ (64 * k) then r + 2 ^ b else r) 0)

def sha512K : List DWord := (primes.take 80).map (rootFraction 3)
def sha512H : List DWord := (primes.take 8).map (rootFraction 2)

/-- Groups of 8 bytes as words, big end first. -/
def beWords (b : List Byte) (n : Nat) : List DWord :=
  (List.range n).map fun i => ((b.drop (8 * i)).take 8).foldl (fun x y => x <<< 8 ||| y.setWidth 64) 0

/-- A message with its padding. -/
def shaPad (m : List Byte) : List Byte :=
  let n := m.length
  let z := (239 - n % 128) % 128
  m ++ [0x80] ++ List.replicate z 0 ++ ((List.range 16).map fun i => BitVec.ofNat 8 (8 * n / 256 ^ (15 - i)))

/-- The 80 words of a block's schedule, by word number from the last backwards. -/
def shaSchedule (blk : List DWord) : List DWord :=
  let w := fun (l : List DWord) (i : Nat) => (l[i]?).getD 0
  let step := fun (rev : List DWord) (_ : Nat) =>
    let a := w rev 14
    let b := w rev 1
    let s0 := a.rotateRight 1 ^^^ a.rotateRight 8 ^^^ (a >>> 7)
    let s1 := b.rotateRight 19 ^^^ b.rotateRight 61 ^^^ (b >>> 6)
    (w rev 15 + s0 + w rev 6 + s1) :: rev
  ((List.range 64).foldl step blk.reverse).reverse

/-- One round on the working variables a to h. -/
def shaRound (v : List DWord) (k w : DWord) : List DWord :=
  match v with
  | [a, b, c, d, e, f, g, h] =>
    let s1 := e.rotateRight 14 ^^^ e.rotateRight 18 ^^^ e.rotateRight 41
    let t1 := h + s1 + ((e &&& f) ^^^ (~~~e &&& g)) + k + w
    let s0 := a.rotateRight 28 ^^^ a.rotateRight 34 ^^^ a.rotateRight 39
    let t2 := s0 + ((a &&& b) ^^^ (a &&& c) ^^^ (b &&& c))
    [t1 + t2, a, b, c, d + t1, e, f, g]
  | v => v

def shaBlock (h : List DWord) (blk : List DWord) : List DWord :=
  let v := (sha512K.zip (shaSchedule blk)).foldl (fun v (k, w) => shaRound v k w) h
  (h.zip v).map fun (a, b) => a + b

def sha512 (m : List Byte) : List Byte :=
  let p := shaPad m
  let hs := (List.range (p.length / 128)).foldl (fun h i => shaBlock h (beWords (p.drop (128 * i)) 16)) sha512H
  hs.flatMap fun (x : DWord) => (List.range 8).map fun i => (x >>> (8 * (7 - i))).setWidth 8

/-- HMAC-SHA-512 under a key of at most 128 bytes. -/
def hmac512 (key msg : List Byte) : List Byte :=
  let k := key ++ List.replicate (128 - key.length) 0
  sha512 ((k.map (· ^^^ 0x5C)) ++ sha512 ((k.map (· ^^^ 0x36)) ++ msg))

/-- The bytes of a key held in registers, low end first. -/
def keyBytes (ws : List DWord) : List Byte := ws.flatMap fun (x : DWord) => (List.range 8).map fun i => (x >>> (8 * i)).setWidth 8

end Sys2Proof.Machine
end

