-- ==== Sys2Proof/Machine/System.lean ====
section
/-! DEFINITION. System instructions: `SVC`, `TRAP`, `MOVS`, `NOP`, `WAIT.CYC` (04 R114-R117) and the hint space (02 R58). -/

namespace Sys2Proof.Machine

/-! ### SVC and TRAP (R117) -/

/-- An instruction that completes and then raises a wave-wide cause; where its flow leaves the last line, cause 0x03 is held until the
wave is resumed (02 R38). -/
def completionTrap (s : State) (code imm : Nat) : Out :=
  withWave s fun id w =>
    let n := w.goto (nextPc w.pc)
    .next (deliver s id { n with hold3 := w.leavesKernel } { code, kind := 1, imm, rpc := n.pc, ipc := w.pc })

def execSvc (w : W) (s : State) : Out := completionTrap s 0x70 (w.bits 79 64)
def execTrap (w : W) (s : State) : Out := completionTrap s 0x60 (w.bits 79 64)

/-! ### MOVS (R114) -/

/-- The bits of `$fpc` that exist (01 R23). -/
def fpcMask : Word := 0x7F1F

/-- A special register in a lane (01 R19). -/
def readSpecial (s : State) (w : Wave) (sel l : Nat) : Word :=
  match sel with
  | 0x00 => w.exm
  | 0x01 => w.cause
  | 0x02 => w.fpc &&& fpcMask
  | 0x03 => w.kprog
  | 0x04 => BitVec.ofNat 32 l
  | 0x05 => w.waveW
  | 0x06 => w.groupW
  | 0x07 => w.gangW
  | 0x08 => w.gridW
  | 0x09 => w.tenant
  | 0x0A => (s.core w.core).phase
  | 0x0B => Tab.get 1 w.seed l
  | 0x0C => BitVec.ofNat 32 (s.cycle w.core)
  | 0x0D => w.cycHi
  | 0x0E => BitVec.ofNat 32 (s.ref (dieOf w.core))
  | 0x0F => w.refHi
  | 0x10 => w.share
  | _ => 0

/-- A read of a low half latches the high half of the same count (01 R20). -/
def latchHalf (s : State) (w : Wave) (sel : Nat) : Wave :=
  match sel with
  | 0x0C => { w with cycHi := BitVec.ofNat 32 (s.cycle w.core / 2 ^ 32) }
  | 0x0E => { w with refHi := BitVec.ofNat 32 (s.ref (dieOf w.core) / 2 ^ 32) }
  | _ => w

def execMovsRead (w : W) (s : State) : Out :=
  withWave s fun id v =>
    let sel := w.bits 71 64
    retire s id (latchHalf s v sel) (.movsRead w) w v.exm false (lanes fun l => (readSpecial s v sel l).setWidth 64) 0

/-- A write of a special register: `$seed` in each active lane, a uniform register from the lowest active lane (01 R11, R23, R27, R28). -/
def writeSpecial (w : Wave) (sel : Nat) (a : Opnd) : Wave :=
  match lowest w.exm with
  | none => w
  | some l =>
    let v := w.opnd32 a l
    match sel with
    | 0x00 => { w with exm := v &&& w.live }
    | 0x02 => { w with fpc := v &&& fpcMask }
    | 0x0B =>
      let put := fun (t : Tab Word) (k : Nat) => Tab.set t k (if w.opnd32 a k = 0 then 1 else w.opnd32 a k)
      { w with seed := (laneList w.exm).foldl put w.seed }
    | 0x10 => { w with share := v }
    | _ => w

/-- A lost latch in A sets LLOST as it is read; a write of `$fpc` then stores every field as written (01 R23, 02 R55). -/
def execMovsWrite (w : W) (s : State) : Out :=
  withWave s fun id v =>
    done s id (writeSpecial (v.flag (if readsLost (.movsWrite w) w v then fLLOST else 0)) (w.bits 71 64) w.a)

/-! ### NOP, WAIT.CYC, hints -/

/-- `NOP` changes nothing but the pc (R115). -/
def execNop (_w : W) (s : State) : Out := withWave s fun id v => done s id v

/-- `WAIT.CYC #n`: the wave issues nothing until n region cycles have passed (R116). -/
def execWaitCyc (w : W) (s : State) : Out :=
  withWave s fun id v =>
    done s id { v with waitUntil := if w.tail = 0 then none else some (s.cycle v.core + w.tail.toNat) }

/-- The wait of `WAIT.CYC` has passed (R116). -/
def execWaitCycEnd (wave : Nat) (s : State) : Out :=
  match Tab.find s.waves wave with
  | none => .fault .notEnabled
  | some w =>
    match w.waitUntil with
    | none => .fault .notEnabled
    | some t => when (t ≤ s.cycle w.core) (s.setWave wave { w with waitUntil := none })

/-- A hint is a no-op whatever its other bits hold (02 R58). -/
def execHint (_rest : BitVec 88) (s : State) : Out := withWave s fun id v => done s id v

end Sys2Proof.Machine
end

