-- ==== Sys2Proof/Machine/Faultq.lean ====
section
/-! DEFINITION. Fault queues: routing and writing a record (21 R370-R372), answers to translation faults (19 R342, 06 R145), wave control (21 R378, 06
R148), and the writes of DRIGHTS, FQHEAD and FQBASE (21 R369, R372). -/

namespace Sys2Proof.Machine

/-! ### Routing and writing (R370-R372) -/

/-- The level that the class bits lead to: down the path while the holder passes the class on (R370). -/
def State.delegated (s : State) (tenant : Word) (cls : Nat) : Nat → Nat → Nat
  | 0, lv => lv
  | n + 1, lv => if lv < 3 ∧ (s.reg (.dfdeleg (instOf tenant lv))).getLsbD cls then s.delegated tenant cls n (lv + 1) else lv

/-- The instance to which a record goes, at the moment it is written. -/
def State.route (s : State) (r : PendRec) : Inst :=
  if r.toRoot then .root
  else
    match r.stage with
    | some stage => instOf r.tenant (4 - stage)
    | none => instOf r.tenant (s.delegated r.tenant r.cls 3 0)

/-- Entries of a fault queue; whether it accepts one. -/
def State.fqSize (s : State) (i : Inst) : Nat := 2 ^ min 16 (s.regF (.fqctl i) 4 0)
def State.fqUsed (s : State) (i : Inst) : Nat := (s.regF (.fqtail i) 31 0 + 2 ^ 32 - s.regF (.fqhead i) 31 0) % 2 ^ 32
def State.fqOpen (s : State) (i : Inst) : Bool := (s.reg (.fqbase i)).getLsbD 63 && s.fqUsed i != s.fqSize i

/-- A Landing unit writes memory at its home, as context slot 0 (R363). -/
def State.landingWrite (s : State) (pa : Nat) (bytes : List Byte) : State :=
  let d := s.homeDie pa
  s.foreignWrite (.landing (d * 8)) (landingCore (d * 8)) d (d * 256) (bytes.zipIdx.map fun (b, i) => (pa + i, b))

/-- The instance that received a wave's record becomes its handler, though the wave has been saved since (14 R299). -/
def Wave.handledBy (i : Inst) (w : Wave) : Wave := if w.cond = .stopped none then { w with cond := .stopped (some i) } else w

def State.setHandler (s : State) (id : Nat) (i : Inst) : State :=
  let saved := fun (g : GImage) => { g with waves := Tab.upd g.waves id (Wave.handledBy i) }
  { s.updWave id (Wave.handledBy i) with images := s.images.map fun (k, g) => (k, saved g) }

/-- Writes a record as the queue's next entry; the instance becomes the handler of its wave. -/
def State.writeRecord (s : State) (i : Inst) (r : PendRec) : State :=
  let tail := s.regF (.fqtail i) 31 0
  let at' := fld (s.reg (.fqbase i)) 51 6 * 64 + 64 * (tail % s.fqSize i)
  let t := s.landingWrite at' (leBytes 64 r.body.toNat)
  let t := t.setRegF (.fqtail i) 31 0 (tail + 1)
  let t : State := if (s.reg (.fqctl i)).getLsbD 5 then { t with outbox := t.outbox ++ [.interrupt i] } else t
  match r.wave with
  | some id => t.setHandler id i
  | none => t

/-- The Landing writes the next record for an instance, or finds the queue full and counts the records that wait (R371). -/
def execFaultQueueRecordWrite (i : Inst) (s : State) : Out :=
  match s.recs.findIdx? fun r => s.route r == i with
  | none => .fault .notEnabled
  | some k =>
    match s.recs[k]? with
    | none => .fault .notEnabled
    | some r =>
      if s.fqOpen i then .next (({ s with recs := s.recs.eraseIdx k } : State).writeRecord i r)
      else
        let news := (s.recs.filter fun r => s.route r == i && !r.waited).length
        let note := fun (r : PendRec) => if s.route r = i then { r with waited := true } else r
        when (news != 0) (({ s with recs := s.recs.map note } : State).bump (.fqfull i) news)

/-! ### The fault buffer (06 R145, 12 R252, 19 R342) -/

/-- An entry is free, or one joins: the oldest requester that waits for an entry takes it. -/
def execFaultBufferWaitEnd (core : Nat) (s : State) : Out :=
  let c := s.core core
  match c.fbWait with
  | [] => .fault .notEnabled
  | x :: rest =>
    let joins := c.fbuf.any fun (_, e) => e.ctx == x.ctx && e.stage == x.stage && e.frame == x.iaddr / 4096
    when (joins || (List.range 64).any fun k => (Tab.find c.fbuf k).isNone) ((s.setCore core { c with fbWait := rest }).enterFault core x)

/-- A requester replays: a wave from its restart point, an engine from its progress. -/
def State.replay (s : State) (core : Nat) (r : Req) : State :=
  match r with
  | .wave id => s.updWave id fun w => match w.cond with | .parked .. => { w with cond := .running, run := none, latches := lostLatches } | _ => w
  | .copy id => s.updCopy core id fun c => if c.state = .parked then { c with state := .running } else c
  | .matrix gid => s.updHead gid fun r => { r with parked := false }

/-- A requester is declined: cause 0x20 with KIND 10, or the engine operation is abandoned. -/
def State.declineReq (s : State) (core stage : Nat) (va : Nat) (r : Req) : State :=
  match r with
  | .wave id =>
    match Tab.find s.waves id with
    | some w =>
      match w.cond with
      | .parked lane mask addr =>
        deliver s id w { code := 0x20, lane, mask, addr, kind := 2, rpc := w.pc, ipc := w.pc, xcnt := w.xcnt, stage := some stage }
      | _ => s
    | none => s
  | .copy id => match s.findCopy core id with | some c => s.abandonCopy core c 0x20 va | none => s
  | .matrix gid =>
    match Tab.find s.groups gid with
    | some g => (match g.queue with | r :: _ => s.abandonHead g gid r 0x20 va | [] => s)
    | none => s

/-- The entry that a FRESP value names, where the writer's level owns its stage. -/
def State.fresp (s : State) (die : Nat) (v : Word) (i : Inst) : Option (Nat × Nat × FbEntry) :=
  let core := die * 64 + fld v 11 6
  match Tab.find (s.core core).fbuf (fld v 5 0) with
  | some e => if i = s.stageOwner e.ctx e.stage then some (core, fld v 5 0, e) else none
  | none => none

/-- A FRESP write: the entry is freed and each of its requesters replays or is declined; a write that names no such entry is ignored. -/
def frespOp (die : Nat) (v : Word) (i : Inst) (s : State) (action : Nat) (f : State → Nat → FbEntry → Req × Nat → State) : Out :=
  when (decide (die < 4) && fld v 13 12 == action)
    (match s.fresp die v i with
     | none => s
     | some (core, k, e) => e.reqs.foldl (fun s r => f s core e r) (s.updCore core fun c => { c with fbuf := Tab.erase c.fbuf k }))

def execFrespRetry (die : Nat) (v : Word) (i : Inst) (s : State) : Out := frespOp die v i s 1 fun s core _ r => s.replay core r.1
def execFrespDecline (die : Nat) (v : Word) (i : Inst) (s : State) : Out :=
  frespOp die v i s 2 fun s core e r => s.declineReq core e.stage r.2 r.1

/-! ### Wave control (R378) -/

/-- The wave that WSEL and a WCMD value name, if the instance received its record and it is stopped. -/
def State.selected (s : State) (die : Nat) (v : DWord) (i : Inst) : Option (Nat × Wave) :=
  let sel := s.reg (.wsel die)
  let ctx := die * 256 + fld sel 44 37
  let grid := fld sel 31 0
  let wig := fld sel 36 32
  let grp := fld v 63 32
  s.waves.find? fun (_, w) =>
    decide (w.cond = .stopped (some i)) && s.ctxOf w == ctx && w.isTask == sel.getLsbD 45 &&
    (if sel.getLsbD 45 then (match (Tab.find s.groups w.group).bind Group.task with | some (q, id, _) => q == grid && id.toNat == grp && wig == 0 | none => false)
     else w.gridW.toNat == grid && w.groupW.toNat == grp && w.wig == wig)

/-- A WCMD write of one OP: an accepted command clears ERR, another sets it and has no effect. -/
def wcmdOp (die : Nat) (v : DWord) (i : Inst) (s : State) (op : Nat) (k : Nat → Wave → Option State) : Out :=
  when (decide (die < 4) && fld v 3 0 == op)
    (match (s.selected die v i).bind fun (id, w) => k id w with
     | some t => t.setRegF (.wcmd die) 17 17 0
     | none => s.setRegF (.wcmd die) 17 17 1)

def wReg (v : DWord) : Nat := fld v 11 4
def wLane (v : DWord) : Nat := fld v 16 12
def State.wdata (s : State) (die : Nat) : DWord := s.reg (.wdata die)

def execWcmdReadReg (die : Nat) (v : DWord) (i : Inst) (s : State) : Out :=
  wcmdOp die v i s 1 fun _ w =>
    if w.declared ≤ wReg v then none else some (s.setReg (.wdata die) ((w.regLane (wReg v) (wLane v)).setWidth 64))

/-- A register write clears the quad's tag in the lane written; a lane of a returned slice takes nothing (01 R14, R17). The spec does not say whether the
write counts as a writeback of 09 R168: the register takes a name of its own and is not hashed (log 68). -/
def State.handlerWrite (s : State) (id : Nat) (w : Wave) (n l : Nat) (x : Word) : State :=
  let w' := w.putLanes (w.key n) (maskOf (· == l) &&& sliceMask w.live) fun _ => x
  if w.evicted.isSome then s.setWave id w'
  else
    let base := (s.quarter w.quarterKey).nextName
    s.noteNames id w ((w'.rename [w.key n] base)) [w.key n] none 0 false

def execWcmdWriteReg (die : Nat) (v : DWord) (i : Inst) (s : State) : Out :=
  wcmdOp die v i s 2 fun id w =>
    if w.declared ≤ wReg v then none else some (s.handlerWrite id w (wReg v) (wLane v) ((s.wdata die).setWidth 32))

def execWcmdReadExm (die : Nat) (v : DWord) (i : Inst) (s : State) : Out :=
  wcmdOp die v i s 3 fun _ w => some (s.setReg (.wdata die) (w.exm.setWidth 64))

/-- As 01 R11: the value written is ANDed with the live mask. -/
def execWcmdWriteExm (die : Nat) (v : DWord) (i : Inst) (s : State) : Out :=
  wcmdOp die v i s 4 fun id w => some (s.setWave id { w with exm := (s.wdata die).setWidth 32 &&& w.live })

def execWcmdReadFpc (die : Nat) (v : DWord) (i : Inst) (s : State) : Out :=
  wcmdOp die v i s 5 fun _ w => some (s.setReg (.wdata die) ((w.fpc &&& fpcMask).setWidth 64))

def execWcmdWriteFpc (die : Nat) (v : DWord) (i : Inst) (s : State) : Out :=
  wcmdOp die v i s 6 fun id w => some (s.setWave id { w with fpc := (s.wdata die).setWidth 32 &&& fpcMask })

def execWcmdResume (die : Nat) (v : DWord) (i : Inst) (s : State) : Out :=
  wcmdOp die v i s 8 fun id w => some (resumeWave s id w)

/-- Resume at: the PC is not checked; XCNT and a held 0x03 are discarded (02 R38, 06 R148). -/
def execWcmdResumeAt (die : Nat) (v : DWord) (i : Inst) (s : State) : Out :=
  wcmdOp die v i s 9 fun id w => some (resumeWave s id { w with pc := (s.wdata die).setWidth 57, xcnt := 0, hold3 := false })

/-- A grid one of whose waves a handler ends completes with status 3 (14 R306, 21 R385). -/
def State.markEnded (s : State) (w : Wave) : State :=
  match (Tab.find s.groups w.group).bind Group.grid with
  | some k => s.updGrid k fun g => { g with worst := 3 }
  | none => s

def execWcmdEndWave (die : Nat) (v : DWord) (i : Inst) (s : State) : Out :=
  wcmdOp die v i s 10 fun id w => some ((s.markEnded w).endWave id w)

def execWcmdEndContext (die : Nat) (v : DWord) (i : Inst) (s : State) : Out :=
  wcmdOp die v i s 11 fun _ w => some (s.endContext (s.ctxOf w))

/-! ### Rights and queue registers (R369, R372) -/

/-- The instances that are below another. -/
def Inst.under (i j : Inst) : Bool :=
  match i, j with
  | .root, .root => false
  | .root, _ => true
  | .op, .res _ => true
  | .op, .ten .. => true
  | .res a, .ten b _ => a == b
  | _, _ => false

/-- A write of DRIGHTS: a bit that the writer does not hold stays; a bit that clears, clears in every descendant at once (R369). -/
def execDrightsWrite (i : Inst) (v : DWord) (s : State) : Out :=
  let old := s.reg (.drights i)
  let bit := fun (b : Nat) => if v.getLsbD b then s.hasRight i b || old.getLsbD b else false
  let new : Nat := ((List.range 11).map fun b => if bit b then 2 ^ b else 0).sum
  let gone := old &&& ~~~(BitVec.ofNat 64 new)
  let below := s.lregs.filterMap fun (r, _) => match r with | .drights j => if Inst.under i j then some j else none | _ => none
  .next (below.foldl (fun s j => s.setReg (.drights j) (s.reg (.drights j) &&& ~~~gone)) (s.setReg (.drights i) (BitVec.ofNat 64 new)))

/-- HEAD: a write that would leave more than the queue holds is ignored. -/
def execFqheadWrite (i : Inst) (v : Word) (s : State) : Out :=
  let used := (s.regF (.fqtail i) 31 0 + 2 ^ 32 - v.toNat) % 2 ^ 32
  .next (if s.fqSize i < used then s else s.setReg (.fqhead i) (v.setWidth 64))

/-- FQBASE, written by root: EN rising sets TAIL and HEAD to zero. -/
def execFqbaseWrite (i : Inst) (v : DWord) (s : State) : Out :=
  let t := s.writeReg (.fqbase i) v
  .next (if !(s.reg (.fqbase i)).getLsbD 63 && v.getLsbD 63 then (t.setReg (.fqtail i) 0).setReg (.fqhead i) 0 else t)

end Sys2Proof.Machine
end

