-- ==== Sys2Proof/Machine/Queues.lean ====
section
/-! DEFINITION. Virtual devices (21 R367, R379-R391): creation, queues and commands, notifies, grids from command to completion, function-level reset, and
the registers that go with them. The rings are split virtqueues of virtio 1.2 (log 51). -/

namespace Sys2Proof.Machine

/-! ### Command cores (R363, R398) -/

def State.primary (s : State) : Nat := s.regF .supst 2 0
def State.standby (s : State) : Nat := s.regF .supst 5 3
def State.noStandby (s : State) : Bool := (s.reg .supst).getLsbD 6

/-- Command cores of a die: every live Landing core but the supervisor pair. -/
def State.commandCores (s : State) (die : Nat) : List Nat :=
  ((List.range 8).filter fun c => !(s.lcore (die * 8 + c)).fenced && (die != 0 || (c != s.primary && (s.noStandby || c != s.standby)))).map (die * 8 + ·)

def State.vdev (s : State) (v : Nat) : VDev := (Tab.find s.vdevs v).getD { ctx := 0, wpart := 0, rpart := 0, home := 0 }

/-- The Landing core that serves a context. -/
def State.cmdCore (s : State) (ctx : Nat) : Nat := (s.vdev (match Tab.find s.ctxs ctx with | some c => c.vdev | none => 0)).lcore

/-! ### A device's memory (R380, R383) -/

/-- Offsets at which a range enters a 4 KiB frame. -/
def framesOf (va n : Nat) : List Nat := (List.range n).filter fun i => i == 0 || (va + i) % 4096 == 0

/-- Physical addresses of a range of a context's virtual memory, by its tables at the home, with a kind of access for each stage. -/
def State.devRange (s : State) (ctx va n : Nat) (k1 k2 k3 : AccKind) : Option (List Nat) :=
  (framesOf va n).foldl (fun acc i =>
    match acc, walkAll s (ctx / 256) ctx ((va + i) % 2 ^ 57) k1 k2 k3 with
    | some l, .ok pa => some (l ++ (List.range (min (n - i) (4096 - (va + i) % 4096))).map (pa + ·))
    | _, _ => none) (some [])

/-- The walks of a range are served at the slices of their entries, as context slot 0 (19 R325, R327, 21 R363). -/
def State.walkTouch (s : State) (ctx va n : Nat) : State :=
  s.prepRead (ctx / 256) (ctx / 256 * 256) .normal ((framesOf va n).flatMap fun i => walkedAll s (ctx / 256) ctx ((va + i) % 2 ^ 57))

/-- The Landing reads; poison and unbacked bytes read as zero. -/
def State.devRead (s : State) (ctx va n : Nat) : Option (List Byte) :=
  (s.devRange ctx va n .read .read .read).map fun as => as.map fun a => if s.backing (ctx / 256) a = .none || s.poisonAt a then 0 else s.homeAt a

/-- The lines that such a read finds are touched, and those of its walks (R363). -/
def State.devTouch (s : State) (ctx va n : Nat) : State :=
  let t := s.walkTouch ctx va n
  t.prepRead (ctx / 256) (ctx / 256 * 256) .normal ((s.devRange ctx va n .read .read .read).getD [])

/-- The Landing core of a context writes at the home as context slot 0 (R363), with granule tags. -/
def State.devPut (s : State) (ctx : Nat) (as : List Nat) (bytes : List Byte) (tags : List Nat) : State :=
  s.foreignWrite (.landing (s.cmdCore ctx)) (landingCore (s.cmdCore ctx)) (ctx / 256) (ctx / 256 * 256) (as.zip bytes)
    (tags.filterMap fun i => (as[16 * i]?).map fun a => (a / 16, true))

def State.devWrite (s : State) (ctx va : Nat) (bytes : List Byte) : Option State :=
  (s.devRange ctx va bytes.length .write .write .write).map fun as => (s.walkTouch ctx va bytes.length).devPut ctx as bytes []

/-! ### Chains (R381) -/

def State.vqueue (s : State) (v q : Nat) : VQueue := Tab.get {} (s.vdev v).queues q
def State.updVq (s : State) (v q : Nat) (f : VQueue → VQueue) : State :=
  { s with vdevs := Tab.upd s.vdevs v fun d => { d with queues := Tab.set d.queues q (f (Tab.get {} d.queues q)) } }

/-- A descriptor: address, length, flags (NEXT 1, WRITE 2, INDIRECT 4), next. -/
structure VDesc where
  addr : Nat
  len : Nat
  flags : Nat
  next : Nat
  deriving DecidableEq, Repr

def State.descAt (s : State) (v q i : Nat) : Option VDesc :=
  let vq := s.vqueue v q
  if vq.size ≤ i then none
  else (s.devRead (s.vdev v).ctx (vq.desc + 16 * i) 16).map fun b =>
    let x := leNat b
    { addr := x % 2 ^ 64, len := x / 2 ^ 64 % 2 ^ 32, flags := x / 2 ^ 96 % 8, next := x / 2 ^ 112 }

/-- A chain: whether it is well formed, the record's address, and the completion buffer. -/
structure Chain where
  good : Bool
  rec_ : Nat
  compl : Option Nat
  deriving DecidableEq, Repr

def State.chain (s : State) (v q head : Nat) : Chain :=
  let buf := fun (d : VDesc) => if (d.flags == 2 || d.flags == 3) && decide (16 ≤ d.len) then some d.addr else none
  match s.descAt v q head with
  | none => ⟨false, 0, none⟩
  | some a =>
    match (if a.flags % 2 = 1 then s.descAt v q a.next else none) with
    | none => ⟨false, 0, buf a⟩
    | some b => ⟨a.flags == 1 && a.len == 128 && a.addr % 128 == 0 && b.flags == 2 && b.len == 16, a.addr, (buf b).or (buf a)⟩

/-! ### Completions (R381, R385) -/

/-- The error entry of a queue or notify (R376). -/
def State.queueError (s : State) (v q reason seq drop : Nat) : State :=
  let tenant := match Tab.find s.vdevs v with | some d => s.tenantOf d.ctx | none => 0
  s.sendRec { body := BitVec.ofNat 512 (v + q * 2 ^ 10 + reason * 2 ^ 14 + seq % 2 ^ 64 * 2 ^ 64 + drop % 2 ^ 32 * 2 ^ 128 + tenant.toNat * 2 ^ 160 + 5 * 2 ^ 504)
              cls := 4, stage := none, tenant, toRoot := (Tab.find s.vdevs v).isNone, wave := none, waited := false }

/-- The used ring's next element, and then its index. -/
def State.pushUsed (s : State) (v q head len : Nat) : State :=
  let vq := s.vqueue v q
  let ctx := (s.vdev v).ctx
  let t := (s.devWrite ctx (vq.used + 4 + 8 * (vq.usedIdx % vq.size)) (leBytes 4 head ++ leBytes 4 len)).getD s
  let t := (t.devWrite ctx (vq.used + 2) (leBytes 2 (vq.usedIdx + 1))).getD t
  t.updVq v q fun x => { x with usedIdx := (x.usedIdx + 1) % 65536 }

/-- Completes a command: the completion buffer, the used element, the used index; without a writable buffer, used length 0 and an error entry. -/
def State.complete (s : State) (v q head : Nat) (buf : Option Nat) (status reason loss : Nat) : State :=
  let ctx := (s.vdev v).ctx
  let bytes := leBytes 4 (status + reason * 256) ++ leBytes 4 loss ++ leBytes 8 (s.reg (.ctxw ctx 22)).toNat
  match buf.bind fun a => s.devWrite ctx a bytes with
  | some t => t.pushUsed v q head 16
  | none => (s.pushUsed v q head 0).queueError v q 1 head 0

/-! ### Halted queues (R392, R396) -/

/-- Dies of the hard partitions that a handshake affects. -/
def State.affected (s : State) (die : Nat) : Bool :=
  let new := s.regF .hpst 15 8
  let moved := (List.range 4).filter fun d => s.hpOf d != new / 4 ^ d % 4
  moved.any fun d => s.hpOf die == s.hpOf d || s.hpOf die == new / 4 ^ d % 4

/-- Dispatch from the queues of a die's devices is stopped by a handshake. -/
def State.hpStopped (s : State) (die : Nat) : Bool := (s.regF .hpst 1 0 == 1 || s.regF .hpst 1 0 == 2) && s.affected die

/-- Service has started: some die has a trained stack and a running Landing (24 R417). -/
def State.inService (s : State) : Bool :=
  let r := s.reg .pkgst0
  (List.range 4).any fun d => r.getLsbD (28 + d) && (List.range 3).any fun k => r.getLsbD (3 * d + k)

/-- The package serves, and a device's command core runs. -/
def State.served (s : State) (v : Nat) : Bool := s.inService && !(s.lcore (s.vdev v).lcore).fenced && !s.hpStopped (s.vdev v).home

/-! ### Notifies (R386, R387) -/

/-- Reads the available index and takes every entry not yet seen, in ring order. -/
def State.readRing (s : State) (v q : Nat) : State :=
  let vq := s.vqueue v q
  let ctx := (s.vdev v).ctx
  match s.devRead ctx (vq.avail + 2) 2 with
  | none => s
  | some b =>
    let n := (leNat b + 65536 - vq.seen) % 65536
    (List.range n).foldl (fun s i =>
      let a := vq.avail + 4 + 2 * ((vq.seen + i) % vq.size)
      match s.devRead ctx a 2, Tab.find s.ctxs ctx with
      | some h, some c =>
        ({ s.devTouch ctx a 2 with ctxs := Tab.set s.ctxs ctx { c with order := c.order + 1 } } : State).updVq v q fun x =>
          { x with ready := x.ready ++ [(leNat h, c.order)], seen := (x.seen + 1) % 65536 }
      | _, _ => s) (s.devTouch ctx (vq.avail + 2) 2)

/-- A dropped notify: DROP grows, and the first of a period is reported (R376). -/
def State.dropNotify (s : State) (v q reason seq : Nat) : State :=
  let r : LReg := .nqctl v q
  let n := (s.regF r 47 16 + 1) % 2 ^ 32
  let t := s.setRegF r 47 16 n
  let period := s.ref (s.vdev v).home / 2 ^ 20
  if (s.vqueue v q).dropPeriod = some period then t
  else (t.updVq v q fun x => { x with dropPeriod := some period }).queueError v q reason seq n

def journalSize : Nat := 4096

/-- The key of a queue. -/
def State.nkeyBytes (s : State) (v q : Nat) : List Byte := keyBytes ((List.range 8).map fun k => s.reg (.nkey v q k))

/-- One message at the notify unit, whose journal has room (R387). -/
def State.takeNotify (s : State) (die : Nat) (msg : List Byte) : State :=
  let x := leNat msg
  let (v, q) := (x % 1024, x / 1024 % 16)
  let seq := x / 2 ^ 64 % 2 ^ 64
  let c := s.reg (.nqctl v q)
  if !c.getLsbD 0 || !c.getLsbD 1 then s.dropNotify v q 2 seq
  else if !c.getLsbD 2 then s.dropNotify v q 3 seq
  else if seq ≤ (s.reg (.lastseq v q)).toNat then s.dropNotify v q 4 seq
  else if (hmac512 (s.nkeyBytes v q) (msg.take 16)).take 16 ≠ (msg.drop 16).take 16 then s.dropNotify v q 5 seq
  else
    (s.setReg (.lastseq v q) (BitVec.ofNat 64 seq)).updDie die fun d =>
      { d with journal := d.journal ++ [{ vdev := v, queue := q, seq := BitVec.ofNat 64 seq, ack := false }] }

/-- Messages held back are taken, in order of arrival, while the journal has room. -/
def State.takeHeld (s : State) (die : Nat) : State :=
  (s.die die).heldMsgs.foldl (fun s m =>
    if journalSize ≤ (s.die die).journal.length then s
    else (s.updDie die fun d => { d with heldMsgs := d.heldMsgs.drop 1 }).takeNotify die m) s

def execNotifyReceive (die : Nat) (msg : List Byte) (s : State) : Out :=
  let v := leNat msg % 1024
  let ours := match Tab.find s.vdevs v with | some d => d.home == die | none => true
  when (decide (die < 4 ∧ msg.length = 32) && ours && !(s.die die).fenced)
    (if journalSize ≤ (s.die die).journal.length ∨ (s.die die).heldMsgs ≠ [] then
       (s.updDie die fun d => { d with heldMsgs := d.heldMsgs ++ [msg] }).bumpDie die .njfull
     else s.takeNotify die msg)

/-- The command processor takes the first unacknowledged entry that it may serve: it reads the ring, and the entry is freed. -/
def execNotifyProcess (die : Nat) (s : State) : Out :=
  match (s.die die).journal.find? fun e => !e.ack && s.served e.vdev with
  | none => .fault .notEnabled
  | some e =>
    let t := s.readRing e.vdev e.queue
    .next ((t.updDie die fun d => { d with journal := d.journal.erase e }).takeHeld die)

/-- A tenant driver on the Landing notifies: the MAC and SEQ checks are passed over; a queue that is not enabled drops it; a halted one keeps it. -/
def execLandingNotify (v q : Nat) (i : Inst) (s : State) : Out :=
  match Tab.find s.vdevs v with
  | none => .fault .notEnabled
  | some d =>
    when (decide (q < 16) && i.covers (s.tenantOf d.ctx))
      (if !(s.reg (.nqctl v q)).getLsbD 0 then s.dropNotify v q 2 0
       else if s.served v then s.readRing v q
       else s.updDie d.home fun x => { x with journal := x.journal ++ [{ vdev := v, queue := q, seq := s.reg (.lastseq v q), ack := false }] })

/-- NKEY: the whole key; KEYV is set and LASTSEQ starts again (R386). -/
def execNkeyWrite (v q : Nat) (key : List DWord) (i : Inst) (s : State) : Out :=
  let t := (List.range 8).foldl (fun s k => s.setReg (.nkey v q k) ((key[k]?).getD 0)) s
  when (decide (v < 1024 ∧ q < 16 ∧ key.length = 8) && s.mayWrite i (.nkey v q 0)) ((t.setRegF (.nqctl v q) 2 2 1).setReg (.lastseq v q) 0)

/-! ### Checks of a grid (R383, R385, 08 R160, 18 R312) -/

def recF (r : List Byte) (off n : Nat) : Nat := leNat ((r.drop off).take n)

/-- Bit i of the capability map. -/
def capMap (r : List Byte) (i : Nat) : Bool := if i < 16 then (recF r 40 2).testBit i else (recF r 48 16).testBit (i - 16)

def hdrScratch (h : BitVec 512) : Nat := fld h 95 64
def hdrArgSize (h : BitVec 512) : Nat := fld h 159 128

/-- The kernel header is not one that R382 describes, or its argument size is wrong (REASON 5). -/
def badHeader (va : Nat) (h : BitVec 512) (argLen : Nat) : Bool :=
  va % 64 != 0 || fld h 31 0 != 1 || fld h 63 45 != 0 || fld h 127 103 != 0 || fld h 191 160 == 0 || fld h 197 192 != 0 || fld h 255 249 != 0 ||
  fld h 511 288 != 0 || argLen != hdrArgSize h || decide (2304 < hdrArgSize h)

/-- The partition word is refused (08 R160). -/
def badPart (part : Word) (h : BitVec 512) : Bool :=
  fld part 31 28 != 0 || regbOf part == 0 || decide (64 < regbOf part) || decide (64 < scrbOf part) || decide (64 < accbOf part) ||
  decide (63 < regbOf part + scrbOf part + accbOf part) || fld part 25 21 != fld h 43 39 || fld part 27 26 != fld h 38 37 ||
  decide (scrbOf part * 65536 < hdrScratch h)

/-- The Ferryman word is refused (18 R312). -/
def badFerry (f : DWord) : Bool :=
  dimX f == 0 || dimY f == 0 || decide (3 < fld f 34 32) || decide (8 < blkLog f) || fld f 63 43 != 0 || (!isGang f && fld f 42 40 != 0) ||
  (isGang f && decide (2 ^ 26 < dimX f * dimY f))

/-- A grid's scratch authority (R383). -/
def scratchAuth (part : Word) : Cap := mkCap 0 (scrbOf part * 65536) 63 0 0 true

/-- A capability image rebuilt under its authority, as `CNARROW.set` would. -/
def rebuild (troot : Cap) (part : Word) (bits : BitVec 128) : Option Cap :=
  let raw : Cap := ⟨bits, false⟩
  match narrowSet (if raw.scr then scratchAuth part else troot) raw 0 with | .ok c => some c | .error _ => none

/-- Whether an empty core's bank set could admit a group (REASON 7). -/
def State.couldAdmit (s : State) (core ctx : Nat) (part kprog : Word) : Bool :=
  match s.setOf core ctx with
  | none => false
  | some n =>
    let all := (List.range 64).filter fun b => s.inMask core n b && s.spillBank core n != some b
    (List.range 4).any fun q0 =>
      (bankPlan all (fld kprog 11 7 + 1) ((fld kprog 4 0 + 1) * 8) (fld kprog 6 5 + 1) (scrbOf part) (accbOf part) (regbOf part) q0).isSome

def State.everAdmits (s : State) (ctx : Nat) (part kprog : Word) (ferry : DWord) : Bool :=
  let n := gangSize ferry
  (s.clusterOrder ctx none).any fun cl => (placesIn (isGang ferry) n cl).any fun c => (List.range n).all fun r => s.couldAdmit (c + r) ctx part kprog

/-- A grid identifier that no live grid of the context has (01 R24). -/
def State.freshGridW (s : State) (ctx : Nat) : Word :=
  let used := (s.grids.filter fun (_, g) => g.ctx == ctx).map fun (_, g) => g.gridW
  let x := Config.gridId s.draw
  ((List.range (used.length + 1)).map fun k => x + BitVec.ofNat 32 k).find? (fun y => !used.contains y) |>.getD x

/-! ### Commands (R381-R385) -/

/-- The next command of a queue: a chain or a child's record, with its place in the order. -/
inductive Cmd
  | chain (head order : Nat) | child (die : Nat) (r : PendRecord)
  deriving DecidableEq, Repr

/-- The oldest command of a queue (R384, R389); none where a child's record that still stands in an overflow ring comes first. -/
def State.nextCmd (s : State) (v q : Nat) : Option Cmd :=
  let d := s.vdev v
  let kids := (List.range 4).flatMap fun e => ((s.die e).pool.filter fun r => r.ctx == d.ctx && r.queue == q).map fun r => (e, r)
  let ring := (List.range 4).flatMap fun e => (s.die e).overflow.filter fun r => r.ctx == d.ctx && r.queue == q
  let least := fun (l : List Nat) => l.min?
  let kid := (kids.find? fun x => some x.2.order == least (kids.map fun y => y.2.order))
  let own := (s.vqueue v q).ready.head?
  let limit := least (ring.map PendRecord.order)
  let ok := fun (o : Nat) => match limit with | some m => decide (o < m) | none => true
  match own, kid with
  | some (h, o), some (e, r) => if o < r.order then (if ok o then some (.chain h o) else none) else if ok r.order then some (.child e r) else none
  | some (h, o), none => if ok o then some (.chain h o) else none
  | none, some (e, r) => if ok r.order then some (.child e r) else none
  | none, none => none

/-- Takes the command from its place. -/
def State.takeCmd (s : State) (v q : Nat) : Cmd → State
  | .chain .. => s.updVq v q fun x => { x with ready := x.ready.drop 1 }
  | .child e r => s.updDie e fun d => { d with pool := d.pool.erase r }

/-- A refused command: completion or join status 2 (R385, 14 R306). -/
def State.refuse (s : State) (v q : Nat) (c : Cmd) (ch : Chain) (reason : Nat) : State :=
  match c with
  | .chain h _ => s.complete v q h ch.compl 2 reason 0
  | .child _ r => s.reportJoin r.ctx r.ticket 2

/-- The grid that a KIND 1 record asks for, or the reason for which it is refused; the last check, of the argument block, comes when a slot is given. -/
def State.checkGrid (s : State) (v q : Nat) (r : List Byte) : Except Nat Grid :=
  let ctx := (s.vdev v).ctx
  let c := (Tab.find s.ctxs ctx).getD { vdev := v, taskArea := 0 }
  let hva := recF r 16 8 % 2 ^ 57
  let argLen := recF r 32 4
  match s.devRead ctx hva 64, s.devRead ctx (recF r 24 8 % 2 ^ 57) argLen with
  | some hb, some args =>
    let h : BitVec 512 := BitVec.ofNat 512 (leNat hb)
    let part : Word := BitVec.ofNat 32 (recF r 4 4)
    let ferry : DWord := BitVec.ofNat 64 (recF r 8 8)
    let kprog := hdrKprog h
    let set := (List.range 144).filter (capMap r)
    let caps := set.map fun i => rebuild c.troot part (BitVec.ofNat 128 (recF args (16 * i) 16))
    if badHeader hva h argLen then .error 5
    else if badPart part h then .error 3
    else if badFerry ferry then .error 4
    else if set.any (fun i => decide (argLen < 16 * (i + 1))) || caps.any Option.isNone then .error 6
    else if !s.everAdmits ctx part kprog ferry || s.regF (.ctxw ctx 12) 15 0 == 0 then .error 7
    else
      .ok { ctx, queue := q, gridW := s.freshGridW ctx, kind := 1, part, ferry, gseed := BitVec.ofNat 32 (recF r 36 4), kprog, entry := hdrEntry h
            nlines := hdrLines h, args, argTags := set, argSlot := none, c0 := ⟨0, false⟩, lossAt := BitVec.ofNat 32 (s.regF (.ctxw ctx 3) 31 0) }
  | _, _ => .error 10

/-! ### Argument slots (R383) -/

def argBlock (s : State) (ctx j : Nat) : Nat := s.regF (.ctxw ctx 11) 56 0 + 2304 * j

/-- The lowest free argument slot. -/
def State.argFree (s : State) (ctx : Nat) : Option Nat :=
  let used := match Tab.find s.ctxs ctx with | some c => c.argUsed | none => []
  (List.range (s.regF (.ctxw ctx 12) 15 0)).find? fun j => !used.contains j

/-- A command's end: its completion and its joiner (R385, 14 R306). -/
def State.report (s : State) (g : Grid) (status reason loss : Nat) : State :=
  let v := match Tab.find s.ctxs g.ctx with | some c => c.vdev | none => 0
  let s := match g.compl with | some (buf, head) => s.complete v g.queue head (some buf) status reason loss | none => s
  s.reportJoin g.ctx g.ticket status

/-- Places the argument block in a slot: the grid's elements may start; or a fault of the write refuses it. -/
def State.giveSlot (s : State) (gid : Nat) (g : Grid) (j : Nat) : State :=
  let a := argBlock s g.ctx j
  match s.devRange g.ctx a g.args.length .read .write .write with
  | none => ({ s with grids := Tab.erase s.grids gid } : State).report g 2 10 0
  | some as =>
    let t := (s.walkTouch g.ctx a g.args.length).devPut g.ctx as g.args g.argTags
    let t := t.updCtx g.ctx fun c => { c with argUsed := c.argUsed ++ [j] }
    t.updGrid gid fun g => { g with argSlot := some j, status := .running, c0 := mkCap a g.args.length (2 ^ pRD) 0 0 }

/-- No grid of a queue waits undispatched for an argument slot (R383). -/
def State.queueFree (s : State) (ctx q : Nat) : Bool := !(s.grids.any fun (_, g) => g.ctx == ctx && g.queue == q && decide (g.status = .queued))

/-- A queue may dispatch its next command. -/
def State.mayDispatch (s : State) (v q : Nat) : Bool :=
  let ctx := (s.vdev v).ctx
  s.served v && (match Tab.find s.ctxs ctx with | some c => !c.stopped | none => false) &&
  s.queueFree ctx q

/-- The record of a command and its chain. -/
def State.cmdRecord (s : State) (v q : Nat) (c : Cmd) : Chain × Option (List Byte) :=
  match c with
  | .child _ r => (⟨true, 0, none⟩, some r.bytes)
  | .chain h _ => let ch := s.chain v q h; (ch, if ch.good then s.devRead (s.vdev v).ctx ch.rec_ 128 else none)

/-- What the command processor reads of a command: its descriptors and its record, and of a grid its header and its argument block. -/
def State.cmdReads (s : State) (v q : Nat) (c : Cmd) : List (Nat × Nat) :=
  let vq := s.vqueue v q
  let own := match c with
    | .child .. => []
    | .chain h _ =>
      let ch := s.chain v q h
      (vq.desc + 16 * h, 16) :: (match s.descAt v q h with | some a => if a.flags % 2 = 1 then [(vq.desc + 16 * a.next, 16)] else [] | none => []) ++
        if ch.good then [(ch.rec_, 128)] else []
  own ++ match (s.cmdRecord v q c).2 with
    | some r => if recF r 0 4 = 1 then [(recF r 16 8 % 2 ^ 57, 64), (recF r 24 8 % 2 ^ 57, recF r 32 4)] else []
    | none => []

/-- The command processor has read a command (R363). -/
def State.cmdTouch (s : State) (v q : Nat) (c : Cmd) : State :=
  (s.cmdReads v q c).foldl (fun t x => t.devTouch (s.vdev v).ctx x.1 x.2) s

/-- The next command of a queue, where it is not for a checkpoint: a grid is checked and queued, anything else is refused. -/
def execGridCommand (v q : Nat) (s : State) : Out :=
  match s.nextCmd v q with
  | none => .fault .notEnabled
  | some c =>
    let ctx := (s.vdev v).ctx
    let (ch, bytes) := s.cmdRecord v q c
    let t := (s.cmdTouch v q c).takeCmd v q c
    let go := s.mayDispatch v q && (Tab.find s.vdevs v).isSome
    match bytes with
    | none => when go (t.refuse v q c ch (if ch.good then 10 else 1))
    | some r =>
      let kind := recF r 0 4
      let child := match c with | .child .. => true | .chain .. => false
      if !child && (kind == 2 || kind == 3) then .fault .notEnabled
      else if kind ≠ 1 then when go (t.refuse v q c ch 2)
      else if (recF r 42 2).testBit 0 && s.grids.any fun (_, g) => g.ctx == ctx && g.queue == q then .fault .notEnabled
      else
        match s.checkGrid v q r with
        | .error e => when go (t.refuse v q c ch e)
        | .ok g =>
          let g := match c with
            | .chain h o => { g with compl := ch.compl.map fun a => (a, h), order := o }
            | .child _ p => { g with ticket := p.ticket, order := p.order }
          let u : State := { t.drawn.fresh with grids := Tab.set t.grids t.nextId g }
          when go (match u.argFree ctx with | some j => u.giveSlot t.nextId g j | none => u)

/-- A slot is free: the oldest grid of the context that waits for one takes it. -/
def execArgSlotWaitEnd (ctx : Nat) (s : State) : Out :=
  let waiting := s.grids.filter fun (_, g) => g.ctx == ctx && decide (g.status = .queued) && !g.ended
  match waiting.find? (fun (_, g) => some g.order == (waiting.map fun x => x.2.order).min?), s.argFree ctx with
  | some (k, g), some j => .next (s.giveSlot k g j)
  | _, _ => .fault .notEnabled

/-! ### Completion (R385, 11 R227) -/

/-- No write or atomic of a context is on its way: a release at `.sys` of its grids has completed. -/
def State.ctxHome (s : State) (ctx : Nat) : Bool :=
  s.cores.all fun (_, c) => c.pend.all (fun p => p.ctx != ctx) && c.atoms.all fun a => a.ctx != ctx

/-- Loss over a command, saturating. -/
def State.lossOf (s : State) (g : Grid) : Nat := s.regF (.ctxw g.ctx 3) 31 0 - g.lossAt.toNat

/-- Every element has been issued and every group has ended: status, slot, report; a checkpoint's command keeps the worst of its grids. -/
def execGridComplete (grid : Nat) (s : State) : Out :=
  match Tab.find s.grids grid with
  | none => .fault .notEnabled
  | some g =>
    let loss := s.lossOf g
    let status := if g.worst ≠ 0 then g.worst else if loss ≠ 0 ∧ g.kind = 1 then 1 else 0
    let t : State := { s with grids := Tab.erase s.grids grid }
    let left := t.grids.filterMap fun (_, h) => if h.ctx = g.ctx then h.argSlot else none
    let used := fun (l : List Nat) => if g.kind = 1 then l.filter fun j => g.argSlot != some j else l.filter left.contains
    let t := t.updCtx g.ctx fun c => { c with argUsed := used c.argUsed }
    let t := match g.parent with | some p => t.updGrid p fun h => { h with worst := max h.worst status } | none => t.report g status 0 loss
    when (g.groups.isEmpty && (g.ended || g.next.isNone) && s.ctxHome g.ctx && !(s.grids.any fun (_, h) => h.parent == some grid) &&
      (g.ended || decide (g.status = .running))) t

/-! ### Function-level reset (R388) -/

/-- The acceptance point: queues disabled, unprocessed journal entries discarded, the context ended, and nothing will be reported. -/
def execFunctionLevelReset (v : Nat) (i : Inst) (s : State) : Out :=
  match Tab.find s.vdevs v with
  | none => .fault .notEnabled
  | some d =>
    let t := (List.range 16).foldl (fun s q => s.setRegF (.nqctl v q) 0 0 0) s
    let t := (List.range 4).foldl (fun s e => (s.updDie e fun x => { x with journal := x.journal.filter fun j => j.vdev != v || j.ack }).takeHeld e) t
    let t := (List.range 16).foldl (fun s q => s.updVq v q fun x => { x with seen := 0, usedIdx := 0, ready := [] }) t
    let t := t.endContext d.ctx
    let grids := t.grids.map fun (k, g) => (k, if g.ctx = d.ctx then { g with compl := none, ticket := none } else g)
    let t : State := { t with grids }
    when (i.covers (s.tenantOf d.ctx) && s.hasRight i 5) (t.updCtx d.ctx fun c => { c with stopped := false })

/-! ### Registers (R390, R391) -/

/-- OVFLCTL, written by root: ignored while records stand in the ring. -/
def execOvflctlWrite (die : Nat) (v : DWord) (i : Inst) (s : State) : Out :=
  when (decide (die < 4) && s.mayWrite i (.ovflctl die)) (if s.regF (.ovflst die) 20 0 ≠ 0 then s else (s.writeReg (.ovflctl die) v).updDie die fun d => { d with ringHead := 0 })

/-- VDSCHED: QUANTUM 0 is rejected; a device that is not bank-resident gets at least SAVEWC + 50. -/
def execVdschedWrite (v : Nat) (x : DWord) (i : Inst) (s : State) : Out :=
  match Tab.find s.vdevs v with
  | none => .fault .notEnabled
  | some d =>
    let r : LReg := .vdsched v
    let save := s.regF r 55 34
    let low := !s.bankResident d.ctx && decide (fld x 31 8 < save)
    let t := ((s.writeReg r x).setRegF r 33 33 0).setRegF r 32 32 (if low then 1 else 0)
    when (s.mayWrite i r) (if fld x 31 8 = 0 then s.setRegF r 33 33 1 else if low then t.setRegF r 31 8 (save + 50) else t)

/-! ### Creation (R367, R379) -/

/-- A register of a context or of a device, which a creation resets. -/
def ofDevice (ctx v : Nat) : LReg → Bool
  | .xwin c _ _ | .rwin c _ _ | .collgrp c _ | .mlist c _ _ | .mglist c _ | .mgcfg c | .ctxw c _ => c == ctx
  | .vdsched u | .dlctl u _ | .nqctl u _ | .nkey u _ _ | .lastseq u _ => u == v
  | _ => false

/-- The ring places that the device's transport gives a queue: from outside the machine (log 51). -/
def freshQueue (v q : Nat) : VQueue :=
  let (n, d, a, u) := Config.ring v q
  { size := 2 ^ (n % 16), desc := d, avail := a, used := u }

/-- Gives a context a bank set of its own on every core of its partition where one is free (08 R163). -/
def State.giveSets (s : State) (ctx : Nat) : State :=
  (s.partCores ctx).foldl (fun s k =>
    let own := (s.core k).setOwner
    match (List.range 8).find? fun n => (Tab.find own n).isNone with
    | some n => s.updCore k fun c => { c with setOwner := Tab.set c.setOwner n ctx }
    | none => s) s

/-- Creates a virtual device on its home die; beyond the limits the creation is refused and nothing changes. -/
def execVirtualDeviceCreate (die v wpart rpart : Nat) (i : Inst) (s : State) : Out :=
  let slot := (List.range 256).find? fun k => (Tab.find s.ctxs (die * 256 + k)).isNone
  let tenant : Word := BitVec.ofNat 32 (v + wpart * 2 ^ 10 + rpart * 2 ^ 14)
  let path := decide (die < 4) && i.covers tenant && s.hasRight i 0
  match slot with
  | some k =>
    if 1024 ≤ v ∨ 16 ≤ wpart ∨ 64 ≤ rpart ∨ (Tab.find s.vdevs v).isSome then when path s
    else
      let ctx := die * 256 + k
      let cores := s.commandCores die
      let lcore := (cores[Config.pick s.draw cores.length % max 1 cores.length]?).getD (die * 8 + 2)
      let t : State := { s with lregs := s.lregs.filter fun r => !ofDevice ctx v r.1 }
      let t := t.setReg (.ctxw ctx 0) (BitVec.ofNat 64 (tenant.toNat + k * 2 ^ 32 + die * 2 ^ 40))
      let t := t.setRegF (.vdsched v) 55 34 (Config.saveWc v).toNat
      let t := t.setTl ctx 4 56 56 (s.regF .pkgst0 40 40)
      let d : VDev := { ctx, wpart, rpart, home := die, lcore, queues := (List.range 16).map fun q => (q, freshQueue v q) }
      let c : Ctx := { vdev := v, taskArea := die * 2 ^ 40 + Config.taskArea ctx % 2 ^ 27 * 1024 }
      let t : State := { t.drawn with vdevs := Tab.set t.vdevs v d, ctxs := Tab.set t.ctxs ctx c }
      when path (t.giveSets ctx)
  | none => when path s

end Sys2Proof.Machine
end

