-- ==== Sys2Proof/Machine/Landing.lean ====
section
/-! DEFINITION. Landing cores: the Dalcy instructions (21 R364, R365), their exceptions (R366), ordinary accesses below root, `FENCE` (23 R404), and the
plain write of a Landing register (00 R3, 21 R368). -/

namespace Sys2Proof.Machine

/-! ### A core's registers -/

def LCore.get (c : LCore) (x : BitVec 5) : DWord := if x = 0 then 0 else Tab.get 0 c.x x.toNat
def LCore.put (c : LCore) (x : BitVec 5) (v : DWord) : LCore := if x = 0 then c else { c with x := Tab.set c.x x.toNat v }
def noCap : Cap := ⟨0, false⟩
def LCore.cap (c : LCore) (k : BitVec 4) : Cap := Tab.get noCap c.dc k.toNat
def LCore.putCap (c : LCore) (k : BitVec 4) (v : Cap) : LCore := { c with dc := Tab.set c.dc k.toNat v }

/-- The instance that runs on a core, or that a level of its path names (R367). -/
def LCore.inst (c : LCore) (lv : Nat) : Inst :=
  match lv with | 0 => .root | 1 => .op | 2 => .res c.wpart | _ => .ten c.wpart c.rpart

/-- Runs a meaning on the Landing core whose turn it is; a fenced core runs nothing (R398). -/
def withL (s : State) (k : Nat → LCore → Out) : Out :=
  let c := s.lcore s.curL
  if c.fenced then .fault .coreFenced else k s.curL c

def State.setL (s : State) (lc : Nat) (c : LCore) : State := { s with lcores := Tab.set s.lcores lc c }

/-- The next instruction. -/
def LCore.next (c : LCore) : LCore := { c with pc := c.pc + 4 }

/-! ### Exceptions (R366) -/

/-- Exception codes: Dalcy's, and the base's that R365 names (log 3). -/
def xTag : Nat := 24
def xBounds : Nat := 25
def xPerm : Nat := 26
def xIllegal : Nat := 2
def xLoadAlign : Nat := 4
def xStoreAlign : Nat := 6

/-- TAKING AN EXCEPTION on a Landing core: at the vector of the level at which it arose, or of the level above where that level's handler runs. -/
def takeL (s : State) (lc : Nat) (c : LCore) (code : Nat) (tval : Nat) : State :=
  let lv := if c.handling.contains c.level then c.level - 1 else c.level
  let i := c.inst lv
  let vec := s.reg (.dvec i) &&& 0xFFFF_FFFF_FFFF_FFFC
  let t := s.setReg (.dprev i) (BitVec.ofNat 64 c.level)
  t.setL lc { c with
    epc := Tab.set c.epc lv c.pc, ecause := Tab.set c.ecause lv code, etval := Tab.set c.etval lv (BitVec.ofNat 64 tval)
    handling := if c.handling.contains lv then c.handling else c.handling ++ [lv], level := lv, pc := vec }

/-- RETURNING FROM AN EXCEPTION, by `SRET`: to the level that DPREV names (R368), at the pc that the exception saved; the level's handler no longer
runs (log 3). -/
def returnL (s : State) (lc : Nat) (c : LCore) : State :=
  s.setL lc { c with
    level := s.regF (.dprev (c.inst c.level)) 1 0, pc := Tab.get 0 c.epc c.level, handling := c.handling.filter fun k => k != c.level }

/-- The word of `SRET`, RISC-V's (log 3). -/
def sretWord : BitVec 32 := 0x10200073

/-- A result in an integer register. -/
def putX (s : State) (lc : Nat) (c : LCore) (d : BitVec 5) (v : DWord) : Out := .next (s.setL lc (c.put d v).next)
/-- A result in a capability register. -/
def putC (s : State) (lc : Nat) (c : LCore) (d : BitVec 4) (v : Cap) : Out := .next (s.setL lc (c.putCap d v).next)

/-! ### Checks (R364-R366) -/

/-- The exception of an access of `n` bytes at an offset of a capability, with its trap value. -/
def capFault (c : Cap) (off n perm : Nat) : Option (Nat × Nat) :=
  let ea := c.base + off
  if !c.tag then some (xTag, ea)
  else if 2 ^ 52 < c.base + c.len then some (xBounds, ea)
  else if c.top < ea + n then some (xBounds, max ea c.top)
  else if c.scr || !c.has perm then some (xPerm, ea)
  else none

/-- Checks an access, then its alignment; `k` has the physical address. -/
def withCap (s : State) (lc : Nat) (c : LCore) (cap : Cap) (off n perm align : Nat) (k : Nat → Out) : Out :=
  match capFault cap off n perm with
  | some (code, tval) => .next (takeL s lc c code tval)
  | none => if (cap.base + off) % align ≠ 0 then .next (takeL s lc c (if perm = pRD then xLoadAlign else xStoreAlign) (cap.base + off)) else k (cap.base + off)

/-! ### Memory of a Landing core (R363) -/

/-- The lines that a read touches, as context slot 0 of the core's die. -/
def State.lTouch (s : State) (lc pa n : Nat) : State :=
  s.prepRead (lc / 8) (lc / 8 * 256) .normal ((List.range n).map (pa + ·))

/-- A Landing core as a reader, with its floor (11 R210, R213). -/
def LCore.reader (r : LCore) (lc : Nat) : Reader := { core := landingCore lc, party := .landing lc, base := r.base, know := r.know }

/-- Bytes as one read event of the core returns them, each with the write that it comes from (11 R214, R221); poison and unbacked bytes read as zero
(log 52). -/
def State.lBytes (s : State) (lc pa n : Nat) : List (Byte × Option Nat) :=
  (List.range n).map fun i =>
    if s.viewPoison (landingCore lc) (.landing lc) .glob (pa + i) then (0, none) else s.pick ((s.lcore lc).reader lc) 0 .glob (pa + i)
def State.lRead (s : State) (lc pa n : Nat) : List Byte := (s.lBytes lc pa n).map Prod.fst

/-- A core notes what a read has returned; the next read is a new event (11 R216). -/
def LCore.sees (r : LCore) (ids : List (Option Nat)) : LCore :=
  { r with seen := r.seen ++ (distinct (ids.filterMap id)).filter fun n => !r.seen.contains n }

def State.lWrite (s : State) (lc pa : Nat) (bytes : List Byte) (tags : List (Nat × Bool)) : State :=
  s.performWrite (landingCore lc) (.landing lc) (lc / 8 * 256) .glob (bytes.zipIdx.map fun (b, i) => (pa + i, b)) tags

/-- A loaded value of 2^z bytes, sign- or zero-extended. -/
def loaded (b : List Byte) (zero : Bool) : DWord :=
  let x := BitVec.ofNat 64 (leNat b)
  match zero, b.length with
  | false, 1 => (x.setWidth 8).signExtend 64
  | false, 2 => (x.setWidth 16).signExtend 64
  | false, 4 => (x.setWidth 32).signExtend 64
  | _, _ => x

/-! ### Dalcy (R365) -/

/-- A read of a core: its lines are touched, and filled where they are presented; `k` gets the bytes and, for a capability, the granule's tag (R363). -/
def loadL (s : State) (lc : Nat) (r : LCore) (pa n : Nat) (k : State → LCore → List Byte → Bool → Out) : Out :=
  let t := s.lTouch lc pa n
  let x := t.lBytes lc pa n
  k t.drawn (r.sees (x.map Prod.snd)) (x.map Prod.fst) (t.pickTag (r.reader lc) 0 .glob (pa / 16))

def execDld (d : BitVec 5) (c : BitVec 4) (o : BitVec 5) (z : BitVec 2) (u : Bool) (s : State) : Out :=
  withL s fun lc r =>
    let n := 2 ^ z.toNat
    withCap s lc r (r.cap c) (r.get o).toNat n pRD n fun pa => loadL s lc r pa n fun t r b _ => putX t lc r d (loaded b u)

def execDst (v : BitVec 5) (c : BitVec 4) (o : BitVec 5) (z : BitVec 2) (s : State) : Out :=
  withL s fun lc r =>
    let n := 2 ^ z.toNat
    withCap s lc r (r.cap c) (r.get o).toNat n pWR n fun pa =>
      .next ((s.lWrite lc pa (leBytes n (r.get v).toNat) []).setL lc r.next)

def execDldc (d c : BitVec 4) (o : BitVec 5) (s : State) : Out :=
  withL s fun lc r =>
    withCap s lc r (r.cap c) (r.get o).toNat 16 pRD 16 fun pa =>
      loadL s lc r pa 16 fun t r b tag => putC t lc r d ⟨BitVec.ofNat 128 (leNat b), tag⟩

def execDstc (v c : BitVec 4) (o : BitVec 5) (s : State) : Out :=
  withL s fun lc r =>
    withCap s lc r (r.cap c) (r.get o).toNat 16 pWR 16 fun pa =>
      .next ((s.lWrite lc pa (leBytes 16 (r.cap v).bits.toNat) [(pa / 16, (r.cap v).tag)]).setL lc r.next)

/-- A derivation: the new capability, or the exception of the failed check. -/
def deriveL (s : State) (lc : Nat) (r : LCore) (d : BitVec 4) (x : Except Chk Cap) : Out :=
  match x with
  | .ok v => putC s lc r d v
  | .error k => .next (takeL s lc r (if k.code = 0x10 then xTag else xBounds) k.addr)

def execDnarrow (d c : BitVec 4) (o l : BitVec 5) (s : State) : Out :=
  withL s fun lc r => deriveL s lc r d (narrow (r.cap c) (r.get o).toNat (r.get l).toNat 0)

def execDperm (d c : BitVec 4) (k : BitVec 5) (s : State) : Out :=
  withL s fun lc r => deriveL s lc r d (permit (r.cap c) (((r.get k).setWidth 32) &&& 0x3F) 0)

def execDget (d : BitVec 5) (c : BitVec 4) (f : CapField) (s : State) : Out :=
  withL s fun lc r => putX s lc r d (BitVec.ofNat 64 (capField f (r.cap c)))

def execDmov (d c : BitVec 4) (s : State) : Out := withL s fun lc r => putC s lc r d (r.cap c)

/-! ### FENCE rw,rw (23 R404) -/

/-- What a core publishes (11 R216). -/
def LCore.pub (r : LCore) (s : State) (lc : Nat) : Pub := { base := r.base, ids := r.know ++ r.seen, owns := [(.landing lc, s.nextId)] }

/-- An acquire of a core at `.sys` (11 R213, R217). -/
def State.acquireL (s : State) (lc : Nat) (r : LCore) : State :=
  let f := s.floorAfter (r.reader lc) r.seen [] .sys
  (s.refresh (landingCore lc) .sys).setL lc { r with base := f.1, know := f.2, gate := none }

/-- A release at `.sys` and then an acquire at `.sys`, which the core's next instruction waits for. -/
def execLandingFenceRw (s : State) : Out :=
  withL s fun lc r =>
    let t := s.release (landingCore lc) (.landing lc) .sys (r.pub s lc)
    .next (if (t.core (landingCore lc)).releases.any fun x => x.id == s.nextId then t.setL lc { r.next with gate := some s.nextId }
           else t.acquireL lc r.next)

/-! ### Ordinary accesses (R364) -/

/-- An RV64 load, store or fetch: below root, an offset of `dc0`, or of `dc15` for a fetch; at root, unchecked. -/
def execLandingOrdinaryAccess (die core : Nat) (k : LAccess) (x : BitVec 5) (addr : DWord) (z : BitVec 2) (s : State) : Out :=
  let lc := die * 8 + core
  let r := s.lcore lc
  let n := match k with | .fetch => 4 | _ => 2 ^ z.toNat
  let perm := match k with | .store => pWR | _ => pRD
  let cap := match k with | .fetch => r.cap 15 | _ => r.cap 0
  let ok := decide (die < 4 ∧ core < 8) && (match k with | .fetch => addr == r.pc | _ => true)
  let go := fun (pa : Nat) =>
    match k with
    | .load => loadL s lc r pa n fun t r b _ => putX t lc r x (loaded b false)
    | .store => Host.Outcome.next ((s.lWrite lc pa (leBytes n (r.get x).toNat) []).setL lc r.next)
    | .fetch => .next (s.lTouch lc pa n)
  if !ok then .fault .notEnabled
  else if r.fenced then .fault .coreFenced
  else if r.level = 0 then go addr.toNat
  else withCap s lc r cap addr.toNat n perm 1 go

/-! ### Register writes (00 R3, 21 R368) -/

/-- A register whose write is an event of its own. -/
def ownEvent (s : State) (v : DWord) : LReg → Bool
  | .frrc d n => v.getLsbD 63 || (s.reg (.frrc d n)).getLsbD 63
  | .shootb _ => v.getLsbD 63
  | .fresp _ => fld v 13 12 == 1 || fld v 13 12 == 2
  | .wcmd _ => [1, 2, 3, 4, 5, 6, 8, 9, 10, 11].contains (fld v 3 0)
  | .llcway .. | .bsmask .. | .bsctl .. | .coreGate _ | .qcap _ | .drights _ | .fqhead _ | .fqbase _ | .nkey .. | .ovflctl _
  | .vdsched _ | .hpst | .lfence | .xwin .. | .collgrp .. | .mlist .. => true
  | .ctxw _ w => decide (16 ≤ w)
  | _ => false

/-- Whether an instance's write of a value is admitted: of SHOOTB, from the owner of the STAGE written, for the CTX written (19 R343; log 19). -/
def State.admits (s : State) (i : Inst) (v : DWord) : LReg → Bool
  | .shootb d => decide (fld v 17 16 ≠ 0) && decide (i = s.stageOwner (d * 256 + fld v 25 18) (fld v 17 16))
  | r => s.mayWrite i r

/-- FRRA and FRRB keep their value while V is 1, and a zero seed is stored as 1 (19 R330, R332). -/
def State.frrHeld (s : State) : LReg → Bool
  | .frra d n | .frrb d n => (s.reg (.frrc d n)).getLsbD 63
  | _ => false

/-- A write of a register without further effect: writable bits are stored. TROOT follows its two words: the low one clears the tag, the high one sets
it (log 53). -/
def State.plainWrite (s : State) (r : LReg) (v : DWord) : State :=
  let t := s.writeReg r v
  match r with
  | .frrd .. => if fld v 31 0 = 0 then t.setReg r 1 else t
  | .ctxw c 8 => t.updCtx c fun x => { x with troot := ⟨((x.troot.bits >>> 64).setWidth 64 ++ v : BitVec 128), false⟩ }
  | .ctxw c 9 => t.updCtx c fun x => { x with troot := ⟨(v ++ (x.troot.bits.setWidth 64) : BitVec 128), true⟩ }
  | .clkdef d => t.noteClocks d
  | .hbeat => { t with hbeatAge := 0 }
  | _ => t

def execRegisterWrite (r : LReg) (v : DWord) (i : Inst) (s : State) : Out :=
  when (s.admits i v r && !ownEvent s v r) (if s.frrHeld r then s else s.plainWrite r v)

end Sys2Proof.Machine
end

