-- ==== Sys2Proof/Machine/Fabric.lean ====
section
/-! DEFINITION. The fabric: `PUT` and `GET` (25 R427-R430), collectives (R431-R434), inbound requests (R421, R423-R426), and the writes of windows, groups and
member lists (R425, R431, R437). -/

namespace Sys2Proof.Machine

/-! ### Issue (R428, R429, R432) -/

/-- A checked fabric command enters flight as a command of the core's copy engine. -/
def fabricOp (i : Instr) (x : W) (s : State) (kind : CopyKind) (chks : State → Wave → Nat → List Chk) (k : State → Nat → Copy → State) : Out :=
  cmdOp s chks fun s id w l =>
    if copyLimit ≤ (s.core w.core).copies.length then waitAt s id w .copySlot i
    else
      match s.signalGates w.core id with
      | [] =>
        let (s, w) := s.settleReads id w
        let q1 := w.quadQ x.q1 l
        let (t, c) := match kind with
          | .put => (noCap, q1)
          | .get => (q1, noCap)
          | _ => (q1, w.quadQ x.q2 l)
        let c : Copy := { id := s.nextId, kind, by_ := s.issuer id w, word := x, tcap := t, scap := c, desc := w.descQ x.a l, seq := 0 }
        done (k (s.pushCopy w.core c) w.core c) id w
      | gs => waitGates s id w i gs

/-- H of a fabric command names a live entry (R229), and its upper half is zero. -/
def handleChks (s : State) (w : Wave) (d : List Word) : List Chk :=
  chkIf (s.entryOf w.core w.group (copyH d)).isNone 0x30 ++ chkIf (descW d 3 / 65536 != 0) 0x32

/-- RWIN of a command: valid bit and rights, peer, key, length (R425). -/
def rwinNo (x : W) : Nat := x.bits 81 76
def rwinLen (s : State) (ctx n : Nat) : Nat := s.regF (.rwin ctx n 0) 63 48 + s.regF (.rwin ctx n 1) 23 0 * 65536
def rwinPeer (s : State) (ctx n : Nat) : Nat := s.regF (.rwin ctx n 0) 11 0
def rwinKey (s : State) (ctx n : Nat) : Word := BitVec.ofNat 32 (s.regF (.rwin ctx n 0) 47 16)

def remoteChks (x : W) (get' : Bool) (s : State) (w : Wave) (l : Nat) : List Chk :=
  let d := w.descQ x.a l
  let ctx := s.ctxOf w
  let r := s.reg (.rwin ctx (rwinNo x) 0)
  let bad := !r.getLsbD 12 || !r.getLsbD (if get' then 13 else 14) || decide (rwinLen s ctx (rwinNo x) < descW d 1 + descW d 2)
  capChks (w.quadQ x.q1 l) (s.window w) [⟨descW d 0, 1, 0, descW d 2⟩] [if get' then pCT else pCS] false l ++ handleChks s w d ++ chkIf bad 0x32

def execPut (w : W) (s : State) : Out := fabricOp (.put w) w s .put (remoteChks w false) fun s _ _ => s
def execGet (w : W) (s : State) : Out := fabricOp (.get w) w s .get (remoteChks w true) fun s _ _ => s

/-- Fields of a collective: group, op, element type, element size. -/
def collG (x : W) : Nat := x.bits 81 76
def collOpc (x : W) : Nat := x.bits 83 82
def collEt (x : W) : Nat := x.bits 85 84
def etSize (et : Nat) : Nat := if et = 1 then 2 else 4
/-- Members of a group, and a member's rank (R431). -/
def State.nmem (s : State) (ctx g : Nat) : Nat := s.regF (.collgrp ctx g) 20 11 + 1
def State.rank (s : State) (ctx g : Nat) : Nat := s.regF (.collgrp ctx g) 10 1

/-- Bytes of the target extent, and the offset of the loss mask past TOFF (R432). -/
def collExtent (sub et count nmem : Nat) : Nat := count * etSize et * (if sub = 2 then nmem else 1)
def maskAt (e : Nat) : Nat := (e + 127) / 128 * 128

def collChks (x : W) (sub : Nat) (s : State) (w : Wave) (l : Nat) : List Chk :=
  let d := w.descQ x.a l
  let ctx := s.ctxOf w
  let g := collG x
  let e := collExtent sub (collEt x) (descW d 2) (s.nmem ctx g)
  let win := s.window w
  capChks (w.quadQ x.q1 l) win [⟨descW d 1, 1, 0, e⟩, ⟨descW d 1 + maskAt e, 1, 0, 128⟩] [pCT] false l ++
  (if sub = 1 ∧ s.rank ctx g ≠ 0 then [] else capChks (w.quadQ x.q2 l) win [⟨descW d 0, 1, 0, descW d 2 * etSize (collEt x)⟩] [pCS] false l) ++
  handleChks s w d ++ chkIf (!(s.reg (.collgrp ctx g)).getLsbD 0 || decide (2 ^ 24 < descW d 2)) 0x32

/-! ### Instances (R433) -/

/-- Member m's entry in the list of a group; its context if it is on this package (R437). -/
def State.member (s : State) (ctx g m : Nat) : DWord := s.reg (.mlist ctx g m)
def localCtx (e : DWord) : Option Nat := if e.getLsbD 23 && e.getLsbD 22 then some (fld e 21 20 * 256 + fld e 19 12) else none
/-- The contexts of this package among the members, the member itself included. -/
def State.localMembers (s : State) (ctx g : Nat) : List Nat :=
  distinct (ctx :: (List.range (s.nmem ctx g)).filterMap fun m => if m = s.rank ctx g then none else localCtx (s.member ctx g m))

def collKey (ctx g : Nat) : Nat := ctx * 64 + g
def Coll.is (k : Coll) (ctx g inst : Nat) : Bool := k.ctx == ctx && k.g == g && k.inst == inst
def State.updColl (s : State) (ctx g inst : Nat) (f : Coll → Coll) : State :=
  { s with colls := s.colls.map fun k => if k.is ctx g inst then f k else k }

/-- A new instance of a member. -/
def State.newInst (s : State) (ctx g : Nat) : State × Nat :=
  let n := Tab.get 0 s.collNext (collKey ctx g)
  ({ s with colls := s.colls ++ [{ ctx, g, inst := n }], collNext := Tab.set s.collNext (collKey ctx g) (n + 1) }, n)

/-- What a member says of the instance's shape: a difference spoils it for every member. -/
def State.meetShape (s : State) (ctx g inst : Nat) (sh : Nat × Nat × Nat × Nat) : State :=
  match s.colls.find? fun k => k.is ctx g inst with
  | none => s
  | some k =>
    match k.shape with
    | none => s.updColl ctx g inst fun k => { k with shape := some sh }
    | some sh' => if sh = sh' then s else (s.localMembers ctx g).foldl (fun s c => s.updColl c g inst fun k => { k with bad := true }) s

/-- A command joins its member's next instance. -/
def State.joinInst (s : State) (core : Nat) (c : Copy) (sub : Nat) : State :=
  let ctx := c.by_.ctx
  let g := collG c.word
  let (t, n) := match s.colls.find? fun k => k.ctx == ctx && k.g == g && k.cmd.isNone with | some k => (s, k.inst) | none => s.newInst ctx g
  (t.updColl ctx g n fun k => { k with cmd := some (core, c.id) }).meetShape ctx g n (sub, collOpc c.word, collEt c.word, descW c.desc 2)

def collOp (i : Instr) (x : W) (s : State) (sub : Nat) : Out :=
  fabricOp i x s (.coll sub (collOpc x) (collEt x) (collG x)) (collChks x sub) fun s core c => s.joinInst core c sub

def execCollAllred (w : W) (s : State) : Out := collOp (.collAllred w) w s 0
def execCollBcast (w : W) (s : State) : Out := collOp (.collBcast w) w s 1
def execCollAllgath (w : W) (s : State) : Out := collOp (.collAllgath w) w s 2

/-! ### Chunks of PUT and GET (R430) -/

def isRemote (c : Copy) : Bool := match c.kind with | .put | .get => true | _ => false
def isGet (c : Copy) : Bool := match c.kind with | .get => true | _ => false
def isColl (c : Copy) : Bool := match c.kind with | .coll .. => true | _ => false
/-- Chunks at the line boundaries of the remote window, and the offset and length of one. -/
def Copy.remoteChunks (c : Copy) : Nat := rowChunks (descW c.desc 1) (descW c.desc 2)
def Copy.remoteChunk (c : Copy) (j : Nat) : Nat × Nat := rowChunk (descW c.desc 1) (descW c.desc 2) j

/-- A chunk that may still complete or be lost: its command runs, a `PUT` with REL has released, and no release holds back the engine's writes where
landed bytes signal. -/
def State.chunkOpen (s : State) (core : Nat) (c : Copy) (j : Nat) : Bool :=
  isRemote c && decide (c.state = .running) && decide (j < c.remoteChunks) && !c.done.contains j &&
  (isGet c || !c.word.relX || s.published core (.copy core) (s.copyAcquire core c).2.by_) &&
  (!s.countsBytes core c || (s.core core).openReleases (.copy core) == [])

/-- Accounts a chunk: the last one's bytes leave PEND with the completion. -/
def State.chunkDone (s : State) (core : Nat) (c : Copy) (j n : Nat) : State :=
  let done' := c.done ++ [j]
  let t := s.updCopy core c.id fun c => { c with done := done', prog := done'.length }
  if done'.length = c.remoteChunks then t else t.landBytes core c n

/-- The acquire before a command's first read, and a `PUT`'s release before its first chunk is sent. -/
def State.openRemote (s : State) (core : Nat) (c : Copy) : State × Copy :=
  let (t, d) := s.copyAcquire core c
  (if !isGet c && c.done.isEmpty then t.flagRelease core (.copy core) d else t, d)

/-- The local side of a chunk: `k` has the state, the command, the place and the bytes' addresses; poison in a strict context abandons the command. -/
def State.localChunk (s : State) (core : Nat) (c : Copy) (j : Nat) (k : State → Copy → Place → List Nat → State) : State :=
  let (s, c) := s.openRemote core c
  let b := c.by_
  let p : Party := .copy core
  let (off, n) := c.remoteChunk j
  let lo := descW c.desc 0 + off
  let (cap, kind) := if isGet c then (c.tcap, AccKind.write) else (c.scap, AccKind.read)
  let s := s.cacheRows core b.ctx cap ⟨lo, 1, 0, n⟩
  match s.capBytes core b cap lo n kind with
  | .error (va, f) => s.copyFault core c va f kind
  | .ok (pl, as) =>
    let s := if pl = .glob ∧ !isGet c then s.prepRead (dieOf core) b.ctx .normal as else s
    let bad := if isGet c then [] else s.poisonGranules core p pl as
    if b.strict ∧ bad ≠ [] then s.abandonCopy core c 0x22 (s.poisonVa core p pl as (cap.base + lo))
    else
      let new := bad.filter fun g => !c.lost.contains g
      k ((s.addLossIf b.ctx new.length).updCopy core c.id fun c => { c with lost := c.lost ++ new }) c pl as

/-- A chunk is read, sent, and written at the peer; or read there and landed here, as a write of the copy engine, with the data that came back. -/
def State.remoteDone (s : State) (core : Nat) (c : Copy) (j : Nat) (data : List Byte) : State :=
  let hp := s.hpOf (c.by_.ctx / 256)
  let win := rwinNo c.word
  let (off, n) := c.remoteChunk j
  let peer := rwinPeer s c.by_.ctx win
  let key := rwinKey s c.by_.ctx win
  let p : Party := .copy core
  let go := fun (s : State) (c : Copy) (pl : Place) (as : List Nat) =>
    let t := if isGet c then (s.send hp peer (.getReq peer key (descW c.desc 1 + off) n)).performWrite core p c.by_.ctx pl (as.zip data) []
      else
        let x := s.engineBytes core p c.by_ pl as
        (s.engineSees p (x.map Prod.snd)).send hp peer (.put peer key (descW c.desc 1 + off) (x.map Prod.fst))
    t.chunkDone core c j n
  s.localChunk core c j go

def execFabricChunkComplete (core copy chunk : Nat) (data : List Byte) (s : State) : Out :=
  match s.findCopy core copy with
  | none => .fault .notEnabled
  | some c =>
    let peer := rwinPeer s c.by_.ctx (rwinNo c.word)
    let hp := s.hpOf (c.by_.ctx / 256)
    let way := s.peerValid hp peer && s.portOpen (portOf (s.peer hp peer))
    when (s.chunkOpen core c chunk && way && (!isGet c || data.length == (c.remoteChunk chunk).2)) (s.remoteDone core c chunk data)

/-- A chunk is lost: zero bytes land for a `GET`; LOSS grows; a strict context abandons the command. E2E_DROP counts it where a packet was lost and not
refused by the peer, which a closed port decides and else is free. -/
def State.remoteLost (s : State) (core : Nat) (c : Copy) (j : Nat) : State :=
  let b := c.by_
  let hp := s.hpOf (b.ctx / 256)
  let port := portOf (s.peer hp (rwinPeer s b.ctx (rwinNo c.word)))
  let (off, n) := c.remoteChunk j
  let count := !s.portOpen port || Config.choice s.draw 0
  let s := if count then s.drawn.bumpPort port .e2eDrop else s.drawn
  let cap := if isGet c then c.tcap else c.scap
  if b.strict then s.abandonCopy core c 0x22 (cap.base + descW c.desc 0 + off)
  else if isGet c then
    s.localChunk core c j fun s c pl as =>
      ((s.addLoss b.ctx 1).performWrite core (.copy core) b.ctx pl (as.map fun a => (a, 0)) []).chunkDone core c j n
  else
    let (s, c) := s.openRemote core c
    (s.addLoss b.ctx 1).chunkDone core c j n

def execFabricChunkLost (core copy chunk : Nat) (s : State) : Out :=
  match s.findCopy core copy with
  | none => .fault .notEnabled
  | some c => when (s.chunkOpen core c chunk) (s.remoteLost core c chunk)

/-- Every byte of a command is accounted: its release has completed, and it signals (R430, R434). -/
def execFabricCommandComplete (core copy : Nat) (s : State) : Out :=
  match s.findCopy core copy with
  | none => .fault .notEnabled
  | some c =>
    let b := c.by_
    let all := if isColl c then c.landed else isRemote c && decide (c.remoteChunks ≤ c.done.length)
    let nmem := s.nmem b.ctx (collG c.word)
    let last := match c.kind with
      | .coll sub _ et _ => collExtent sub et (descW c.desc 2) nmem + 128
      | _ => match c.done.getLast? with | some j => (c.remoteChunk j).2 | none => 0
    let h := copyH c.desc
    let p : Party := .copy core
    let (s', c') := s.copyAcquire core c
    let after := isColl c || isGet c
    let t := if after then s'.flagRelease core p c' else s'
    let t := if t.countsBytes core c' then t.landBytes core c' last else t.engineSignal core b.group p c'.by_ h Obj.addOne
    when (all && decide (c.state = .running) && s.engineClear core p && (!c.word.relX || !after || s.published core p c'.by_)) (t.finishCopy core c')

/-! ### Contributions (R433, R434) -/

/-- A member's contribution reaches an instance of a context; one that the instance no longer takes is dropped. -/
def State.putContrib (s : State) (ctx g inst m : Nat) (sh : Nat × Nat × Nat × Nat) (data : List Byte) : State :=
  let s := if (s.colls.any fun k => k.is ctx g inst) || Tab.get 0 s.collNext (collKey ctx g) ≠ inst then s else (s.newInst ctx g).1
  let now := s.ref (ctx / 256)
  let add := fun (k : Coll) =>
    if k.timedOut then k else { k with contribs := Tab.set k.contribs m data, firstAt := some (k.firstAt.getD now) }
  (s.meetShape ctx g inst sh).updColl ctx g inst add

/-- Bytes that a member contributes: none to a broadcast but from rank 0. -/
def contribBytes (sub et count m : Nat) : Nat := if sub = 1 ∧ m ≠ 0 then 0 else count * etSize et

/-- A member's own contribution: read after its acquire, and sent to every other member. -/
def State.contribute (s : State) (ctx g : Nat) (k : Coll) (core : Nat) (c : Copy) (sub op et : Nat) : State :=
  let (s, c) := s.copyAcquire core c
  let b := c.by_
  let p : Party := .copy core
  let count := descW c.desc 2
  let m := s.rank ctx g
  let n := contribBytes sub et count m
  let lo := descW c.desc 0
  let s := s.cacheRows core b.ctx c.scap ⟨lo, 1, 0, n⟩
  match (if n = 0 then .ok (.glob, []) else s.capBytes core b c.scap lo n .read : Except (Nat × TFault) (Place × List Nat)) with
  | .error (va, f) => s.copyFault core c va f .read
  | .ok (pl, as) =>
    let s := if pl = .glob then s.prepRead (dieOf core) b.ctx .normal as else s
    let bad := s.poisonGranules core p pl as
    if b.strict ∧ bad ≠ [] then s.abandonCopy core c 0x22 (s.poisonVa core p pl as (c.scap.base + lo))
    else
      let x := s.engineBytes core p b pl as
      let s := (s.addLossIf b.ctx bad.length).engineSees p (x.map Prod.snd)
      let data := x.map Prod.fst
      let hp := s.hpOf (ctx / 256)
      let s := (s.localMembers ctx g).foldl (fun s x => s.putContrib x g k.inst m (sub, op, et, count) data) s
      (List.range (s.nmem ctx g)).foldl (fun s r =>
        let e := s.member ctx g r
        if r = m ∨ !e.getLsbD 23 ∨ e.getLsbD 22 then s
        else if s.peerValid hp (fld e 11 0) then s.send hp (fld e 11 0) (.contrib (fld e 11 0) (fld e 19 12) (fld e 21 20) g m data)
        else s) s

/-- A contribution is made, by the member itself, or arrives from another package. -/
def execCollContribArrive (ctx g member : Nat) (data : List Byte) (s : State) : Out :=
  let mine := s.colls.filter fun k => k.ctx == ctx && k.g == g && !k.timedOut && (Tab.find k.contribs member).isNone
  if member = s.rank ctx g then
    match mine.find? fun k => k.cmd.isSome with
    | some k =>
      match k.cmd with
      | some (core, id) =>
        match s.findCopy core id with
        | some c =>
          match c.kind with
          | .coll sub op et _ => when (decide (c.state = .running) && !c.landed) (s.contribute ctx g k core c sub op et)
          | _ => .fault .notEnabled
        | none => .fault .notEnabled
      | none => .fault .notEnabled
    | none => .fault .notEnabled
  else
    let e := s.member ctx g member
    let from' := decide (member < s.nmem ctx g) && e.getLsbD 23 && !e.getLsbD 22 && s.peerValid (s.hpOf (ctx / 256)) (fld e 11 0) &&
      s.portOpen (portOf (s.peer (s.hpOf (ctx / 256)) (fld e 11 0)))
    let (t, n) := match mine.head? with | some k => (s, k.inst) | none => s.newInst ctx g
    let sh := (mine.head?).bind Coll.shape
    let len := match sh with | some (sub, _, et, count) => decide (data.length = contribBytes sub et count member) | none => true
    let now := s.ref (ctx / 256)
    let add := fun (k : Coll) => { k with contribs := Tab.set k.contribs member data, firstAt := some (k.firstAt.getD now), bad := k.bad || !len }
    when ((Tab.find s.ctxs ctx).isSome && (s.reg (.collgrp ctx g)).getLsbD 0 && from') (t.updColl ctx g n add)

/-- The deadline of an instance's first arrival has passed. -/
def execCollTimeout (ctx g : Nat) (s : State) : Out :=
  let tmo := max 1 (s.regF (.collgrp ctx g) 36 21) * 1024
  let due := fun (k : Coll) => k.ctx == ctx && k.g == g && !k.timedOut && (match k.firstAt with | some t => decide (t + tmo ≤ s.ref (ctx / 256)) | none => false)
  match s.colls.find? due with
  | some k => .next (s.updColl ctx g k.inst fun k => { k with timedOut := true })
  | none => .fault .notEnabled

/-! ### Results (R433, R434) -/

/-- A member whose contribution can never come: its entry names nobody. -/
def State.absent (s : State) (ctx g m : Nat) : Bool :=
  let e := s.member ctx g m
  m != s.rank ctx g && (!e.getLsbD 23 || (!e.getLsbD 22 && !s.peerValid (s.hpOf (ctx / 256)) (fld e 11 0)))

def State.collReady (s : State) (k : Coll) : Bool :=
  k.bad || k.timedOut || (List.range (s.nmem k.ctx k.g)).all fun m => (Tab.find k.contribs m).isSome || s.absent k.ctx k.g m

/-- The combination of two elements (R433). -/
def collNode (op et : Nat) (a b : Nat) : FR :=
  if 2 ≤ et then redIntOp (match op with | 0 => .addN | 1 => if et = 2 then .minS else .minN | _ => if et = 2 then .maxS else .maxN) a b
  else
    let f := fmtTy (if et = 0 then 0 else 3)
    match op with
    | 0 => f.addOp { dn := true } a b
    | 1 => f.minMax false true false a b
    | _ => f.minMax false true true a b

/-- The root of the tree over 2^n leaves. -/
def treeUp (op : FR → FR → FR) : Nat → List (Option FR) → Option FR
  | 0, l => l.head?.join
  | n + 1, l => treeUp op n (pairUp op l)

/-- Element i of a contribution. -/
def collElem (data : Option (List Byte)) (z i : Nat) : Option Nat := data.map fun b => leNat ((b.drop (i * z)).take z)

def logUp (n : Nat) : Nat := ((List.range 11).find? fun k => decide (n ≤ 2 ^ k)).getD 10

/-- The result's bytes. -/
def collResult (k : Coll) (nmem : Nat) (sh : Nat × Nat × Nat × Nat) : List Byte :=
  let (sub, op, et, count) := sh
  let z := etSize et
  let at' := fun (m i : Nat) => collElem (Tab.find k.contribs m) z i
  match sub with
  | 0 =>
    let n := logUp nmem
    (List.range count).flatMap fun i =>
      let leaves := (List.range (2 ^ n)).map fun m => if m < nmem then (at' m i).map fun x => (⟨x, 0⟩ : FR) else none
      leBytes z ((treeUp (fun a b => collNode op et a.bits b.bits) n leaves).getD ⟨0, 0⟩).bits
  | 1 => (List.range count).flatMap fun i => leBytes z ((at' 0 i).getD 0)
  | _ => (List.range nmem).flatMap fun m => (List.range count).flatMap fun i => leBytes z ((at' m i).getD 0)

/-- The mask of the missing members. -/
def collMask (k : Coll) (nmem : Nat) : Nat := ((List.range nmem).map fun m => if (Tab.find k.contribs m).isNone then 2 ^ m else 0).sum

/-- A member's target bytes are written, and the mask after them. -/
def State.landResult (s : State) (core : Nat) (c : Copy) (bytes : List Byte) (mask nmem : Nat) : State :=
  let b := c.by_
  let e := bytes.length
  let toff := descW c.desc 1
  let s := s.cacheRows core b.ctx c.tcap ⟨toff, 1, 0, maskAt e + 128⟩
  match s.capBytes core b c.tcap toff e .write, s.capBytes core b c.tcap (toff + maskAt e) 128 .write with
  | .error (va, f), _ => s.copyFault core c va f .write
  | _, .error (va, f) => s.copyFault core c va f .write
  | .ok (p1, as), .ok (p2, ms) =>
    let t := s.performWrite core (.copy core) b.ctx p1 (as.zip bytes) []
    let t := t.performWrite core (.copy core) b.ctx p2 (ms.zip (leBytes 128 mask)) []
    let t := t.addLoss b.ctx ((List.range nmem).filter mask.testBit).length
    t.updCopy core c.id fun c => { c with landed := true }

/-- The result lands at a member, or its delivery is lost; a group whose commands differ is abandoned. -/
def execCollResultLand (ctx g : Nat) (lost : Bool) (s : State) : Out :=
  let live := fun (k : Coll) => match k.cmd with
    | some (core, id) => (match s.findCopy core id with | some c => decide (c.state = .running) && !c.landed | none => false)
    | none => false
  match s.colls.find? fun k => k.ctx == ctx && k.g == g && live k && s.collReady k with
  | none => .fault .notEnabled
  | some k =>
    match k.cmd, k.shape with
    | some (core, id), some sh =>
      match s.findCopy core id with
      | none => .fault .notEnabled
      | some c =>
        if k.bad then .next (s.abandonCopy core c 0x32 0)
        else
          let nmem := s.nmem ctx g
          let (bytes, mask) := k.result.getD (collResult k nmem sh, collMask k nmem)
          let share := fun (x : Coll) => if x.result.isNone then { x with result := some (bytes, mask) } else x
          let t := (s.localMembers ctx g).foldl (fun s x => s.updColl x g k.inst share) s
          let (t, c) := t.copyAcquire core c
          let own := s.rank ctx g
          .next (if lost then t.landResult core c (List.replicate bytes.length 0) (((List.range nmem).map fun m => if m = own then 0 else 2 ^ m).sum) nmem
            else t.landResult core c bytes mask nmem)
    | _, _ => .fault .notEnabled

/-! ### Inbound requests (R421, R423, R426) -/

/-- A request that a port's protocol knows: a scale-up port takes 64, 128 or 256 bytes, aligned to 128 (R421). -/
def sizedFor (port off n : Nat) : Bool := decide (48 ≤ port) || ((n == 64 || n == 128 || n == 256) && off % 128 == 0)

/-- The source matches a valid entry of the port's partition. -/
def State.knownPeer (s : State) (port peer : Nat) : Bool :=
  let hp := s.hpOf (portDie port)
  s.peerValid hp peer && portOf (s.peer hp peer) == port

/-- The context, the device virtual address and the physical bytes that a request may reach, by the exporting window and the context's tables; none
where a check or a translation fails. -/
def State.exported (s : State) (port peer : Nat) (key : Word) (off len : Nat) (k : AccKind) : Option (Nat × Nat × List Nat) :=
  let ctx := fld key 9 8 * 256 + fld key 7 0
  let n := fld key 15 10
  let lo := s.reg (.xwin ctx n 0)
  let hi := s.reg (.xwin ctx n 1)
  let right := match k with | .read => 58 | _ => 59
  if fld key 31 28 ≠ 0 ∨ !lo.getLsbD 57 ∨ fld hi 63 52 ≠ fld key 27 16 ∨ (fld hi 51 40 ≠ 0xFFF ∧ fld hi 51 40 ≠ peer) ∨ !lo.getLsbD right ∨
      fld hi 39 0 < off + len ∨ s.hpOf (fld key 9 8) ≠ s.hpOf (portDie port) ∨ (Tab.find s.ctxs ctx).isNone then none
  else
    let va := (fld lo 56 0 + off) % 2 ^ 57
    (s.devRange ctx va len k k k).map fun as => (ctx, va, as)

/-- A fabric peer as a writer, at the port that its requests come by: it is no party of a core. -/
def peerCore (port : Nat) : Nat := 288 + port

def State.flitOk (s : State) (port : Nat) : State := { s with replays := Tab.erase s.replays port }

def State.reply (s : State) (m : OutMsg) : State := { s with outbox := s.outbox ++ [m] }

def execInboundWrite (port peer : Nat) (key : Word) (off : Nat) (data : List Byte) (s : State) : Out :=
  let t := s.flitOk port
  when (s.portOpen port)
    (if !sizedFor port off data.length || !s.knownPeer port peer then t.bumpPort port .fabReject
     else
       match s.exported port peer key off data.length .write with
       | none => (t.bumpPort port .fabReject).reply (.writeReply port peer false)
       | some (ctx, va, as) =>
         ((t.walkTouch ctx va data.length).foreignWrite .peer (peerCore port) (portDie port) ctx (as.zip data)).reply (.writeReply port peer true))

def execInboundRead (port peer : Nat) (key : Word) (off len : Nat) (s : State) : Out :=
  let t := s.flitOk port
  when (s.portOpen port)
    (if !sizedFor port off len || !s.knownPeer port peer then t.bumpPort port .fabReject
     else
       match s.exported port peer key off len .read with
       | none => (t.bumpPort port .fabReject).reply (.writeReply port peer false)
       | some (ctx, va, as) =>
         let e := portDie port
         let t := (t.walkTouch ctx va len).prepRead e ctx .normal as
         t.reply (.readReply port peer (as.map fun a => if t.backing e a = .none || t.poisonAt a then 0 else t.homeAt a)))

/-- An atomic, a partial write or a coherence request is rejected. -/
def execInboundUnsupportedRequest (port : Nat) (s : State) : Out := when (s.portOpen port) ((s.flitOk port).bumpPort port .fabReject)

/-! ### Registers (R425, R431, R437) -/

/-- XWIN, both words; setting V advances the generation. -/
def execXwinWrite (ctx n : Nat) (lo hi : DWord) (i : Inst) (s : State) : Out :=
  let gen := s.regF (.xwin ctx n 1) 63 52
  let t := (s.writeReg (.xwin ctx n 0) lo).writeReg (.xwin ctx n 1) hi
  when (decide (n < 64) && s.mayWrite i (.xwin ctx n 0))
    (if lo.getLsbD 57 then t.setRegF (.xwin ctx n 1) 63 52 (if gen = 4095 then 1 else gen + 1) else t)

/-- A group with a live instance takes no write. -/
def State.groupLive (s : State) (ctx g : Nat) : Bool := s.colls.any fun k => k.ctx == ctx && k.g == g

def execCollgrpWrite (ctx n : Nat) (v : DWord) (i : Inst) (s : State) : Out :=
  when (decide (n < 64) && s.mayWrite i (.collgrp ctx n)) (if s.groupLive ctx n then s else s.writeReg (.collgrp ctx n) v)

def execMlistWrite (ctx g k : Nat) (v : Word) (i : Inst) (s : State) : Out :=
  when (decide (g < 64 ∧ k < 1024) && s.mayWrite i (.mlist ctx g k)) (if s.groupLive ctx g then s else s.writeReg (.mlist ctx g k) (v.setWidth 64))

end Sys2Proof.Machine
end

