-- ==== Sys2Proof/Machine/Image.lean ====
section
/-! DEFINITION. Save images as bytes: tokens (01 R29), waves (14 R296), copies (12 R255), the matrix state (13 R286), groups (14 R297), and their reading back.
What R297 lists without a layout is packed in its order, behind a header and before a trailer of the model's own (log 55). -/

namespace Sys2Proof.Machine

def part' (r : List Byte) (off n : Nat) : List Byte := (r.drop off).take n
def recW (r : List Byte) (off : Nat) : Word := BitVec.ofNat 32 (recF r off 4)
/-- Bits of a predicate over 0 to 8n - 1, as n bytes. -/
def bitBytes (n : Nat) (p : Nat → Bool) : List Byte := (List.range n).map fun i => BitVec.ofNat 8 ((List.range 8).map fun b => bitIf (p (8 * i + b)) b).sum
def bitOf (r : List Byte) (off k : Nat) : Bool := ((r[off + k / 8]?).getD 0).getLsbD (k % 8)

/-! ### Tokens (01 R29) -/

def tokenOf (r : List Byte) (off : Nat) : Token :=
  let x := recF r off 16
  { kind := match x / 2 ^ 57 % 4 with | 0 => .join | 1 => .path | _ => .loop
    pc := BitVec.ofNat 57 x, mask := BitVec.ofNat 32 (x / 2 ^ 64), age := x / 2 ^ 96 % 65536 }

/-! ### Waves (14 R296) -/

/-- Bytes of a wave image of a kernel. -/
def waveImageSize (kprog : Word) : Nat := 1280 + 132 * ((fld kprog 4 0 + 1) * 8 * (fld kprog 6 5 + 1))

/-- A wave from its image: parked and waiting waves restart at their instruction; a stopped one stays with its handler. -/
def waveOfImage (r : List Byte) (gid : Nat) (gangWait : Option Word) (entering : Bool) (handler : Word → Inst) : Wave :=
  let st : Word := recW r 28
  let kprog := recW r 32
  let keys := imageKeys ((fld kprog 4 0 + 1) * 8) (fld kprog 6 5 + 1)
  let lanesAt := fun (off : Nat) => (lanes fun l => recW r (off + 4 * l) : VReg)
  let regs := keys.zipIdx.foldl (fun (t : Tab VReg) k => Tab.put zeroReg t k.1 (lanesAt (1280 + 128 * k.2))) []
  let tags := keys.zipIdx.foldl (fun (t : Tab Mask) k => Tab.put 0 t k.1 (recW r (1280 + 128 * keys.length + 4 * k.2))) []
  let cause := recW r 24
  let cond := if st.getLsbD 9 then Cond.stopped (some (handler cause)) else match gangWait with | some p => .waiting (.gang p) | none => .running
  { group := gid, core := 0, qtr := 0, slot := 0, wig := fld (recW r 36) 4 0, kprog, groupW := recW r 40, gangW := recW r 44, gridW := recW r 48
    tenant := recW r 52, pc := BitVec.ofNat 57 (recF r 0 8), live := recW r 8, exm := recW r 12, cause, fpc := recW r 16, share := recW r 20
    seed := (List.range 32).foldl (fun (t : Tab Word) l => Tab.set t l (recW r (128 + 4 * l))) [], cycHi := recW r 56, refHi := recW r 60
    win := fld st 12 11, regs, tags, names := [], nameBase := 0, latches := lostLatches
    tokens := ((List.range (min 64 (fld st 19 13))).map fun k => tokenOf r (256 + 16 * k)).reverse, ageLimit := 0, strict := false, run := none, line := 0
    refetched := none, held := none, xcnt := fld st 5 0, hold3 := st.getLsbD 20, cond, gates := [], scoreboard := [], busyUntil := 0, waitUntil := none
    admitted := 0, lastStart := 0, boosted := false, yieldTo := [], evicted := none, protect := 0, leaving := false, entering, base := 0, know := []
    seen := [], looked := none }

/-! ### Copies (12 R255) -/

def capBytes16 (c : Cap) : List Byte := leBytes 16 c.bits.toNat
def CopyState.code : CopyState → Nat | .running => 0 | .blocked => 1 | .holding => 2 | .parked => 3

/-- CTRL of a copy's word. -/
def Copy.ctrl (c : Copy) : Nat :=
  fld c.word.mod 5 0 + c.word.q1 * 2 ^ 6 + c.word.q2 * 2 ^ 12 + c.word.bits 87 76 * 2 ^ 18 + bitIf c.isTile 30

/-- A copy's image; its follow-on is the record that waits for it. -/
def copyBytes (c : Copy) (fo : Option MRec) : List Byte :=
  let word := match fo with | some r => ((encodeWave r.inst).map BitVec.toNat).getD 0 | none => 0
  capBytes16 c.tcap ++ capBytes16 c.scap ++ fit 16 (c.desc.flatMap wordBytes) ++ leBytes 8 c.seq ++ leBytes 4 c.ctrl ++ leBytes 4 c.prog ++
  leBytes 12 word ++ leBytes 4 c.state.code ++
  (match fo with | some r => capBytes16 r.cap1 ++ capBytes16 r.cap2 ++ fit 16 (r.desc.flatMap wordBytes) | none => zeros 48)

def descOf (r : List Byte) (off : Nat) : List Word := (List.range 4).map fun k => recW r (off + 4 * k)
def capOf (r : List Byte) (off : Nat) (tag : Bool) : Cap := { bits := BitVec.ofNat 128 (recF r off 16), tag }

/-- The word of a copy from CTRL. -/
def ctrlWord (x : Nat) : W :=
  { ty := 0, nw := false, d := 0, a := .zero, b := .zero, g := .always, mod := BitVec.ofNat 6 x, tail := BitVec.ofNat 32 (x / 64 % 2 ^ 24) }

/-- What the model adds to a copy's image: the command, the wave's number, ACQ performed, all landed, and the chunks of a fabric command that have completed. -/
def Copy.extra (c : Copy) (wig : Nat) : List Byte :=
  let k := match c.kind with | .lin => [0, 0, 0, 0, 0] | .tile => [1, 0, 0, 0, 0] | .put => [2, 0, 0, 0, 0] | .get => [3, 0, 0, 0, 0] | .coll a b e g => [4, a, b, e, g]
  (k.flatMap fun x => leBytes 1 x) ++ leBytes 1 wig ++ leBytes 1 (bitIf c.acqDone 0 + bitIf c.landed 1 + bitIf c.by_.strict 2) ++ leBytes 1 0 ++
  leBytes 4 c.done.length ++ c.done.flatMap fun x => leBytes 4 x

/-- A copy from its image and its extra bytes; `by_` is the issuer as the image knows it. -/
def copyOfImage (r x : List Byte) (id : Nat) (by_ : Issuer) : Copy :=
  let ctrl := recF r 56 4
  let b := fun (k : Nat) => recF x k 1
  let kind := match b 0 with
    | 2 => CopyKind.put | 3 => .get | 4 => .coll (b 1) (b 2) (b 3) (b 4) | _ => if ctrl / 2 ^ 30 % 2 = 1 then .tile else .lin
  { id, kind, by_, word := ctrlWord ctrl, tcap := capOf r 0 true, scap := capOf r 16 true, desc := descOf r 32, seq := recF r 48 8, prog := recF r 60 4
    done := (List.range (recF x 8 4)).map fun k => recF x (12 + 4 * k) 4
    state := match recF r 76 4 with | 1 => .blocked | 2 => .holding | 3 => .parked | _ => .running
    acqDone := b 6 % 2 == 1, landed := b 6 / 2 % 2 == 1, fo := none }

/-! ### The matrix state (13 R286) -/

/-- One record. -/
def recordBytes (r : MRec) : List Byte :=
  leBytes 12 (((encodeWave r.inst).map BitVec.toNat).getD 0) ++
  leBytes 4 (r.prog % 256 + bitIf r.closes 8 + bitIf r.foOf.isSome 9 + bitIf r.acqDone 10) ++
  capBytes16 r.cap1 ++ capBytes16 r.cap2 ++ fit 16 (r.desc.flatMap wordBytes)

/-- Stored bytes of slot `m`: a pair's upper half holds the rest of its lower half's. -/
def slotStore (wb : Tab WData) (m : Nat) : List Byte :=
  match Tab.find wb m with
  | some d => fit 32768 (d.elems ++ d.extra)
  | none => match Tab.find wb (m - 1) with | some d => if m % 2 = 1 ∧ pairFmt d.fmt then fit 32768 (d.elems.drop 32768) else zeros 32768 | none => zeros 32768

def matrixBytes (g : Group) : List Byte :=
  let slot := fun (m : Nat) => match Tab.find g.slots m with | some x => x.fmt % 256 + x.layout % 4 * 2 ^ 8 + 2 ^ 10 + bitIf x.upper 11 | none => 0
  leBytes 4 (match g.baton with | some (h, n) => h.toNat % 65536 + n % 64 * 2 ^ 16 | none => 0) ++ leBytes 4 g.queue.length ++
  ((List.range 16).flatMap fun m => leBytes 2 (slot m)) ++ zeros 24 ++
  ((List.range 16).flatMap fun m => slotStore g.wbuf m ++ fit 2048 ((((Tab.find g.wbuf m).map WData.scales).getD []).map fun b => b.getD 0)) ++ g.queue.flatMap recordBytes

def matrixHead : Nat := 64 + 16 * 34816

/-- What the model adds: of each slot the format and layout of its contents with their sizes; of each record its chain and generator; the failed batches;
the poisoned scale entries of each slot and the poison of the accumulator banks. -/
def matrixExtra (g : Group) : List Byte :=
  let first := match g.queue with | r :: _ => r.batch | [] => g.openBatch
  ((List.range 16).flatMap fun m => match Tab.find g.wbuf m with
    | some d => leBytes 1 d.fmt ++ leBytes 1 (d.layout + 128) ++ leBytes 4 d.elems.length ++ leBytes 2 d.scales.length ++ leBytes 2 d.extra.length
    | none => zeros 10) ++
  (g.queue.flatMap fun r => leBytes 1 r.chain.length ++ leBytes 8 ((r.chain.zipIdx.map fun (m, i) => m % 16 * 16 ^ i).sum) ++
    leBytes 1 (bitIf r.seed.isSome 0 + bitIf r.by_.strict 1 + bitIf r.dead 2) ++ leBytes 4 ((r.seed.getD 0).toNat) ++ leBytes 2 0) ++
  bitBytes 16 (fun k => g.failed.contains (first + k)) ++
  ((List.range 16).flatMap fun m => bitBytes 256 fun k => match Tab.find g.wbuf m with | some d => d.scales[k]? == some none | none => false) ++
  bitBytes (64 * accbOf g.part) (fun k => Tab.get false g.accPoison k)
/-- Its bytes after the slots and the records. -/
def extraTail (part : Word) : Nat := 16 + 16 * 256 + 64 * accbOf part

/-- Slot contents from an image. -/
def wdataOf (r x poison : List Byte) (m : Nat) : Option WData :=
  let b := 10 * m
  if recF x (b + 1) 1 < 128 then none
  else
    let fmt := recF x b 1
    let (ne, ns, nx) := (recF x (b + 2) 4, recF x (b + 6) 2, recF x (b + 8) 2)
    let at' := fun (k : Nat) => part' r (64 + 34816 * k) 32768
    let store := if pairFmt fmt then at' m ++ at' (m + 1) else at' m
    some { fmt, layout := recF x (b + 1) 1 % 128, elems := store.take ne, extra := part' store ne nx, scales :=
      (part' r (64 + 34816 * m + 32768) ns).zipIdx.map fun (b, k) => if bitOf poison (256 * m) k then none else some b }

/-- A record from an image, in a batch. -/
def recordOf (r x : List Byte) (id : Nat) (by_ : Issuer) (batch : Nat) : Option MRec :=
  match decodeWave (BitVec.ofNat 96 (recF r 0 12)) with
  | .error _ => none
  | .ok inst =>
    let p := recF r 12 4
    let handle := match inst with | .mbatch _ | .batonPass _ | .batonPassSignal _ => true | _ => false
    some { id, inst, by_, cap1 := capOf r 16 true, cap2 := capOf r 32 true, desc := if handle then (descOf r 48).take 1 else descOf r 48
           chain := (List.range (recF x 0 1)).map fun i => recF x 1 8 / 16 ^ i % 16, batch, foOf := none, prog := p % 256, acqDone := p / 1024 % 2 == 1
           dead := recF x 9 1 / 4 % 2 == 1, seed := if recF x 9 1 % 2 = 1 then some (recW x 10) else none }

/-- The records of an image, one after another; each closing record ends a batch. -/
def recordsGo (r x : List Byte) (id0 : Nat) (by_ : Bool → Issuer) : Nat → Nat → Nat → List (MRec × Bool) × Nat
  | 0, _, batch => ([], batch)
  | n + 1, k, batch =>
    let rb := part' r (64 * k) 64
    let xb := part' x (16 * k) 16
    match recordOf rb xb (id0 + k) (by_ (recF xb 9 1 / 2 % 2 == 1)) batch with
    | none => recordsGo r x id0 by_ n (k + 1) batch
    | some m =>
      let (l, b) := recordsGo r x id0 by_ n (k + 1) (if m.closes then batch + 1 else batch)
      ((m, recF rb 12 4 / 512 % 2 == 1) :: l, b)

/-! ### Groups (14 R297) -/

def accBytes (g : Group) : List Byte := (List.range (16384 * accbOf g.part)).flatMap fun k => wordBytes (Tab.get 0 g.acc k)

/-- The wave of a number in its group. -/
def GImage.wigOf (i : GImage) (id : Nat) : Nat := match i.waves.find? fun w => w.1 == id with | some (_, w) => w.wig | none => 255

/-- Waves in order of their numbers. -/
def GImage.ordered (i : GImage) : List Wave := (List.range 32).filterMap fun k => (i.waves.find? fun w => w.2.wig == k).map Prod.snd

/-- The gang's entry, in the image of its lowest rank (18 R319; log 55): bit 32 r + k is wave k of the group of rank r. -/
def gangBytes (g : Gang) : List Byte :=
  let bits := fun (l : List Nat) => bitBytes 32 fun n => match g.groups[n / 32]? with | some k => l.contains (k + 1 + n % 32) | none => false
  wordBytes g.phnum ++ leBytes 4 g.elem ++ bits g.arrived ++ bits g.ended

def groupImageBytes (gid : Nat) (i : GImage) (ticket : Option Nat) (lead : Bool) : List Byte :=
  let g := i.group
  let n := g.window
  let (tq, tid, tn) := match g.task with | some (q, id, n) => (q + 1, id.toNat, n) | none => (0, 0, 0)
  let fo := fun (c : Copy) => g.queue.find? fun r => r.foOf == some c.id
  let phase := fun (k : Nat) => match i.ordered.find? fun w => w.wig == k with
    | some w => (match w.cond with | .waiting (.gang p) => leBytes 4 1 ++ wordBytes p | _ => leBytes 8 (bitIf w.entering 1))
    | none => zeros 8
  let head := wordBytes g.part ++ wordBytes g.kprog ++ leBytes 4 i.ordered.length ++ leBytes 4 i.entries.length ++ leBytes 4 i.copies.length ++
    leBytes 4 tq ++ leBytes 4 tid ++ leBytes 4 tn ++ leBytes 8 g.entry ++ leBytes 4 g.nlines ++ leBytes 1 g.rank ++ leBytes 1 g.gsize ++
    leBytes 1 (bitIf g.gangs 0) ++ leBytes 1 0 ++ leBytes 4 (match ticket with | some t => t + 1 | none => 0) ++ zeros 8 ++ leBytes 4 gid
  fit 64 head ++
  ((List.range n).map fun a => Tab.get 0 g.scr a) ++ bitBytes (n / 128) (fun k => Tab.get false g.scrTags k) ++
  bitBytes (n / 256) (fun k => Tab.get false g.scrPoison k) ++
  (i.entries.flatMap fun (k, e) => leBytes 1 k ++ leBytes 1 e.gen ++ leBytes 1 (bitIf e.count 0) ++ leBytes 1 0 ++ leBytes 4 e.off) ++
  (i.copies.flatMap fun c => copyBytes c (fo c)) ++ accBytes g ++ matrixBytes g ++ (i.ordered.flatMap Wave.imageBytes) ++
  matrixExtra g ++ (i.copies.flatMap fun c => c.extra (i.wigOf c.by_.wave)) ++
  (match i.gang with | some k => if lead then gangBytes k else zeros 72 | none => zeros 72) ++ ((List.range 32).flatMap phase)

/-- What a group image's bytes say: its record and parts, with the gang's phase, element, arrivals and ends by bit, and the ticket of its grid. -/
structure GRead where
  img : GImage
  phnum : Word
  elem : Nat
  arrived : List Nat
  ended : List Nat
  ticket : Option Nat
  deriving DecidableEq, Repr

/-- Model ids of a restored group: the group, its waves, its copies, its records. -/
def idStride : Nat := 1024

/-- The id of wave k of a gang's group of rank r, the groups being those given for each rank: a group that has ended has ids of its own. -/
def gangWave (groups : List Nat) (n : Nat) : Nat := (groups[n / 32]?).getD 0 + 1 + n % 32

/-- Extra bytes of copies, one after another. -/
def extrasGo (x : List Byte) : Nat → List (List Byte)
  | 0 => []
  | n + 1 => let m := 12 + 4 * recF x 8 4; x.take m :: extrasGo (x.drop m) n

def groupOfImage (r : List Byte) (gid ctx index : Nat) (gridW tenant : Word) (handler : Word → Inst) (free : Nat → Word) : GRead :=
  let part := recW r 0
  let kprog := recW r 4
  let (nw, ne, nc) := (recF r 8 4, recF r 12 4, recF r 16 4)
  let n := scrbOf part * 65536
  let oTags := 64 + n
  let oPoi := oTags + n / 128
  let oEnt := oPoi + n / 256
  let oCp := oEnt + 8 * ne
  let oAcc := oCp + 128 * nc
  let oMx := oAcc + 65536 * accbOf part
  let nr := min 64 (recF r (oMx + 4) 4)
  let oWv := oMx + matrixHead + 64 * nr
  let ws := waveImageSize kprog
  let oX := oWv + nw * ws
  let oXr := oX + 160
  let oXf := oXr + 16 * nr
  let oXp := oXf + 16 + 16 * 256
  let oXc := oXf + extraTail part
  let extras := extrasGo (r.drop oXc) nc
  let oGang := oXc + (extras.map List.length).sum
  let mxb := part' r oMx matrixHead
  let issuer := fun (wig : Nat) (strict : Bool) => ({
    wave := if wig < 32 then gid + 1 + wig else 0, group := gid, ctx, pc := (free 0).setWidth 57, waveW := free 1, tenant, gridW
    groupW := if recF r 20 4 = 0 then BitVec.ofNat 32 index else recW r 24, need := [], strict } : Issuer)
  let (recs, open') := recordsGo (part' r (oMx + matrixHead) (64 * nr)) (part' r oXr (16 * nr)) (gid + 256) (issuer 32) nr 0 0
  let mk := fun (k : Nat) => let x := (extras[k]?).getD []; copyOfImage (part' r (oCp + 128 * k) 128) x (gid + 64 + k) (issuer (recF x 5 1) (recF x 6 1 / 4 % 2 == 1))
  let copies := (List.range nc).map mk
  let waiting := (List.range nc).filter fun k => recF r (oCp + 128 * k + 64) 12 != 0
  let link := fun (acc : List MRec × List Nat) (x : MRec × Bool) =>
    match x.2, acc.2 with
    | true, k :: t => (acc.1 ++ [{ x.1 with foOf := some (gid + 64 + k) }], t)
    | _, l => (acc.1 ++ [x.1], l)
  let queue := (recs.foldl link ([], waiting)).1
  let fo := fun (c : Copy) => { c with fo := (queue.find? fun m => m.foOf == some c.id).map MRec.id }
  let wave := fun (k : Nat) =>
    let b := part' r (oWv + k * ws) ws
    let wig := fld (recW b 36) 4 0
    let ph := recF r (oGang + 72 + 8 * wig) 4
    let gw := if ph = 1 then some (recW r (oGang + 76 + 8 * wig)) else none
    (gid + 1 + wig, waveOfImage b gid gw (ph.testBit 1) handler)
  let entry := fun (k : Nat) =>
    let o := oEnt + 8 * k
    (recF r o 1, ({ live := true, group := gid, count := recF r (o + 2) 1 == 1, gen := recF r (o + 1) 1, off := recF r (o + 4) 4 } : BEntry))
  let baton := recF mxb 0 4
  let slots := (List.range 16).filterMap fun m =>
    let x := recF mxb (8 + 2 * m) 2
    if x.testBit 10 then some (m, ({ fmt := x % 256, layout := x / 256 % 4, upper := x.testBit 11 } : WSlot)) else none
  let g : Group := {
    ctx, grid := none, core := 0, index, gang := none, rank := recF r 44 1, gsize := recF r 45 1, gangs := recF r 46 1 % 2 == 1, part, kprog, bset := 0
    regBanks := [], b0 := 0, accBanks := [], waves := (List.range (fld kprog 11 7 + 1)).map (gid + 1 + ·), entry := recF r 32 8, nlines := recF r 40 4
    task := if recF r 20 4 = 0 then none else some (recF r 20 4 - 1, recW r 24, recF r 28 4)
    scr := (List.range n).foldl (fun (t : Mem) a => Tab.put 0 t a ((r[64 + a]?).getD 0)) []
    scrTags := (List.range (n / 16)).foldl (fun (t : Tab Bool) k => Tab.put false t k (bitOf r oTags k)) []
    scrPoison := (List.range (n / 32)).foldl (fun (t : Tab Bool) k => Tab.put false t k (bitOf r oPoi k)) []
    acc := (List.range (16384 * accbOf part)).foldl (fun (t : Tab Word) k => Tab.put 0 t k (recW r (oAcc + 4 * k))) []
    accPoison := (List.range (512 * accbOf part)).foldl (fun (t : Tab Bool) k => Tab.put false t k (bitOf r oXp k)) []
    slots, wbuf := (List.range 16).filterMap fun m => (wdataOf mxb (part' r oX 160) (part' r (oXf + 16) 4096) m).map fun d => (m, d), queue, openBatch := open'
    failed := (List.range 128).filter fun k => bitOf r oXf k, baton := if baton = 0 then none else some (BitVec.ofNat 32 (baton % 65536), baton / 65536 % 64) }
  { img := { group := g, waves := (List.range nw).map wave, entries := (List.range ne).map entry, copies := copies.map fo, gang := none }
    phnum := recW r oGang, elem := recF r (oGang + 4) 4
    arrived := (List.range 256).filter fun k => bitOf r (oGang + 8) k
    ended := (List.range 256).filter fun k => bitOf r (oGang + 40) k
    ticket := if recF r 48 4 = 0 then none else some (recF r 48 4 - 1) }

end Sys2Proof.Machine
end

