-- ==== Sys2Proof/Machine/Checkpoint.lean ====
section
/-! DEFINITION. Checkpoints: the image of a context (21 R393), its save (R392) and its launch (R394). -/

namespace Sys2Proof.Machine

/-! ### The image (R393) -/

/-- CTX: the context record, with the quad TROOT in its words 8 and 9. -/
def State.ctxBytes (s : State) (ctx : Nat) : List Byte :=
  let troot := match Tab.find s.ctxs ctx with | some c => c.troot.bits | none => 0
  (List.range 32).flatMap fun k =>
    if k = 8 then leBytes 8 troot.toNat else if k = 9 then leBytes 8 (troot.toNat / 2 ^ 64) else leBytes 8 (s.reg (.ctxw ctx k)).toNat

def joinBytes (e : Join) : List Byte := leBytes 8 (e.gen % 2 ^ 21 + bitIf e.valid 21 + bitIf e.done 22 + e.status % 8 * 2 ^ 23)

/-- Pending child records of a context, in dispatch order. -/
def State.pendingOf (s : State) (ctx : Nat) : List PendRecord :=
  let all := (List.range 4).flatMap fun d => ((s.die d).pool ++ s.ringRecords d).filter fun r => r.ctx == ctx
  (List.range (match Tab.find s.ctxs ctx with | some c => c.order | none => 0)).filterMap fun o => all.find? fun r => r.order == o

/-- TASKR of one queue. -/
def State.taskRBytes (s : State) (ctx q : Nat) : List Byte :=
  let ts := (s.tasks (s.taskQueue ctx q)).filter Task.v
  fit 16 (leBytes 4 ts.length) ++ ts.flatMap fun k => ringEntry k.pc k.off k.id

/-- The ticket of the grid of a group. -/
def State.ticketOf (s : State) (g : Group) : Option Nat := (g.grid.bind (Tab.find s.grids)).bind Grid.ticket

def State.groupPart (s : State) (gid : Nat) (i : GImage) : List Byte :=
  let lead := ((s.imagesWith gid).head?.map Prod.fst) == some gid
  let b := groupImageBytes gid i (s.ticketOf i.group) lead
  let gridW := match i.ordered with | w :: _ => w.gridW | [] => (match i.group.grid.bind (Tab.find s.grids) with | some g => g.gridW | none => 0)
  wordBytes gridW ++ wordBytes (BitVec.ofNat 32 i.group.index) ++ leBytes 8 b.length ++ b

/-- The checkpoint key of a wholesale partition. -/
def State.ckeyBytes (s : State) (wpart : Nat) : List Byte := keyBytes ((List.range 8).map fun k => s.reg (.ckey wpart k))

def imageMac (key img : List Byte) : List Byte := hmac512 key (img.take 64 ++ img.drop 128)

/-- The whole image of a context whose groups have been saved. -/
def State.checkpoint (s : State) (v : Nat) : List Byte :=
  let ctx := (s.vdev v).ctx
  let c := (Tab.find s.ctxs ctx).getD { vdev := v, taskArea := 0 }
  let groups := s.images.filter fun (_, i) => i.group.ctx == ctx
  let pend := s.pendingOf ctx
  let body := s.ctxBytes ctx ++ ((List.range 16).flatMap fun q => s.homeBytes (s.taskDesc ctx q) 64) ++
    ((List.range 1024).flatMap fun j => joinBytes (Tab.get {} c.joins j)) ++ (pend.flatMap fun r => fit 128 r.bytes) ++
    ((List.range 16).flatMap (s.taskRBytes ctx)) ++ groups.flatMap fun (k, i) => s.groupPart k i
  let head := fit 64 (leBytes 4 1 ++ leBytes 4 groups.length ++ leBytes 8 (128 + body.length) ++ leBytes 4 pend.length)
  head ++ imageMac (s.ckeyBytes (s.vdev v).wpart) (head ++ zeros 64 ++ body) ++ body

/-! ### Save (R392) -/

/-- The groups of a context. -/
def State.groupsOf (s : State) (ctx : Nat) : List Nat := (s.groups.filter fun (_, g) => g.ctx == ctx).map Prod.fst

/-- Every group of a context leaves its core. -/
def State.saveContext (s : State) (ctx : Nat) : State :=
  (s.groupsOf ctx).foldl (fun s k => if (Tab.find s.groups k).isSome then s.saveGroups (s.together k) else s) s

/-- The groups that were saved go back in place; where their core cannot take them they stay saved. -/
def State.restoreInPlace (s : State) (places : List (Nat × Nat)) : State :=
  places.foldl (fun s (k, core) =>
    match Tab.find s.images k with
    | none => s
    | some i =>
      let at' := core - (if i.group.gangs then i.group.rank else 0)
      match s.planAll at' (s.imagesWith k) with | some ps => s.restoreAll ps | none => s) s

/-- Dispatch and the context's groups go on as if nothing had been saved. -/
def State.goOn (s : State) (ctx : Nat) : State :=
  ((s.groupsOf ctx).foldl (fun s k => s.updGroup k fun g => { g with saving := false }) s).updCtx ctx fun c => { c with stopped := false }

/-- A command at the head of its queue is for a checkpoint of a kind: the command, its chain, its record. -/
def State.checkpointCmd (s : State) (v q kind : Nat) : Option (Cmd × Chain × Nat × List Byte) :=
  match s.nextCmd v q with
  | some (.chain h o) =>
    match s.cmdRecord v q (.chain h o) with
    | (ch, some r) => if recF r 0 4 = kind then some (.chain h o, ch, h, r) else none
    | _ => none
  | _ => none

/-- The first step holds every group at issue; once all may stop, the image is written and the command completes. -/
def execCheckpointSave (v q : Nat) (s : State) : Out :=
  match s.checkpointCmd v q 3 with
  | none => .fault .notEnabled
  | some (c, ch, h, r) =>
    let ctx := (s.vdev v).ctx
    let ids := s.groupsOf ctx
    let stopped := match Tab.find s.ctxs ctx with | some c => c.stopped | none => false
    let held := ids.all fun k => match Tab.find s.groups k with | some g => g.saving | none => true
    if !s.served v || !s.queueFree ctx q || !(Tab.find s.vdevs v).isSome then .fault .notEnabled
    else if !stopped || !held then .next ((s.markSaving ids).updCtx ctx fun c => { c with stopped := true })
    else
      let ok := ids.all fun k => match Tab.find s.groups k with | some g => s.mayStop k g | none => true
      let places := ids.filterMap fun k => (Tab.find s.groups k).map fun g => (k, g.core)
      let s := s.cmdTouch v q c
      let saved := s.saveContext ctx
      let img := saved.checkpoint v
      let out := s.takeCmd v q c
      when ok
        (if recF r 24 8 < img.length then (out.refuse v q c ch 9).goOn ctx
         else
           match (saved.takeCmd v q c).devWrite ctx (recF r 16 8 % 2 ^ 57) img with
           | none => (out.refuse v q c ch 10).goOn ctx
           | some t =>
             let t := t.complete v q h ch.compl 0 0 0
             if (recF r 42 2).testBit 1 then
               let silent := t.grids.map fun (k, g) => (k, if g.ctx = ctx then { g with compl := none, ticket := none } else g)
               (({ t with grids := silent } : State).endContext ctx).goOn ctx
             else (t.restoreInPlace places).goOn ctx)

/-! ### Launch (R394) -/

/-- Where the group parts of an image begin, if PEND, TASKR and the groups fill it exactly, and each group's bytes. -/
def taskRGo (img : List Byte) : Nat → Nat → Option (List (List Byte) × Nat)
  | 0, o => some ([], o)
  | n + 1, o =>
    let c := recF img o 4
    if img.length < o + 16 + 16 * c then none
    else (taskRGo img n (o + 16 + 16 * c)).map fun (l, e) => (part' img (o + 16) (16 * c) :: l, e)

def groupsGo (img : List Byte) : Nat → Nat → Option (List (Word × Nat × List Byte))
  | 0, o => if o = img.length then some [] else none
  | n + 1, o =>
    let m := recF img (o + 8) 8
    if img.length < o + 64 + m then none
    else (groupsGo img n (o + 64 + m)).map fun l => (recW img o, recF img (o + 4) 4, part' img (o + 64) m) :: l

structure ImageParts where
  pend : List (List Byte)
  tasks : List (List Byte)
  groups : List (Word × Nat × List Byte)
  deriving DecidableEq, Repr

def imageParts (img : List Byte) : Option ImageParts :=
  let np := recF img 16 4
  if img.length < 9600 + 128 * np then none
  else
    match taskRGo img 16 (9600 + 128 * np) with
    | none => none
    | some (tasks, o) => (groupsGo img (recF img 4 4) o).map fun groups => { pend := (List.range np).map fun k => part' img (9600 + 128 * k) 128, tasks, groups }

/-- Tagged capabilities of a group image: those of its registers and of its window. -/
def imageCaps (i : GImage) : List (BitVec 128) :=
  let regs := i.waves.flatMap fun (_, w) =>
    (imageKeys w.declared w.windows).flatMap fun k =>
      if k % 4 ≠ 0 then []
      else (List.range 32).filterMap fun l =>
        if (List.range 4).all fun j => (Tab.get 0 w.tags (k + j)).getLsbD l then
          some ((List.range 4).foldl (fun (x : BitVec 128) j => x ||| (((Lanes.at' 0 (Tab.get zeroReg w.regs (k + j)) l).setWidth 128) <<< (32 * j))) 0)
        else none
  let mem := i.group.scrTags.map fun (k, _) => BitVec.ofNat 128 (leNat ((List.range 16).map fun b => Tab.get 0 i.group.scr (16 * k + b)))
  let cps := i.copies.flatMap fun c => [c.tcap.bits, c.scap.bits]
  let recs := i.group.queue.flatMap fun r => (if r.cap1.bits = 0 then [] else [r.cap1.bits]) ++ if r.cap2.bits = 0 then [] else [r.cap2.bits]
  regs ++ mem ++ cps.filter (· ≠ 0) ++ recs

/-- Step 1: the context record from the image. The merged count holds (25 R436), `BREAD` reads the restored loop, REDUCED is the package's own, and a
length of 0 counts as 1 (20 R348, R352, R360). -/
def State.loadCtx (s : State) (ctx : Nat) (img : List Byte) : State :=
  let at' := fun (k : Nat) => (BitVec.ofNat 64 (recF img (128 + 8 * k) 8) : DWord)
  let t := [1, 2, 3, 11, 12, 16, 17, 18, 19, 20, 21, 22, 24, 25, 26, 27, 28].foldl (fun s k => s.setReg (.ctxw ctx k) (at' k)) (s.holdMerged ctx)
  let top := fun (s : State) (k : Nat) => s.setReg (.ctxw ctx k) (BitVec.ofNat 64 (max (s.reg (.ctxw ctx k)).toNat (at' k).toNat))
  let t := ([23, 10].foldl top t).setTl ctx 4 56 56 (s.regF .pkgst0 40 40)
  t.updCtx ctx fun c => { c with ilen := max 1 (fld (at' 16) 55 32), bread := t.breadList ctx }

/-- Step 2: descriptors with the destination's rings, the waiting tasks, the join table, the pending records. -/
def State.loadTables (s : State) (v q : Nat) (img : List Byte) (p : ImageParts) : State :=
  let ctx := (s.vdev v).ctx
  let now := s.ref (ctx / 256)
  let queue := fun (s : State) (x : List Byte × Nat) =>
    let old := recF (s.homeBytes (s.taskDesc ctx x.2) 64) 0 64
    let new := recF img (384 + 64 * x.2) 64
    let n := x.1.length / 16
    let ring := old / 2 ^ 352 % 2 ^ 52
    let d := new % 2 ^ 352 + ring * 2 ^ 352 + n * 2 ^ 448
    let t := (s.rootWrite ctx (s.taskDesc ctx x.2) (leBytes 64 d)).rootWrite ctx ring x.1
    t.updCtx ctx fun c => { c with taskTimes := (List.range n).foldl (fun t k => Tab.set t (16 * k + x.2) now) (c.taskTimes.filter fun e => e.1 % 16 != x.2) }
  let t := p.tasks.zipIdx.foldl queue s
  let join := fun (j : Nat) =>
    let x := recF img (1408 + 8 * j) 8
    (j, ({ gen := x % 2 ^ 21, valid := x.testBit 21, done := x.testBit 22, status := x / 2 ^ 23 % 8, base := s.homeIx } : Join))
  let joins := (List.range 1024).map join
  let t := t.updCtx ctx fun c => { c with joins }
  let open' := joins.filterMap fun (j, e) => if e.valid && !e.done then some j else none
  let claimed := p.groups.filterMap fun g => if recF g.2.2 48 4 = 0 then none else some (recF g.2.2 48 4 - 1)
  let free := rotateBy (Config.pick t.draw open'.length) (open'.filter fun j => !claimed.contains j)
  let pend := fun (s : State) (x : List Byte × Nat) =>
    match Tab.find s.ctxs ctx with
    | none => s
    | some c =>
      ({ s with ctxs := Tab.set s.ctxs ctx { c with order := c.order + 1 } } : State).placeRecord (ctx / 256)
        { ctx, queue := q, bytes := x.1, ticket := free[x.2]?, order := c.order }
  p.pend.zipIdx.foldl pend t.drawn

/-- The slot of the argument area that a restored wave's `c0` names. -/
def State.slotNamed (s : State) (ctx : Nat) (i : GImage) : Option Nat :=
  (i.waves.filterMap fun (_, w) =>
    let base := (w.quadLane 0 0).base
    let a := s.regF (.ctxw ctx 11) 56 0
    let j := (base - a) / 2304
    if (w.quadLane 0 0).tag ∧ a ≤ base ∧ (base - a) % 2304 = 0 ∧ j < s.regF (.ctxw ctx 12) 15 0 then some j else none).head?

/-- Who answers for a wave that was saved stopped: the owner of the class, or the tenant for a translation. -/
def State.handlerFor (s : State) (tenant cause : Word) : Inst :=
  let code := fld cause 7 0
  if code = 0x20 ∨ code = 0x21 then instOf tenant 3
  else instOf tenant (s.delegated tenant (if code = 0x60 ∨ code = 0x70 then 1 else 0) 3 0)

/-- Step 3: the saved groups, each with a grid of its own GRID value under the command; the Ferryman places them. -/
def State.loadGroups (s : State) (ctx q cmd : Nat) (gs : List (Word × Nat × GRead)) : State :=
  let n0 := s.nextId
  let gridIds := distinct (gs.filterMap fun (gw, _, g) => if g.img.group.task.isSome then none else some gw.toNat)
  let gridId := fun (gw : Word) => n0 + ((gridIds.findIdx? fun x => x == gw.toNat).getD 0)
  let s : State := { s with nextId := n0 + gridIds.length }
  let addGrid := fun (s : State) (n : Nat) =>
    let gw : Word := BitVec.ofNat 32 n
    match gs.filter fun x => x.1 == gw && x.2.2.img.group.task.isNone with
    | [] => s
    | (_, _, g) :: rest =>
      let mine := g :: rest.map fun x => x.2.2
      let slot := (mine.filterMap fun x => s.slotNamed ctx x.img).head?
      let order := match Tab.find s.ctxs ctx with | some c => c.order | none => 0
      let grid : Grid := {
        ctx, queue := q, gridW := gw, kind := 1, part := g.img.group.part, ferry := 0, gseed := 0, kprog := g.img.group.kprog, entry := g.img.group.entry
        nlines := g.img.group.nlines, args := [], argTags := [], argSlot := slot, c0 := ⟨0, false⟩, groups := mine.flatMap fun x => [x.img.group.waves.headD 1 - 1]
        status := .running, lossAt := BitVec.ofNat 32 (s.regF (.ctxw ctx 3) 31 0), ticket := g.ticket, parent := some cmd, order }
      ({ s with grids := Tab.set s.grids (gridId gw) grid } : State).updCtx ctx fun c =>
        { c with order := c.order + 1, argUsed := match slot with | some j => if c.argUsed.contains j then c.argUsed else c.argUsed ++ [j] | none => c.argUsed }
  let t := gridIds.foldl addGrid s
  let gidOf := fun (g : GRead) => g.img.group.waves.headD 1 - 1
  let mates := fun (x : Word × Nat × GRead) =>
    gs.filter fun y => y.1 == x.1 && y.2.2.img.group.gangs && y.2.1 / max 1 y.2.2.img.group.gsize == x.2.1 / max 1 x.2.2.img.group.gsize
  let put := fun (s : State) (x : Word × Nat × GRead) =>
    let g := x.2.2
    let ms := mates x
    let rankOf := fun (y : Word × Nat × GRead) => y.2.2.img.group.rank
    let lead := ((List.range 8).findSome? fun r => ms.find? fun y => rankOf y == r).getD x
    let l := lead.2.2
    let all := (List.range l.img.group.gsize).map fun r =>
      match ms.find? fun y => rankOf y == r with | some y => gidOf y.2.2 | none => gidOf l + 512 + 33 * r
    let gang : Gang := { grid := gridId x.1, elem := l.elem, groups := all, phnum := l.phnum, arrived := l.arrived.map (gangWave all)
                         ended := l.ended.map (gangWave all), nwaves := l.img.group.gsize * wavesOf l.img.group.part }
    let grp := { g.img.group with grid := if g.img.group.task.isSome then none else some (gridId x.1)
                                  gang := if g.img.group.gangs then some (gidOf l + 40) else none }
    { s with images := Tab.set s.images (gidOf g) { g.img with group := grp, gang := if g.img.group.gangs then some gang else none } }
  gs.foldl put t

/-- A KIND 2 command: checks in the order of R385, then the image into the context; the command completes with its grids. -/
def execCheckpointLaunch (v q : Nat) (s : State) : Out :=
  match s.checkpointCmd v q 2 with
  | none => .fault .notEnabled
  | some (c, ch, h, r) =>
    let ctx := (s.vdev v).ctx
    let tenant := s.tenantOf ctx
    let t := ((s.cmdTouch v q c).devTouch ctx (recF r 16 8 % 2 ^ 57) 16).takeCmd v q c
    let go := s.mayDispatch v q && (Tab.find s.vdevs v).isSome
    let no := fun (reason : Nat) => when go (t.refuse v q c ch reason)
    let va := recF r 16 8 % 2 ^ 57
    let size := fun (b : List Byte) => recF b 8 8
    if s.grids.any fun (_, g) => g.ctx == ctx then no 11
    else
      match s.devRead ctx va 16 with
      | none => no 10
      | some b =>
        if recF b 0 4 ≠ 1 ∨ size b < 9600 ∨ recF r 24 8 < size b then no 9
        else
          match s.devRead ctx va (size b) with
          | none => no 10
          | some img =>
            if imageMac (s.ckeyBytes (s.vdev v).wpart) img ≠ part' img 64 64 then no 8
            else
              match imageParts img with
              | none => no 9
              | some p =>
                let troot := match Tab.find s.ctxs ctx with | some c => c.troot | none => ⟨0, false⟩
                let base := s.nextId + 1
                let read := fun (x : (Word × Nat × List Byte) × Nat) =>
                  (x.1.1, x.1.2.1, groupOfImage x.1.2.2 (base + idStride * x.2) ctx x.1.2.1 x.1.1 tenant (s.handlerFor tenant)
                    fun k => Config.unstated 4 (s.draw + 2 * x.2 + k))
                let gs := p.groups.zipIdx.map read
                let bad := gs.any fun x => (imageCaps x.2.2.img).any fun b => (rebuild troot x.2.2.img.group.part b).isNone
                if bad then no 6
                else
                  let order := match c with | .chain _ o => o | .child _ r => r.order
                  let cmd : Grid := {
                    ctx, queue := q, gridW := 0, kind := 2, part := 0, ferry := 0, gseed := 0, kprog := 0, entry := 0, nlines := 0, args := [], argTags := []
                    argSlot := none, c0 := ⟨0, false⟩, status := .running, compl := ch.compl.map fun a => (a, h), order
                    lossAt := BitVec.ofNat 32 (recF img 152 4) }
                  let t := t.devTouch ctx va (size b)
                  let u : State := { t with grids := Tab.set t.grids t.nextId cmd, nextId := base + idStride * gs.length, draw := t.draw + 2 * gs.length }
                  let u := (u.loadCtx ctx img).loadTables v q img p
                  when go (u.loadGroups ctx q s.nextId gs)

end Sys2Proof.Machine
end

