-- ==== Sys2Proof/Machine/Control.lean ====
section
/-! DEFINITION. Branches, calls, reconvergence tokens, `EXIT` and `YIELD` (04 R104-R113). -/

namespace Sys2Proof.Machine

/-- A lost latch in A leaves LLOST (02 R55). -/
def Wave.readA (w : Wave) (i : Instr) (x : W) : Wave := w.flag (if readsLost i x w then fLLOST else 0)

/-! ### Branches and calls (R105, R106) -/

def execBra (w : W) (s : State) : Out :=
  withWave s fun id v => withTarget s id v (target32 v.pc w.tail) (transfer s id v (target32 v.pc w.tail))

/-- Lanes of the active mask whose predicate register is not zero. -/
def predMask (v : Wave) (act : Mask) (o : Opnd) : Mask := maskOf fun l => act.getLsbD l && v.opnd32 o l != 0

def voteTaken (c : Vote) (act p : Mask) : Bool :=
  match c with
  | .any => p != 0
  | .all => act != 0 && p == act
  | .none => p == 0
  | .notall => !(act != 0 && p == act)

def execBraCond (c : Vote) (w : W) (s : State) : Out :=
  withWave s fun id v =>
    let t := target32 v.pc w.tail
    if voteTaken c v.exm (predMask v v.exm w.a) then withTarget s id v t (transfer s id (v.readA (.braCond c w) w) t)
    else doneL s id v (.braCond c w) w

/-- `CALL` writes the pair D and transfers; it enters no latch (R106). -/
def execCall (w : W) (s : State) : Out :=
  withWave s fun id v =>
    let t := target32 v.pc w.tail
    withTarget s id v t
      (let v' := (v.putDst true w.d.toNat v.exm (lanes fun _ => (nextPc v.pc).setWidth 64)).rename (v.dstKeys w.d.toNat 2)
          (s.quarter v.quarterKey).nextName
       transfer (s.noteWrite id v v' (v.dstKeys w.d.toNat 2) 0) id v' t)

/-- The common value of the active lanes, if they agree. -/
def commonLane (v : Wave) (act : Mask) (o : Opnd) : Option DWord :=
  match laneList act with
  | [] => none
  | k :: t => if t.all fun l => v.opnd true o l == v.opnd true o k then some (v.opnd true o k) else none

def execRet (w : W) (s : State) : Out :=
  withWave s fun id v =>
    if v.exm = 0 then trapCode s id v 0x32
    else
      match commonLane v v.exm w.a with
      | none => trapCode s id v 0x03
      | some t =>
        if fld t 63 57 ≠ 0 then trapCode s id v 0x03
        else withTarget s id v (t.setWidth 57) (transfer s id (v.readA (.ret w) w) (t.setWidth 57))

/-! ### Reconvergence tokens (R107-R111) -/

/-- Pops tokens until an active live lane is restored or none is left (R107). -/
def settleGo (live : Mask) : List Token → PC → Mask → List Token × PC × Mask
  | [], pc, exm => ([], pc, exm)
  | e :: t, pc, exm =>
    if exm &&& live = 0 then settleGo live t (if e.kind = .path then e.pc else nextPc e.pc) (e.mask &&& live)
    else (e :: t, pc, exm)

/-- The wave at `pc`, settled. -/
def Wave.settle (w : Wave) (pc : PC) : Wave :=
  let (ts, pc, exm) := settleGo w.live w.tokens pc w.exm
  { w with tokens := ts, pc, exm }

/-- Deepest stack (01 R29). -/
def maxTokens : Nat := 64

/-- `LOOP` (R108); slots 5 to 7 in its target field raise 0x03 (R104; log 70). -/
def execLoop (w : W) (s : State) : Out :=
  withWave s fun id v =>
    if illegalPc (target32 v.pc w.tail) then trapCode s id v 0x03
    else if maxTokens ≤ v.tokens.length then trapCode s id v 0x32
    else done s id { v with tokens := { kind := .loop, pc := target32 v.pc w.tail, mask := 0 } :: v.tokens }

/-- `SPLIT` (R109); slots 5 to 7 in its join field raise 0x03 (R104; log 70). A PATH entry is not aged by the instruction that pushes it (07 R152). -/
def execSplit (w : W) (s : State) : Out :=
  withWave s fun id v =>
    let t := predMask v v.exm w.a
    let f := v.exm &&& ~~~t
    let both := t != 0 && f != 0
    let target := target16 v.pc (w.tail.setWidth 16)
    let join : Token := { kind := .join, pc := target16 v.pc (w.tail.extractLsb' 16 16), mask := v.exm }
    let path : Token := { kind := .path, pc := nextPc v.pc, mask := f }
    let v' := v.readA (.split w) w
    let push := fun (u : Wave) => { u with tokens := (if both then [path, join] else [join]) ++ u.tokens }
    let deep := maxTokens < v.tokens.length + (if both then 2 else 1)
    let bad := illegalPc join.pc
    if t = 0 then
      if bad then trapCode s id v 0x03
      else if deep then trapCode s id v 0x32 else done s id { v' with tokens := join :: v'.tokens }
    else if bad && checkTarget s v target != .cause 0x04 then trapCode s id v 0x03
    else
      withTarget s id v target
        (if deep then trapCode s id v 0x32 else .next (s.setWave id (push { v'.goto target with exm := t })))

/-- Completion at the PC that a resumption or a settle gave. -/
def resumeAt (s : State) (id : Nat) (w : Wave) (old : PC) : Out :=
  .next (s.setWave id { w.goto w.pc with run := some old })

/-- `MEET` (R110). -/
def execMeet (_w : W) (s : State) : Out :=
  withWave s fun id v =>
    match v.tokens with
    | [] => trapCode s id v 0x32
    | e :: rest =>
      if e.kind = .path then
        resumeAt s id ({ v with tokens := rest, exm := e.mask &&& v.live }.settle e.pc) v.pc
      else if e.pc ≠ v.pc then trapCode s id v 0x32
      else
        let exm := ((if e.kind = .loop then v.exm else 0) ||| e.mask) &&& v.live
        let v' := { v with tokens := rest, exm }
        if exm = 0 ∧ rest ≠ [] then resumeAt s id (v'.settle (nextPc v.pc)) v.pc
        else done s id v'

/-- Marks broken lanes in the entries above the nearest LOOP entry and in it; none where there is no LOOP entry (R111). -/
def breakTokens (b : Mask) : List Token → Option (List Token)
  | [] => none
  | e :: t =>
    if e.kind = .loop then some ({ e with mask := e.mask ||| b } :: t)
    else (breakTokens b t).map fun r => { e with mask := e.mask &&& ~~~b } :: r

/-- `BREAK` of the lanes `b` (R111). -/
def breakOp (s : State) (id : Nat) (v v' : Wave) (b : Mask) : Out :=
  if b = 0 then done s id v'
  else
    match breakTokens b v.tokens with
    | none => trapCode s id v 0x32
    | some ts =>
      let exm := v.exm &&& ~~~b
      if exm = 0 then resumeAt s id ({ v' with tokens := ts, exm }.settle (nextPc v.pc)) v.pc
      else done s id { v' with tokens := ts, exm }

def execBreakPred (w : W) (s : State) : Out :=
  withWave s fun id v => breakOp s id v (v.readA (.breakPred w) w) (predMask v v.exm w.a)
def execBrk (_w : W) (s : State) : Out := withWave s fun id v => breakOp s id v v v.exm

/-! ### EXIT and YIELD (R112, R113) -/

/-- `EXIT`: the active lanes leave; the wave settles, and ends where nothing restores a lane. -/
def execExit (w : W) (s : State) : Out :=
  withWave s fun id v =>
    let act := v.active w.g
    let live := v.live &&& ~~~act
    let v' := s.absentSlices id { v with live, exm := v.exm &&& ~~~act }
    let t := s.returnSlices id v live
    if v'.exm = 0 then
      let u := v'.settle (nextPc v.pc)
      if u.exm &&& u.live = 0 then .next (s.endWave id v)
      else resumeAt t id u v.pc
    else done t id v'

/-- `YIELD`: every wave that is ready on the quarter now starts before it again (R113, 14 R289). -/
def execYield (_w : W) (s : State) : Out :=
  withWave s fun id v =>
    let others := ((s.residents v.core v.qtr).filter fun (k, u) => k != id && s.ready u).map Prod.fst
    done s id { v with yieldTo := others }

end Sys2Proof.Machine
end

