-- ==== Sys2Proof/Machine/Convert.lean ====
section
/-! DEFINITION. Conversions, block scales, quantisation, packing (05 R128-R133) and the stochastic generator of a lane (03 R79-R81). -/

namespace Sys2Proof.Machine

/-- Whether an instruction rounds stochastically: `.sr`, or `$fpc`.SR with no named mode on a destination that allows it (02 R52, 03 R81). -/
def stochastic (i : Instr) (x : W) (w : Wave) : Bool :=
  fld x.mod 2 0 == 5 || (fld x.mod 2 0 == 0 && w.fpc.getLsbD 2 && i.srLegal)

def Wave.seedLane (w : Wave) (l : Nat) : Word := Tab.get 1 w.seed l

/-- A converting instruction: `f` takes the controls and the generator state of a lane and gives bits, flags and the new state; an active
lane's generator keeps its advance (R81). -/
def convOp (i : Instr) (x : W) (s : State) (wide : Bool) (f : Wave → FCtl → Nat → Word → (DWord × Nat) × Word) : Out :=
  withWave s fun id w =>
    let act := w.active x.g
    let r := lanes fun l => f w (fctl w x) l (w.seedLane l)
    let at' := fun (l : Nat) => Lanes.at' ((0, 0), (1 : Word)) r l
    let w' := if stochastic i x w then { w with seed := (laneList act).foldl (fun t l => Tab.set t l (at' l).2) w.seed } else w
    retire s id w' i x act wide (lanes fun l => (at' l).1.1) (orFlags act fun l => (at' l).1.2)

/-- The mode of one element, and the generator after it (R79, R81). -/
def stepMode (sr : Bool) (c : FCtl) (seed : Word) : FCtl × Word :=
  if sr then ({ c with mode := .sr (srR (srNext seed)) }, srNext seed) else (c, seed)

/-- One or two elements in ascending order, each with its own step of the generator. -/
def perElemSr (two sr : Bool) (c : FCtl) (seed : Word) (f : FCtl → Nat → FR) (lay : Nat → Nat) : (DWord × Nat) × Word :=
  let (c0, s0) := stepMode sr c seed
  let r0 := f c0 0
  if two then
    let (c1, s1) := stepMode sr c s0
    let r1 := f c1 1
    ((BitVec.ofNat 64 (r0.bits + 65536 * r1.bits), r0.flags ||| r1.flags), s1)
  else ((BitVec.ofNat 64 (lay r0.bits), r0.flags), s0)

/-- The value of a source float operand: element `k` of a packed one; FTZ on the formats of R76. -/
def srcFV (w : Wave) (ty : Nat) (o : Opnd) (l k : Nat) : FV :=
  (fmtTy ty).flush w.ftz ((fmtTy ty).decode (rawOf ty k (w.fopnd ty o l)))

def execCvtFF (w : W) (s : State) : Out :=
  let i := Instr.cvtFF w
  let src := w.ty.toNat
  let dst := w.bits 78 75
  convOp i w s (dst == 1) fun v c l seed =>
    perElemSr (packed dst) (stochastic i w v) c seed (fun c k =>
      let a := if packed src then srcFV v src w.a l (if packed dst then k else w.bits 79 79)
        else srcFV v src (if k = 1 then w.b else w.a) l 0
      (fmtTy dst).convert c a) (layOf dst)

def execCvtFI (w : W) (s : State) : Out :=
  let i := Instr.cvtFI w
  let src := w.ty.toNat
  let dst := w.bits 78 75
  convOp i w s (is64 0x01 dst) fun v c l seed =>
    perElemSr false (stochastic i w v) c seed (fun c _ =>
      let r := convertInt c.mode dst (srcFV v src w.a l (if packed src then w.bits 79 79 else 0))
      ⟨(layInt dst r.val).toNat, r.flags⟩) id

def execCvtIF (w : W) (s : State) : Out :=
  let i := Instr.cvtIF w
  let dst := w.ty.toNat
  let src := w.bits 78 75
  convOp i w s (dst == 1) fun v c l seed =>
    perElemSr false (stochastic i w v) c seed (fun c _ =>
      let n := readInt src (v.opnd (is64 0x01 src) w.a l)
      (fmtTy dst).round c.mode c.ftz c.sat (decide (n < 0)) n.natAbs 0) (layOf dst)

/-! ### Block scales (R130) -/

/-- The element that TY and EXT[75] name: none is INT8. -/
def elemOf (x : W) : Option Nat := if x.tail.getLsbD 11 then none else some x.ty.toNat

/-- Active lanes of the block that holds lane `l`: the wave, or a half of it. DESIGN CHOICE (log 59): only the active lanes' operands make a
scale NaN, as only they make amax (R130). -/
def blockLanes (half : Bool) (act : Mask) (l : Nat) : List Nat := (laneList act).filter fun k => !half || k / 16 == l / 16

def scalegen (i : Instr) (x : W) (s : State) (half : Bool) (f : List FV → FR) : Out :=
  withWave s fun id w =>
    let act := w.active x.g
    let r := fun (l : Nat) => f ((blockLanes half act l).map fun k => (fmtTy 0).decode (rawOf 0 0 (w.fopnd 0 x.a k)))
    let lo := r 0
    let hi := if half then r 16 else lo
    retire s id w i x act false (lanes fun l => BitVec.ofNat 64 (if l < 16 then lo.bits else hi.bits))
      (orFlags act fun l => if l < 16 then lo.flags else hi.flags)

def execScalegenE8M0 (w : W) (s : State) : Out := scalegen (.scalegenE8M0 w) w s false (scaleE8 (elemOf w))
def execScalegenE4M3 (w : W) (s : State) : Out := scalegen (.scalegenE4M3 w) w s true scaleE4

/-! ### Quantisation (R131) -/

def quantise (i : Instr) (x : W) (s : State) (scale : Nat → FV) : Out :=
  convOp i x s false fun v c l seed =>
    perElemSr false (stochastic i x v) c seed (fun c _ =>
      qntElem (elemOf x) c (scale (fld (v.opnd32 x.b l) 7 0)) (srcFV v 0 x.a l 0)) id

def execQntE8M0 (w : W) (s : State) : Out := quantise (.qntE8M0 w) w s e8m0
def execQntE4M3 (w : W) (s : State) : Out := quantise (.qntE4M3 w) w s fun b => (fmtTy 6).decode b

/-! ### Packing (R132, R133) -/

/-- N of a width code. -/
def packWidth : Nat → Nat | 0 => 4 | 1 => 6 | 2 => 8 | _ => 16

/-- Replaces slot `j` of a word. -/
def putSlot (n : Nat) (word : Word) (j : Nat) (v : Word) : Word :=
  (word &&& ~~~(lowMask n <<< (n * j))) ||| ((v &&& lowMask n) <<< (n * j))
where
  /-- `n` low ones. -/
  lowMask (n : Nat) : Word := BitVec.ofNat 32 (2 ^ n - 1)

def packWord (code pos : Nat) (a b c : Word) : Word :=
  let n := packWidth code
  let d := putSlot n (putSlot n c pos a) (pos + 1) b
  if code = 1 then d &&& 0x00FF_FFFF else d

def execPack (w : W) (s : State) : Out :=
  laneOp (.pack w) w s false fun v l =>
    (packWord (w.bits 77 75) (w.bits 80 78) (v.opnd32 w.a l) (v.opnd32 w.b l) (v.opnd32 w.c l)).setWidth 64

def execUnpk (w : W) (s : State) : Out :=
  laneOp (.unpk w) w s false fun v l =>
    let n := packWidth (w.bits 77 75)
    ((v.opnd32 w.a l >>> (n * w.bits 80 78)) &&& putSlot.lowMask n).setWidth 64

end Sys2Proof.Machine
end

