-- ==== Sys2Proof/Machine/Integer.lean ====
section
/-! DEFINITION. Integer arithmetic, compare, select, counts, logic, shifts, bitfields and moves (04 R88-R97). -/

namespace Sys2Proof.Machine

/-! ### Values -/

/-- A value kept to 32 or 64 bits. -/
def keepW (wide : Bool) (v : DWord) : DWord := if wide then v else (v.setWidth 32).setWidth 64
def widthOf (wide : Bool) : Nat := if wide then 64 else 32

/-- The result of an exact integer: wrapped, or clamped to the type under `.sat` (R88). -/
def intRes (ty : Nat) (sat : Bool) (v : Int) : DWord := layInt ty (if sat then max (intMin ty) (min (intMax ty) v) else v)

/-- Source B of a row in format V or I (02 R51). -/
def srcB (i : Instr) (x : W) (w : Wave) (wide : Bool) (l : Nat) : DWord :=
  if fmtOf (opOf i) = .i then immInt x.ty.toNat x.tail else w.opnd wide x.b l

/-- Exact integer arithmetic over A, B and C (R88). -/
def arithOp (i : Instr) (x : W) (s : State) (f : Int → Int → Int → Int) : Out :=
  let ty := x.ty.toNat
  let wide := wideOf i x
  laneOp i x s wide fun w l =>
    intRes ty (x.mod.getLsbD 0) (f (readInt ty (w.opnd wide x.a l)) (readInt ty (srcB i x w wide l)) (readInt ty (w.opnd wide x.c l)))

/-- A bit operation over A and B (R92). -/
def bitOp (i : Instr) (x : W) (s : State) (f : DWord → DWord → DWord) : Out :=
  let wide := wideOf i x
  laneOp i x s wide fun w l => keepW wide (f (w.opnd wide x.a l) (srcB i x w wide l))

/-! ### Arithmetic (R88) -/

def execAdd (w : W) (s : State) : Out := arithOp (.add w) w s fun a b _ => a + b
def execSub (w : W) (s : State) : Out := arithOp (.sub w) w s fun a b _ => a - b
def execMul (w : W) (s : State) : Out := arithOp (.mul w) w s fun a b _ => a * b
/-- The upper half of the product (R88). -/
def mulHigh (w : W) (a b _ : Int) : Int := a * b / 2 ^ (intTy w.ty.toNat).2
def execMulhi (w : W) (s : State) : Out := arithOp (.mulhi w) w s (mulHigh w)
def execMin (w : W) (s : State) : Out := arithOp (.min w) w s fun a b _ => min a b
def execMax (w : W) (s : State) : Out := arithOp (.max w) w s fun a b _ => max a b
def execMad (w : W) (s : State) : Out := arithOp (.mad w) w s fun a b c => a * b + c
def execAddImm (w : W) (s : State) : Out := arithOp (.addImm w) w s fun a b _ => a + b
def execSubImm (w : W) (s : State) : Out := arithOp (.subImm w) w s fun a b _ => a - b
def execMulImm (w : W) (s : State) : Out := arithOp (.mulImm w) w s fun a b _ => a * b
def execMulhiImm (w : W) (s : State) : Out := arithOp (.mulhiImm w) w s (mulHigh w)
def execMinImm (w : W) (s : State) : Out := arithOp (.minImm w) w s fun a b _ => min a b
def execMaxImm (w : W) (s : State) : Out := arithOp (.maxImm w) w s fun a b _ => max a b

/-! ### Compare and select (R89, R90) -/

/-- An integer condition. -/
def intCond (c : Cc) (a b : Int) : Bool :=
  match c with
  | .eq => decide (a = b) | .ne => decide (a ≠ b) | .lt => decide (a < b) | .le => decide (a ≤ b) | .gt => decide (b < a)
  | .ge => decide (b ≤ a)

def cmpOp (i : Instr) (c : Cc) (x : W) (s : State) : Out :=
  let wide := wideOf i x
  laneOp i x s false fun w l => bit (intCond c (readInt x.ty.toNat (w.opnd wide x.a l)) (readInt x.ty.toNat (srcB i x w wide l)))

def execCmp (c : Cc) (w : W) (s : State) : Out := cmpOp (.cmp c w) c w s
def execCmpImm (c : Cc) (w : W) (s : State) : Out := cmpOp (.cmpImm c w) c w s

def execSel (w : W) (s : State) : Out :=
  let wide := wideOf (.sel w) w
  laneOp (.sel w) w s wide fun v l => if v.opnd32 w.c l = 0 then v.opnd wide w.b l else v.opnd wide w.a l

/-! ### Bit counts (R91) -/

def popCount (a : Word) : Nat := ((List.range 32).filter a.getLsbD).length
def leadZeros (a : Word) : Nat := ((List.range 32).reverse.takeWhile fun k => !a.getLsbD k).length
def trailZeros (a : Word) : Nat := ((List.range 32).takeWhile fun k => !a.getLsbD k).length

def countOp (i : Instr) (x : W) (s : State) (f : Word → Nat) : Out :=
  laneOp i x s false fun w l => BitVec.ofNat 64 (f (w.opnd32 x.a l))

def execPopc (w : W) (s : State) : Out := countOp (.popc w) w s popCount
def execClz (w : W) (s : State) : Out := countOp (.clz w) w s leadZeros
def execCtz (w : W) (s : State) : Out := countOp (.ctz w) w s trailZeros
def execBrev (w : W) (s : State) : Out := countOp (.brev w) w s fun a => a.reverse.toNat

/-! ### Logic (R92, R93) -/

def execAnd (w : W) (s : State) : Out := bitOp (.and w) w s fun a b => a &&& b
def execOr (w : W) (s : State) : Out := bitOp (.or w) w s fun a b => a ||| b
def execXor (w : W) (s : State) : Out := bitOp (.xor w) w s fun a b => a ^^^ b
def execAndn (w : W) (s : State) : Out := bitOp (.andn w) w s fun a b => a &&& ~~~b
def execOrn (w : W) (s : State) : Out := bitOp (.orn w) w s fun a b => a ||| ~~~b
def execNot (w : W) (s : State) : Out := bitOp (.not w) w s fun a _ => ~~~a
def execAndImm (w : W) (s : State) : Out := bitOp (.andImm w) w s fun a b => a &&& b
def execOrImm (w : W) (s : State) : Out := bitOp (.orImm w) w s fun a b => a ||| b
def execXorImm (w : W) (s : State) : Out := bitOp (.xorImm w) w s fun a b => a ^^^ b
def execAndnImm (w : W) (s : State) : Out := bitOp (.andnImm w) w s fun a b => a &&& ~~~b
def execOrnImm (w : W) (s : State) : Out := bitOp (.ornImm w) w s fun a b => a ||| ~~~b

/-- The Boolean function of three inputs that a map tabulates, bit by bit (R93). -/
def ternary (map : Nat) (a b c : Word) : Word :=
  maskOf fun i => map.testBit ((if a.getLsbD i then 1 else 0) + (if b.getLsbD i then 2 else 0) + (if c.getLsbD i then 4 else 0))

def execTern (w : W) (s : State) : Out :=
  laneOp (.tern w) w s false fun v l => (ternary (w.bits 82 75) (v.opnd32 w.a l) (v.opnd32 w.b l) (v.opnd32 w.c l)).setWidth 64

/-! ### Shifts (R94) -/

def shlV (n : Nat) (a : DWord) (k : Nat) : DWord := if k < n then a <<< k else 0
def shrV (n : Nat) (a : DWord) (k : Nat) : DWord := if k < n then a >>> k else 0
/-- Arithmetic shift; an amount of the width or more leaves copies of the sign. -/
def sarV (n : Nat) (a : DWord) (k : Nat) : DWord := (if n = 64 then a else (a.setWidth 32).signExtend 64).sshiftRight (min k 63)
def rolV (n : Nat) (a : DWord) (k : Nat) : DWord := let k := k % n; (a <<< k) ||| (a >>> (n - k))
def rorV (n : Nat) (a : DWord) (k : Nat) : DWord := let k := k % n; (a >>> k) ||| (a <<< (n - k))

/-- The amount is a 32-bit register or IMM, whatever the type. -/
def shiftOp (i : Instr) (x : W) (s : State) (f : Nat → DWord → Nat → DWord) : Out :=
  let wide := wideOf i x
  laneOp i x s wide fun w l =>
    keepW wide (f (widthOf wide) (w.opnd wide x.a l) (if fmtOf (opOf i) = .i then x.tail.toNat else (w.opnd32 x.b l).toNat))

def execShl (w : W) (s : State) : Out := shiftOp (.shl w) w s shlV
def execShr (w : W) (s : State) : Out := shiftOp (.shr w) w s shrV
def execSar (w : W) (s : State) : Out := shiftOp (.sar w) w s sarV
def execRol (w : W) (s : State) : Out := shiftOp (.rol w) w s rolV
def execRor (w : W) (s : State) : Out := shiftOp (.ror w) w s rorV
def execShlImm (w : W) (s : State) : Out := shiftOp (.shlImm w) w s shlV
def execShrImm (w : W) (s : State) : Out := shiftOp (.shrImm w) w s shrV
def execSarImm (w : W) (s : State) : Out := shiftOp (.sarImm w) w s sarV
def execRolImm (w : W) (s : State) : Out := shiftOp (.rolImm w) w s rolV
def execRorImm (w : W) (s : State) : Out := shiftOp (.rorImm w) w s rorV

/-! ### Bitfields (R95) -/

def lowBits (len : Nat) : Word := BitVec.ofNat 32 (2 ^ len - 1)

/-- A field, sign-extended where `signed`. -/
def extractField (signed : Bool) (a : Word) (pos len : Nat) : Word :=
  let f := (a >>> pos) &&& lowBits len
  if signed && f.getLsbD (len - 1) then f ||| ~~~lowBits len else f

def execBfx (w : W) (s : State) : Out :=
  laneOp (.bfx w) w s false fun v l => (extractField (decide (w.ty = 0)) (v.opnd32 w.a l) (w.bits 68 64) (w.bits 74 69)).setWidth 64

def insertField (a b : Word) (pos len : Nat) : Word := (a &&& ~~~(lowBits len <<< pos)) ||| ((b &&& lowBits len) <<< pos)

def execBfi (w : W) (s : State) : Out :=
  laneOp (.bfi w) w s false fun v l => (insertField (v.opnd32 w.a l) (v.opnd32 w.b l) (w.bits 68 64) (w.bits 74 69)).setWidth 64

/-! ### Moves and byte selection (R96, R97) -/

def execMov (w : W) (s : State) : Out :=
  let wide := wideOf (.mov w) w
  laneOp (.mov w) w s wide fun v l => v.opnd wide w.a l

def execMovImm (w : W) (s : State) : Out :=
  laneOp (.movImm w) w s (wideOf (.movImm w) w) fun _ _ => immInt w.ty.toNat w.tail

/-- Byte i of the result from its code, given byte i - 1 as just set (R97). -/
def selByte (src : DWord) (prev : Nat) (f : Nat) : Nat :=
  if f < 8 then fld src (8 * f + 7) (8 * f)
  else if f = 8 then 0
  else if f = 9 then 255
  else if 128 ≤ prev then 255 else 0

def byteSelect (a b : Word) (sel : Nat) : Nat :=
  let src : DWord := a ++ b
  let b0 := selByte src 0 (sel % 16)
  let b1 := selByte src b0 (sel / 16 % 16)
  let b2 := selByte src b1 (sel / 256 % 16)
  let b3 := selByte src b2 (sel / 4096 % 16)
  b0 + 256 * b1 + 65536 * b2 + 16777216 * b3

def execBytsel (w : W) (s : State) : Out :=
  laneOp (.bytsel w) w s false fun v l => BitVec.ofNat 64 (byteSelect (v.opnd32 w.a l) (v.opnd32 w.b l) (w.bits 90 75))

end Sys2Proof.Machine
end

