-- ==== Sys2Proof/Machine/Package.lean ====
section
/-! DEFINITION. The package: hard-partition handshakes (21 R395-R397), supervisor recovery (R398-R400), boot, measurement and quotes (24 R414, R415),
bring-up (R416-R418), power and clocks (R409-R413), links and errors (R405, R419, 25 R439). -/

namespace Sys2Proof.Machine

/-! ### The hard-partition handshake (21 R396, R397) -/

def affectedDies (s : State) : List Nat := (List.range 4).filter s.affected

/-- Nothing of the affected partitions runs, waits to be launched, or waits on a fault-buffer entry. -/
def State.drainedParts (s : State) : Bool :=
  let ds := affectedDies s
  !(s.grids.any fun (_, g) => ds.contains (g.ctx / 256)) &&
  ds.all (fun d => (s.die d).pool.isEmpty && (s.die d).overflow.isEmpty) &&
  !(s.cores.any fun (k, c) => decide (k < 256) && ds.contains (dieOf k) && !c.fbuf.isEmpty)

/-- HPST: GO starts a handshake; while one is in progress GO is ignored. -/
def execHpstGo (v : Word) (i : Inst) (s : State) : Out :=
  let t := s.writeReg .hpst (v.setWidth 64)
  when (s.mayWrite i .hpst)
    (if !v.getLsbD 31 || (s.reg .hpst).getLsbD 2 then t
     else
       let t := (t.setRegF .hpst 1 0 1).setRegF .hpst 2 2 1
       { t with drainLeft := max 1 (s.regF .draindl 31 0) * 1024 })

/-- Lines of a die leave its cache. -/
def State.emptyCache (s : State) (die : Nat) : State := (s.die die).llc.foldl (fun s l => s.evictLine die l) s

/-- Memory that some predicate picks is zeroed, its poison and tags cleared. -/
def State.zeroMem (s : State) (p : Nat → Bool) : State :=
  { s with mem := s.mem.filter fun e => !p e.1, mtags := s.mtags.filter fun e => !p (16 * e.1), mpoison := s.mpoison.filter fun e => !p (32 * e.1)
           lpoison := s.lpoison.filter fun e => !p (32 * e.1), hist := s.hist.filter fun e => e.place != .glob || !(e.cells.any fun c => p c.1) }

/-- Rewrite, shoot and open: the map changes, MEMACC follows it, memory that moved is zeroed, every translation of the affected contexts goes. -/
def State.rewriteParts (s : State) : State :=
  let ds := affectedDies s
  let new := s.regF .hpst 15 8
  let moved := (List.range 4).filter fun d => s.hpOf d != new / 4 ^ d % 4
  let t := ds.foldl (fun s d => s.emptyCache d) s
  let t := t.zeroMem fun pa => match dieOfPa pa with | some d => moved.contains d | none => false
  let t := t.setReg .hpmap (BitVec.ofNat 64 new)
  let peers := fun (d : Nat) => ((List.range 4).map fun e => if new / 4 ^ e % 4 = new / 4 ^ d % 4 then 2 ^ e else 0).sum
  let t := ds.foldl (fun s d => s.setRegF (.memacc d) 3 0 (peers d)) t
  (t.ctxs.filter fun (c, _) => ds.contains (c / 256)).foldl (fun s (c, _) => [1, 2, 3].foldl (fun s g => s.shoot c g 0 0) s) t

def execHpDrainDone (s : State) : Out :=
  let t := ((s.rewriteParts.setRegF .hpst 1 0 0).setRegF .hpst 2 2 0).setRegF .hpst 4 4 1
  when (s.regF .hpst 1 0 == 1 && s.drainedParts) t

/-- The deadline has passed: queues reopen unchanged. -/
def execHpDrainTimeout (s : State) : Out :=
  when (s.regF .hpst 1 0 == 1 && s.drainLeft == 0 && !s.drainedParts) (((s.setRegF .hpst 1 0 0).setRegF .hpst 2 2 0).setRegF .hpst 3 3 1)

/-! ### The supervisor pair (21 R398-R400) -/

def State.hbPeriod (s : State) : Nat := max 0x1000 (s.regF .hbper 31 0)
/-- The primary counts; every live command core counts in its own word (R398, R399). -/
def execHeartbeat (s : State) : Out :=
  let beat := fun (l : LCore) => if l.fenced then l else { l with heart := l.heart + 1 }
  let t := (List.range 32).foldl (fun s k => s.updLcore k beat) s
  when (s.booted && !(s.lcore s.primary).fenced && decide (s.hbPeriod ≤ s.hbeatAge))
    { (t.setReg .hbeat (BitVec.ofNat 64 ((s.regF .hbeat 31 0 + 1) % 2 ^ 32))) with hbeatAge := 0 }

/-- Fences a Landing core: LFENCE reads back its number (R398, R399). -/
def State.fenceL (s : State) (lc : Nat) : State :=
  (((s.stopL lc).setRegF .lfence 2 0 (lc % 8)).setRegF .lfence 4 3 (lc / 8)).setRegF .lfence 31 31 1

/-- Devices of a core move to the live command cores of its die, or of another when none is left (R400). -/
def State.moveDevices (s : State) (lc : Nat) : State :=
  let order := (lc / 8) :: (List.range 4).filter (· != lc / 8)
  match order.findSome? fun d => match s.commandCores d with | [] => none | l => some l with
  | none => s
  | some l =>
    let to' := (l[Config.pick s.draw l.length % l.length]?).getD lc
    let move := fun (d : VDev) => if d.lcore = lc then { d with lcore := to' } else d
    { s.drawn with vdevs := s.vdevs.map fun (v, d) => (v, move d) }

/-- Processes the unacknowledged journal entries of some devices, in order (R398). -/
def State.processJournals (s : State) (p : VDev → Bool) : State :=
  (List.range 4).foldl (fun s die =>
    let todo := (s.die die).journal.filter fun e => !e.ack && p (s.vdev e.vdev) && !s.hpStopped (s.vdev e.vdev).home
    (todo.foldl (fun s e => (s.readRing e.vdev e.queue).updDie die fun d => { d with journal := d.journal.erase e }) s).takeHeld die) s

/-- The standby has seen no heartbeat for four periods: it fences the primary, takes its place and appoints a standby (R398). -/
def execStandbyTakeover (s : State) : Out :=
  let old := s.primary
  let new := s.standby
  let t := s.fenceL old
  let t := t.processJournals fun _ => true
  let t := t.setRegF .supst 2 0 new
  let t := match (List.range 8).find? fun c => decide (2 ≤ c) && c != new && !(t.lcore c).fenced with
    | some c => (t.setRegF .supst 5 3 c).moveDevices c
    | none => t.setRegF .supst 6 6 1
  when (s.booted && !s.noStandby && !(s.lcore new).fenced && decide (4 * s.hbPeriod ≤ s.hbeatAge)) { t with hbeatAge := 0 }

/-- LFENCE: GO fences the named core; DONE says whether the named core is fenced (R399). -/
def execLfenceGo (v : Word) (i : Inst) (s : State) : Out :=
  let lc := fld v 4 3 * 8 + fld v 2 0
  let t := s.writeReg .lfence (v.setWidth 64)
  when (s.mayWrite i .lfence) (if v.getLsbD 5 then t.fenceL lc else t.setRegF .lfence 31 31 (if (s.lcore lc).fenced then 1 else 0))

/-- The supervisor fences a silent command core, moves its devices and processes their journal entries (R400). -/
def execCommandCoreFence (die core : Nat) (s : State) : Out :=
  let lc := die * 8 + core
  let moved := (s.vdevs.filter fun (_, d) => d.lcore == lc).map fun (_, d) => d.ctx
  when (decide (die < 4 ∧ core < 8) && (s.commandCores die).contains lc)
    (((s.fenceL lc).moveDevices lc).processJournals fun d => moved.contains d.ctx)

/-! ### Boot and attestation (24 R414, R415) -/

def State.measBytes (s : State) (die n : Nat) : List Byte := keyBytes ((List.range 8).map fun w => s.reg (.meas die n w))

/-- Extends a measurement register with an item. -/
def State.extend (s : State) (die n : Nat) (item : List Byte) : State :=
  let d := sha512 (s.measBytes die n ++ sha512 item)
  (List.range 8).foldl (fun s w => s.setReg (.meas die n w) (BitVec.ofNat 64 (leNat ((d.drop (8 * w)).take 8)))) s

/-- An image verifies: its key is the fused one and signs the digest. -/
def imageGood (img : List Byte) : Bool :=
  let (key, sig, body) := Config.firmwareParts img
  sha512 key == Config.fusedKeyDigest && Config.ed25519Verify key (sha512 body) sig

/-- A die leaves reset: its counts start, its Landing runs (01 R20, 24 R416). -/
def State.releaseDie (s : State) (die : Nat) : State :=
  let t := s.updDie die fun d => { d with up := true, refclk := 0 }
  t.setRegF .pkgst0 (28 + die) (28 + die) 1

/-- Root firmware leaves root capabilities in a core's capability registers (21 R364; log 69). -/
def State.bootCaps (s : State) (lc : Nat) : State :=
  s.updLcore lc fun c => { c with dc := (List.range 16).foldl (fun t k => match Config.bootCap lc k with | some b => Tab.set t k ⟨b, true⟩ | none => t) c.dc }

/-- The boot ROM tries slot A, then slot B; else the package stays in recovery. -/
def execPowerOn (slotA slotB : List Byte) (s : State) : Out :=
  let go := fun (img : List Byte) => (List.range 8).foldl State.bootCaps ((s.extend 0 0 img).releaseDie 0)
  when (!s.booted && !(s.reg .pkgst0).getLsbD 41)
    (if imageGood slotA then { go slotA with booted := true } else if imageGood slotB then { go slotB with booted := true } else s.setRegF .pkgst0 41 41 1)

/-- Root firmware starts another die (24 R416). -/
def execDieResetRelease (die : Nat) (s : State) : Out :=
  when (s.booted && decide (0 < die ∧ die < 4) && !(s.die die).up && !(s.die die).fenced) ((List.range 8).foldl (fun s k => s.bootCaps (die * 8 + k)) (s.releaseDie die))

/-- Root firmware extends MEAS1 to MEAS3; MEAS0 is the boot ROM's. -/
def execMeasExtend (die n : Nat) (item : List Byte) (s : State) : Out :=
  when (s.booted && decide (die < 4 ∧ 0 < n ∧ n < 4)) (s.extend die n item)

/-- A quote: the attestation key's signature over the nonce, the measurements and PKGST0. -/
def execAttestQuote (die : Nat) (nonce : List Byte) (s : State) : Out :=
  let msg := nonce ++ (List.range 4).flatMap (s.measBytes die) ++ leBytes 8 (s.reg .pkgst0).toNat
  let sig := Config.ed25519Sign (Config.attestKey (s.measBytes 0 0)) (sha512 msg)
  when (s.booted && decide (die < 4 ∧ nonce.length = 32)) { s with outbox := s.outbox ++ [.quote nonce sig] }

/-! ### Bring-up (24 R416-R418) -/

def trainDie : TrainItem → Nat | .stack n => n / 3 | .channel n => n / 4 | .sport n => n / 12 | .uport n => n / 2
def trainReal : TrainItem → Bool | .stack n => n < 12 | .channel n => n < 16 | .sport n => n < 48 | .uport n => n < 8
def State.trained (s : State) : TrainItem → Bool
  | .stack n => (s.reg .pkgst0).getLsbD n
  | .channel n => (s.reg .pkgst0).getLsbD (12 + n)
  | .sport n => (s.reg .pkgst1).getLsbD n
  | .uport n => (s.reg .pkgst0).getLsbD (32 + n)
def State.setTrained (s : State) (i : TrainItem) (b : Nat) : State :=
  match i with
  | .stack n => s.setRegF .pkgst0 n n b
  | .channel n => s.setRegF .pkgst0 (12 + n) (12 + n) b
  | .sport n => s.setRegF .pkgst1 n n b
  | .uport n => s.setRegF .pkgst0 (32 + n) (32 + n) b
def State.tries (s : State) (i : TrainItem) : Nat := ((s.attempts.find? fun a => a.1 == i).map Prod.snd).getD 0
def State.settledItem (s : State) (i : TrainItem) : Bool := s.trained i || decide (3 ≤ s.tries i) || !(s.die (trainDie i)).up || (s.die (trainDie i)).fenced

def allStacks : List TrainItem := (List.range 12).map .stack
def allChannels : List TrainItem := (List.range 16).map .channel
def allPorts : List TrainItem := (List.range 48).map .sport ++ (List.range 8).map .uport

/-- The items before one in the order of bring-up have settled. -/
def State.mayTrain (s : State) (i : TrainItem) : Bool :=
  match i with
  | .stack n => (allStacks.take n).all s.settledItem
  | .channel n => allStacks.all s.settledItem && (allChannels.take n).all s.settledItem
  | .sport _ | .uport _ => allStacks.all s.settledItem && allChannels.all s.settledItem

/-- The memory of an item (24 R407). -/
def inItem (i : TrainItem) (pa : Nat) : Bool :=
  let line := pa % 2 ^ 40 / 128
  match i with
  | .stack n => decide (pa < 2 ^ 42) && pa / 2 ^ 40 == n / 3 && line % 3 == n % 3
  | .channel n => decide (2 ^ 48 ≤ pa ∧ pa < 2 ^ 48 + 2 ^ 42) && (pa - 2 ^ 48) / 2 ^ 40 == n / 4 && line % 4 == n % 4
  | _ => false

/-- The capacity of a die's DDR-5 once all its channels have settled (24 R406). -/
def State.noteDdr (s : State) (die : Nat) : State :=
  if (allChannels.filter fun i => trainDie i == die).all s.settledItem then s.updDie die fun d => { d with ddrCap := min (2 ^ 40) (4 * d.ddrMin) } else s

/-- One attempt. Memory that trains is zeroed before it is mapped. -/
def execTrainItem (item : TrainItem) (ok : Bool) (cap : Nat) (s : State) : Out :=
  let n := s.tries item + 1
  let good := (s.zeroMem (inItem item)).setTrained item 1
  let good := match item with
    | .channel _ => good.updDie (trainDie item) fun d => { d with ddrMin := if d.ddrMin = 0 then cap else min d.ddrMin cap }
    | _ => good
  let bad : State := { s with attempts := (item, n) :: s.attempts.filter fun a => a.1 != item }
  let bad := if n = 3 then bad.bumpDie (trainDie item) .trainFail else bad
  let t := if ok then good else bad
  when (s.booted && trainReal item && (s.reg .pkgst0).getLsbD 40 && !s.settledItem item && s.mayTrain item)
    (match item with | .channel _ => t.noteDdr (trainDie item) | _ => t)

/-- Every item has trained or failed: reduced service ends (24 R417). -/
def execTrainingComplete (s : State) : Out :=
  let t := s.setRegF .pkgst0 40 40 0
  let t := t.ctxs.foldl (fun s (c, _) => s.setTl c 4 56 56 0) t
  when (s.booted && (s.reg .pkgst0).getLsbD 40 && (allStacks ++ allChannels ++ allPorts).all s.settledItem) t

/-! ### Power and clocks (24 R409-R413) -/

/-- Highest step that reduced service allows. -/
def State.rstep (s : State) : Nat := if (s.reg .pkgst0).getLsbD 40 then 0 else 15

/-- The step that a region should have: EFF of R409, one lower under a lasting droop. -/
def State.effStep (s : State) (die region : Nat) : Nat :=
  let e := min (s.regF (.clkcap die region) 3 0) (min (s.regF .pkgpwr 27 24) s.rstep)
  if Tab.get false (s.die die).droop region then e - 1 else e

/-- The end of a power window (R413). -/
def execPowerWindowEnd (watts : BitVec 12) (s : State) : Out :=
  let limit := min 3000 (s.regF .pkgpwr 11 0)
  let p := s.regF .pkgpwr 27 24
  let w := watts.toNat
  let step := if limit < w then p - 1 else if 100 * w < 95 * limit ∧ (s.reg .pkgpwr).getLsbD 28 = false then min 15 (p + 1) else p
  when (decide (2 ^ 20 ≤ s.powerWin)) { (s.setRegF .pkgpwr 23 12 w).setRegF .pkgpwr 27 24 step with powerWin := 0 }

/-- A junction exceeds 110 °C: PSTEP 0 at once; the trip is counted on die 0, which holds PKGPWR (log 54). -/
def execThermalTrip (s : State) : Out :=
  when (!(s.reg .pkgpwr).getLsbD 28) (((s.setRegF .pkgpwr 27 24 0).setRegF .pkgpwr 28 28 1).bumpDie 0 .thermTrip)

def execThermalRecover (s : State) : Out := when ((s.reg .pkgpwr).getLsbD 28) (s.setRegF .pkgpwr 28 28 0)

/-- A change of the effective step reaches the region (R410). -/
def execClockStepChange (die region : Nat) (s : State) : Out :=
  let e := s.effStep die region
  when (decide (die < 4 ∧ region < 8) && s.regF (.clkcap die region) 7 4 != e) (s.setRegF (.clkcap die region) 7 4 e)

/-- A droop stretches a period, at most one in eight; one that lasts lowers the oscillator (R411). -/
def execSupplyDroop (die region : Nat) (lasting : Bool) (s : State) : Out :=
  let e := s.regF (.clkcap die region) 7 4
  let d := s.die die
  if lasting then
    when (decide (die < 4 ∧ region < 8) && !Tab.get false d.droop region)
      (((s.updDie die fun d => { d with droop := Tab.set d.droop region true }).setRegF (.clkcap die region) 7 4 (e - 1)).bumpDie die .droopStep)
  else
    when (decide (die < 4 ∧ region < 8) && decide (8 ≤ Tab.get 8 d.stretch region))
      (s.updDie die fun d => { d with stretch := Tab.set d.stretch region 0 })

def execSupplyRecover (die region : Nat) (s : State) : Out :=
  let t := s.updDie die fun d => { d with droop := Tab.erase d.droop region }
  when (Tab.get false (s.die die).droop region) (t.setRegF (.clkcap die region) 7 4 (t.effStep die region))

/-! ### Links (24 R405, 25 R439) -/

/-- Neighbours on the mesh. -/
def meshLink (a b : Nat) : Bool := decide (a < 4 ∧ b < 4) && (a ^^^ b == 1 || a ^^^ b == 2)

/-- A link cannot recover: the die at its far end is fenced. -/
def execD2dLinkFail (die peer : Nat) (s : State) : Out := when (meshLink die peer && !(s.die peer).fenced) (s.fenceDie peer)

def execD2dFlitReplay (die : Nat) (s : State) : Out := when (decide (die < 4)) (s.bumpDie die .d2dReplay)

/-- A port that trained. -/
def State.portUp (s : State) (port : Nat) : Bool := decide (port < 56) && s.trained (if port < 48 then .sport port else .uport (port - 48))

/-- A flit fails its CRC and is replayed; after 8 replays in a row the port retrains. -/
def execFlitCrcFail (port : Nat) (s : State) : Out :=
  let n := Tab.get 0 s.replays port
  when (s.portUp port && decide (n < 8)) ({ s with replays := Tab.set s.replays port (n + 1) }.bumpPort port .flitReplay)

/-- The retraining: the port goes on, or is marked failed. -/
def execLinkRetrain (port : Nat) (ok : Bool) (s : State) : Out :=
  let t : State := { s with replays := Tab.erase s.replays port }
  let t := t.bumpPort port .linkRetrain
  when (s.portUp port && Tab.get 0 s.replays port == 8) (if ok then t else t.setTrained (if port < 48 then .sport port else .uport (port - 48)) 0)

end Sys2Proof.Machine
end

