-- ==== Sys2Proof/Machine/Select.lean ====
section
/-! DEFINITION. A quarter's choice of starts in one region cycle (08 R155-R158, 14 R289, 02 R40), the refetch of a line (02 R36), and a quarter's writebacks and
compares (09 R168-R171, R174). -/

namespace Sys2Proof.Machine

/-! ### Strands (R8, R155, 05 R121) -/

def strandsPerQuarter : Nat := 16

/-- Strands of a quarter that no instruction holds. -/
def State.freeStrands (s : State) (core q : Nat) : Nat :=
  strandsPerQuarter - ((s.quarter (core * 4 + q)).strands.filter fun t => decide (s.cycle core < t)).length

/-- Region cycles for which an instruction holds its strand: passes over the slices that hold an active lane. -/
def occupancy (w : Wave) (i : Instr) : Nat :=
  match i.wave with
  | none => 0
  | some (op, _, x) =>
    if op = 0xFE then 0
    else
      let n := slicesOf (w.active x.g)
      if n = 0 || oneCycle op then 1 else match i with | .nop _ => 1 | _ => 8 * n * i.passes

/-! ### What may retire by sharing (09 R173) -/

/-- The entry that the instruction would hit now, with the values of its results. -/
def State.wouldHit (s : State) (w : Wave) (i : Instr) : Option (W × SKey × SEntry × Option (List (VReg × Mask))) :=
  match i.wave with
  | none => none
  | some (_, sub, x) =>
    if !looksUp w i x then none
    else
      let k := shareKey w (s.core w.core).phase i sub x
      (s.sorrelFind w.quarterKey k (s.cycle w.core)).map fun e => (x, k, e, s.hitData w.quarterKey e)

/-- Strands that a start takes: none where it retires by sharing, or is a hint. -/
def State.strandsFor (s : State) (w : Wave) (i : Instr) : Nat :=
  match i with
  | .hint _ => 0
  | i => if w.held.isSome then 1 else match s.wouldHit w i with | some (_, _, _, some _) => 0 | _ => 1

/-- The instruction that a wave issues next, as the wave begins its issue. -/
def State.upNext (s : State) (w : Wave) : Option Instr := w.held.or (nextInstr s w.begin)

/-- Strands that a wave's next start takes. -/
def State.strandsNext (s : State) (w : Wave) : Nat := match s.upNext w with | some i => s.strandsFor w.begin i | none => 1

/-! ### Pairs (02 R40) -/

def readsLatch (i : Instr) : Bool :=
  match i.wave with
  | none => false
  | some (_, _, x) => (i.row.a != .no && x.a.isLatch) || (i.row.b != .no && x.b.isLatch) || (i.row.c != .no && x.c.isLatch)

/-- Memory, barrier and engine instructions. -/
def memLike (i : Instr) : Bool := decide (0xA0 ≤ opOf i ∧ opOf i ≤ 0xDF) || decide (0xEC ≤ opOf i ∧ opOf i ≤ 0xF7)

def independent (w : Wave) (i j : Instr) : Bool :=
  let wi := w.writeKeys i
  let ri := w.readKeys i
  (w.readKeys j).all (fun k => !wi.contains k) && !(i.latching && readsLatch j) &&
  (w.writeKeys j).all (fun k => !wi.contains k && !ri.contains k) && !(memLike i && memLike j)

/-- A `CPY` whose next slot is its follow-on (12 R250). -/
def followOn : Instr → Bool
  | .cpyLin x | .cpyTile x => x.mod.getLsbD 5
  | _ => false

/-- The instruction joined behind the wave's next one, where both are legal: its pair. The slot behind a `CPY` with FO holds its follow-on, which the
wave never issues (12 R250). -/
def State.pairOf (s : State) (w : Wave) : Option (Instr × Instr) :=
  match nextLine s w with
  | none => none
  | some line =>
    let k := slotOf w.pc
    if w.waited || 4 ≤ k || !(lineWord line).getLsbD (10 + k) then none
    else
      match (decodeWave (slotWord line k)).toOption, (decodeWave (slotWord line (k + 1))).toOption with
      | some i, some j => if endsRun (opOf i) || followOn i then none else some (i, j)
      | _, _ => none

/-! ### Selection (14 R289, 08 R158) -/

/-- The keys of R289, smallest first. -/
def State.rankKeys (s : State) (w : Wave) : List Nat :=
  [if w.yieldTo.isEmpty then 0 else 1, if w.boosted then 0 else 1, 3 - s.prio (s.ctxOf w), w.lastStart, w.admitted, w.slot]

/-- Waves that may start in this cycle, best first. -/
def State.ranked (s : State) (core q : Nat) : List Nat :=
  let free := s.freeStrands core q
  sortKeys (((s.residents core q).filter fun (_, w) => s.ready w && decide (s.strandsNext w ≤ free)).map fun (id, w) => (s.rankKeys w, id))

/-- A wave ceases to hold back a yield when it is no longer ready. -/
def State.pruneYields (s : State) (core q : Nat) : State :=
  let ready := ((s.residents core q).filter fun (_, w) => s.ready w).map Prod.fst
  (s.residents core q).foldl (fun s (id, w) => if w.yieldTo.isEmpty then s else s.setWave id { w with yieldTo := w.yieldTo.filter ready.contains }) s

/-- All register slices of two waves lie in one bank: they belong to one group, which has one bank on their quarter and shares nothing. -/
def State.oneBank (s : State) (w v : Wave) : Bool :=
  w.group == v.group && !w.shares &&
  (match Tab.find s.groups w.group with | some g => (g.regBanks.filter fun b => b / 16 == w.qtr).length == 1 | none => false)

/-- Two starts read their first slices: they conflict where these surely lie in one bank; otherwise that is not fixed (R158). -/
def State.conflicts (s : State) (w : Wave) (i : Instr) (v : Wave) (j : Instr) : Bool :=
  !(w.readKeys i).isEmpty && !(v.readKeys j).isEmpty && (s.oneBank w v || Config.choice s.draw 158)

/-- The start that proceeds is the one of the wave admitted earlier (R289 for ties). -/
def State.earlier (s : State) (a b : Nat) : Bool :=
  match Tab.find s.waves a, Tab.find s.waves b with
  | some x, some y => decide (x.admitted < y.admitted ∨ (x.admitted = y.admitted ∧ x.slot ≤ y.slot))
  | _, _ => true

/-- What a quarter starts in one region cycle: the waves, in the order in which they look up (09 R175); whether a start lost the port; and the
second member of the chosen wave's independent pair. -/
structure Starts where
  ids : List Nat
  lost : Bool := false
  apart : Option (Nat × PC) := none
  deriving DecidableEq, Repr

/-- The best wave, and the next best for which a strand is left. -/
def State.chooseTwo (s : State) (a : Nat) (w : Wave) (free : Nat) (rest : List Nat) : Starts :=
  match rest.find? fun b => match Tab.find s.waves b with | some v => decide (s.strandsNext v ≤ free) | none => false with
  | none => { ids := [a] }
  | some b =>
    let hit := match Tab.find s.waves b, s.upNext w with
      | some v, some i => (match s.upNext v with | some j => s.conflicts w.begin i v.begin j | none => false)
      | _, _ => false
    let first := s.earlier a b
    if hit then { ids := [if first then a else b], lost := true } else { ids := if first then [a, b] else [b, a] }

/-- The starts of one region cycle (R155, R158): both members of an independent pair, or one instruction from each of two waves, as far as there are
strands. -/
def State.choose (s : State) (core q : Nat) : Starts :=
  match s.ranked core q with
  | [] => { ids := [] }
  | a :: rest =>
    match Tab.find s.waves a with
    | none => { ids := [] }
    | some w =>
      let free := s.freeStrands core q - s.strandsNext w
      match s.pairOf w.begin with
      | some (i, j) =>
        if independent w.begin i j then
          let apart := some (a, nextPc w.begin.pc)
          if free < s.strandsFor w.begin j then { ids := [a], apart }
          else if s.conflicts w.begin i w.begin j then { ids := [a], lost := true, apart }
          else { ids := [a, a], apart }
        else s.chooseTwo a w free rest
      | none => s.chooseTwo a w free rest

/-- Once in each region cycle a quarter chooses its starts; they then issue one after another. -/
def execQuarterIssue (core q : Nat) (s : State) : Out :=
  let now := s.cycle core
  let s := s.pruneYields core q
  let c := s.choose core q
  let t := s.updQuarter (core * 4 + q) fun x => { x with issuedAt := some now, strands := x.strands.filter fun t => decide (now < t) }
  let t : State := { t.drawn with starts := t.starts ++ c.ids }
  let t := match c.apart with | some (id, pc) => t.updWave id fun w => { w with apart := some pc } | none => t
  when (decide (core < 256 ∧ q < 4) && (s.quarter (core * 4 + q)).issuedAt != some now && s.coreUp core)
    (if c.lost then t.bumpCore core .portConf else t)

/-! ### The refetch of a line (02 R36) -/

/-- The line is fetched again once and the slot checked again: a second mismatch is cause 0x04, at the instruction that issues or names the slot. -/
def execLineRefetch (wave : Nat) (s : State) : Out :=
  match Tab.find s.waves wave with
  | none => .fault .notEnabled
  | some w =>
    match w.refetched with
    | none => .fault .notEnabled
    | some pc =>
      let v := { w with refetched := none }
      match fetchLine s w pc with
      | .error _ => .next (s.setWave wave v)
      | .ok pas =>
        let line := s.lineBits (dieOf w.core) pas
        if parBad line (slotOf pc) || s.linePoison (dieOf w.core) pas then trapCode s wave v 0x04 else .next (s.setWave wave v)

/-! ### Writeback and compares (09 R168, R169, R174) -/

/-- A quarter's oldest result is written back: each new register is hashed, and the instruction's entry is made. -/
def execWriteback (core q : Nat) (s : State) : Out :=
  match (s.quarter (core * 4 + q)).wb with
  | [] => .fault .notEnabled
  | p :: rest => when (decide (q < 4)) ((s.updQuarter (core * 4 + q) fun x => { x with wb := rest }).writeBack core q p)

def execDedupCompareEnd (core q k : Nat) (s : State) : Out :=
  match (s.quarter (core * 4 + q)).compares[k]? with
  | none => .fault .notEnabled
  | some c => when (decide (q < 4)) ((s.updQuarter (core * 4 + q) fun x => { x with compares := x.compares.eraseIdx k }).endCompare core q c)

end Sys2Proof.Machine
end

