-- ==== Sys2Proof/Machine/Dispatch.lean ====
section
/-! DEFINITION. The one dispatch of every instruction and event to its meaning. -/

namespace Sys2Proof.Machine

def exec (i : Instr) (s : State) : Host.Outcome State Fault Refusal :=
  match i with
  | .add w => Sys2Proof.Machine.execAdd w s
  | .sub w => Sys2Proof.Machine.execSub w s
  | .mul w => Sys2Proof.Machine.execMul w s
  | .mulhi w => Sys2Proof.Machine.execMulhi w s
  | .min w => Sys2Proof.Machine.execMin w s
  | .max w => Sys2Proof.Machine.execMax w s
  | .mad w => Sys2Proof.Machine.execMad w s
  | .addImm w => Sys2Proof.Machine.execAddImm w s
  | .subImm w => Sys2Proof.Machine.execSubImm w s
  | .mulImm w => Sys2Proof.Machine.execMulImm w s
  | .mulhiImm w => Sys2Proof.Machine.execMulhiImm w s
  | .minImm w => Sys2Proof.Machine.execMinImm w s
  | .maxImm w => Sys2Proof.Machine.execMaxImm w s
  | .cmp c w => Sys2Proof.Machine.execCmp c w s
  | .cmpImm c w => Sys2Proof.Machine.execCmpImm c w s
  | .sel w => Sys2Proof.Machine.execSel w s
  | .popc w => Sys2Proof.Machine.execPopc w s
  | .clz w => Sys2Proof.Machine.execClz w s
  | .ctz w => Sys2Proof.Machine.execCtz w s
  | .brev w => Sys2Proof.Machine.execBrev w s
  | .and w => Sys2Proof.Machine.execAnd w s
  | .or w => Sys2Proof.Machine.execOr w s
  | .xor w => Sys2Proof.Machine.execXor w s
  | .andn w => Sys2Proof.Machine.execAndn w s
  | .orn w => Sys2Proof.Machine.execOrn w s
  | .not w => Sys2Proof.Machine.execNot w s
  | .andImm w => Sys2Proof.Machine.execAndImm w s
  | .orImm w => Sys2Proof.Machine.execOrImm w s
  | .xorImm w => Sys2Proof.Machine.execXorImm w s
  | .andnImm w => Sys2Proof.Machine.execAndnImm w s
  | .ornImm w => Sys2Proof.Machine.execOrnImm w s
  | .tern w => Sys2Proof.Machine.execTern w s
  | .shl w => Sys2Proof.Machine.execShl w s
  | .shr w => Sys2Proof.Machine.execShr w s
  | .sar w => Sys2Proof.Machine.execSar w s
  | .rol w => Sys2Proof.Machine.execRol w s
  | .ror w => Sys2Proof.Machine.execRor w s
  | .shlImm w => Sys2Proof.Machine.execShlImm w s
  | .shrImm w => Sys2Proof.Machine.execShrImm w s
  | .sarImm w => Sys2Proof.Machine.execSarImm w s
  | .rolImm w => Sys2Proof.Machine.execRolImm w s
  | .rorImm w => Sys2Proof.Machine.execRorImm w s
  | .bfx w => Sys2Proof.Machine.execBfx w s
  | .bfi w => Sys2Proof.Machine.execBfi w s
  | .mov w => Sys2Proof.Machine.execMov w s
  | .movImm w => Sys2Proof.Machine.execMovImm w s
  | .bytsel w => Sys2Proof.Machine.execBytsel w s
  | .cnarrow w => Sys2Proof.Machine.execCnarrow w s
  | .cnarrowSet w => Sys2Proof.Machine.execCnarrowSet w s
  | .cperm w => Sys2Proof.Machine.execCperm w s
  | .cget f w => Sys2Proof.Machine.execCget f w s
  | .cchk w => Sys2Proof.Machine.execCchk w s
  | .bra w => Sys2Proof.Machine.execBra w s
  | .braCond c w => Sys2Proof.Machine.execBraCond c w s
  | .split w => Sys2Proof.Machine.execSplit w s
  | .meet w => Sys2Proof.Machine.execMeet w s
  | .loop w => Sys2Proof.Machine.execLoop w s
  | .breakPred w => Sys2Proof.Machine.execBreakPred w s
  | .brk w => Sys2Proof.Machine.execBrk w s
  | .call w => Sys2Proof.Machine.execCall w s
  | .ret w => Sys2Proof.Machine.execRet w s
  | .exit w => Sys2Proof.Machine.execExit w s
  | .yield w => Sys2Proof.Machine.execYield w s
  | .svc w => Sys2Proof.Machine.execSvc w s
  | .trap w => Sys2Proof.Machine.execTrap w s
  | .movsRead w => Sys2Proof.Machine.execMovsRead w s
  | .movsWrite w => Sys2Proof.Machine.execMovsWrite w s
  | .nop w => Sys2Proof.Machine.execNop w s
  | .waitCyc w => Sys2Proof.Machine.execWaitCyc w s
  | .waitCycEnd wave => Sys2Proof.Machine.execWaitCycEnd wave s
  | .hint rest => Sys2Proof.Machine.execHint rest s
  | .fadd w => Sys2Proof.Machine.execFadd w s
  | .fsub w => Sys2Proof.Machine.execFsub w s
  | .fmul w => Sys2Proof.Machine.execFmul w s
  | .fmin w => Sys2Proof.Machine.execFmin w s
  | .fmax w => Sys2Proof.Machine.execFmax w s
  | .faddImm w => Sys2Proof.Machine.execFaddImm w s
  | .fsubImm w => Sys2Proof.Machine.execFsubImm w s
  | .fmulImm w => Sys2Proof.Machine.execFmulImm w s
  | .fminImm w => Sys2Proof.Machine.execFminImm w s
  | .fmaxImm w => Sys2Proof.Machine.execFmaxImm w s
  | .fma w => Sys2Proof.Machine.execFma w s
  | .fms w => Sys2Proof.Machine.execFms w s
  | .fcmp c w => Sys2Proof.Machine.execFcmp c w s
  | .fclass w => Sys2Proof.Machine.execFclass w s
  | .frcp w => Sys2Proof.Machine.execFrcp w s
  | .frsq w => Sys2Proof.Machine.execFrsq w s
  | .fsqrt w => Sys2Proof.Machine.execFsqrt w s
  | .fex2 w => Sys2Proof.Machine.execFex2 w s
  | .flg2 w => Sys2Proof.Machine.execFlg2 w s
  | .fsin w => Sys2Proof.Machine.execFsin w s
  | .fcos w => Sys2Proof.Machine.execFcos w s
  | .cvtFF w => Sys2Proof.Machine.execCvtFF w s
  | .cvtFI w => Sys2Proof.Machine.execCvtFI w s
  | .cvtIF w => Sys2Proof.Machine.execCvtIF w s
  | .scalegenE8M0 w => Sys2Proof.Machine.execScalegenE8M0 w s
  | .scalegenE4M3 w => Sys2Proof.Machine.execScalegenE4M3 w s
  | .qntE8M0 w => Sys2Proof.Machine.execQntE8M0 w s
  | .qntE4M3 w => Sys2Proof.Machine.execQntE4M3 w s
  | .pack w => Sys2Proof.Machine.execPack w s
  | .unpk w => Sys2Proof.Machine.execUnpk w s
  | .xlane m w => Sys2Proof.Machine.execXlane m w s
  | .xlaneImm m w => Sys2Proof.Machine.execXlaneImm m w s
  | .bcastFirst w => Sys2Proof.Machine.execBcastFirst w s
  | .voteAny w => Sys2Proof.Machine.execVoteAny w s
  | .voteAll w => Sys2Proof.Machine.execVoteAll w s
  | .voteEq w => Sys2Proof.Machine.execVoteEq w s
  | .ballot w => Sys2Proof.Machine.execBallot w s
  | .lredFloat o w => Sys2Proof.Machine.execLredFloat o w s
  | .lscanFloat o w => Sys2Proof.Machine.execLscanFloat o w s
  | .lredInt o w => Sys2Proof.Machine.execLredInt o w s
  | .lscanInt o w => Sys2Proof.Machine.execLscanInt o w s
  | .ld space w => Sys2Proof.Machine.execLd space w s
  | .st space w => Sys2Proof.Machine.execSt space w s
  | .ldc space w => Sys2Proof.Machine.execLdc space w s
  | .stc space w => Sys2Proof.Machine.execStc space w s
  | .ldg space w => Sys2Proof.Machine.execLdg space w s
  | .sts space w => Sys2Proof.Machine.execSts space w s
  | .stvM space w => Sys2Proof.Machine.execStvM space w s
  | .ldvM space w => Sys2Proof.Machine.execLdvM space w s
  | .atom o w => Sys2Proof.Machine.execAtom o w s
  | .atomCas w => Sys2Proof.Machine.execAtomCas w s
  | .atomFloat o t w => Sys2Proof.Machine.execAtomFloat o t w s
  | .red o w => Sys2Proof.Machine.execRed o w s
  | .redFloat o t w => Sys2Proof.Machine.execRedFloat o t w s
  | .rel w => Sys2Proof.Machine.execRel w s
  | .acq w => Sys2Proof.Machine.execAcq w s
  | .phx w => Sys2Proof.Machine.execPhx w s
  | .fence w => Sys2Proof.Machine.execFence w s
  | .ballocPhase w => Sys2Proof.Machine.execBallocPhase w s
  | .ballocCount w => Sys2Proof.Machine.execBallocCount w s
  | .bfree w => Sys2Proof.Machine.execBfree w s
  | .barrive w => Sys2Proof.Machine.execBarrive w s
  | .bexpect w => Sys2Proof.Machine.execBexpect w s
  | .bsigImm w => Sys2Proof.Machine.execBsigImm w s
  | .bsigReg w => Sys2Proof.Machine.execBsigReg w s
  | .waitbPh w => Sys2Proof.Machine.execWaitbPh w s
  | .waitbCt w => Sys2Proof.Machine.execWaitbCt w s
  | .waitbWake wave => Sys2Proof.Machine.execWaitbWake wave s
  | .cpyLin w => Sys2Proof.Machine.execCpyLin w s
  | .cpyTile w => Sys2Proof.Machine.execCpyTile w s
  | .copySlotWaitEnd wave => Sys2Proof.Machine.execCopySlotWaitEnd wave s
  | .copyChunkLand core copy => Sys2Proof.Machine.execCopyChunkLand core copy s
  | .copySignal core copy => Sys2Proof.Machine.execCopySignal core copy s
  | .ringCopyResume core copy => Sys2Proof.Machine.execRingCopyResume core copy s
  | .ringSignalRelease core copy => Sys2Proof.Machine.execRingSignalRelease core copy s
  | .mma w => Sys2Proof.Machine.execMma w s
  | .mmaZ w => Sys2Proof.Machine.execMmaZ w s
  | .wbld w => Sys2Proof.Machine.execWbld w s
  | .accz w => Sys2Proof.Machine.execAccz w s
  | .accld w => Sys2Proof.Machine.execAccld w s
  | .accst w => Sys2Proof.Machine.execAccst w s
  | .mbatch w => Sys2Proof.Machine.execMbatch w s
  | .batonSet w => Sys2Proof.Machine.execBatonSet w s
  | .batonPass w => Sys2Proof.Machine.execBatonPass w s
  | .batonPassSignal w => Sys2Proof.Machine.execBatonPassSignal w s
  | .matrixQueueWaitEnd wave => Sys2Proof.Machine.execMatrixQueueWaitEnd wave s
  | .matrixRecordStart group => Sys2Proof.Machine.execMatrixRecordStart group s
  | .mmaKstepCommit group => Sys2Proof.Machine.execMmaKstepCommit group s
  | .matrixRecordComplete group => Sys2Proof.Machine.execMatrixRecordComplete group s
  | .batchComplete group => Sys2Proof.Machine.execBatchComplete group s
  | .mxClockGate core => Sys2Proof.Machine.execMxClockGate core s
  | .mxPowerGate core => Sys2Proof.Machine.execMxPowerGate core s
  | .mxWake core => Sys2Proof.Machine.execMxWake core s
  | .role w => Sys2Proof.Machine.execRole w s
  | .roleDrainEnd wave => Sys2Proof.Machine.execRoleDrainEnd wave s
  | .taskadd w => Sys2Proof.Machine.execTaskadd w s
  | .taskDispatch ctx q => Sys2Proof.Machine.execTaskDispatch ctx q s
  | .taskGwaitExpire ctx q => Sys2Proof.Machine.execTaskGwaitExpire ctx q s
  | .glaunch w => Sys2Proof.Machine.execGlaunch w s
  | .glaunchW w => Sys2Proof.Machine.execGlaunchW w s
  | .glaunchWRetry wave => Sys2Proof.Machine.execGlaunchWRetry wave s
  | .overflowRecordMove die => Sys2Proof.Machine.execOverflowRecordMove die s
  | .gjoin w => Sys2Proof.Machine.execGjoin w s
  | .gjoinTry w => Sys2Proof.Machine.execGjoinTry w s
  | .gjoinWake wave => Sys2Proof.Machine.execGjoinWake wave s
  | .beat w => Sys2Proof.Machine.execBeat w s
  | .btarget w => Sys2Proof.Machine.execBtarget w s
  | .bread w => Sys2Proof.Machine.execBread w s
  | .gsync w => Sys2Proof.Machine.execGsync w s
  | .garrive w => Sys2Proof.Machine.execGarrive w s
  | .gwait w => Sys2Proof.Machine.execGwait w s
  | .gangWaitWake wave => Sys2Proof.Machine.execGangWaitWake wave s
  | .put w => Sys2Proof.Machine.execPut w s
  | .get w => Sys2Proof.Machine.execGet w s
  | .collAllred w => Sys2Proof.Machine.execCollAllred w s
  | .collBcast w => Sys2Proof.Machine.execCollBcast w s
  | .collAllgath w => Sys2Proof.Machine.execCollAllgath w s
  | .fabricChunkComplete core copy chunk data => Sys2Proof.Machine.execFabricChunkComplete core copy chunk data s
  | .fabricChunkLost core copy chunk => Sys2Proof.Machine.execFabricChunkLost core copy chunk s
  | .fabricCommandComplete core copy => Sys2Proof.Machine.execFabricCommandComplete core copy s
  | .collContribArrive ctx g member data => Sys2Proof.Machine.execCollContribArrive ctx g member data s
  | .collTimeout ctx g => Sys2Proof.Machine.execCollTimeout ctx g s
  | .collResultLand ctx g lost => Sys2Proof.Machine.execCollResultLand ctx g lost s
  | .dld d c o z u => Sys2Proof.Machine.execDld d c o z u s
  | .dst v c o z => Sys2Proof.Machine.execDst v c o z s
  | .dldc d c o => Sys2Proof.Machine.execDldc d c o s
  | .dstc v c o => Sys2Proof.Machine.execDstc v c o s
  | .dnarrow d c o l => Sys2Proof.Machine.execDnarrow d c o l s
  | .dperm d c k => Sys2Proof.Machine.execDperm d c k s
  | .dget d c f => Sys2Proof.Machine.execDget d c f s
  | .dmov d c => Sys2Proof.Machine.execDmov d c s
  | .landingFenceRw => Sys2Proof.Machine.execLandingFenceRw s
  | .quarterIssue core q => Sys2Proof.Machine.execQuarterIssue core q s
  | .lineRefetch wave => Sys2Proof.Machine.execLineRefetch wave s
  | .writeback core q => Sys2Proof.Machine.execWriteback core q s
  | .dedupCompareEnd core q k => Sys2Proof.Machine.execDedupCompareEnd core q k s
  | .loadDataReturn core k => Sys2Proof.Machine.execLoadDataReturn core k s
  | .atomicRequestPerform core k => Sys2Proof.Machine.execAtomicRequestPerform core k s
  | .writeArrival core k => Sys2Proof.Machine.execWriteArrival core k s
  | .releaseComplete core k => Sys2Proof.Machine.execReleaseComplete core k s
  | .acquireRefresh wave => Sys2Proof.Machine.execAcquireRefresh wave s
  | .faultBufferWaitEnd core => Sys2Proof.Machine.execFaultBufferWaitEnd core s
  | .faultQueueRecordWrite inst => Sys2Proof.Machine.execFaultQueueRecordWrite inst s
  | .frespRetry die v inst => Sys2Proof.Machine.execFrespRetry die v inst s
  | .frespDecline die v inst => Sys2Proof.Machine.execFrespDecline die v inst s
  | .wcmdReadReg die v inst => Sys2Proof.Machine.execWcmdReadReg die v inst s
  | .wcmdWriteReg die v inst => Sys2Proof.Machine.execWcmdWriteReg die v inst s
  | .wcmdReadExm die v inst => Sys2Proof.Machine.execWcmdReadExm die v inst s
  | .wcmdWriteExm die v inst => Sys2Proof.Machine.execWcmdWriteExm die v inst s
  | .wcmdReadFpc die v inst => Sys2Proof.Machine.execWcmdReadFpc die v inst s
  | .wcmdWriteFpc die v inst => Sys2Proof.Machine.execWcmdWriteFpc die v inst s
  | .wcmdResume die v inst => Sys2Proof.Machine.execWcmdResume die v inst s
  | .wcmdResumeAt die v inst => Sys2Proof.Machine.execWcmdResumeAt die v inst s
  | .wcmdEndWave die v inst => Sys2Proof.Machine.execWcmdEndWave die v inst s
  | .wcmdEndContext die v inst => Sys2Proof.Machine.execWcmdEndContext die v inst s
  | .admitGroup grid core => Sys2Proof.Machine.execAdmitGroup grid core s
  | .compactionEnd core => Sys2Proof.Machine.execCompactionEnd core s
  | .placeElement grid => Sys2Proof.Machine.execPlaceElement grid s
  | .gangReserveWindow grid => Sys2Proof.Machine.execGangReserveWindow grid s
  | .evictionRequest core ctx prio slots wave => Sys2Proof.Machine.execEvictionRequest core ctx prio slots wave s
  | .evictWave wave => Sys2Proof.Machine.execEvictWave wave s
  | .readmitWave wave q => Sys2Proof.Machine.execReadmitWave wave q s
  | .deadlineExpire wave => Sys2Proof.Machine.execDeadlineExpire wave s
  | .deadlineForce wave => Sys2Proof.Machine.execDeadlineForce wave s
  | .minresExpire wave => Sys2Proof.Machine.execMinresExpire wave s
  | .waveBoost wave => Sys2Proof.Machine.execWaveBoost wave s
  | .groupSave group => Sys2Proof.Machine.execGroupSave group s
  | .groupRestore image core => Sys2Proof.Machine.execGroupRestore image core s
  | .groupEnd group => Sys2Proof.Machine.execGroupEnd group s
  | .gridComplete grid => Sys2Proof.Machine.execGridComplete grid s
  | .coreUnresponsive core => Sys2Proof.Machine.execCoreUnresponsive core s
  | .coreLogicError core => Sys2Proof.Machine.execCoreLogicError core s
  | .dieFence die => Sys2Proof.Machine.execDieFence die s
  | .coreGateWrite core v => Sys2Proof.Machine.execCoreGateWrite core v s
  | .bsmaskWrite core n v => Sys2Proof.Machine.execBsmaskWrite core n v s
  | .bsctlWrite core n v => Sys2Proof.Machine.execBsctlWrite core n v s
  | .beatArrive ctx => Sys2Proof.Machine.execBeatArrive ctx s
  | .intervalEnd ctx => Sys2Proof.Machine.execIntervalEnd ctx s
  | .quayEval hp => Sys2Proof.Machine.execQuayEval hp s
  | .grantApply ctx => Sys2Proof.Machine.execGrantApply ctx s
  | .tillerWordWrite ctx word v inst => Sys2Proof.Machine.execTillerWordWrite ctx word v inst s
  | .qcapWrite hp v inst => Sys2Proof.Machine.execQcapWrite hp v inst s
  | .mergePublish ctx => Sys2Proof.Machine.execMergePublish ctx s
  | .mergePubReceive mgrp midx cum => Sys2Proof.Machine.execMergePubReceive mgrp midx cum s
  | .mergeStale ctx => Sys2Proof.Machine.execMergeStale ctx s
  | .llcwayWrite die slot v inst => Sys2Proof.Machine.execLlcwayWrite die slot v inst s
  | .wayDrainLine die way line => Sys2Proof.Machine.execWayDrainLine die way line s
  | .wayDrainEnd die way => Sys2Proof.Machine.execWayDrainEnd die way s
  | .frrValidate die n v inst => Sys2Proof.Machine.execFrrValidate die n v inst s
  | .frrInvalidate die n v inst => Sys2Proof.Machine.execFrrInvalidate die n v inst s
  | .frrLineFill die line => Sys2Proof.Machine.execFrrLineFill die line s
  | .frrLineWriteback die line => Sys2Proof.Machine.execFrrLineWriteback die line s
  | .shootGo die v inst => Sys2Proof.Machine.execShootGo die v inst s
  | .shootDone die => Sys2Proof.Machine.execShootDone die s
  | .memCorrected die => Sys2Proof.Machine.execMemCorrected die s
  | .memUncorrectable granule slot => Sys2Proof.Machine.execMemUncorrectable granule slot s
  | .llcSoftError granule => Sys2Proof.Machine.execLlcSoftError granule s
  | .drightsWrite inst v => Sys2Proof.Machine.execDrightsWrite inst v s
  | .fqheadWrite inst v => Sys2Proof.Machine.execFqheadWrite inst v s
  | .fqbaseWrite inst v => Sys2Proof.Machine.execFqbaseWrite inst v s
  | .notifyReceive die msg => Sys2Proof.Machine.execNotifyReceive die msg s
  | .landingNotify v q inst => Sys2Proof.Machine.execLandingNotify v q inst s
  | .notifyProcess die => Sys2Proof.Machine.execNotifyProcess die s
  | .nkeyWrite v q key inst => Sys2Proof.Machine.execNkeyWrite v q key inst s
  | .gridCommand v q => Sys2Proof.Machine.execGridCommand v q s
  | .argSlotWaitEnd ctx => Sys2Proof.Machine.execArgSlotWaitEnd ctx s
  | .checkpointLaunch v q => Sys2Proof.Machine.execCheckpointLaunch v q s
  | .checkpointSave v q => Sys2Proof.Machine.execCheckpointSave v q s
  | .functionLevelReset v inst => Sys2Proof.Machine.execFunctionLevelReset v inst s
  | .ovflctlWrite die v inst => Sys2Proof.Machine.execOvflctlWrite die v inst s
  | .vdschedWrite v x inst => Sys2Proof.Machine.execVdschedWrite v x inst s
  | .quantumSave v group => Sys2Proof.Machine.execQuantumSave v group s
  | .hpstGo v inst => Sys2Proof.Machine.execHpstGo v inst s
  | .hpDrainDone => Sys2Proof.Machine.execHpDrainDone s
  | .hpDrainTimeout => Sys2Proof.Machine.execHpDrainTimeout s
  | .heartbeat => Sys2Proof.Machine.execHeartbeat s
  | .standbyTakeover => Sys2Proof.Machine.execStandbyTakeover s
  | .lfenceGo v inst => Sys2Proof.Machine.execLfenceGo v inst s
  | .commandCoreFence die core => Sys2Proof.Machine.execCommandCoreFence die core s
  | .powerOn slotA slotB => Sys2Proof.Machine.execPowerOn slotA slotB s
  | .measExtend die n item => Sys2Proof.Machine.execMeasExtend die n item s
  | .attestQuote die nonce => Sys2Proof.Machine.execAttestQuote die nonce s
  | .trainItem item ok cap => Sys2Proof.Machine.execTrainItem item ok cap s
  | .trainingComplete => Sys2Proof.Machine.execTrainingComplete s
  | .powerWindowEnd watts => Sys2Proof.Machine.execPowerWindowEnd watts s
  | .thermalTrip => Sys2Proof.Machine.execThermalTrip s
  | .thermalRecover => Sys2Proof.Machine.execThermalRecover s
  | .clockStepChange die region => Sys2Proof.Machine.execClockStepChange die region s
  | .supplyDroop die region lasting => Sys2Proof.Machine.execSupplyDroop die region lasting s
  | .d2dLinkFail die peer => Sys2Proof.Machine.execD2dLinkFail die peer s
  | .flitCrcFail port => Sys2Proof.Machine.execFlitCrcFail port s
  | .linkRetrain port ok => Sys2Proof.Machine.execLinkRetrain port ok s
  | .inboundWrite port peer key off data => Sys2Proof.Machine.execInboundWrite port peer key off data s
  | .inboundRead port peer key off len => Sys2Proof.Machine.execInboundRead port peer key off len s
  | .xwinWrite ctx n lo hi inst => Sys2Proof.Machine.execXwinWrite ctx n lo hi inst s
  | .collgrpWrite ctx n v inst => Sys2Proof.Machine.execCollgrpWrite ctx n v inst s
  | .mlistWrite ctx g k v inst => Sys2Proof.Machine.execMlistWrite ctx g k v inst s
  | .registerWrite r v inst => Sys2Proof.Machine.execRegisterWrite r v inst s
  | .supplyRecover die region => Sys2Proof.Machine.execSupplyRecover die region s
  | .d2dFlitReplay die => Sys2Proof.Machine.execD2dFlitReplay die s
  | .dieResetRelease die => Sys2Proof.Machine.execDieResetRelease die s
  | .landingOrdinaryAccess die core k x addr z => Sys2Proof.Machine.execLandingOrdinaryAccess die core k x addr z s
  | .inboundUnsupportedRequest port => Sys2Proof.Machine.execInboundUnsupportedRequest port s
  | .sliceCopyComplete core q k => Sys2Proof.Machine.execSliceCopyComplete core q k s
  | .virtualDeviceCreate die v wpart rpart inst => Sys2Proof.Machine.execVirtualDeviceCreate die v wpart rpart inst s

end Sys2Proof.Machine
end

