-- ==== Sys2Proof/Machine/Issue.lean ====
section
/-! DEFINITION. The issue of one start (02 R34-R41, R55-R57, 06 R141, 08 R155-R157, 09 R173), the fetch of a Landing core's instruction (21 R364, R365), and the
ticks of the clocks (01 R20). -/

namespace Sys2Proof.Machine

/-! ### Register numbers (01 R12, 06 R141) -/

def Wave.beyond (w : Wave) (rs : List (Nat × Nat)) : Bool := rs.any fun r => decide (w.declared < r.1 + r.2)

/-- Registers that the checks of an instruction read: all that it names but its destination, and but the data of a store or an atomic. -/
def checkRegs (i : Instr) : List (Nat × Nat) :=
  match i.wave with
  | none => []
  | some (op, _, x) =>
    let g := match x.g with | .always => [] | .on _ n => [(n.toNat, 1)]
    let n := fun (k : Sk) => k.count op x.ty.toNat
    let a := if fmtOf op = .m then i.named.filter fun r => r.1 == x.a.num else x.a.regs (n i.row.a)
    match i with
    | .ld .. | .ldc .. | .ldvM .. | .st .. | .stc .. | .stvM .. | .atom .. | .atomCas .. | .atomFloat .. | .red .. | .redFloat .. => g ++ a
    | .ldg .. | .sts .. => g ++ x.a.regs 4 ++ x.b.regs 1
    | _ => g ++ i.named.filter fun r => !(r.1 == x.d.toNat && i.row.dst != .no)

/-- Quads that an instruction checks as capabilities, whatever else it reads. -/
def checkQuads (i : Instr) : List Nat :=
  match i.wave with
  | none => []
  | some (_, _, x) =>
    match i with
    | .ldg .. | .sts .. | .cnarrow _ | .cnarrowSet _ | .cperm _ => [x.a.num]
    | .cpyLin _ | .cpyTile _ => [4 * x.q1, 4 * x.q2]
    | .mma _ | .mmaZ _ | .wbld _ => 4 * x.q1 :: (if x.sv then [4 * x.q2] else [])
    | .collAllred _ | .collBcast _ | .collAllgath _ => [4 * x.q1, 4 * x.q2]
    | .accld _ | .accst _ | .glaunch _ | .glaunchW _ | .put _ | .get _ => [4 * x.q1]
    | _ => []

/-- Lanes in which a check can stop the instruction: all active ones, or the lowest for a command. -/
def checkLanes (w : Wave) (i : Instr) : List Nat :=
  match i with
  | .ldg _ x | .sts _ x | .cnarrow x | .cnarrowSet x | .cperm x => laneList (w.active x.g)
  | _ => (lowest w.exm).toList

/-- A capability that passes every check of an access. -/
def anyCap : Cap := mkCap 0 (2 ^ 40 - 1) 63 3 1

/-- The wave with such a capability in each quad that lies at or above its declared count. -/
def Wave.fillQuads (w : Wave) (qs : List Nat) : Wave :=
  qs.foldl (fun w q => if w.declared < q + 4 then w.putQuad q (maskOf fun _ => true) fun _ => anyCap else w) w

/-- The checks of an instruction in a lane, each by its own meaning's list; those of a memory access but for its address. -/
def ownChks (i : Instr) (s : State) (w : Wave) (l : Nat) : List Chk :=
  let stale := fun (x : W) => chkIf (s.entryOf w.core w.group (w.opnd32 x.a l)).isNone 0x30
  let quad := fun (x : W) (perm : Nat) (space : Space) =>
    capChks (w.quadOpnd x.a l) 0 [] [perm] ((w.quadOpnd x.a l).scr != decide (space = .sp)) l
  let tag := fun (x : W) => capChks (w.quadOpnd x.a l) 0 [] [] false l
  match i with
  | .ldg space x => quad x pRD space
  | .sts space x => quad x pWR space
  | .cnarrow x | .cnarrowSet x | .cperm x => tag x
  | .cpyLin x => copyChks false x s w l ++ s.foMore w l (if x.mod.getLsbD 5 then some (s.foSlot w) else none)
  | .cpyTile x => copyChks true x s w l ++ s.foMore w l (if x.mod.getLsbD 5 then some (s.foSlot w) else none)
  | .mma x | .mmaZ x => mmaChks x s w l
  | .wbld x => wbldChks x s w l
  | .accld x => accldChks x s w l
  | .accst x => accstChks x s w l
  | .batonPassSignal x => s.batonChk w ++ stale x
  | .mbatch x | .bfree x | .bexpect x | .bsigReg x | .waitbPh x | .waitbCt x => stale x
  | .ballocPhase x | .ballocCount x =>
    let off := (w.opnd32 x.a l).toNat
    if s.window w < off + 16 then [{ code := 0x11, lane := some l, addr := off }] else if off % 16 ≠ 0 then [{ code := 0x12, lane := some l }] else []
  | .put x => remoteChks x false s w l
  | .get x => remoteChks x true s w l
  | .collAllred x => collChks x 0 s w l
  | .collBcast x => collChks x 1 s w l
  | .collAllgath x => collChks x 2 s w l
  | .glaunch x | .glaunchW x => launchChks x s w l
  | _ => []

/-- Those of them that read no register at or above the declared count, where some register that a check reads lies there (06 R141): without the
handle or the descriptor, no bounds and no stale handle, nor anything of a `BALLOC`; without an index or a fill count, no bounds. -/
def reachChks (i : Instr) (s : State) (w : Wave) : List Chk :=
  match i.wave with
  | none => []
  | some (op, _, x) =>
    let ok := fun (rs : List (Nat × Nat)) => !w.beyond rs
    let quads := checkQuads i
    let aOk := quads.contains x.a.num || ok (if fmtOf op = .x then x.a.regs 4 else x.a.regs (i.row.a.count op x.ty.toNat))
    let bOk := ok (x.b.regs (i.row.b.count op x.ty.toNat))
    let balloc := match i with | .ballocPhase _ | .ballocCount _ => true | _ => false
    let guard := ok (match x.g with | .always => [] | .on _ n => [(n.toNat, 1)])
    let keep := fun (c : Chk) => (aOk || (c.code != 0x11 && c.code != 0x30 && !balloc)) && (bOk || balloc || c.code != 0x11)
    let v := w.fillQuads quads
    if guard then ((checkLanes w i).flatMap fun l => (ownChks i s v l).filter keep) else []

/-- The branch targets that an instruction checks (02 R37, 14 R300). -/
def transfers : Instr → Bool
  | .bra _ | .braCond .. | .split _ | .loop _ | .call _ | .ret _ | .role _ => true
  | _ => false

/-- An unused or reserved field that is not zero: 0x02, unless the instruction's target raises 0x03 or 0x04 (06 R141). -/
def fieldStop (s : State) (id : Nat) (w : Wave) (i : Instr) : Out :=
  let no := trapCode s id w 0x02
  if !transfers i || w.beyond (checkRegs i) then no
  else
    match exec i { s.setWave id w with cur := some id } with
    | .next t =>
      (match Tab.find t.waves id with
       | some v =>
         (match v.cond with
          | .stopped _ => if v.pc = w.pc ∧ causeRank (fld v.cause 7 0) < causeRank 0x02 then .next { t with cur := none } else no
          | _ => no)
       | none => no)
    | _ => no

/-- An instruction that names a register at or above the declared count: a higher cause whose checks read none of them, else 0x32. -/
def beyondStop (s : State) (id : Nat) (w : Wave) (i : Instr) : Out :=
  let no := trapCode s id w 0x32
  if !w.beyond (checkRegs i) then
    match exec i { s.setWave id w with cur := some id } with
    | .next t =>
      (match Tab.find t.waves id with
       | some v =>
         (match v.cond with
          | .stopped _ => if v.pc = w.pc ∧ causeRank (fld v.cause 7 0) < causeRank 0x32 then .next { t with cur := none } else no
          | .parked .. => .next { t with cur := none }
          | _ => if v.refetched.isSome then .next { t with cur := none } else no)
       | none => no)
    | _ => no
  else
    let cs := reachChks i s w
    let fo := match i with | .cpyLin x | .cpyTile x => if x.mod.getLsbD 5 && (lowest w.exm).isSome then some (s.foSlot w) else none | _ => none
    match fo, pickChk cs with
    | some (.refetch pc), _ => .next (s.setWave id { w with refetched := some pc })
    | some (.trans f), c =>
      (match c with
       | some c => if causeRank c.code < 8 then faultChks s id w cs c else fetchFault s id w (nextPc w.pc) f
       | none => fetchFault s id w (nextPc w.pc) f)
    | _, some c => if causeRank c.code < causeRank 0x32 then faultChks s id w cs c else no
    | _, none => no

/-! ### Fetch (02 R33-R37, R57) -/

/-- What the fetch and the decode of a wave's next instruction give: its stop, or the wave with the line's word and the instruction. -/
inductive Fetched
  | stop (o : Out) | go (s : State) (w : Wave) (i : Instr)

/-- Fetch, line check, PC check and decode, in the order of 06 R141; at the wave's kernel entry the slot is to be marked (02 R37; log 71). -/
def fetchNext (s : State) (id : Nat) (w : Wave) : Fetched :=
  match w.held with
  | some i => .go s w i
  | none =>
    match fetchLine s w w.pc with
    | .error f => .stop (if illegalPc w.pc then trapCode s id w 0x03 else fetchFault s id w w.pc f)
    | .ok pas =>
      let line := s.lineBits (dieOf w.core) pas
      let v := { w with line := lineWord line }
      let s := (s.cacheLeaves w.core (s.ctxOf w) (lineOf w.pc).toNat).prepRead (dieOf w.core) (s.ctxOf w) .normal pas
      if kindBad (lineWord line) then .stop (trapCode s id v 0x04)
      else if illegalPc w.pc then .stop (trapCode s id v 0x03)
      else if parBad line (slotOf w.pc) || s.linePoison (dieOf w.core) pas then .stop (.next (s.setWave id { v with refetched := some w.pc }))
      else if w.entering && !(lineWord line).getLsbD (5 + slotOf w.pc) then .stop (trapCode s id v 0x03)
      else
        match decodeWave (slotWord line (slotOf w.pc)) with
        | .error .opcode => .stop (trapCode s id v 0x01)
        | .error .field =>
          (match namedBy (slotWord line (slotOf w.pc)) with
           | some i => .stop (fieldStop s id v i)
           | none => .stop (trapCode s id v 0x02))
        | .ok i => .go s { v with entering := false } i

/-! ### The start -/

/-- What a start leaves on its quarter: the strand, the times of the wave, the yields that it ends. -/
def State.started (s : State) (id : Nat) (w : Wave) (occ : Nat) (ends : Bool) : State :=
  let now := s.cycle w.core
  let quit := fun (v : Wave) => if v.quarterKey = w.quarterKey then { v with yieldTo := v.yieldTo.filter fun k => k != id } else v
  let t : State := { s with waves := s.waves.map fun (k, v) => (k, quit v), cur := none }
  let t := if occ = 0 then t else t.updQuarter w.quarterKey fun q => { q with strands := q.strands ++ [now + occ] }
  t.updWave id fun v => { v with
    lastStart := now, boosted := false, busyUntil := max v.busyUntil (now + occ), run := if ends then none else v.run,
    apart := if v.apart = some w.pc then none else v.apart }

/-- Counts a pair whose first member has completed and whose second must follow it (02 R40, R165): `w` is the wave before the first, `t` the
state after it. -/
def State.countSerial (s : State) (id : Nat) (w : Wave) (t : State) : State :=
  match s.pairOf w, Tab.find t.waves id with
  | some (i, j), some v => if !independent w i j && v.run == some w.pc then t.bumpCore w.core .pairSer else t
  | _, _ => t

/-- Executes an instruction on a strand. -/
def runStart (s : State) (id : Nat) (w : Wave) (i : Instr) : Out :=
  match exec i { s.setWave id w with cur := some id } with
  | .next t =>
    .next (s.countSerial id w (t.started id w (occupancy w i) (endsRun (opOf i))))
  | .fault f => .fault f
  | .refused r => .refused r

/-- A decoded instruction whose registers are in range: it retires by sharing, executes, or finds no strand and competes again. -/
def startInstr (s : State) (id : Nat) (w : Wave) (i : Instr) : Out :=
  let free := s.freeStrands w.core w.qtr != 0
  match i with
  | .hint _ => runStart s id w i
  | _ =>
    if w.held.isSome then (if free then runStart s id w i else .next s)
    else
      let miss := fun (k : Option SKey) (refused : Bool) =>
        if !free then .next s
        else
          let t := match k with | some _ => s.bumpQ w.core w.qtr .sorrelMiss | none => s
          runStart (if refused then t.bumpQ w.core w.qtr .refSat else t) id { w with looked := k } i
      match s.wouldHit w i with
      | some (x, _, e, some vals) =>
        let t := (s.setWave id w).retireHit id w i x e vals
        let t := t.started id w 0 false
        .next ((s.countSerial id w t).updWave id fun v => { v with busyUntil := max v.busyUntil (s.cycle w.core + 1) })
      | some (_, k, _, none) => miss (some k) true
      | none =>
        match i.wave with
        | some (_, sub, x) => miss (if looksUp w i x then some (shareKey w (s.core w.core).phase i sub x) else none) false
        | none => miss none false

/-- The issue of the next start: a chosen wave that is no longer ready does not start. -/
def issue (id : Nat) (s : State) : Out :=
  match Tab.find s.waves id with
  | none => .next s
  | some w =>
    if !s.ready w then .next s
    else
      let v := w.begin
      match fetchNext (s.setWave id v) id v with
      | .stop o => o
      | .go t v i => if v.beyond i.named then beyondStop t id v i else startInstr t id v i

/-! ### A Landing core's instruction (21 R364, R365) -/

/-- An instruction that the Landing fetches: its capability extension and `FENCE`; another word of the custom-0 opcode is illegal; `SRET` returns
from an exception (21 R368); any other `FENCE` publishes nothing (23 R404); the base's other instructions have no rule here (log 34). -/
def landingWord (x : BitVec 32) (s : State) (lc : Nat) (c : LCore) : Out :=
  match decodeLanding x with
  | some i => exec i { s with curL := lc }
  | none =>
    if fld x 6 0 = 0x0B then .next (takeL s lc c xIllegal x.toNat)
    else if x = sretWord then .next (returnL s lc c)
    else if fld x 6 0 = 0x0F ∧ fld x 14 12 = 0 then .next (s.setL lc c.next)
    else .refused .rv64Base

def landingTurn (lc : Nat) (s : State) : Out :=
  let c := s.lcore lc
  let clear := match c.gate with | some r => !(s.core (landingCore lc)).releases.any (fun x => x.id == r) | none => true
  if c.fenced then .fault .coreFenced
  else if !clear then .fault .notEnabled
  else
    let s := if c.gate.isSome then s.acquireL lc c else s
    let c := s.lcore lc
    let run := fun (pa : Nat) => let t := s.lTouch lc pa 4; landingWord (BitVec.ofNat 32 (leNat (t.lRead lc pa 4))) t lc c
    if c.level = 0 then run c.pc.toNat
    else
      match capFault (c.cap 15) c.pc.toNat 4 pRD with
      | some (code, tval) => .next (takeL s lc c code tval)
      | none => run ((c.cap 15).base + c.pc.toNat)

/-! ### Clocks -/

/-- The matrix arrays of a core count their idle time: region cycles while active, reference cycles while clock-gated (13 R287). -/
def State.tickIdle (s : State) (core st : Nat) : State :=
  if s.regF (.mxstat core) 1 0 = st then s.updCore core fun c => { c with mxIdle := if s.mxBusy core then 0 else c.mxIdle + 1 } else s

/-- What a core does in a period of its region: its matrix array idles on (13 R287), and a shoot-down may reach it (19 R343). -/
def State.tickCore (s : State) (core : Nat) : State := (s.tickIdle core 0).shootTick core

/-- A period of a clock region (01 R20, 24 R411). -/
def regionTick (die region : Nat) (s : State) : Out :=
  let key := die * 16 + region
  let t : State := { s with cycles := Tab.set s.cycles key (Tab.get 0 s.cycles key + 1) }
  let t := t.updDie die fun d => { d with stretch := Tab.set d.stretch region (min 8 (Tab.get 8 d.stretch region + 1)) }
  when (decide (die < 4 ∧ region < 16)) ((List.range 8).foldl (fun s k => if region < 8 then s.tickCore (die * 64 + region * 8 + k) else s) t)

/-- A wave in a reference cycle: its deadline, and its protection, run while its set is enabled (14 R292, R294). -/
def State.tickWave (s : State) (w : Wave) : Wave :=
  if s.setEnabled w then { w with evicted := w.evicted.map fun (t, n) => (t - 1, n.map (· - 1)), protect := if 1 < w.protect then w.protect - 1 else w.protect } else w

/-- What falls in this cycle of a die and has not happened: the end of an interval, an evaluation of its Quay, on die 0 the end of a power window (20 R348,
R355, 24 R413). -/
def State.cycleOpen (s : State) (die : Nat) : Bool :=
  (s.ctxs.any fun (c, _) => c / 256 == die && s.intervalDue c) || (s.quayDie (s.hpOf die) == some die && s.quayDue (s.hpOf die)) ||
  (die == 0 && decide (2 ^ 20 ≤ s.powerWin))

/-- A cycle of a die's reference clock, with the counters that run on it (20 R348, 21 R391, R397, R398, 24 R413). -/
def refTick (die : Nat) (s : State) : Out :=
  let t := s.updDie die fun d => { d with refclk := d.refclk + 1 }
  let waves := t.waves.map fun (k, w) => (k, if dieOf w.core = die then t.tickWave w else w)
  let t : State := { t with waves }
  let t := t.ctxs.foldl (fun s (c, _) => if c / 256 = die then s.setTl c 5 49 16 (s.tl c 5 49 16 + 1) else s) t
  let hold := fun (d : VDev) => if d.home = die then { d with heldFor := if (s.ctxCores d.ctx).isEmpty || !s.weightedWaits d.ctx then 0 else d.heldFor + 1 } else d
  let t : State := { t with vdevs := t.vdevs.map fun (v, d) => (v, hold d) }
  let t := (List.range 64).foldl (fun s k => s.tickIdle (die * 64 + k) 1) t
  let t : State := if die = 0 then
      { t with hbeatAge := t.hbeatAge + 1, powerWin := t.powerWin + 1, drainLeft := if t.regF .hpst 1 0 = 1 then t.drainLeft - 1 else t.drainLeft }
    else t
  when (decide (die < 4) && !s.cycleOpen die) t

end Sys2Proof.Machine
end

