-- ==== Sys2Proof/Machine/Step.lean ====
section
/-! DEFINITION. One step of the machine: the next start of a quarter, else the next turn of the agenda, else an instruction of Landing core 0 of die 0 (log 2);
and the placing of an instruction where the next step fetches it. -/

namespace Sys2Proof.Machine

/-- An event of the opcode table, and no instruction that a wave or a Landing core fetches. -/
def isEvent (i : Instr) : Bool := (encode i).isNone

/-- One turn of the agenda. -/
def runTurn (t : Turn) (s : State) : Out :=
  match t with
  | .event i => if isEvent i then exec i s else .fault .notEnabled
  | .landing lc => landingTurn lc s
  | .regionCycle d r => regionTick d r s
  | .refCycle d => refTick d s

def step (s : State) : Host.Outcome State Fault Refusal :=
  match s.starts, s.agenda with
  | id :: rest, _ => issue id { s with starts := rest }
  | [], t :: rest => runTurn t { s with agenda := rest }
  | [], [] => landingTurn 0 s

/-! ### Placing an instruction -/

/-- Bytes laid at an address. -/
def State.poke (s : State) (a : Nat) (bytes : List Byte) : State :=
  { s with mem := bytes.zipIdx.foldl (fun (m : Mem) b => Tab.put emptyByte m (a + b.2) b.1) s.mem }

/-- The code line of `withFetchWord`, where its tables lie, and the group that runs it. -/
def probeLine : Nat := 0x10000
def probePart : Word := 0x00004084
def probeKprog : Word := 0x0000001F

/-- A fresh wave of context 0 on core 0 whose PC names the line (01 R32). -/
def State.probeWave (s : State) (gid : Nat) : Group × Wave :=
  let g : Group := {
    ctx := 0, grid := none, core := 0, index := 0, gang := none, rank := 0, gsize := 1, gangs := false, part := probePart, kprog := probeKprog, bset := 0
    regBanks := [0], b0 := 16, accBanks := [17], waves := [gid + 1], entry := probeLine, nlines := 1, task := none }
  (g, s.freshWave gid g ⟨0, false⟩ 0 0 0 0 0)

/-- The instruction stored where the next step fetches it: at the PC of Landing core 0, or in slot 0 of the line of a fresh wave that starts next, marked as a target, with
stages 1 and 2 off, one leaf of stage 3 over the first GiB, die 0 up and its HBM4 trained (log 2). -/
def State.withFetchWord (s : State) (nbits w : Nat) : State :=
  let t := (s.setRegF .pkgst0 2 0 7).setRegF .pkgst0 28 28 1
  if nbits ≤ 32 then
    let c := s.lcore 0
    let t := t.setL 0 { c with fenced := false, gate := none }
    { t.poke (if c.level = 0 then c.pc.toNat else (c.cap 15).base + c.pc.toNat) (leBytes 4 w) with starts := [], agenda := [] }
  else
    let gid := s.nextId
    let t := ((t.setReg (.ctxw 0 4) 0).setReg (.ctxw 0 5) 0).setReg (.ctxw 0 6) 1
    let t := t.setRegF (.coreGate 0) 0 0 1
    let par := if parity (BitVec.ofNat 96 w) then 1 else 0
    let t := ((t.poke 0 (leBytes 8 0x1001)).poke 0x1000 (leBytes 8 0x2001)).poke 0x2000 (leBytes 8 0xC1F)
    let t := t.poke probeLine (leBytes 64 (w % 2 ^ 96 + (par + 32) * 2 ^ 480))
    let (g, v) := t.probeWave gid
    let t := (t.setGroup gid g).setWave (gid + 1) v
    { t with nextId := gid + 34, starts := [gid + 1] }

end Sys2Proof.Machine
end

