-- ==== Sys2Proof/Safety.lean ====
section
/-! DEFINITION. What a safe state and a safe step are, in the terms that claims use. -/

namespace Sys2Proof.Machine

/-- The memory of a state is in its canonical form, so that equal memories are equal data. -/
def State.MemCanonical (s : State) : Prop := Memory.wf s.mem = true

/-- A step that ends in a fault or a refusal: the machine has no next state. -/
def Stops (o : Host.Outcome State Fault Refusal) : Prop := ∀ t, o ≠ .next t

/-- An outcome is a next state with a property. -/
def Reaches (o : Host.Outcome State Fault Refusal) (P : State → Prop) : Prop := ∃ t, o = .next t ∧ P t

/-- Wave `id` issues, and is `w`. -/
def Issuing (s : State) (id : Nat) (w : Wave) : Prop := s.cur = some id ∧ Tab.find s.waves id = some w

/-! ### What the completion of a wave instruction leaves -/

/-- Sequential completion of an instruction of wave `id`, `w` before and `v` after (02 R34, R38, 06 R140): the pc moves to the next slot, and where
that leaves the last line of the kernel the wave stops with cause 0x03; no other wave changes, and of the rest of the state only the tables of
the quarter. -/
structure Completes (s t : State) (id : Nat) (w v : Wave) : Prop where
  found : Tab.find t.waves id = some v
  others : ∀ k, k ≠ id → Tab.find t.waves k = Tab.find s.waves k
  pc : v.pc = nextPc w.pc
  goes : w.leavesKernel = false → v.cond = .running ∧ v.cause = w.cause ∧ t.recs = s.recs
  leaves : w.leavesKernel = true → v.cond = .stopped none ∧ v.cause = 3 ∧ ∃ r, t.recs = s.recs ++ [r]
  rest : t = { s with waves := t.waves, quarters := t.quarters, recs := t.recs }

/-- The registers that the destination of a result covers: none under NW, else D or the pair (02 R46, R48). -/
def Wave.resultKeys (w : Wave) (x : W) (wide : Bool) : List Nat := if x.nw then [] else w.dstKeys x.d.toNat (if wide then 2 else 1)

/-- What a register-computing instruction leaves (01 R14, R17, 02 R46, R48, R53, R55, 03 R82): `res` in the destination of every active lane with its
tag clear, every other lane of a live slice and every other register as it was, the result in the first latch, the flags in `$fpc`. -/
structure LaneDone (s t : State) (id : Nat) (w v : Wave) (i : Instr) (x : W) (wide : Bool) (res : Nat → DWord) (flags : Nat) : Prop where
  flow : Completes s t id w v
  low : x.nw = false → ∀ l, l < 32 → (w.active x.g).getLsbD l = true → v.regLane x.d.toNat l = (res l).setWidth 32
  high : x.nw = false → wide = true → ∀ l, l < 32 → (w.active x.g).getLsbD l = true → v.regLane (x.d.toNat + 1) l = (res l >>> 32).setWidth 32
  kept : ∀ k, k ∈ w.resultKeys x wide → ∀ l, l < 32 → (w.active x.g).getLsbD l = false →
    Lanes.at' 0 (Tab.get zeroReg v.regs k) l = if (sliceMask w.live).getLsbD l then Lanes.at' 0 (Tab.get zeroReg w.regs k) l else 0
  tags : ∀ k, k ∈ w.resultKeys x wide → Tab.get 0 v.tags k = Tab.get 0 w.tags k &&& sliceMask w.live &&& ~~~(w.active x.g)
  other : ∀ k, k ∉ w.resultKeys x wide → Tab.get zeroReg v.regs k = Tab.get zeroReg w.regs k ∧ Tab.get 0 v.tags k = Tab.get 0 w.tags k
  latch : w.leavesKernel = false →
    v.latches = some (lanes fun l => if (w.active x.g).getLsbD l then res l else 0) :: w.latches.take 3
  fpc : v.fpc = w.fpc ||| BitVec.ofNat 32 (flags ||| (if readsLost i x w then fLLOST else 0))
  rest : v = { w with regs := v.regs, tags := v.tags, names := v.names, latches := v.latches, fpc := v.fpc, looked := none,
                      scoreboard := w.scoreboard.filter fun e => !(w.resultKeys x wide).contains e.1
                      tokens := ageTokens w.tokens, run := v.run, waited := false, pc := v.pc, cond := v.cond, cause := v.cause, held := none, xcnt := 0 }

/-- Completion of an instruction that writes no general register: `u` is the wave with the instruction's own effects; beside them only the flow of
control moves, and no register, tag, name or latch changes (a latch is lost only where the flow leaves the kernel). -/
structure Passes (s t : State) (id : Nat) (u v : Wave) : Prop where
  flow : Completes s t id u v
  quarters : t.quarters = s.quarters
  rest : v = { u with latches := v.latches, tokens := ageTokens u.tokens, run := v.run, waited := false, pc := v.pc, cond := v.cond, cause := v.cause,
                      held := none, xcnt := 0 }
  latches : u.leavesKernel = false → v.latches = u.latches

/-- Completion of an instruction that writes one register and enters no latch (14 R288): `res` in the lanes of `act` with the tag clear, every other
register as it was; `s` is the state with the instruction's other effects. -/
structure Wrote (s t : State) (id : Nat) (w v : Wave) (x : W) (act : Mask) (res : Nat → Word) : Prop where
  found : Tab.find t.waves id = some v
  others : ∀ k, k ≠ id → Tab.find t.waves k = Tab.find s.waves k
  pc : v.pc = nextPc w.pc
  lanes : ∀ l, l < 32 → act.getLsbD l = true → v.regLane x.d.toNat l = res l ∧ (Tab.get 0 v.tags (w.key x.d.toNat)).getLsbD l = false
  regs : ∀ k, k ≠ w.key x.d.toNat → Tab.get zeroReg v.regs k = Tab.get zeroReg w.regs k ∧ Tab.get 0 v.tags k = Tab.get 0 w.tags k
  kept : v.exm = w.exm ∧ v.live = w.live ∧ v.tokens = ageTokens w.tokens
  goes : w.leavesKernel = false → v.cond = .running ∧ v.latches = w.latches ∧ t.recs = s.recs
  rest : t = { s with waves := t.waves, quarters := t.quarters, recs := t.recs }

/-- A wave stopped by a cause at its instruction (06 R140, R146, R149): `$cause` holds it, the pc stays, the record is on its way, no register,
mask, token or flag has changed, and nothing else in the state has. -/
structure Faulted (s t : State) (id : Nat) (w : Wave) (code : Nat) (lane : Option Nat) : Prop where
  wave : Tab.find t.waves id = some { w with
    cause := BitVec.ofNat 32 (code + match lane with | some l => l * 256 + 8192 | none => 0)
    cond := .stopped none, run := none, waited := false, latches := lostLatches, held := none, gates := [] }
  others : ∀ k, k ≠ id → Tab.find t.waves k = Tab.find s.waves k
  record : ∃ r, t.recs = s.recs ++ [r] ∧ fld r.body 7 0 = code % 256 ∧ r.wave = some id
  rest : t = { s with waves := t.waves, recs := t.recs }

end Sys2Proof.Machine
end

