-- ==== Sys2Proof/Certificates/Slice0/Obligations.lean ====
section
/-! DEFINITION. The statements for the provers, family by family of the opcode table. Each docstring names the rules of spec/ that its statement
formalises, or says what of the model it is about. -/

open Sys2Proof Sys2Proof.Machine

/-! ### Encoding -/

/-- 02 R42, R43, R45, R47: no bit of a legal wave instruction is lost between encoder and decoder. -/
def Spec.wave_decode_of_encode : Prop :=
  ∀ (i : Instr) (x : IWord), i.wf = true → encodeWave i = some x → decodeWave x = .ok i

/-- 02 R57, R59: every word that decodes is the one encoding of its instruction, every bit of it accounted for. -/
def Obligations.wave_encode_of_decode : Prop :=
  ∀ (i : Instr) (x : IWord), decodeWave x = .ok i → i.wf = true ∧ encodeWave i = some x

/-- 21 R365, 23 R404: the Landing's own instructions. -/
def Spec.landing_decode_of_encode : Prop :=
  ∀ (i : Instr) (x : BitVec 32), encodeLanding i = some x → decodeLanding x = some i

/-- 02 R58, R59: OP 0x00 and 0xFF are never assigned; OP 0xFE is a no-op whatever its other bits hold. -/
def Spec.reserved_opcodes : Prop :=
  ∀ x : IWord,
    (fld x 7 0 = 0x00 → decodeWave x = .error .opcode) ∧ (fld x 7 0 = 0xFF → decodeWave x = .error .opcode) ∧
    (fld x 7 0 = 0xFE → decodeWave x = .ok (.hint (x.extractLsb' 8 88)))

/-! ### Register-computing instructions: arithmetic on integers -/

/-- The integer that a 32-bit or 64-bit operand holds under an integer TY code (02 R50): signed codes 0 and 3, 64 bits wide codes 3 and 4. -/
def Spec.intOf (ty : Nat) (v : DWord) : Int :=
  match ty with | 0 => (v.setWidth 32).toInt | 3 => v.toInt | 4 => v.toNat | _ => ((v.setWidth 32).toNat : Int)

/-- The result pattern of an exact integer: clamped to the type under SAT, then its low bits (04 R88). -/
def Spec.packInt (ty : Nat) (sat : Bool) (e : Int) : DWord :=
  let lo : Int := match ty with | 0 => -2 ^ 31 | 3 => -2 ^ 63 | _ => 0
  let hi : Int := match ty with | 0 => 2 ^ 31 - 1 | 3 => 2 ^ 63 - 1 | 4 => 2 ^ 64 - 1 | _ => 2 ^ 32 - 1
  let e := if sat then max lo (min hi e) else e
  if ty = 3 ∨ ty = 4 then BitVec.ofInt 64 e else (BitVec.ofInt 32 e).setWidth 64

/-- 04 R88: `ADD`, `SUB`, `MUL`, `MULHI`, `MIN`, `MAX` and `MAD` compute exactly; the low bits are kept, or the result clamped where MOD[0] (SAT)
asks. -/
def Spec.integer_arithmetic_registers : Prop :=
  ∀ (s : State) (id : Nat) (w : Wave) (x : W), Issuing s id w → x.ty.toNat ∈ [0, 1, 3, 4] →
    let n : Nat := if x.ty = 3 ∨ x.ty = 4 then 64 else 32
    ∀ p ∈ ([(.add x, fun a b _ => a + b), (.sub x, fun a b _ => a - b), (.mul x, fun a b _ => a * b), (.mulhi x, fun a b _ => a * b / 2 ^ n),
            (.min x, fun a b _ => min a b), (.max x, fun a b _ => max a b), (.mad x, fun a b c => a * b + c)] : List (Instr × (Int → Int → Int → Int))),
      let wide := decide (n = 64)
      ∃ t v, exec p.1 s = .next t ∧
        LaneDone s t id w v p.1 x wide (fun l => Spec.packInt x.ty.toNat (x.mod.getLsbD 0)
          (p.2 (Spec.intOf x.ty.toNat (w.opnd wide x.a l)) (Spec.intOf x.ty.toNat (w.opnd wide x.b l)) (Spec.intOf x.ty.toNat (w.opnd wide x.c l)))) 0

/-- 04 R88, 02 R51: the same with an immediate, sign-extended for `.s64` and zero-extended for the other types. -/
def Spec.integer_arithmetic_immediate : Prop :=
  ∀ (s : State) (id : Nat) (w : Wave) (x : W), Issuing s id w → x.ty.toNat ∈ [0, 1, 3, 4] →
    let n : Nat := if x.ty = 3 ∨ x.ty = 4 then 64 else 32
    ∀ p ∈ ([(.addImm x, fun a b => a + b), (.subImm x, fun a b => a - b), (.mulImm x, fun a b => a * b), (.mulhiImm x, fun a b => a * b / 2 ^ n),
            (.minImm x, fun a b => min a b), (.maxImm x, fun a b => max a b)] : List (Instr × (Int → Int → Int))),
      let wide := decide (n = 64)
      let imm : DWord := if x.ty = 3 then x.tail.signExtend 64 else x.tail.setWidth 64
      ∃ t v, exec p.1 s = .next t ∧
        LaneDone s t id w v p.1 x wide
          (fun l => Spec.packInt x.ty.toNat (x.mod.getLsbD 0) (p.2 (Spec.intOf x.ty.toNat (w.opnd wide x.a l)) (Spec.intOf x.ty.toNat imm))) 0

/-- An integer condition (04 R89). -/
def Spec.holds (c : Cc) (a b : Int) : Prop :=
  match c with | .eq => a = b | .ne => a ≠ b | .lt => a < b | .le => a ≤ b | .gt => a > b | .ge => a ≥ b

/-- 04 R89, R90: `CMP` writes 1 where its condition holds and 0 elsewhere, one register for every type; `SEL` takes A where C is not zero. -/
def Spec.compare_and_select : Prop :=
  ∀ (s : State) (id : Nat) (w : Wave) (x : W), Issuing s id w →
    let wide := decide (x.ty = 3 ∨ x.ty = 4)
    let imm : DWord := if x.ty = 3 then x.tail.signExtend 64 else x.tail.setWidth 64
    (x.ty.toNat ∈ [0, 1, 2, 3, 4] → ∀ c : Cc,
      (∃ t v r, exec (.cmp c x) s = .next t ∧ LaneDone s t id w v (.cmp c x) x false r 0 ∧
        ∀ l, l < 32 → (r l = 1 ∧ Spec.holds c (Spec.intOf x.ty.toNat (w.opnd wide x.a l)) (Spec.intOf x.ty.toNat (w.opnd wide x.b l)) ∨
          r l = 0 ∧ ¬ Spec.holds c (Spec.intOf x.ty.toNat (w.opnd wide x.a l)) (Spec.intOf x.ty.toNat (w.opnd wide x.b l)))) ∧
      (∃ t v r, exec (.cmpImm c x) s = .next t ∧ LaneDone s t id w v (.cmpImm c x) x false r 0 ∧
        ∀ l, l < 32 → (r l = 1 ∧ Spec.holds c (Spec.intOf x.ty.toNat (w.opnd wide x.a l)) (Spec.intOf x.ty.toNat imm) ∨
          r l = 0 ∧ ¬ Spec.holds c (Spec.intOf x.ty.toNat (w.opnd wide x.a l)) (Spec.intOf x.ty.toNat imm)))) ∧
    (x.ty.toNat ∈ [2, 4] → ∃ t v, exec (.sel x) s = .next t ∧
      LaneDone s t id w v (.sel x) x wide (fun l => if w.opnd32 x.c l ≠ 0 then w.opnd wide x.a l else w.opnd wide x.b l) 0)

/-- 04 R91: `POPC` counts set bits, `CLZ` and `CTZ` the zero bits above the highest and below the lowest set bit (32 for zero), `BREV` reverses. -/
def Spec.bit_counts : Prop :=
  ∀ (s : State) (id : Nat) (w : Wave) (x : W), Issuing s id w → x.ty = 2 →
    (∃ t v, exec (.popc x) s = .next t ∧ LaneDone s t id w v (.popc x) x false
      (fun l => BitVec.ofNat 64 ((List.range 32).countP fun k => (w.opnd32 x.a l).getLsbD k)) 0) ∧
    (∃ t v, ∃ r : Nat → Nat, exec (.clz x) s = .next t ∧ LaneDone s t id w v (.clz x) x false (fun l => BitVec.ofNat 64 (r l)) 0 ∧
      ∀ l, l < 32 → r l ≤ 32 ∧ (∀ k, 32 - r l ≤ k → (w.opnd32 x.a l).getLsbD k = false) ∧ (r l < 32 → (w.opnd32 x.a l).getLsbD (31 - r l) = true)) ∧
    (∃ t v, ∃ r : Nat → Nat, exec (.ctz x) s = .next t ∧ LaneDone s t id w v (.ctz x) x false (fun l => BitVec.ofNat 64 (r l)) 0 ∧
      ∀ l, l < 32 → r l ≤ 32 ∧ (∀ k, k < r l → (w.opnd32 x.a l).getLsbD k = false) ∧ (r l < 32 → (w.opnd32 x.a l).getLsbD (r l) = true)) ∧
    (∃ t v r, exec (.brev x) s = .next t ∧ LaneDone s t id w v (.brev x) x false r 0 ∧
      ∀ l k, l < 32 → k < 32 → (r l).getLsbD k = (w.opnd32 x.a l).getLsbD (31 - k))

/-- 04 R92, 02 R51: the bitwise operations, each with its immediate form. -/
def Spec.logic : Prop :=
  ∀ (s : State) (id : Nat) (w : Wave) (x : W), Issuing s id w → x.ty.toNat ∈ [2, 4] →
    let wide := decide (x.ty = 4)
    let low : DWord → DWord := fun v => if wide then v else v &&& 0xFFFF_FFFF
    (∀ p ∈ ([(.and x, fun a b => a &&& b), (.or x, fun a b => a ||| b), (.xor x, fun a b => a ^^^ b), (.andn x, fun a b => a &&& ~~~b),
             (.orn x, fun a b => a ||| ~~~b), (.not x, fun a _ => ~~~a)] : List (Instr × (DWord → DWord → DWord))),
      ∃ t v, exec p.1 s = .next t ∧ LaneDone s t id w v p.1 x wide (fun l => low (p.2 (w.opnd wide x.a l) (w.opnd wide x.b l))) 0) ∧
    (∀ p ∈ ([(.andImm x, fun a b => a &&& b), (.orImm x, fun a b => a ||| b), (.xorImm x, fun a b => a ^^^ b), (.andnImm x, fun a b => a &&& ~~~b),
             (.ornImm x, fun a b => a ||| ~~~b)] : List (Instr × (DWord → DWord → DWord))),
      ∃ t v, exec p.1 s = .next t ∧ LaneDone s t id w v p.1 x wide (fun l => low (p.2 (w.opnd wide x.a l) (x.tail.setWidth 64))) 0)

/-- 04 R93: bit i of `TERN` is the bit of the map that the three source bits select. -/
def Spec.ternary_function : Prop :=
  ∀ (s : State) (id : Nat) (w : Wave) (x : W), Issuing s id w →
    ∃ t v r, exec (.tern x) s = .next t ∧ LaneDone s t id w v (.tern x) x false r 0 ∧
      ∀ l k, l < 32 → k < 32 →
        (r l).getLsbD k = (x.bits 82 75).testBit (((w.opnd32 x.a l).getLsbD k).toNat + 2 * ((w.opnd32 x.b l).getLsbD k).toNat +
          4 * ((w.opnd32 x.c l).getLsbD k).toNat)

/-- 04 R94: the shifts by a register or an immediate amount, at every amount: zeros or sign copies enter, and a rotation takes the amount modulo
the width. -/
def Spec.shifts : Prop :=
  ∀ (s : State) (id : Nat) (w : Wave) (x : W), Issuing s id w →
    let wide := decide (x.ty = 3 ∨ x.ty = 4)
    let n : Nat := if wide then 64 else 32
    let amount := fun (imm : Bool) (l : Nat) => if imm then x.tail.toNat else (w.opnd32 x.b l).toNat
    let bit := fun (l k : Nat) => (w.opnd wide x.a l).getLsbD k
    (x.ty.toNat ∈ [2, 4] → ∀ p ∈ ([(.shl x, false), (.shlImm x, true)] : List (Instr × Bool)),
      ∃ t v r, exec p.1 s = .next t ∧ LaneDone s t id w v p.1 x wide r 0 ∧
        ∀ l k, l < 32 → k < n → (r l).getLsbD k = (decide (amount p.2 l ≤ k) && bit l (k - amount p.2 l))) ∧
    (x.ty.toNat ∈ [2, 4] → ∀ p ∈ ([(.shr x, false), (.shrImm x, true)] : List (Instr × Bool)),
      ∃ t v r, exec p.1 s = .next t ∧ LaneDone s t id w v p.1 x wide r 0 ∧
        ∀ l k, l < 32 → k < n → (r l).getLsbD k = (decide (k + amount p.2 l < n) && bit l (k + amount p.2 l))) ∧
    (x.ty.toNat ∈ [0, 3] → ∀ p ∈ ([(.sar x, false), (.sarImm x, true)] : List (Instr × Bool)),
      ∃ t v r, exec p.1 s = .next t ∧ LaneDone s t id w v p.1 x wide r 0 ∧
        ∀ l k, l < 32 → k < n → (r l).getLsbD k = bit l (min (k + amount p.2 l) (n - 1))) ∧
    (x.ty.toNat ∈ [2, 4] → ∀ p ∈ ([(.rol x, false), (.rolImm x, true)] : List (Instr × Bool)),
      ∃ t v r, exec p.1 s = .next t ∧ LaneDone s t id w v p.1 x wide r 0 ∧
        ∀ l k, l < 32 → k < n → (r l).getLsbD ((k + amount p.2 l) % n) = bit l k) ∧
    (x.ty.toNat ∈ [2, 4] → ∀ p ∈ ([(.ror x, false), (.rorImm x, true)] : List (Instr × Bool)),
      ∃ t v r, exec p.1 s = .next t ∧ LaneDone s t id w v p.1 x wide r 0 ∧
        ∀ l k, l < 32 → k < n → (r l).getLsbD k = bit l ((k + amount p.2 l) % n))

/-- 04 R95-R97: bit fields, moves and byte selection. -/
def Spec.fields_moves_and_bytes : Prop :=
  ∀ (s : State) (id : Nat) (w : Wave) (x : W), Issuing s id w →
    let pos := x.bits 68 64
    let len := x.bits 74 69
    (1 ≤ len → pos + len ≤ 32 → x.ty.toNat ∈ [0, 1] → ∃ t v r, exec (.bfx x) s = .next t ∧ LaneDone s t id w v (.bfx x) x false r 0 ∧
      ∀ l k, l < 32 → k < 32 → (r l).getLsbD k =
        if k < len then (w.opnd32 x.a l).getLsbD (pos + k) else (decide (x.ty = 0) && (w.opnd32 x.a l).getLsbD (pos + len - 1))) ∧
    (1 ≤ len → pos + len ≤ 32 → ∃ t v r, exec (.bfi x) s = .next t ∧ LaneDone s t id w v (.bfi x) x false r 0 ∧
      ∀ l k, l < 32 → k < 32 → (r l).getLsbD k =
        if pos ≤ k ∧ k < pos + len then (w.opnd32 x.b l).getLsbD (k - pos) else (w.opnd32 x.a l).getLsbD k) ∧
    (x.ty.toNat ∈ [2, 4] → ∃ t v, exec (.mov x) s = .next t ∧
      LaneDone s t id w v (.mov x) x (decide (x.ty = 4)) (fun l => w.opnd (decide (x.ty = 4)) x.a l) 0) ∧
    (x.ty.toNat ∈ [2, 3, 4] → ∃ t v, exec (.movImm x) s = .next t ∧
      LaneDone s t id w v (.movImm x) x (decide (x.ty = 3 ∨ x.ty = 4)) (fun _ => if x.ty = 3 then x.tail.signExtend 64 else x.tail.setWidth 64) 0) ∧
    (∃ t v r, exec (.bytsel x) s = .next t ∧ LaneDone s t id w v (.bytsel x) x false r 0 ∧
      ∀ l i, l < 32 → i < 4 →
        let f := x.bits (78 + 4 * i) (75 + 4 * i)
        let src := if f < 4 then w.opnd32 x.b l else w.opnd32 x.a l
        (f < 8 → fld (r l) (8 * i + 7) (8 * i) = fld src (f % 4 * 8 + 7) (f % 4 * 8)) ∧
        (f = 8 → fld (r l) (8 * i + 7) (8 * i) = 0) ∧ (f = 9 → fld (r l) (8 * i + 7) (8 * i) = 255) ∧
        (f = 10 → i = 0 → fld (r l) 7 0 = 0) ∧
        (f = 10 → 0 < i → fld (r l) (8 * i + 7) (8 * i) = if (r l).getLsbD (8 * i - 1) then 255 else 0))

/-! ### Register-computing instructions: floats -/

/-- The exact value of a finite float (03 R67); NaNs and infinities have none. -/
def Spec.rat : FV → ℚ
  | .fin n m e => (if n then -1 else 1) * (m : ℚ) * (2 : ℚ) ^ e
  | _ => 0

/-- Whether a float is finite. -/
def Spec.finite : FV → Bool | .fin .. => true | _ => false

/-- 03 R74, R80: a result whose magnitude does not exceed the largest finite value is rounded to a value of the format: to nearest with ties to
an even mantissa, toward zero, up, or down, with no representable value closer in the direction that the mode allows. -/
def Obligations.rounding_is_correct : Prop :=
  ∀ (ty : Nat) (n : Bool) (m : Nat) (e : Int), ty < 10 → m ≠ 0 →
    let f := fmtTy ty
    let x := Spec.rat (.fin n m e)
    |x| ≤ Spec.rat (.fin false f.maxM f.maxQ) →
    let bits := fun (mode : RMode) => (f.round mode false false n m e).bits
    let r := fun (mode : RMode) => Spec.rat (f.decode (bits mode))
    let value := fun (y : ℚ) => ∃ k, k < 2 ^ f.bits ∧ Spec.finite (f.decode k) = true ∧ y = Spec.rat (f.decode k)
    (∀ mode ∈ [RMode.rne, .rtz, .rup, .rdn], bits mode < 2 ^ f.bits ∧ Spec.finite (f.decode (bits mode)) = true) ∧
    (∀ y, value y → |r .rne - x| ≤ |y - x| ∧ (|r .rne - x| = |y - x| → y ≠ r .rne → bits .rne % 2 = 0)) ∧
    (|r .rtz| ≤ |x| ∧ ∀ y, value y → |y| ≤ |x| → |r .rtz - x| ≤ |y - x|) ∧
    (x ≤ r .rup ∧ ∀ y, value y → x ≤ y → r .rup ≤ y) ∧
    (r .rdn ≤ x ∧ ∀ y, value y → y ≤ x → y ≤ r .rdn)

/-- 05 R122, 03 R74, R76: for finite operands the exact sum, difference, product or fused result is rounded once; a product keeps the sign of its
operands, and an exact zero sum of different signs is +0, in RDN -0. -/
def Spec.float_operations_round_the_exact_result : Prop :=
  ∀ (ty x y z : Nat) (c : FCtl), ty ∈ [0, 1, 3, 4] →
    let f := fmtTy ty
    let a := f.flush c.ftz (f.decode x)
    let b := f.flush c.ftz (f.decode y)
    let d := f.flush c.ftz (f.decode z)
    let rounds := fun (r : FR) (v : ℚ) => ∃ n m e, Spec.rat (.fin n m e) = v ∧ m ≠ 0 ∧ r = f.round c.mode c.ftz c.sat n m e
    Spec.finite a = true → Spec.finite b = true →
      (Spec.rat a + Spec.rat b ≠ 0 → rounds (f.addOp c x y) (Spec.rat a + Spec.rat b)) ∧
      (Spec.rat a + Spec.rat b = 0 → f.addOp c x y = ⟨f.signBit (if a.neg = b.neg then a.neg else decide (c.mode = .rdn)), 0⟩) ∧
      (Spec.rat a - Spec.rat b ≠ 0 → rounds (f.subOp c x y) (Spec.rat a - Spec.rat b)) ∧
      (Spec.rat a * Spec.rat b ≠ 0 → rounds (f.mulOp c x y) (Spec.rat a * Spec.rat b)) ∧
      (Spec.rat a * Spec.rat b = 0 → f.mulOp c x y = ⟨f.signBit (a.neg != b.neg), 0⟩) ∧
      (Spec.finite d = true → Spec.rat a * Spec.rat b + Spec.rat d ≠ 0 →
        rounds (f.fmaOp c false x y z) (Spec.rat a * Spec.rat b + Spec.rat d)) ∧
      (Spec.finite d = true → Spec.rat a * Spec.rat b - Spec.rat d ≠ 0 →
        rounds (f.fmaOp c true x y z) (Spec.rat a * Spec.rat b - Spec.rat d))

/-- 03 R69, 05 R122: the NaN that an operation returns: under DN the canonical one, else the first NaN operand with its quiet bit set, and the
canonical one for an invalid operation, which raises NV as a signalling operand does. -/
def Spec.float_nan_results : Prop :=
  ∀ (ty x y : Nat) (c : FCtl), ty ∈ [0, 1, 3, 4] →
    let f := fmtTy ty
    x < 2 ^ f.bits → y < 2 ^ f.bits →
    let a := f.decode x
    let b := f.decode y
    ∀ op ∈ [f.addOp c, f.subOp c, f.mulOp c],
      (a.isNan = true ∨ b.isNan = true →
        (op x y).bits = (if c.dn then f.canonNan else if a.isNan then x ||| 2 ^ (f.mb - 1) else y ||| 2 ^ (f.mb - 1)) ∧
        (op x y).flags = if a.isSig = true ∨ b.isSig = true then fNV else 0) ∧
      (f.addOp c (f.infBits false) (f.infBits true) = ⟨f.canonNan, fNV⟩) ∧ (f.subOp c (f.infBits false) (f.infBits false) = ⟨f.canonNan, fNV⟩) ∧
      (f.mulOp c 0 (f.infBits false) = ⟨f.canonNan, fNV⟩)

/-- A scalar result, or the two elements of a packed one, with their flags (03 R68, R82). -/
def Spec.elements (ty : Nat) (g : Nat → FR) : DWord × Nat :=
  if ty = 10 ∨ ty = 11 then (BitVec.ofNat 64 ((g 0).bits + 65536 * (g 1).bits), (g 0).flags ||| (g 1).flags)
  else (BitVec.ofNat 64 (g 0).bits, (g 0).flags)

/-- 05 R122, R123, 02 R51: the arithmetic instructions compute element by element on their operands, after ABS and NEG, and OR every active lane's
flags into `$fpc`. -/
def Spec.float_arithmetic : Prop :=
  ∀ (s : State) (id : Nat) (w : Wave) (x : W), Issuing s id w → x.ty.toNat ∈ [0, 1, 3, 4, 10, 11] →
    let ty := x.ty.toNat
    let f := fmtTy ty
    let c := fctl w x
    let src := fun (o : Opnd) (l k : Nat) => rawOf ty k (w.fopnd ty o l)
    let imm := fun (k : Nat) => rawOf ty k (immFloat ty x.tail)
    (∀ p ∈ ([(.fadd x, fun a b _ => f.addOp c a b), (.fsub x, fun a b _ => f.subOp c a b), (.fmul x, fun a b _ => f.mulOp c a b),
             (.fmin x, fun a b _ => f.minMax c.ftz c.dn false a b), (.fmax x, fun a b _ => f.minMax c.ftz c.dn true a b),
             (.fma x, fun a b d => f.fmaOp c false a b d), (.fms x, fun a b d => f.fmaOp c true a b d)] : List (Instr × (Nat → Nat → Nat → FR))),
      let r := fun (l : Nat) => Spec.elements ty fun k => p.2 (src x.a l k) (src x.b l k) (src x.c l k)
      ∃ t v, exec p.1 s = .next t ∧ LaneDone s t id w v p.1 x (decide (ty = 1)) (fun l => (r l).1) (orFlags (w.active x.g) fun l => (r l).2)) ∧
    (∀ p ∈ ([(.faddImm x, fun a b => f.addOp c a b), (.fsubImm x, fun a b => f.subOp c a b), (.fmulImm x, fun a b => f.mulOp c a b),
             (.fminImm x, fun a b => f.minMax c.ftz c.dn false a b), (.fmaxImm x, fun a b => f.minMax c.ftz c.dn true a b)] :
             List (Instr × (Nat → Nat → FR))),
      let r := fun (l : Nat) => Spec.elements ty fun k => p.2 (src x.a l k) (imm k)
      ∃ t v, exec p.1 s = .next t ∧ LaneDone s t id w v p.1 x (decide (ty = 1)) (fun l => (r l).1) (orFlags (w.active x.g) fun l => (r l).2))

/-- 05 R124, R125: `FCMP` answers 1 or 0 by its relation, raising NV for a NaN of an ordered relation and for a signalling NaN of any; `FCLASS` sets the
one bit of the class. -/
def Spec.float_compare_and_classify : Prop :=
  ∀ (s : State) (id : Nat) (w : Wave) (x : W), Issuing s id w →
    let ty := x.ty.toNat
    let f := fmtTy ty
    let dec := fun (o : Opnd) (l : Nat) => f.decode (rawOf ty 0 (w.fopnd ty o l))
    let a := fun (l : Nat) => f.flush w.ftz (dec x.a l)
    let b := fun (l : Nat) => f.flush w.ftz (dec x.b l)
    let nan := fun (l : Nat) => (a l).isNan || (b l).isNan
    let sig := fun (l : Nat) => (a l).isSig || (b l).isSig
    (ty ∈ [0, 1, 3, 4] → ∀ cc : FCc, ∃ t v, ∃ r : Nat → Bool, exec (.fcmp cc x) s = .next t ∧
      LaneDone s t id w v (.fcmp cc x) x false (fun l => if r l then 1 else 0)
        (orFlags (w.active x.g) fun l => if (if cc ∈ [FCc.lt, .le, .gt, .ge] then nan l else sig l) then fNV else 0) ∧
      ∀ l, l < 32 →
        (cc = .un → r l = nan l) ∧ (cc = .ord → r l = !nan l) ∧ (nan l = true → cc ∈ [FCc.eq, .lt, .le, .gt, .ge] → r l = false) ∧
        (nan l = true → cc = .ne → r l = true) ∧
        (Spec.finite (a l) = true → Spec.finite (b l) = true →
          (cc = .eq → (r l = true ↔ Spec.rat (a l) = Spec.rat (b l))) ∧ (cc = .ne → (r l = true ↔ Spec.rat (a l) ≠ Spec.rat (b l))) ∧
          (cc = .lt → (r l = true ↔ Spec.rat (a l) < Spec.rat (b l))) ∧ (cc = .le → (r l = true ↔ Spec.rat (a l) ≤ Spec.rat (b l))) ∧
          (cc = .gt → (r l = true ↔ Spec.rat (a l) > Spec.rat (b l))) ∧ (cc = .ge → (r l = true ↔ Spec.rat (a l) ≥ Spec.rat (b l))))) ∧
    (ty < 10 → ∃ t v, ∃ k : Nat → Nat, exec (.fclass x) s = .next t ∧ LaneDone s t id w v (.fclass x) x false (fun l => BitVec.ofNat 64 (2 ^ k l)) 0 ∧
      ∀ l, l < 32 → k l < 10 ∧
        match dec x.a l with
        | .nan _ sig _ _ => k l = if sig then 8 else 9
        | .inf n => k l = if n then 0 else 7
        | .fin n m _ => k l = if m = 0 then (if n then 3 else 4) else if m < 2 ^ f.mb then (if n then 2 else 5) else (if n then 1 else 6))

/-- 05 R126, R127: `FRCP`, `FSQRT`, `FRSQ`, `FEX2`, `FLG2`, `FSIN` and `FCOS` run on every operand, each a function of the operand and of the controls alone. -/
def Spec.reciprocal_root_and_approximations : Prop :=
  ∀ (s : State) (id : Nat) (w : Wave) (x : W), Issuing s id w →
    let src := fun (ty l : Nat) => rawOf ty 0 (w.fopnd ty x.a l)
    let c := fctl w x
    (x.ty.toNat ∈ [0, 1] → ∀ p ∈ ([(.frcp x, fun a => (fmtTy x.ty.toNat).rcpOp c a), (.fsqrt x, fun a => (fmtTy x.ty.toNat).sqrtOp c a)] : List (Instr × (Nat → FR))),
      ∃ t v, exec p.1 s = .next t ∧ LaneDone s t id w v p.1 x (decide (x.ty = 1)) (fun l => BitVec.ofNat 64 (p.2 (src x.ty.toNat l)).bits)
        (orFlags (w.active x.g) fun l => (p.2 (src x.ty.toNat l)).flags)) ∧
    (x.ty = 0 → ∀ p ∈ ([(.frsq x, fun a => rsqOp w.ftz w.dn a), (.fex2 x, fun a => ex2Op w.ftz w.dn a), (.flg2 x, fun a => lg2Op w.ftz w.dn a),
                        (.fsin x, fun a => trigOp 5 0 w.ftz w.dn a), (.fcos x, fun a => trigOp 6 1 w.ftz w.dn a)] : List (Instr × (Nat → FR))),
      ∃ t v, exec p.1 s = .next t ∧ LaneDone s t id w v p.1 x false (fun l => BitVec.ofNat 64 (p.2 (src 0 l)).bits)
        (orFlags (w.active x.g) fun l => (p.2 (src 0 l)).flags))

/-- 05 R127: the special inputs of `FRCP`, `FSQRT`, `FRSQ`, `FLG2`, `FSIN` and `FCOS`, in `.f32`. -/
def Spec.special_inputs : Prop :=
  ∀ c : FCtl,
    let f := fmtTy 0
    let z := fun (n : Bool) => f.signBit n
    let inf := fun (n : Bool) => f.infBits n
    (f.rcpOp c (inf true) = ⟨z true, 0⟩ ∧ f.rcpOp c (z true) = ⟨inf true, fDZ⟩ ∧ f.rcpOp c (z false) = ⟨inf false, fDZ⟩ ∧ f.rcpOp c (inf false) = ⟨z false, 0⟩) ∧
    (f.sqrtOp c (inf true) = ⟨f.canonNan, fNV⟩ ∧ f.sqrtOp c (z true) = ⟨z true, 0⟩ ∧ f.sqrtOp c (z false) = ⟨z false, 0⟩ ∧
      f.sqrtOp c (inf false) = ⟨inf false, 0⟩) ∧
    (rsqOp c.ftz c.dn (inf true) = ⟨f.canonNan, fNV⟩ ∧ rsqOp c.ftz c.dn (z true) = ⟨inf true, fDZ⟩ ∧ rsqOp c.ftz c.dn (z false) = ⟨inf false, fDZ⟩ ∧
      rsqOp c.ftz c.dn (inf false) = ⟨z false, 0⟩) ∧
    (ex2Op c.ftz c.dn (inf true) = ⟨z false, 0⟩ ∧ ex2Op c.ftz c.dn (z true) = ⟨0x3F800000, 0⟩ ∧ ex2Op c.ftz c.dn (inf false) = ⟨inf false, 0⟩) ∧
    (lg2Op c.ftz c.dn (inf true) = ⟨f.canonNan, fNV⟩ ∧ lg2Op c.ftz c.dn (z true) = ⟨inf true, fDZ⟩ ∧ lg2Op c.ftz c.dn (z false) = ⟨inf true, fDZ⟩ ∧
      lg2Op c.ftz c.dn (inf false) = ⟨inf false, 0⟩) ∧
    (trigOp 5 0 c.ftz c.dn (inf false) = ⟨f.canonNan, fNV⟩ ∧ trigOp 5 0 c.ftz c.dn (inf true) = ⟨f.canonNan, fNV⟩ ∧ trigOp 5 0 c.ftz c.dn (z true) = ⟨z true, 0⟩ ∧ trigOp 5 0 c.ftz c.dn (z false) = ⟨z false, 0⟩) ∧
    (trigOp 6 1 c.ftz c.dn (inf true) = ⟨f.canonNan, fNV⟩ ∧ trigOp 6 1 c.ftz c.dn (inf false) = ⟨f.canonNan, fNV⟩ ∧
      trigOp 6 1 c.ftz c.dn (z true) = ⟨0x3F800000, 0⟩ ∧ trigOp 6 1 c.ftz c.dn (z false) = ⟨0x3F800000, 0⟩)

/-- 05 R126: the exact cases of `FRSQ`, `FEX2`, `FLG2`, `FSIN` and `FCOS`, which raise nothing; every other finite, non-zero result of them raises NX, whatever the free
value (log 7). A zero of `FSIN` has the sign of its operand, a zero of `FCOS` is +0. -/
def Spec.exact_cases : Prop :=
  ∀ (ftz dn : Bool) (x : Nat),
    let f := fmtTy 0
    let a := f.flush ftz (f.decode x)
    let v := Spec.rat a
    let gives := fun (r : FR) (y : ℚ) => r.flags = 0 ∧ Spec.finite (f.decode r.bits) = true ∧ Spec.rat (f.decode r.bits) = y
    let inexact := fun (r : FR) => Spec.finite (f.decode r.bits) = true → Spec.rat (f.decode r.bits) ≠ 0 → r.flags &&& fNX = fNX
    Spec.finite a = true →
      (∀ k : ℤ, v = 4 ^ k → gives (rsqOp ftz dn x) (2 ^ (-k))) ∧
      (∀ k : ℤ, v = k → (-126 ≤ k ∨ -149 ≤ k ∧ ftz = false) → k ≤ 127 → gives (ex2Op ftz dn x) (2 ^ k)) ∧
      (∀ k : ℤ, v = 2 ^ k → gives (lg2Op ftz dn x) k) ∧
      (∀ k : ℤ, 2 * v = k →
        (k % 2 = 0 → trigOp 5 0 ftz dn x = ⟨f.signBit a.neg, 0⟩) ∧ (k % 4 = 1 → gives (trigOp 5 0 ftz dn x) 1) ∧ (k % 4 = 3 → gives (trigOp 5 0 ftz dn x) (-1)) ∧
        (k % 2 = 1 → trigOp 6 1 ftz dn x = ⟨0, 0⟩) ∧ (k % 4 = 0 → gives (trigOp 6 1 ftz dn x) 1) ∧ (k % 4 = 2 → gives (trigOp 6 1 ftz dn x) (-1))) ∧
      (0 < v → (∀ k : ℤ, v ≠ 4 ^ k) → inexact (rsqOp ftz dn x)) ∧
      ((∀ k : ℤ, v ≠ k) → inexact (ex2Op ftz dn x)) ∧
      (0 < v → (∀ k : ℤ, v ≠ 2 ^ k) → inexact (lg2Op ftz dn x)) ∧
      ((∀ k : ℤ, 2 * v ≠ k) → inexact (trigOp 5 0 ftz dn x) ∧ inexact (trigOp 6 1 ftz dn x))

/-! ### Conversions and cross-lane -/

/-- 05 R128, R129, 03 R79, R81: the three conversions convert element by element; a stochastic rounding advances the generator of every active lane once
for each element, in ascending order, and takes r from the state after the step. -/
def Spec.conversions : Prop :=
  ∀ (s : State) (id : Nat) (w : Wave) (x : W), Issuing s id w →
    let seed := fun (l k : Nat) => srNext^[k] (w.seedLane l)
    let ctl := fun (i : Instr) (l k : Nat) =>
      if stochastic i x w = true then { fctl w x with mode := .sr (srR (seed l (k + 1))) } else fctl w x
    let advanced := fun (i : Instr) (n : Nat) (sd : Tab Word) => ∀ l, l < 32 →
      Tab.get 1 sd l = if stochastic i x w = true ∧ (w.active x.g).getLsbD l = true then seed l n else w.seedLane l
    let act := w.active x.g
    (let src := x.ty.toNat
     let dst := x.bits 78 75
     let i := Instr.cvtFF x
     let r := fun (l k : Nat) => (fmtTy dst).convert (ctl i l k)
       (if packed src then srcFV w src x.a l (if packed dst then k else x.bits 79 79) else srcFV w src (if k = 1 then x.b else x.a) l 0)
     ∃ t v sd, exec i s = .next t ∧
       LaneDone s t id { w with seed := sd } v i x (decide (dst = 1))
         (fun l => if packed dst then BitVec.ofNat 64 ((r l 0).bits + 65536 * (r l 1).bits) else BitVec.ofNat 64 (layOf dst (r l 0).bits))
         (orFlags act fun l => if packed dst then (r l 0).flags ||| (r l 1).flags else (r l 0).flags) ∧
       advanced i (if packed dst then 2 else 1) sd) ∧
    (let src := x.ty.toNat
     let dst := x.bits 78 75
     let i := Instr.cvtFI x
     let r := fun (l : Nat) => convertInt (ctl i l 0).mode dst (srcFV w src x.a l (if packed src then x.bits 79 79 else 0))
     ∃ t v sd, exec i s = .next t ∧
       LaneDone s t id { w with seed := sd } v i x (is64 0x01 dst) (fun l => layInt dst (r l).val) (orFlags act fun l => (r l).flags) ∧
       advanced i 1 sd) ∧
    (let dst := x.ty.toNat
     let src := x.bits 78 75
     let i := Instr.cvtIF x
     let n := fun (l : Nat) => readInt src (w.opnd (is64 0x01 src) x.a l)
     let r := fun (l : Nat) => (fmtTy dst).round (ctl i l 0).mode w.ftz (fctl w x).sat (decide (n l < 0)) (n l).natAbs 0
     ∃ t v sd, exec i s = .next t ∧
       LaneDone s t id { w with seed := sd } v i x (decide (dst = 1)) (fun l => BitVec.ofNat 64 (layOf dst (r l).bits)) (orFlags act fun l => (r l).flags) ∧
       advanced i 1 sd)

/-- 03 R78: a float converts to an integer type by rounding and clamping to its range: NaN gives 0 with NV; a value outside the range gives the nearest
bound with NV and SAT. -/
def Spec.integer_conversion_clamps : Prop :=
  ∀ (mode : RMode) (ty : Nat) (n : Bool) (m : Nat) (e : Int), mode ∈ [RMode.rne, .rtz, .rup, .rdn] →
    let x := Spec.rat (.fin n m e)
    let r := convertInt mode ty (.fin n m e)
    (∀ neg sig p b, convertInt mode ty (.nan neg sig p b) = ⟨0, fNV⟩) ∧
    (convertInt mode ty (.inf n) = ⟨if n then intMin ty else intMax ty, fNV ||| fSAT⟩) ∧
    (intMin ty ≤ r.val ∧ r.val ≤ intMax ty) ∧
    ((intMax ty : ℚ) + 1 ≤ x → r = ⟨intMax ty, fNV ||| fSAT⟩) ∧
    (x ≤ (intMin ty : ℚ) - 1 → r = ⟨intMin ty, fNV ||| fSAT⟩) ∧
    ((intMin ty : ℚ) ≤ x → x ≤ intMax ty →
      r.flags = (if (r.val : ℚ) = x then 0 else fNX) ∧ |(r.val : ℚ) - x| < 1 ∧
      (mode = .rne → |(r.val : ℚ) - x| ≤ 1 / 2) ∧ (mode = .rtz → |(r.val : ℚ)| ≤ |x|) ∧ (mode = .rup → x ≤ r.val) ∧ (mode = .rdn → (r.val : ℚ) ≤ x))

/-- 05 R130-R133: block scales over the active lanes, quantisation by a lane's scale, and packing. -/
def Spec.block_scales_and_packing : Prop :=
  ∀ (s : State) (id : Nat) (w : Wave) (x : W), Issuing s id w →
    let act := w.active x.g
    let val := fun (l : Nat) => (fmtTy 0).decode (rawOf 0 0 (w.fopnd 0 x.a l))
    let block := fun (half : Bool) (l k : Nat) => k < 32 ∧ act.getLsbD k = true ∧ (half = true → k / 16 = l / 16)
    let special := fun (half : Bool) (l : Nat) => ∃ k, block half l k ∧ Spec.finite (val k) = false
    let emax : Int := match elemOf x with | none => 6 | some 5 => 15 | some 6 => 8 | some 7 => 4 | _ => 2
    (∃ t v f, ∃ r : Nat → Nat, exec (.scalegenE8M0 x) s = .next t ∧
      LaneDone s t id w v (.scalegenE8M0 x) x false (fun l => BitVec.ofNat 64 (r l)) f ∧
      ∀ l, l < 32 → act.getLsbD l = true →
        (special false l → r l = 0xFF) ∧
        (¬ special false l → (∀ k, block false l k → Spec.rat (val k) = 0) → r l = 0) ∧
        (∀ E : Int, ¬ special false l → (∀ k, block false l k → |Spec.rat (val k)| < 2 ^ (E + 1)) → (∃ k, block false l k ∧ (2 : ℚ) ^ E ≤ |Spec.rat (val k)|) →
          (r l : Int) = max 0 (min 254 (E - emax + 127)))) ∧
    (∃ t v f, ∃ r : Nat → Nat, exec (.scalegenE4M3 x) s = .next t ∧
      LaneDone s t id w v (.scalegenE4M3 x) x false (fun l => BitVec.ofNat 64 (r l)) f ∧
      ∀ l, l < 32 → act.getLsbD l = true →
        ((∃ k, block true l k ∧ (val k).isNan = true) → r l = 0x7F) ∧
        (∀ k, ¬ special true l → block true l k → (∀ j, block true l j → |Spec.rat (val j)| ≤ |Spec.rat (val k)|) →
          ∃ (m : Nat) (e : Int), |Spec.rat (val k)| = (m : ℚ) * 2 ^ e ∧ r l = ((fmtTy 6).roundDiv { mode := .rup } false m e 6 0).bits)) ∧
    (∀ p ∈ ([(.qntE8M0 x, e8m0), (.qntE4M3 x, fun b => (fmtTy 6).decode b)] : List (Instr × (Nat → FV))),
      let sr := stochastic p.1 x w
      let ctl := fun (l : Nat) => if sr = true then { fctl w x with mode := .sr (srR (srNext (w.seedLane l))) } else fctl w x
      let r := fun (l : Nat) => qntElem (elemOf x) (ctl l) (p.2 (fld (w.opnd32 x.b l) 7 0)) (srcFV w 0 x.a l 0)
      ∃ t v sd, exec p.1 s = .next t ∧
        LaneDone s t id { w with seed := sd } v p.1 x false (fun l => BitVec.ofNat 64 (r l).bits) (orFlags act fun l => (r l).flags) ∧
        ∀ l, l < 32 → Tab.get 1 sd l = if sr = true ∧ act.getLsbD l = true then srNext (w.seedLane l) else w.seedLane l) ∧
    (let n := packWidth (x.bits 77 75)
     let pos := x.bits 80 78
     (n * (pos + 2) ≤ (if n = 6 then 24 else 32) → ∃ t v r, exec (.pack x) s = .next t ∧ LaneDone s t id w v (.pack x) x false r 0 ∧
        ∀ l k, l < 32 → k < 32 → (r l).getLsbD k =
          if n * pos ≤ k ∧ k < n * pos + n then (w.opnd32 x.a l).getLsbD (k - n * pos)
          else if n * pos + n ≤ k ∧ k < n * pos + 2 * n then (w.opnd32 x.b l).getLsbD (k - n * pos - n)
          else (w.opnd32 x.c l).getLsbD k && !(n == 6 && decide (24 ≤ k))) ∧
     (n * (pos + 1) ≤ (if n = 6 then 24 else 32) → ∃ t v r, exec (.unpk x) s = .next t ∧ LaneDone s t id w v (.unpk x) x false r 0 ∧
        ∀ l k, l < 32 → k < 64 → (r l).getLsbD k = (decide (k < n) && (w.opnd32 x.a l).getLsbD (n * pos + k))))

/-- 05 R131, 03 R77: a quantised element is the quotient by its scale: the zero scale gives a zero of A's sign, a NaN scale what a quiet NaN converts to. -/
def Spec.quantised_element : Prop :=
  ∀ (el : Option Nat) (c : FCtl) (sc a : FV), (∀ t, el = some t → t ∈ [5, 6, 7, 8, 9]) →
    (sc.isZero = true → qntElem el c sc a = ⟨match el with | some t => (fmtTy t).signBit a.neg | none => 0, 0⟩) ∧
    (c.dn = false → sc.isNan = true → qntElem el c sc a =
      match el with
      | some 5 => ⟨if a.neg then 0xFE else 0x7E, 0⟩ | some 6 => ⟨if a.neg then 0xFF else 0x7F, 0⟩ | _ => ⟨0, fNV⟩) ∧
    (∀ (n n' : Bool) (m : Nat) (e k : Int) (t : Nat), el = some t → m ≠ 0 → a = .fin n m e → sc = .fin n' 1 k →
      ∀ mode ∈ [RMode.rne, .rtz, .rup, .rdn], c.mode = mode →
        qntElem el c sc a = (fmtTy t).round mode c.ftz c.sat (n != n') m (e - k))

/-- 05 R134-R137: lane moves read a lane of the wave whatever its state, an exited one as zero; broadcast, votes and ballots read the active lanes. -/
def Obligations.moves_votes_and_ballots : Prop :=
  ∀ (s : State) (id : Nat) (w : Wave) (x : W), Issuing s id w →
    let act := w.active x.g
    let read := fun (k : Nat) => if w.live.getLsbD k then w.opnd false x.a k else 0
    let from_ := fun (m : XMode) (l k : Nat) =>
      match m with | .abs => k % 32 | .rot => (l + k) % 32 | .bfly => l ^^^ (k % 32) | .seg => l - l % 2 ^ min k 5
    let on := fun (l : Nat) => w.opnd32 x.a l ≠ 0
    (∀ m : XMode,
      (∃ t v, exec (.xlane m x) s = .next t ∧ LaneDone s t id w v (.xlane m x) x false (fun l => read (from_ m l (w.opnd32 x.b l).toNat)) 0) ∧
      (∃ t v, exec (.xlaneImm m x) s = .next t ∧ LaneDone s t id w v (.xlaneImm m x) x false (fun l => read (from_ m l (x.bits 68 64))) 0) ∧
      (∀ l k, l < 32 → from_ m l k < 32)) ∧
    (∃ t v r, exec (.bcastFirst x) s = .next t ∧ LaneDone s t id w v (.bcastFirst x) x false (fun _ => r) 0 ∧
      ∀ l, l < 32 → act.getLsbD l = true → (∀ k, k < l → act.getLsbD k = false) → r = w.opnd false x.a l) ∧
    (∃ t v r, exec (.voteAny x) s = .next t ∧ LaneDone s t id w v (.voteAny x) x false (fun _ => bit r) 0 ∧
      (r = true ↔ ∃ l, l < 32 ∧ act.getLsbD l = true ∧ on l)) ∧
    (∃ t v r, exec (.voteAll x) s = .next t ∧ LaneDone s t id w v (.voteAll x) x false (fun _ => bit r) 0 ∧
      (r = true ↔ ∀ l, l < 32 → act.getLsbD l = true → on l)) ∧
    (∃ t v r, exec (.voteEq x) s = .next t ∧ LaneDone s t id w v (.voteEq x) x false (fun _ => bit r) 0 ∧
      (r = true ↔ ∀ l k, l < 32 → k < 32 → act.getLsbD l = true → act.getLsbD k = true → w.opnd32 x.a l = w.opnd32 x.a k)) ∧
    (∃ t v, ∃ r : BitVec 64, exec (.ballot x) s = .next t ∧ LaneDone s t id w v (.ballot x) x false (fun _ => r) 0 ∧
      ∀ l, r.getLsbD l = true ↔ l < 32 ∧ act.getLsbD l = true ∧ on l)

/-- 05 R138: an integer reduction combines A over the active lanes, a scan over those up to its lane, or below it, from the identity. -/
def Spec.integer_reductions_and_scans : Prop :=
  ∀ (s : State) (id : Nat) (w : Wave) (x : W), Issuing s id w →
    ∀ p ∈ ([(.addN, fun a b => a + b, 0), (.minS, fun a b => if b.toInt < a.toInt then b else a, 0x7FFF_FFFF),
            (.maxS, fun a b => if a.toInt < b.toInt then b else a, 0x8000_0000), (.minN, fun a b => if b < a then b else a, 0xFFFF_FFFF),
            (.maxN, fun a b => if a < b then b else a, 0), (.andB, fun a b => a &&& b, 0xFFFF_FFFF), (.orB, fun a b => a ||| b, 0),
            (.xorB, fun a b => a ^^^ b, 0)] : List (RedI × (Word → Word → Word) × Word)),
      let combine := fun (q : Nat → Bool) =>
        (((List.range 32).filter fun k => (w.active x.g).getLsbD k && q k).map (w.opnd32 x.a)).foldl p.2.1 p.2.2
      (∃ t v, exec (.lredInt p.1 x) s = .next t ∧
        LaneDone s t id w v (.lredInt p.1 x) x false (fun _ => (combine fun _ => true).setWidth 64) 0) ∧
      (∃ t v, exec (.lscanInt p.1 x) s = .next t ∧
        LaneDone s t id w v (.lscanInt p.1 x) x false
          (fun l => (combine fun k => if x.mod.getLsbD 3 then decide (k < l) else decide (k ≤ l)).setWidth 64) 0)

/-- Node `i` of level `j` of the tree of 03 R83 over the leaves of the active lanes: two nodes combined, or the one that is not empty as it stands. -/
def Spec.node (op : FR → FR → FR) (leaf : Nat → Option FR) : Nat → Nat → Option FR
  | 0, i => leaf i
  | j + 1, i =>
    match Spec.node op leaf j (2 * i), Spec.node op leaf j (2 * i + 1) with
    | some a, some b => some (op a b)
    | some a, none => some a
    | none, b => b

/-- The leaves below `n`, from the largest aligned node to the smallest, combined in that order (03 R84). -/
def Spec.upTo (op : FR → FR → FR) (leaf : Nat → Option FR) : Nat → Nat → Nat → Option FR → Option FR
  | 0, _, _, acc => acc
  | j + 1, start, n, acc =>
    if 2 ^ j ≤ n then
      Spec.upTo op leaf j (start + 2 ^ j) (n - 2 ^ j)
        (match acc, Spec.node op leaf j (start / 2 ^ j) with | some a, some b => some (op a b) | some a, none => some a | none, b => b)
    else Spec.upTo op leaf j start n acc

/-- 05 R138, 03 R83, R84: float reductions and scans combine along the fixed tree, inactive lanes as empty leaves; each node keeps the flags below it. -/
def Spec.float_reductions_and_scans : Prop :=
  ∀ (s : State) (id : Nat) (w : Wave) (x : W) (o : RedF), Issuing s id w → x.ty.toNat ∈ [0, 1, 3, 4] →
    let f := fmtTy x.ty.toNat
    let op := fun (a b : FR) =>
      let r := match o with
        | .add => f.addOp { fctl w x with sat := false } a.bits b.bits
        | .min => f.minMax w.ftz w.dn false a.bits b.bits
        | .max => f.minMax w.ftz w.dn true a.bits b.bits
      FR.mk r.bits (a.flags ||| b.flags ||| r.flags)
    let ident := match o with | .add => f.signBit true | .min => f.infBits false | .max => f.infBits true
    let leaf := fun (l : Nat) => if (w.active x.g).getLsbD l then some (FR.mk (floatLeaf x w l) 0) else none
    let upTo := fun (n : Nat) => (Spec.upTo op leaf 6 0 n none).getD ⟨ident, 0⟩
    let wide := decide (x.ty = 1)
    (∀ r, Spec.node op leaf 5 0 = some r → ∃ t v, exec (.lredFloat o x) s = .next t ∧
      LaneDone s t id w v (.lredFloat o x) x wide (fun _ => BitVec.ofNat 64 r.bits) r.flags) ∧
    (∃ t v, exec (.lscanFloat o x) s = .next t ∧
      LaneDone s t id w v (.lscanFloat o x) x wide (fun l => BitVec.ofNat 64 (upTo (if x.mod.getLsbD 3 then l else l + 1)).bits)
        (orFlags (w.active x.g) fun l => (upTo (if x.mod.getLsbD 3 then l else l + 1)).flags))

/-! ### Capabilities in registers -/

/-- What a derivation leaves when every active lane passes its checks (04 R98): the capability in the quad of each active lane, its tag on all four
registers, and everything else as it was. -/
structure Spec.Derived (s t : State) (id : Nat) (w v : Wave) (i : Instr) (x : W) (cap : Nat → Cap) : Prop where
  flow : Completes s t id w v
  quad : ∀ l, l < 32 → (w.active x.g).getLsbD l = true → v.quadLane x.d.toNat l = cap l
  kept : ∀ k, k ∈ w.dstKeys x.d.toNat 4 → ∀ l, l < 32 → (w.active x.g).getLsbD l = false → (sliceMask w.live).getLsbD l = true →
    Lanes.at' 0 (Tab.get zeroReg v.regs k) l = Lanes.at' 0 (Tab.get zeroReg w.regs k) l ∧
    (Tab.get 0 v.tags k).getLsbD l = (Tab.get 0 w.tags k).getLsbD l
  other : ∀ k, k ∉ w.dstKeys x.d.toNat 4 → Tab.get zeroReg v.regs k = Tab.get zeroReg w.regs k ∧ Tab.get 0 v.tags k = Tab.get 0 w.tags k
  rest : v = { w with regs := v.regs, tags := v.tags, names := v.names, looked := none, tokens := ageTokens w.tokens, run := v.run, waited := false,
                      scoreboard := w.scoreboard.filter fun e => !(w.dstKeys x.d.toNat 4).contains e.1
                      pc := v.pc, cond := v.cond, cause := v.cause, held := none, xcnt := 0, latches := v.latches,
                      fpc := w.fpc ||| BitVec.ofNat 32 (if readsLost i x w then fLLOST else 0) }
  latches : w.leavesKernel = false → v.latches = w.latches

/-- The cause of a failing check in a lane, none where it passes. -/
def Spec.cause : Except Chk Cap → Option Nat | .ok _ => none | .error c => some c.code

/-- 04 R99-R101, 01 R15, R16: what each derivation checks and gives in a lane. -/
def Spec.derivation_checks : Prop :=
  ∀ (c raw : Cap) (off len l : Nat) (imm : Word), off < 2 ^ 64 → len < 2 ^ 64 →
    (Spec.cause (narrow c off len l) = if c.tag = false then some 0x10 else if c.cov < off + len then some 0x11 else none) ∧
    (∀ d, narrow c off len l = .ok d → d.base = (c.base + off) % 2 ^ 57 ∧ d.len = len ∧ d.perms = c.perms ∧ d.scr = c.scr ∧ d.fmt = c.fmt ∧ d.pitch = c.pitch ∧
      d.tag = true ∧ ∀ a, d.base ≤ a → a < d.top → c.base ≤ a ∧ a < c.top) ∧
    (Spec.cause (narrowSet c raw l) = if c.tag = false then some 0x10
      else if raw.base < c.base ∨ c.top < raw.base + raw.len then some 0x11
      else if raw.scr ≠ c.scr ∨ ∃ k ∈ List.range 6, raw.has k = true ∧ c.has k = false then some 0x12 else none) ∧
    (∀ d, narrowSet c raw l = .ok d → d.bits = raw.bits ∧ d.tag = true) ∧
    (Spec.cause (permit c imm l) = if c.tag = false then some 0x10 else none) ∧
    (∀ d, permit c imm l = .ok d → d.base = c.base ∧ d.len = c.len ∧ d.scr = c.scr ∧ d.tag = true ∧
      (∀ k, k < 6 → d.has k = (c.has k && imm.getLsbD k)) ∧
      d.fmt = (if imm.getLsbD 6 then fld imm 14 7 else c.fmt) ∧ d.pitch = (if imm.getLsbD 15 then fld imm 31 16 else c.pitch))

/-- 04 R98, 06 R141: a derivation writes its quad when every active lane passes, and otherwise nothing: the wave stops with the highest cause that any
active lane found, at the lowest lane that found it. -/
def Spec.derivations : Prop :=
  ∀ (s : State) (id : Nat) (w : Wave) (x : W), Issuing s id w →
    ∀ p ∈ ([(.cnarrow x, fun l => narrow (w.quadOpnd x.a l) (w.opnd true x.b l).toNat (w.opnd true x.c l).toNat l),
            (.cnarrowSet x, fun l => narrowSet (w.quadOpnd x.a l) (w.quadOpnd x.b l) l),
            (.cperm x, fun l => permit (w.quadOpnd x.a l) x.tail l)] : List (Instr × (Nat → Except Chk Cap))),
      let on := fun (l : Nat) => l < 32 ∧ (w.active x.g).getLsbD l = true
      (∀ cap : Nat → Cap, (∀ l, on l → p.2 l = .ok (cap l)) → ∃ t v, exec p.1 s = .next t ∧ Spec.Derived s t id w v p.1 x cap) ∧
      (∀ l c, on l → Spec.cause (p.2 l) = some c →
        (∀ k d, on k → Spec.cause (p.2 k) = some d → causeRank c < causeRank d ∨ d = c ∧ l ≤ k) →
        ∃ t, exec p.1 s = .next t ∧ Faulted s t id w c (some l))

/-- 04 R102, R103, 01 R15, R16: `CGET` reads the field whatever the tag; `CCHK` answers whether tag, range and permissions all hold. -/
def Spec.capability_fields_and_checks : Prop :=
  ∀ (s : State) (id : Nat) (w : Wave) (x : W), Issuing s id w →
    let q := fun (l : Nat) => w.quadOpnd x.a l
    (∀ p ∈ ([(.tag, fun l => if (q l).tag then 1 else 0), (.base, fun l => fld (q l).bits 56 0), (.len, fun l => fld (q l).bits 103 64),
             (.perm, fun l => fld (q l).bits 63 57), (.fmt, fun l => fld (q l).bits 111 104), (.pitch, fun l => fld (q l).bits 127 112)] :
             List (CapField × (Nat → Nat))),
      ∃ t v, exec (.cget p.1 x) s = .next t ∧
        LaneDone s t id w v (.cget p.1 x) x (decide (p.1 = .base ∨ p.1 = .len)) (fun l => BitVec.ofNat 64 (p.2 l)) 0) ∧
    (∃ t v, ∃ r : Nat → Bool, exec (.cchk x) s = .next t ∧ LaneDone s t id w v (.cchk x) x false (fun l => bit (r l)) 0 ∧
      ∀ l, l < 32 →
        (r l = true ↔ (q l).tag = true ∧ (w.opnd32 x.c l = 0 ∨
            (q l).base ≤ (w.opnd true x.b l).toNat ∧ (w.opnd true x.b l).toNat + (w.opnd32 x.c l).toNat ≤ min ((q l).base + (q l).len) (2 ^ 57)) ∧
          ∀ k, k < 6 → x.mod.getLsbD k = true → (q l).bits.getLsbD (57 + k) = true))

/-! ### Flow of control -/

/-- The lanes of a wave's active mask whose predicate A is not zero (04 R87, R105). -/
def Spec.chosen (w : Wave) (x : W) : Mask := maskOf fun l => w.exm.getLsbD l && w.opnd32 x.a l != 0

/-- The flag of a lost latch read (02 R55). -/
def Spec.reading (w : Wave) (i : Instr) (x : W) : Wave := { w with fpc := w.fpc ||| BitVec.ofNat 32 (if readsLost i x w then fLLOST else 0) }

/-- 04 R104, R105, R106, 02 R37: a transfer goes to the line and slot that its field names, where the target is legal; where it is not, the instruction has
no effect but its cause. A vote is taken over the active lanes. `CALL` leaves next(pc) in the pair D of the active lanes. -/
def Spec.transfers : Prop :=
  ∀ (s : State) (id : Nat) (w : Wave) (x : W), Issuing s id w →
    let T : PC := (w.pc &&& ~~~(63 : PC)) + BitVec.ofInt 57 (64 * (x.tail.toInt / 8)) + BitVec.ofNat 57 (fld x.tail 2 0)
    let goes := fun (v : Wave) (pc : PC) =>
      { v with tokens := ageTokens v.tokens, run := if v.waited then none else some v.pc, waited := false, pc := pc, cond := .running, held := none, xcnt := 0 }
    let on := fun (l : Nat) => l < 32 ∧ w.exm.getLsbD l = true
    let p := fun (l : Nat) => w.opnd32 x.a l ≠ 0
    (checkTarget s w T = .good → exec (.bra x) s = .next (s.setWave id (goes w T))) ∧
    (∀ (c : Vote) (taken : Prop), taken = (match c with
        | .any => ∃ l, on l ∧ p l | .all => (∃ l, on l) ∧ ∀ l, on l → p l
        | .none => ∀ l, on l → ¬ p l | .notall => ¬ ((∃ l, on l) ∧ ∀ l, on l → p l)) →
      (taken → checkTarget s w T = .good → exec (.braCond c x) s = .next (s.setWave id (goes (Spec.reading w (.braCond c x) x) T))) ∧
      (taken → ∀ k, checkTarget s w T = .cause k → ∃ t, exec (.braCond c x) s = .next t ∧ Faulted s t id w k none) ∧
      (¬ taken → ∃ t v, exec (.braCond c x) s = .next t ∧ Passes s t id (Spec.reading w (.braCond c x) x) v)) ∧
    (checkTarget s w T = .good → ∃ t v, exec (.call x) s = .next t ∧ Tab.find t.waves id = some v ∧ (∀ k, k ≠ id → Tab.find t.waves k = Tab.find s.waves k) ∧
      v.pc = T ∧ v.cond = .running ∧ v.latches = w.latches ∧ v.fpc = w.fpc ∧ v.exm = w.exm ∧ v.live = w.live ∧
      (∀ l, on l → v.pairLane x.d.toNat l = (nextPc w.pc).setWidth 64) ∧
      (∀ k, k ∉ w.dstKeys x.d.toNat 2 → Tab.get zeroReg v.regs k = Tab.get zeroReg w.regs k ∧ Tab.get 0 v.tags k = Tab.get 0 w.tags k) ∧
      (∀ k l, k ∈ w.dstKeys x.d.toNat 2 → on l → (Tab.get 0 v.tags k).getLsbD l = false) ∧
      t = { s with waves := t.waves, quarters := t.quarters }) ∧
    (∀ k, checkTarget s w T = .cause k → ∀ i ∈ [Instr.bra x, .call x], ∃ t, exec i s = .next t ∧ Faulted s t id w k none)

/-- 04 R106, 06 R141: `RET` goes to the PC that every active lane agrees on; without one, or with none active, it raises 0x03 or 0x32. -/
def Spec.return_transfers : Prop :=
  ∀ (s : State) (id : Nat) (w : Wave) (x : W), Issuing s id w →
    let on := fun (l : Nat) => l < 32 ∧ w.exm.getLsbD l = true
    let a := fun (l : Nat) => w.opnd true x.a l
    (∀ k, on k → (∀ l, on l → a l = a k) → fld (a k) 63 57 = 0 → checkTarget s w ((a k).setWidth 57) = .good →
      exec (.ret x) s = .next (s.setWave id { Spec.reading w (.ret x) x with
        tokens := ageTokens w.tokens, run := if w.waited then none else some w.pc, waited := false, pc := (a k).setWidth 57, cond := .running, held := none, xcnt := 0 })) ∧
    (∀ k l, on k → on l → a l ≠ a k → ∃ t, exec (.ret x) s = .next t ∧ Faulted s t id w 0x03 none) ∧
    (∀ k, on k → (∀ l, on l → a l = a k) → fld (a k) 63 57 ≠ 0 → ∃ t, exec (.ret x) s = .next t ∧ Faulted s t id w 0x03 none) ∧
    (w.exm = 0 → ∃ t, exec (.ret x) s = .next t ∧ Faulted s t id w 0x32 none)

/-- 04 R107: settling pops tokens until an active live lane is restored or none is left. -/
def Spec.settling : Prop :=
  ∀ (w : Wave) (pc : PC),
    let u := w.settle pc
    (u.exm &&& u.live ≠ 0 ∨ u.tokens = []) ∧ u.tokens <:+ w.tokens ∧ (w.exm &&& w.live ≠ 0 → u = { w with pc := pc }) ∧
    (∀ e rest, w.tokens = e :: rest → w.exm &&& w.live = 0 →
      u = { w with tokens := rest, exm := e.mask &&& w.live }.settle (if e.kind = TokKind.path then e.pc else nextPc e.pc)) ∧
    u = { w with tokens := u.tokens, pc := u.pc, exm := u.exm }

/-- 04 R108-R110: `LOOP` and `SPLIT` push their tokens, at most 64 deep, or raise 0x32; a target or join PC with slot 5 to 7
raises 0x03 (log 70); `MEET` takes up the top of the stack. -/
def Spec.reconvergence_tokens : Prop :=
  ∀ (s : State) (id : Nat) (w : Wave) (x : W), Issuing s id w →
    let at' := fun (f : BitVec 16) => (w.pc &&& ~~~(63 : PC)) + BitVec.ofInt 57 (64 * (f.toInt / 8)) + BitVec.ofNat 57 (fld f 2 0)
    let at32 : PC := (w.pc &&& ~~~(63 : PC)) + BitVec.ofInt 57 (64 * (x.tail.toInt / 8)) + BitVec.ofNat 57 (fld x.tail 2 0)
    let t' := Spec.chosen w x
    let f' := w.exm &&& ~~~t'
    let join : Token := { kind := .join, pc := at' (x.tail.extractLsb' 16 16), mask := w.exm }
    let target := at' (x.tail.setWidth 16)
    let r := Spec.reading w (.split x) x
    let split := fun (ts : List Token) => s.setWave id { r with
      tokens := ts ++ ageTokens w.tokens, run := if w.waited then none else some w.pc, waited := false, pc := target, exm := t', cond := .running, held := none, xcnt := 0 }
    let settled := fun (u : Wave) => s.setWave id { u with tokens := ageTokens u.tokens, run := some w.pc, waited := false, cond := .running, held := none, xcnt := 0 }
    (illegalPc at32 = true → ∃ t, exec (.loop x) s = .next t ∧ Faulted s t id w 0x03 none) ∧
    (illegalPc join.pc = true → t' = 0 ∨ checkTarget s w target = .good → ∃ t, exec (.split x) s = .next t ∧ Faulted s t id w 0x03 none) ∧
    (illegalPc at32 = false → w.tokens.length < 64 → ∃ t v, exec (.loop x) s = .next t ∧ Passes s t id { w with tokens := { kind := .loop, pc := at32, mask := 0 } :: w.tokens } v) ∧
    (illegalPc at32 = false → 64 ≤ w.tokens.length → ∃ t, exec (.loop x) s = .next t ∧ Faulted s t id w 0x32 none) ∧
    (illegalPc join.pc = false → t' = 0 → w.tokens.length < 64 → ∃ t v, exec (.split x) s = .next t ∧ Passes s t id { r with tokens := join :: w.tokens } v) ∧
    (illegalPc join.pc = false → t' ≠ 0 → f' = 0 → w.tokens.length < 64 → checkTarget s w target = .good → exec (.split x) s = .next (split [join])) ∧
    (illegalPc join.pc = false → t' ≠ 0 → f' ≠ 0 → w.tokens.length < 63 → checkTarget s w target = .good →
      exec (.split x) s = .next (split [{ kind := .path, pc := nextPc w.pc, mask := f' }, join])) ∧
    (illegalPc join.pc = false → 64 < w.tokens.length + (if t' ≠ 0 ∧ f' ≠ 0 then 2 else 1) → t' = 0 ∨ checkTarget s w target = .good → ∃ t, exec (.split x) s = .next t ∧ Faulted s t id w 0x32 none) ∧
    (w.tokens = [] → ∃ t, exec (.meet x) s = .next t ∧ Faulted s t id w 0x32 none) ∧
    (∀ e rest, w.tokens = e :: rest →
      (e.kind = .path → exec (.meet x) s = .next (settled ({ w with tokens := rest, exm := e.mask &&& w.live }.settle e.pc))) ∧
      (e.kind ≠ .path → e.pc ≠ w.pc → ∃ t, exec (.meet x) s = .next t ∧ Faulted s t id w 0x32 none) ∧
      (e.kind ≠ .path → e.pc = w.pc →
        let exm := ((if e.kind = .loop then w.exm else 0) ||| e.mask) &&& w.live
        (exm ≠ 0 ∨ rest = [] → ∃ t v, exec (.meet x) s = .next t ∧ Passes s t id { w with tokens := rest, exm := exm } v) ∧
        (exm = 0 → rest ≠ [] → exec (.meet x) s = .next (settled ({ w with tokens := rest, exm := exm }.settle (nextPc w.pc))))))

/-- 04 R111: a break leaves the lanes in the nearest `LOOP` entry and takes them out of every entry above it. -/
def Spec.breaks : Prop :=
  ∀ (s : State) (id : Nat) (w : Wave) (x : W), Issuing s id w →
    ∀ p ∈ [(Instr.brk x, w, w.exm), (.breakPred x, Spec.reading w (.breakPred x) x, Spec.chosen w x)],
      let b := p.2.2
      (b = 0 → ∃ t v, exec p.1 s = .next t ∧ Passes s t id p.2.1 v) ∧
      (b ≠ 0 → (∀ e ∈ w.tokens, e.kind ≠ .loop) → ∃ t, exec p.1 s = .next t ∧ Faulted s t id w 0x32 none) ∧
      (∀ above e below, b ≠ 0 → w.tokens = above ++ e :: below → (∀ k ∈ above, k.kind ≠ .loop) → e.kind = .loop →
        let u : Wave := { p.2.1 with
          tokens := (above.map fun k => { k with mask := k.mask &&& ~~~b }) ++ { e with mask := e.mask ||| b } :: below, exm := w.exm &&& ~~~b }
        (u.exm ≠ 0 → ∃ t v, exec p.1 s = .next t ∧ Passes s t id u v) ∧
        (u.exm = 0 →
          let n := u.settle (nextPc w.pc)
          exec p.1 s = .next (s.setWave id { n with tokens := ageTokens n.tokens, run := some w.pc, waited := false, cond := .running, held := none, xcnt := 0 })))

/-- 04 R112, 01 R8, R14, 09 R166: the active lanes of `EXIT` stop being live; where no token restores a lane the wave is gone from the machine, and with it from its
group. A slice that has no live lane left reads as zero, where no other wave shares the register. -/
def Spec.exit_ends_lanes_and_waves : Prop :=
  ∀ (s : State) (id : Nat) (w : Wave) (x : W), Issuing s id w →
    let act := w.active x.g
    let v0 : Wave := { w with live := w.live &&& ~~~act, exm := w.exm &&& ~~~act }
    let u := v0.settle (nextPc w.pc)
    let left := fun (regs : Tab VReg) => ∀ k l, l < 32 → Lanes.at' 0 (Tab.get zeroReg regs k) l =
      if (sliceMask v0.live).getLsbD l = true ∨ ∃ r ∈ s.refs w.quarterKey (w.name k), r.1 ≠ id then Lanes.at' 0 (Tab.get zeroReg w.regs k) l else 0
    (v0.exm ≠ 0 → ∃ t v, exec (.exit x) s = .next t ∧ Completes s t id v0 v ∧ left v.regs ∧
      v = { v0 with regs := v.regs, latches := v.latches, tokens := ageTokens v0.tokens, run := v.run, waited := false, pc := v.pc, cond := v.cond
                    cause := v.cause, held := none, xcnt := 0 }) ∧
    (v0.exm = 0 → u.exm &&& u.live ≠ 0 → ∃ t v, exec (.exit x) s = .next t ∧ Tab.find t.waves id = some v ∧ left v.regs ∧
      v = { u with regs := v.regs, tokens := ageTokens u.tokens, run := some w.pc, waited := false, cond := .running, held := none, xcnt := 0 } ∧
      t = { s with waves := t.waves, quarters := t.quarters }) ∧
    (v0.exm = 0 → u.exm &&& u.live = 0 → ∃ t, exec (.exit x) s = .next t ∧ Tab.find t.waves id = none ∧
      (∀ g, Tab.find t.groups w.group = some g → id ∉ g.waves) ∧ t.mem = s.mem ∧ t.recs = s.recs ∧ id ∉ t.starts)

/-! ### System instructions -/

/-- 04 R113, R115, R116, 02 R58: `NOP` and the hints change nothing; `YIELD` lets every wave that is ready on the quarter start first; `WAIT.CYC` holds the
wave until its cycles have passed, and then lets it go. -/
def Spec.no_operations_and_waits : Prop :=
  ∀ (s : State) (id : Nat) (w : Wave) (x : W) (rest : BitVec 88), Issuing s id w →
    (∃ t v, exec (.nop x) s = .next t ∧ Passes s t id w v) ∧ (∃ t v, exec (.hint rest) s = .next t ∧ Passes s t id w v) ∧
    (∃ t v ys, exec (.yield x) s = .next t ∧ Passes s t id { w with yieldTo := ys } v ∧
      ∀ k, k ∈ ys ↔ k ≠ id ∧ ∃ u, (k, u) ∈ s.waves ∧ u.core = w.core ∧ u.qtr = w.qtr ∧ u.evicted = none ∧ s.ready u = true) ∧
    (∃ t v, exec (.waitCyc x) s = .next t ∧
      Passes s t id { w with waitUntil := if x.tail = 0 then none else some (s.cycle w.core + x.tail.toNat) } v) ∧
    (∀ u : Wave, u.waitUntil.isSome = true → s.ready u = false) ∧
    (∀ k u c, Tab.find s.waves k = some u → u.waitUntil = some c →
      (c ≤ s.cycle u.core → exec (.waitCycEnd k) s = .next (s.setWave k { u with waitUntil := none })) ∧
      (s.cycle u.core < c → exec (.waitCycEnd k) s = .fault .notEnabled))

/-- 04 R117, 06 R146, R149, 02 R38: `SVC` and `TRAP` complete and then stop the wave: `$cause` holds 0x70 or 0x60, the restart point is the next
instruction, the completion record with the immediate sets off to the handler, and a completion trap of the last line is held back. -/
def Spec.service_calls_and_traps : Prop :=
  ∀ (s : State) (id : Nat) (w : Wave) (x : W), Issuing s id w →
    ∀ p ∈ [(Instr.svc x, 0x70), (.trap x, 0x60)],
      ∃ t r, exec p.1 s = .next t ∧ t.recs = s.recs ++ [r] ∧
        Tab.find t.waves id = some { w with
          tokens := ageTokens w.tokens, run := none, waited := false, pc := nextPc w.pc, cond := .stopped none, held := none, xcnt := 0,
          cause := BitVec.ofNat 32 p.2, latches := lostLatches, hold3 := w.leavesKernel } ∧
        (∀ k, k ≠ id → Tab.find t.waves k = Tab.find s.waves k) ∧ t = { s with waves := t.waves, recs := t.recs } ∧
        r.wave = some id ∧ r.cls = 1 ∧ r.tenant = w.tenant ∧
        fld r.body 7 0 = p.2 ∧ fld r.body 15 14 = 1 ∧ fld r.body 31 16 = x.bits 79 64 ∧
        fld r.body 120 64 = (nextPc w.pc).toNat ∧ fld r.body 184 128 = w.pc.toNat ∧ fld r.body 351 320 = w.waveW.toNat ∧
        fld r.body 383 352 = w.tenant.toNat ∧ fld r.body 415 384 = w.gridW.toNat

/-- 04 R114, 01 R19-R21: `MOVS` reads every special register, and a read of the low half of a count keeps its high half for the other selector. Its G
field is zero, so every active lane reads. -/
def Spec.special_register_reads : Prop :=
  ∀ (s : State) (id : Nat) (w : Wave) (x : W), Issuing s id w → x.g = .always →
    ∀ p ∈ ([(0x00, fun _ => w.exm), (0x01, fun _ => w.cause), (0x02, fun _ => w.fpc &&& 0x7F1F), (0x03, fun _ => w.kprog), (0x04, fun l => BitVec.ofNat 32 l),
            (0x05, fun _ => w.waveW), (0x06, fun _ => w.groupW), (0x07, fun _ => w.gangW), (0x08, fun _ => w.gridW), (0x09, fun _ => w.tenant),
            (0x0A, fun _ => (s.core w.core).phase), (0x0B, fun l => Tab.get 1 w.seed l), (0x0C, fun _ => BitVec.ofNat 32 (s.cycle w.core)),
            (0x0D, fun _ => w.cycHi), (0x0E, fun _ => BitVec.ofNat 32 (s.ref (dieOf w.core))), (0x0F, fun _ => w.refHi), (0x10, fun _ => w.share)] :
            List (Nat × (Nat → Word))),
      x.bits 71 64 = p.1 →
        ∃ t v, exec (.movsRead x) s = .next t ∧
          LaneDone s t id
            { w with cycHi := if p.1 = 0x0C then BitVec.ofNat 32 (s.cycle w.core / 2 ^ 32) else w.cycHi
                     refHi := if p.1 = 0x0E then BitVec.ofNat 32 (s.ref (dieOf w.core) / 2 ^ 32) else w.refHi }
            v (.movsRead x) x false (fun l => (p.2 l).setWidth 64) 0

/-- 04 R114, 01 R11, R23, R27, R28: a write of `$exm`, `$fpc` or `$share` takes A of the lowest active lane, one of `$seed` each active lane's, where zero
becomes 1; with no active lane nothing is written. -/
def Spec.special_register_writes : Prop :=
  ∀ (s : State) (id : Nat) (w : Wave) (x : W), Issuing s id w →
    let r := Spec.reading w (.movsWrite x) x
    let sel := x.bits 71 64
    (w.exm = 0 → ∃ t v, exec (.movsWrite x) s = .next t ∧ Passes s t id r v) ∧
    (∀ l, l < 32 → w.exm.getLsbD l = true → (∀ k, k < l → w.exm.getLsbD k = false) →
      let a := w.opnd32 x.a l
      (sel = 0x00 → ∃ t v, exec (.movsWrite x) s = .next t ∧ Passes s t id { r with exm := a &&& w.live } v) ∧
      (sel = 0x02 → ∃ t v, exec (.movsWrite x) s = .next t ∧ Passes s t id { w with fpc := a &&& 0x7F1F } v) ∧
      (sel = 0x10 → ∃ t v, exec (.movsWrite x) s = .next t ∧ Passes s t id { r with share := a } v) ∧
      (sel = 0x0B → ∃ t v sd, exec (.movsWrite x) s = .next t ∧ Passes s t id { r with seed := sd } v ∧
        ∀ k, k < 32 → Tab.get 1 sd k =
          if w.exm.getLsbD k then (if w.opnd32 x.a k = 0 then 1 else w.opnd32 x.a k) else Tab.get 1 w.seed k))

/-! ### Loads and stores -/

/-- Every check of every active lane passes (10 R186, 06 R141): the forms, the translation of each lane's bytes, and no atomic of the wave is on its way to
one of them; `accs` holds where the lanes go. -/
structure Spec.Accesses (s : State) (id : Nat) (w : Wave) (nd : Need) (act : Mask) (form : Nat → Form) (accs : List LaneAcc) : Prop where
  checks : ∀ l, l ∈ laneList act → formChk s w.group nd (form l) l = none
  found : (laneList act).map (fun l => locate s w.core (s.ctxOf w) w.group nd (form l) l) = accs.map Except.ok
  alone : s.atomsOn w.core id accs = []

/-- The state once the leaves that the lanes used are cached (19 R340). -/
def Spec.cached (s : State) (w : Wave) (accs : List LaneAcc) : State :=
  (distinct (accs.filterMap fun a => if a.place = .glob then some (a.va / 4096) else none)).foldl (fun s p => s.cacheLeaves w.core (s.ctxOf w) (p * 4096)) s

/-- The state in which a load samples: a volatile one after the writes of its core to those bytes, and the lines in the cache (10 R188, 19 R326). -/
def Spec.brought (s : State) (id : Nat) (w : Wave) (o : MemOrd) (accs : List LaneAcc) : State :=
  let u := Spec.cached s w accs
  let u := if o.vol then accs.foldl (fun u a => u.flushOverlap (w.reader id) a.place a.addr) u else u
  u.prepRead (dieOf w.core) (s.ctxOf w) o.cp (accs.flatMap fun a => if a.place = .glob then a.addr else [])

/-- A physical address that no valid format range presents or stores (19 R331). -/
def Spec.Plain (s : State) (a : Nat) : Prop :=
  ∀ k ∈ s.windows, (frrShape k.sfmt).isSome = true ∧ k.covers a = false ∧ (a < k.sbase ∨ k.sbase + k.storedSize ≤ a)

/-- No write of a core is on its way to a byte of a place. -/
def Spec.Settled (s : State) (core : Nat) (pl : Place) (a : Nat) : Prop :=
  ∀ p ∈ (s.core core).pend, p.place = pl → ∀ b ∈ p.bytes, b.1 ≠ a

/-- What a read of a byte may return (11 R213-R215): the value of a write that the reader's core lets it see and that none of the writes in its floor
follows; or what stood there before all of them, where its floor holds none. A live barrier object's byte and an unbacked one have one value. -/
def Spec.MayReturn (s : State) (r : Reader) (pl : Place) (a : Nat) (v : Byte) : Prop :=
  let pend := (s.core r.core).pend
  let sees := fun (q : PWrite) => q.visible (s.core r.core) r.party = true ∧ r.future q.party q.id = false
  let floor := fun (e : HEv) => r.future e.party e.id = false ∧ (e.ix < r.base ∨ r.knows e.party e.id = true)
  if s.atHome r.core pl a then v = s.homeByte r.core pl a
  else
    (∃ (i : Nat) (q : PWrite), pend[i]? = some q ∧ sees q ∧ q.byteAt pl a = some v ∧
      ∀ (j : Nat) (p : PWrite), pend[j]? = some p → i < j → sees p → r.knows p.party p.id = true → p.byteAt pl a = none) ∨
    ((∀ p ∈ pend, sees p → r.knows p.party p.id = true → p.byteAt pl a = none) ∧
      ((∃ (i : Nat) (e : HEv) (old : Byte), s.hist[i]? = some e ∧ r.future e.party e.id = false ∧ e.byteAt pl a = some (v, old) ∧
         ∀ (j : Nat) (f : HEv), s.hist[j]? = some f → i < j → floor f → f.byteAt pl a = none) ∨
       ((∀ f ∈ s.hist, floor f → f.byteAt pl a = none) ∧
         v = ((s.hist.findSome? fun (e : HEv) => e.byteAt pl a).map Prod.snd).getD (s.homeByte r.core pl a))))

/-- No write to a granule is on its way from a core, or was noted as arrived (11 R222). -/
def Spec.Quiet (s : State) (core : Nat) (pl : Place) (g : Nat) : Prop :=
  (∀ p ∈ (s.core core).pend, p.place = pl → ∀ b ∈ p.bytes, b.1 / 16 ≠ g) ∧ ∀ e ∈ s.hist, e.tagAt pl g = none

/-- Bytes that a read of a Landing core may return: zero where a byte is poisoned, else what the core may read (21 R363, 11 R214). -/
def Spec.LandingRead (s : State) (lc pa n : Nat) (bs : List Byte) : Prop :=
  bs.length = n ∧ ∀ (i : Nat) (b : Byte), bs[i]? = some b →
    if s.viewPoison (landingCore lc) (.landing lc) .glob (pa + i) then b = 0 else Spec.MayReturn s ((s.lcore lc).reader lc) .glob (pa + i) b

/-- Bytes of one aligned 8-byte piece stand side by side in a list of addresses. -/
def Spec.Grouped (as : List Nat) : Prop :=
  ∀ i j k a b c : Nat, i < j → j < k → as[i]? = some a → as[j]? = some b → as[k]? = some c → a / 8 = c / 8 → b / 8 = a / 8

/-- What a memory instruction leaves of its wave: the pc moves on and no register, tag or lane changes. -/
structure Spec.Issued (s t : State) (id : Nat) (w v : Wave) : Prop where
  found : Tab.find t.waves id = some v
  others : ∀ k, k ≠ id → Tab.find t.waves k = Tab.find s.waves k
  pc : v.pc = nextPc w.pc
  regs : v.regs = w.regs
  tags : v.tags = w.tags
  lanes : v.exm = w.exm ∧ v.live = w.live ∧ v.tokens = ageTokens w.tokens ∧ v.fpc = w.fpc
  flow : w.leavesKernel = false → v.cond = .running ∧ v.latches = w.latches

/-- 10 R182-R190, R193, R194, R206: a load whose checks pass takes what its lanes may read, a volatile one what stands at the home, a poisoned lane zero; D
awaits it, nothing is stored, and no byte of memory changes but by the caching of format ranges, and by the core's own earlier writes where the load is
volatile. -/
def Spec.loads_sample : Prop :=
  ∀ (s : State) (id : Nat) (w : Wave) (x : W) (space : Space), Issuing s id w → w.strict = false →
    ∀ e ∈ ([(.ld space x, ordM x, false, w.formM space x.a x.ofs), (.ldc space x, ordM x, true, w.formM space x.a x.ofs),
            (.ldg space x, ordG x, false, w.formG x)] : List (Instr × MemOrd × Bool × (Nat → Form))),
      let o := e.2.1
      let cap := e.2.2.1
      let n := if cap then 16 else tyBytes x.ty.toNat
      let keys := (List.range (if cap then 4 else if is64 0xA0 x.ty.toNat then 2 else 1)).map (w.key x.d.toNat + ·)
      ∀ accs, Spec.Accesses s id w { sp := space, n, perm := pRD, align := cap, kind := .read } (w.active x.g) e.2.2.2 accs → s.orderGates id w o accs = [] →
        let u := Spec.brought s id w o accs
        let bad := fun (a : LaneAcc) => a.addr.any fun b => u.viewPoison w.core (.wave id) a.place b
        ∃ t v r, exec e.1 s = .next t ∧ Spec.Issued s t id w v ∧ v.scoreboard = (w.await keys r.id).scoreboard ∧
          (w.leavesKernel = false → v.gates = if o.acq then [.load r.id, .acq o.scope] else []) ∧
          (t.core w.core).loads = (u.core w.core).loads ++ [r] ∧ r.wave = id ∧ r.dest = w.key x.d.toNat ∧ r.count = keys.length ∧ r.act = w.active x.g ∧
          r.isCap = cap ∧ r.ty = x.ty.toNat ∧ r.acc = accs ∧ r.base = w.base ∧ r.know = w.know ∧ r.data.map Prod.fst = accs.map LaneAcc.lane ∧
          (∀ a ∈ accs, bad a = true → (a.lane, 0, 0, false) ∈ r.data) ∧
          (∀ a ∈ accs, Spec.Grouped a.addr → bad a = false →
            let g := a.addr.headD 0 / 16
            ∃ bs : List Byte, bs.length = a.addr.length ∧
              (∀ (i : Nat) (b : Byte) (p : Nat), bs[i]? = some b → a.addr[i]? = some p → if o.vol then b = u.homeByte w.core a.place p else Spec.MayReturn u (w.reader id) a.place p b) ∧
              (cap = false → (a.lane, loadVal x.ty.toNat (leNat bs), 0, false) ∈ r.data) ∧
              (cap = true → ∃ tag, (a.lane, BitVec.ofNat 64 (leNat bs), BitVec.ofNat 64 (leNat bs / 2 ^ 64), tag) ∈ r.data ∧
                (o.vol = true ∨ Spec.Quiet u w.core a.place g → tag = u.homeTag w.core a.place g))) ∧
          (∀ a, Spec.Plain s a → (o.vol = true → Spec.Settled s w.core .glob a) → t.rdByte a = s.rdByte a)

/-- 10 R188, R204, 11 R218, R223: what an access waits for before it issues: a volatile one for the wave's releases and for the writes ahead of it that a
release holds back, an ordered one at `.wave` for the wave's own earlier accesses. It issues again once they are done. -/
def Spec.accesses_wait_for_order : Prop :=
  ∀ (s : State) (id : Nat) (w : Wave) (x : W) (space : Space) (accs : List LaneAcc), Issuing s id w → w.strict = false →
    let c := s.core w.core
    (∀ o : MemOrd, s.orderGates id w o accs = [] ↔
      (((o.acq || o.rel) = true ∧ o.scope = .wave) → s.fenceGates w.core id = []) ∧
      (o.vol = true → (∀ r ∈ c.releases, r.party = .wave id → r.scope = .wave) ∧ ∀ a ∈ accs, c.stuck (w.reader id) a.place a.addr = [])) ∧
    (∀ e ∈ ([(.ld space x, ordM x, pRD, AccKind.read, tyBytes x.ty.toNat), (.st space x, ordM x, pWR, AccKind.write, tyBytes x.ty.toNat)] :
        List (Instr × MemOrd × Nat × AccKind × Nat)),
      Spec.Accesses s id w { sp := space, n := e.2.2.2.2, perm := e.2.2.1, align := false, kind := e.2.2.2.1 } (w.active x.g) (w.formM space x.a x.ofs) accs →
      s.orderGates id w e.2.1 accs ≠ [] →
        ∃ t gs, exec e.1 s = .next t ∧ gs ≠ [] ∧ Tab.find t.waves id = some { w with gates := gs, held := some e.1 } ∧
          (t.core w.core).pend = c.pend ∧ (t.core w.core).loads = c.loads)

/-- 10 R190, R193, 01 R14, R17, 08 R157: a load's data reaches the destination registers that still await it, in the lanes of the load, with tags cleared, or a
capability's with its tag; they no longer await it. What it delivers is what it read at issue, or may read now. -/
def Spec.load_data_returns : Prop :=
  ∀ (s : State) (core k : Nat) (r : LoadRec) (w : Wave), (s.core core).loads[k]? = some r → Tab.find s.waves r.wave = some w →
    let data := (s.loadData core r).1
    let keys := (List.range r.count).map (r.dest + ·)
    let on := fun (l : Nat) => l < 32 ∧ (r.act &&& sliceMask w.live).getLsbD l = true
    let late : Reader := { core, party := .wave r.wave, base := r.base, know := r.know, until' := some r.id }
    ∃ t v, exec (.loadDataReturn core k) s = .next t ∧ Tab.find t.waves r.wave = some v ∧ (∀ j, j ≠ r.wave → Tab.find t.waves j = Tab.find s.waves j) ∧
      (data = r.data ∨ data = s.sampleLanes late false r.isCap r.ty r.acc) ∧ (r.vol = true ∨ r.fixed = true → data = r.data) ∧
      (t.core core).loads = (s.core core).loads.eraseIdx k ∧
      v.scoreboard = w.scoreboard.filter (fun e => !(keys.contains e.1 && w.owes e.1 r.id)) ∧
      v.gates = w.gates.filter (fun g => g != .load r.id) ∧ v.pc = w.pc ∧ v.exm = w.exm ∧ t.mem = s.mem ∧
      (∀ d ∈ data, on d.1 → (∀ e ∈ data, e.1 = d.1 → e = d) → r.dest % 256 + r.count ≤ 256 → (∀ j ∈ keys, w.owes j r.id = true) →
        (r.isCap = false → r.count = 1 ∨ r.count = 2 →
          Lanes.at' 0 (Tab.get zeroReg v.regs r.dest) d.1 = d.2.1.setWidth 32 ∧
          (r.count = 2 → Lanes.at' 0 (Tab.get zeroReg v.regs (r.dest + 1)) d.1 = (d.2.1 >>> 32).setWidth 32)) ∧
        (r.isCap = true → r.count = 4 → ∀ j, j < 4 →
          Lanes.at' 0 (Tab.get zeroReg v.regs (r.dest + j)) d.1 = ((d.2.2.1 ++ d.2.1 : BitVec 128) >>> (32 * j)).setWidth 32 ∧
          (Tab.get 0 v.tags (r.dest + j)).getLsbD d.1 = d.2.2.2)) ∧
      (∀ j, (r.isCap = true → r.count = 4) → (r.isCap = false → r.count = 1 ∨ r.count = 2) → r.dest % 256 + r.count ≤ 256 →
        (j ∉ keys ∨ w.owes j r.id = false) →
        Tab.get zeroReg v.regs j = Tab.get zeroReg w.regs j ∧ Tab.get 0 v.tags j = Tab.get 0 w.tags j)

/-- 10 R187, R191-R194, 11 R214, 12 R232: a store whose checks pass is seen by its wave at once, byte for byte at the addresses that the lanes compute; no
other byte changes for it. A plain store leaves memory itself alone: its arrival changes it; a volatile one performs at the home. -/
def Spec.stores : Prop :=
  ∀ (s : State) (id : Nat) (w : Wave) (x : W) (space : Space), Issuing s id w →
    ∀ e ∈ ([(.st space x, ordM x, false, w.formM space x.a x.ofs, storeBytes x.ty.toNat w x.b),
            (.stc space x, ordM x, true, w.formM space x.a x.ofs, fun l => leBytes 16 (w.quadOpnd x.b l).bits.toNat),
            (.sts space x, ordG x, false, w.formG x, storeBytes x.ty.toNat w x.c)] : List (Instr × MemOrd × Bool × (Nat → Form) × (Nat → List Byte))),
      let o := e.2.1
      let cap := e.2.2.1
      let p : Party := .wave id
      ∀ accs, Spec.Accesses s id w { sp := space, n := if cap then 16 else tyBytes x.ty.toNat, perm := pWR, align := cap, kind := .write }
          (w.active x.g) e.2.2.2.1 accs → s.orderGates id w o accs = [] →
        let u := Spec.cached s w accs
        let free := fun (pl : Place) (b : Nat) => u.atHome w.core pl b = false
        let only := fun (a : LaneAcc) (b : Nat) => ∀ c ∈ accs, c.place = a.place → b ∈ c.addr → c = a
        ∃ t v, exec e.1 s = .next t ∧ Spec.Issued s t id w v ∧
          (o.vol = false → t.mem = u.mem ∧ (∀ b, Spec.Plain s b → t.rdByte b = s.rdByte b) ∧
            (∀ a ∈ accs, ∀ j b, a.addr[j]? = some b → a.addr.Nodup → a.addr.length = (e.2.2.2.2 a.lane).length → only a b → free a.place b →
              t.viewByte w.core p a.place b = (e.2.2.2.2 a.lane).getD j 0) ∧
            (∀ pl b, (∀ a ∈ accs, a.place = pl → b ∉ a.addr) → (o.rel = true → Spec.Settled s w.core pl b) →
              t.viewByte w.core p pl b = u.viewByte w.core p pl b)) ∧
          (o.vol = true →
            (((s.core w.core).pend.map PWrite.id).Nodup →
              ∀ a ∈ accs, ∀ j b, a.place = .glob → a.addr[j]? = some b → a.addr.Nodup → a.addr.length = (e.2.2.2.2 a.lane).length → only a b → Spec.Plain s b →
              (∃ d, s.backing (partyDie w.core) b = .mem d) → (∀ q ∈ (s.core w.core).pend, q.place = .glob → q.party = p ∨ ∀ y ∈ q.bytes, y.1 ≠ b) →
              t.rdByte b = (e.2.2.2.2 a.lane).getD j 0) ∧
            (∀ b, Spec.Plain s b → (∀ a ∈ accs, a.place = .glob → b ∉ a.addr) → Spec.Settled s w.core .glob b → t.rdByte b = s.rdByte b))

/-- 10 R192: a capability stored is seen with its tag, and an ordinary store to a granule clears it. -/
def Spec.stored_tags : Prop :=
  ∀ (s : State) (id : Nat) (w : Wave) (x : W) (space : Space) (accs : List LaneAcc), Issuing s id w → (ordM x).vol = false →
    s.orderGates id w (ordM x) accs = [] →
    let free := fun (pl : Place) (k : Nat) => (Spec.cached s w accs).atHome w.core pl (16 * k) = false
    let only := fun (a : LaneAcc) (k : Nat) => ∀ c ∈ accs, c.place = a.place → (∃ b ∈ c.addr, b / 16 = k) → c = a
    let clear := fun (pl : Place) (k : Nat) => ∀ y, y / 16 = k → Spec.Settled s w.core pl y ∧
      ∀ g G, pl = .scr g → Tab.find s.groups g = some G → ∀ o ∈ s.liveObjects G.core g, y < o ∨ o + 16 ≤ y
    (Spec.Accesses s id w { sp := space, n := 16, perm := pWR, align := true, kind := .write } (w.active x.g) (w.formM space x.a x.ofs) accs →
      ∃ t, exec (.stc space x) s = .next t ∧ ∀ a ∈ accs, ∀ k, a.addr = (List.range 16).map (16 * k + ·) → only a k → free a.place k → clear a.place k →
        t.viewTag w.core (.wave id) a.place k = (w.quadOpnd x.b a.lane).tag) ∧
    (Spec.Accesses s id w { sp := space, n := tyBytes x.ty.toNat, perm := pWR, align := false, kind := .write } (w.active x.g) (w.formM space x.a x.ofs) accs →
      ∃ t, exec (.st space x) s = .next t ∧ ∀ a ∈ accs, ∀ b ∈ a.addr, free a.place (b / 16) → clear a.place (b / 16) →
        t.viewTag w.core (.wave id) a.place (b / 16) = false)

/-- 10 R195, 06 R147: `STV.M` and `LDV.M` move one register's line after another: with register j moved the instruction goes on as one whose XCNT is
j + 1, and it completes with the last. -/
def Spec.spill_and_fill : Prop :=
  ∀ (s : State) (id : Nat) (w : Wave) (x : W) (space : Space) (a : LaneAcc), Issuing s id w →
    let N := fld x.mod 4 0
    let j := w.xcnt
    let w' : Wave := { w with xcnt := j }
    let line := (1#32 <<< (lowest w.live).getD 0)
    j ≤ N →
    (Spec.Accesses s id w' { sp := space, n := 128, perm := pWR, align := false, kind := .write } line (fun _ => spillForm w space x j) [a] →
      let u := ((Spec.cached s w' [a]).setWave id w').performWrite w.core (.wave id) (s.ctxOf w) a.place (a.addr.zip (regBytes w (x.b.num + j))) [] [] x.cpM
      (j < N → exec (.stvM space x) s = exec (.stvM space x) (u.setWave id { w with xcnt := j + 1 })) ∧
      (j = N → ∃ t v, exec (.stvM space x) s = .next t ∧ Spec.Issued s t id w v ∧ t.mem = u.mem ∧ v.xcnt = 0 ∧ ∀ b, Spec.Plain s b → t.rdByte b = s.rdByte b)) ∧
    (w.strict = false →
      Spec.Accesses s id w' { sp := space, n := 128, perm := pRD, align := false, kind := .read } line (fun _ => spillForm w space x j) [a] →
      (j = N → ∃ t v r, exec (.ldvM space x) s = .next t ∧ Spec.Issued s t id w v ∧ v.xcnt = 0 ∧
        v.scoreboard = (w.await [w.key (x.d.toNat + j)] r.id).scoreboard ∧ (t.core w.core).loads = (s.core w.core).loads ++ [r] ∧ r.wave = id ∧
        r.dest = w.key (x.d.toNat + j) ∧ r.count = 1 ∧ r.act = w.live ∧ r.isCap = false ∧ (∀ b, Spec.Plain s b → t.rdByte b = s.rdByte b)) ∧
      (j < N → ∃ u v r, exec (.ldvM space x) s = exec (.ldvM space x) u ∧ u.cur = some id ∧ Tab.find u.waves id = some v ∧ v.xcnt = j + 1 ∧ v.regs = w.regs ∧
        v.scoreboard = (w.await [w.key (x.d.toNat + j)] r.id).scoreboard ∧ (u.core w.core).loads = (s.core w.core).loads ++ [r] ∧ r.dest = w.key (x.d.toNat + j)))

/-- 06 R141, 10 R186: a lane that fails a check stops the access before any effect, with the highest cause found, at its lowest lane. -/
def Spec.access_checks_stop : Prop :=
  ∀ (s : State) (id : Nat) (w : Wave) (x : W) (space : Space), Issuing s id w →
    let sz := tyBytes x.ty.toNat
    let fm := w.formM space x.a x.ofs
    ∀ e ∈ ([(.ld space x, { sp := space, n := sz, perm := pRD, align := false, kind := .read }, fm),
            (.ldc space x, { sp := space, n := 16, perm := pRD, align := true, kind := .read }, fm),
            (.ldg space x, { sp := space, n := sz, perm := pRD, align := false, kind := .read }, w.formG x),
            (.st space x, { sp := space, n := sz, perm := pWR, align := false, kind := .write }, fm),
            (.stc space x, { sp := space, n := 16, perm := pWR, align := true, kind := .write }, fm),
            (.sts space x, { sp := space, n := sz, perm := pWR, align := false, kind := .write }, w.formG x)] : List (Instr × Need × (Nat → Form))),
      ∀ l c, l < 32 → (w.active x.g).getLsbD l = true → (formChk s w.group e.2.1 (e.2.2 l) l).map Chk.code = some c →
        (∀ k d, k < 32 → (w.active x.g).getLsbD k = true → (formChk s w.group e.2.1 (e.2.2 k) k).map Chk.code = some d →
          causeRank c < causeRank d ∨ d = c ∧ l ≤ k) →
        ∃ t, exec e.1 s = .next t ∧ Faulted s t id w c (some l)

/-- 01 R16, 10 R184, R185: what a capability form checks: the whole access inside the covered range, then, for scratchpad, inside the window, then permission,
space and alignment; a raw pair above 57 bits lacks a tag. -/
def Spec.form_checks : Prop :=
  ∀ (s : State) (gid l : Nat) (nd : Need) (c : Cap) (a : Int) (g : Group), Tab.find s.groups gid = some g →
    let code := fun (f : Form) => (formChk s gid nd f l).map Chk.code
    let inC := (c.base : Int) ≤ a ∧ a + nd.n ≤ c.top
    let inW := fun (b : Int) => 0 ≤ b ∧ b + nd.n ≤ g.window
    let skew := nd.align = true ∧ a % nd.n ≠ 0
    code .untagged = some 0x10 ∧
    (¬ inC → code (.cap c a) = some 0x11) ∧
    (inC → c.scr = true → nd.sp = .sp → ¬ inW a → code (.cap c a) = some 0x11) ∧
    (inC → (c.scr = true → nd.sp = .sp → inW a) → (c.has nd.perm = false ∨ (c.scr = true ↔ nd.sp ≠ .sp) ∨ skew) → code (.cap c a) = some 0x12) ∧
    (inC → (c.scr = true ↔ nd.sp = .sp) → (c.scr = true → inW a) → c.has nd.perm = true → ¬ skew → code (.cap c a) = none) ∧
    (¬ inW a → code (.scr a) = some 0x11) ∧ (inW a → skew → code (.scr a) = some 0x12) ∧ (inW a → ¬ skew → code (.scr a) = none)

/-! ### Atomics, ordering and the events of memory -/

/-- A byte at its home: memory, or a group's scratchpad window. -/
def Spec.home (s : State) (pl : Place) (a : Nat) : Byte :=
  match pl with
  | .glob => s.rdByte a
  | .scr g => match Tab.find s.groups g with | some G => G.rd a | none => 0

/-- A byte of a scratchpad window that no live barrier object holds (12 R232). -/
def Spec.Unheld (s : State) (pl : Place) (a : Nat) : Prop :=
  ∀ g, pl = .scr g → ∃ G, Tab.find s.groups g = some G ∧ ∀ o ∈ s.liveObjects G.core g, a < o ∨ o + 16 ≤ a

/-- 10 R196-R200: an atomic or reduction whose checks pass sends one request for each distinct location, with its lanes in ascending order; D awaits the old
values, no register changes, and nothing is stored yet. -/
def Spec.atomics_send_requests : Prop :=
  ∀ (s : State) (id : Nat) (w : Wave) (x : W) (o : AtOp) (f : RedF) (ft : AtFt), Issuing s id w → w.strict = false →
    let ty := x.ty.toNat
    let wide := decide (ty = 3 ∨ ty = 4)
    ∀ e ∈ ([(.atom o x, .int o ty, true, fun l => w.opnd wide x.b l, fun _ => 0), (.red o x, .int o ty, false, fun l => w.opnd wide x.b l, fun _ => 0),
            (.atomCas x, .cas ty, true, fun l => w.opnd wide x.b l, fun l => w.opnd wide (.reg x.d false false) l),
            (.atomFloat f ft x, .flt f ft x.mod.toNat, true, fun l => w.fopnd ft.ty x.b l, fun _ => 0),
            (.redFloat f ft x, .flt f ft x.mod.toNat, false, fun l => w.fopnd ft.ty x.b l, fun _ => 0)] :
            List (Instr × AtKind × Bool × (Nat → DWord) × (Nat → DWord))),
      let k := e.2.1
      let dest := w.key x.d.toNat
      ∀ accs, Spec.Accesses s id w { sp := x.atSpace, n := k.size, perm := pAT, align := true, kind := .atomic } (w.active x.g)
          (fun l => w.formM x.atSpace x.a x.ofs l) accs → s.orderGates id w (ordM x) accs = [] →
        ∃ t v reqs, exec e.1 s = .next t ∧ Spec.Issued s t id w v ∧ t.mem = (Spec.cached s w accs).mem ∧ (∀ b, Spec.Plain s b → t.rdByte b = s.rdByte b) ∧ t.groups = s.groups ∧ (t.core w.core).pend = (s.core w.core).pend ∧
          (t.core w.core).atoms = (s.core w.core).atoms ++ reqs ∧
          (e.2.2.1 = true → ∀ q ∈ reqs, v.scoreboard = (w.await ((List.range (if k.size = 8 then 2 else 1)).map (dest + ·)) q.inst).scoreboard) ∧
          (e.2.2.1 = false ∨ accs = [] → v.scoreboard = w.scoreboard) ∧
          (∀ q ∈ reqs, q.wave = id ∧ q.kind = k ∧ q.size = k.size ∧ q.dest = (if e.2.2.1 then some dest else none) ∧ q.ctx = s.ctxOf w ∧ q.lanes ≠ []) ∧
          (∀ q ∈ reqs, ∃ ls : List LaneAcc, ls.Sublist accs ∧ q.lanes = ls.map (fun a => (a.lane, e.2.2.2.1 a.lane, e.2.2.2.2 a.lane)) ∧
            ∀ a ∈ accs, a ∈ ls ↔ q.place = a.place ∧ q.addr = a.addr.headD 0) ∧
          (∀ a ∈ accs, ∃ q ∈ reqs, q.place = a.place ∧ q.addr = a.addr.headD 0) ∧
          reqs.Pairwise (fun p q => p.place ≠ q.place ∨ p.addr ≠ q.addr)

/-- 10 R197-R199: one request of an integer atomic or of `cas` gives each lane what the lanes before it left, and leaves what the last one leaves. -/
def Spec.aggregation_is_sequential : Prop :=
  ∀ (ty : Nat) (old : DWord) (ls : List (Nat × DWord × DWord)), ty < 5 →
    (∀ o : AtOp, (AtKind.int o ty).serve old ls =
      ls.foldl (fun acc e => (acc.1 ++ [(e.1, acc.2)], (AtKind.int o ty).op acc.2 e.2.1)) (([] : List (Nat × DWord)), old)) ∧
    (AtKind.cas ty).serve old ls = ls.foldl (fun acc e => (acc.1 ++ [(e.1, acc.2)],
      if (AtKind.cas ty).keep acc.2 = (AtKind.cas ty).keep e.2.2 then (AtKind.cas ty).keep e.2.1 else acc.2)) (([] : List (Nat × DWord)), old) ∧
    (∀ m v : Word, (AtKind.int .add 0).op (m.setWidth 64) (v.setWidth 64) = (m + v).setWidth 64 ∧
      (AtKind.int .min 0).op (m.setWidth 64) (v.setWidth 64) = (if v.toInt < m.toInt then v else m).setWidth 64 ∧
      (AtKind.int .max 1).op (m.setWidth 64) (v.setWidth 64) = (if m.toNat < v.toNat then v else m).setWidth 64)

/-- 10 R196, R197: a request performs at the home, once the releases before it have completed: the location takes the new value, no other byte changes, and
its lanes receive the old values. -/
def Spec.atomic_requests_perform : Prop :=
  ∀ (s : State) (core k : Nat) (r : AtReq), (s.core core).atoms[k]? = some r →
    let as := (List.range r.size).map (r.addr + ·)
    let old := BitVec.ofNat 64 (leNat (as.map (Spec.home s r.place)))
    s.placeMoves r.place = false → (∀ n ∈ r.after, ∀ q ∈ (s.core core).releases, q.id ≠ n) → (∀ a ∈ as, Spec.Settled s core r.place a ∧ Spec.Unheld s r.place a) →
    (r.place = .glob → s.windows = [] ∧ ∀ a ∈ as, ∃ d, s.backing (partyDie core) a = .mem d) →
    (let u := if r.place = .glob then s.prepRead (dieOf core) r.ctx .normal as else s
     ∀ a ∈ as, u.viewPoison core (.wave r.wave) r.place a = false) →
      ∃ t, exec (.atomicRequestPerform core k) s = .next t ∧ (t.core core).atoms = (s.core core).atoms.eraseIdx k ∧
        (∀ i, i < r.size → Spec.home t r.place (r.addr + i) = (leBytes r.size (r.kind.serve old r.lanes).2.toNat).getD i 0) ∧
        (∀ pl a, pl ≠ r.place ∨ a ∉ as → Spec.home t pl a = Spec.home s pl a) ∧
        (∀ w d l o, Tab.find s.waves r.wave = some w → r.dest = some d → d % 256 ≠ 255 →
          w.owes d r.inst = true → (r.size = 8 → w.owes (d + 1) r.inst = true) → (r.kind.serve old r.lanes).1.find? (fun e => e.1 == l) = some (l, o) →
          l < 32 → (sliceMask w.live).getLsbD l = true →
          ∃ v, Tab.find t.waves r.wave = some v ∧ Lanes.at' 0 (Tab.get zeroReg v.regs d) l = o.setWidth 32 ∧
            (r.size = 8 → Lanes.at' 0 (Tab.get zeroReg v.regs (d + 1)) l = (o >>> 32).setWidth 32))

/-- 10 R201-R205, 11 R216, R218, R223: the ordering instructions. A release names what it publishes and the wave goes on; an acquire, a `PHX` and a `FENCE`
hold the wave at what they wait for. -/
def Spec.ordering_instructions : Prop :=
  ∀ (s : State) (id : Nat) (w : Wave) (x : W), Issuing s id w →
    let p : Party := .wave id
    let own := s.fenceGates w.core id
    let sc := x.scopeM
    let c := s.core w.core
    let rs := (s.releaseBy id w sc).1
    let rw := (s.releaseBy id w sc).2
    let need := c.publication p (w.know ++ rw.seen)
    let atOnce := need = [] ∧ ∀ r ∈ c.releases, r.party ≠ p
    (∀ g, g ∈ own ↔ (∃ r ∈ c.loads, r.wave = id ∧ g = .load r.id) ∨ (∃ r ∈ c.atoms, r.wave = id ∧ g = .atom r.inst) ∨
      ∃ q ∈ c.pend, q.party = p ∧ q.place ≠ .glob ∧ g = .write q.id) ∧
    (∀ n, n ∈ need ↔ (∃ q ∈ c.pend, q.id = n ∧ (q.party = p ∨ n ∈ w.know ∨ n ∈ rw.seen)) ∨ ∃ q ∈ c.atoms, q.id = n ∧ q.wave = id) ∧
    (∀ n, n ∈ rw.seen ↔ n ∈ w.seen ∨ ∃ r ∈ c.loads, r.wave = id ∧ r.fixed = false ∧ n ∈ r.ids) ∧ rw = { w with seen := rw.seen } ∧
    (∃ y, rs.rels = s.rels ++ [y] ∧ y.id = s.nextId ∧ y.core = w.core ∧ y.party = p ∧ y.scope = sc ∧ y.pub.base = w.base ∧
      y.pub.ids = w.know ++ rw.seen ∧ y.pub.owns = [(p, s.nextId)]) ∧
    rs.waves = s.waves ∧ rs.mem = s.mem ∧ rs.groups = s.groups ∧ (rs.core w.core).pend = c.pend ∧
    (rs.core w.core).loads.map (fun r => { r with fixed := false }) = c.loads.map (fun r => { r with fixed := false }) ∧
    (∀ r ∈ (rs.core w.core).loads, r.wave = id → r.fixed = true) ∧
    (atOnce → (rs.core w.core).releases = c.releases) ∧
    (¬ atOnce → ∃ y, (rs.core w.core).releases = c.releases ++ [y] ∧ y.id = s.nextId ∧ y.party = p ∧ y.scope = sc ∧ ∀ n, n ∈ y.need ↔ n ∈ need) ∧
    (sc ≠ .wave → ∃ t v, exec (.rel x) s = .next t ∧ Passes rs t id rw v) ∧
    (sc = .wave → ∃ t v, exec (.rel x) s = .next t ∧ Passes s t id { w with gates := own } v) ∧
    (∃ t v, exec (.acq x) s = .next t ∧ Passes s t id { w with gates := (if sc = .wave then own else []) ++ [.acq sc] } v) ∧
    (sc = .wave → ∃ t v, exec (.phx x) s = .next t ∧ Passes s t id { w with gates := own ++ [.acq .wave] } v) ∧
    (sc ≠ .wave → ∃ t v, exec (.phx x) s = .next t ∧
      Passes rs t id { rw with gates := (if (rs.core w.core).releases.any (fun r => r.id == s.nextId) then [.rel s.nextId] else []) ++ [.acq sc] } v) ∧
    (∃ t v, exec (.fence x) s = .next t ∧ Passes s t id { w with gates := own } v) ∧
    (∀ u : Wave, u.gates ≠ [] → s.ready u = false)

/-- Whether a floor holds a write: by its place in the home order, or by name. -/
def Spec.InFloor (base : Nat) (know : List Nat) (e : EvRef) : Prop := (∃ n, e.ix = some n ∧ n < base) ∨ e.id ∈ know

/-- 11 R213, R216-R220, 10 R202: an acquire by a wave. Its floor loses nothing; of the writes whose homes the scope covers, or that a party of its core made,
it takes in those that the wave's reads returned and those that a synchronising release published; a refresh takes in every write that has arrived at a
home it covers, except what a release published that the wave has observed outside the scopes. At cluster scope and wider `$phase` advances. -/
def Spec.acquires_raise_the_floor : Prop :=
  ∀ (s : State) (id : Nat) (w : Wave) (sc : Scope) (rest : List Gate), Tab.find s.waves id = some w → w.gates = .acq sc :: rest →
    let u := (s.settleReads id w).1
    let seen := (s.settleReads id w).2.seen
    let told := s.rels.filter fun x => w.heard.contains x.id
    let observed := fun (x : RelRec) => x ∈ s.rels ∧ x.observed (u.events w.core) seen told = true
    let near := fun (e : EvRef) => u.covers w.core sc e.place e.addr = true ∨ e.core = w.core
    ∃ t v, exec (.acquireRefresh id) s = .next t ∧ Tab.find t.waves id = some v ∧ v = { w with gates := rest, seen, base := v.base, know := v.know } ∧
      (∀ k, k ≠ id → Tab.find t.waves k = Tab.find s.waves k) ∧ t.mem = s.mem ∧ t.hist = s.hist ∧
      (∀ e ∈ u.events w.core, Spec.InFloor w.base w.know e → Spec.InFloor v.base v.know e) ∧
      (sc = .wave → v.base = w.base ∧ v.know = w.know) ∧
      (sc ≠ .wave → ∀ e ∈ u.events w.core, near e →
        (e.id ∈ seen ∨ ∃ x, observed x ∧ x.mutual sc (.wave id) w.core = true ∧ x.pub.holds e = true) → Spec.InFloor v.base v.know e) ∧
      (scopeRefreshes sc = true → ∀ e ∈ u.events w.core, e.ix.isSome = true → u.covers w.core sc e.place e.addr = true →
        (∀ x, observed x → x.mutual sc (.wave id) w.core = false → x.pub.holds e = false) → Spec.InFloor v.base v.know e) ∧
      (t.core w.core).phase = (if sc = .wave ∨ sc = .core then (s.core w.core).phase else (s.core w.core).phase + 1)

/-- 11 R211, R217, 00 R7: the homes that a scope covers, and who lies within it. -/
def Spec.scopes_nest : Prop :=
  ∀ (s : State) (core other g a : Nat) (p q : Party) (x : Group), core < 256 → other < 256 → p ≠ .peer → q ≠ .peer → Tab.find s.groups g = some x →
    (∀ pl, s.covers core .wave pl a = false) ∧ (s.covers core .core (.scr g) a = true ↔ x.core = core) ∧ s.covers core .core .glob a = false ∧
    (∀ sc, sc = .clus ∨ sc = .die ∨ sc = .pkg ∨ sc = .sys → (s.covers core sc (.scr g) a = true ↔ x.core / 8 = core / 8)) ∧
    (∀ sc, sc = .clus ∨ sc = .die → (s.covers core sc .glob a = true ↔ s.homeDie a = core / 64)) ∧
    (∀ sc, sc = .pkg ∨ sc = .sys → s.covers core sc .glob a = true) ∧
    (within .wave p core q other = true ↔ p = q) ∧ (within .core p core q other = true ↔ core = other) ∧
    (within .clus p core q other = true ↔ core / 8 = other / 8) ∧ (within .die p core q other = true ↔ core / 64 = other / 64) ∧
    within .pkg p core q other = true ∧ within .pkg p core .peer other = false ∧ (∀ y z, within .sys y core z other = true)

/-- 11 R212, R216, 10 R201: a write reaches its home when nothing earlier to its bytes is left behind, and takes its place in the home order; a release ends
when all that it publishes is home. -/
def Spec.arrivals_and_releases : Prop :=
  ∀ (s : State) (core k : Nat),
    (∀ w : PWrite, (s.core core).pend[k]? = some w → (s.core core).mayArrive k = true → s.placeMoves w.place = false → (w.bytes.map Prod.fst).Nodup →
      ∃ t, exec (.writeArrival core k) s = .next t ∧ (t.core core).pend = (s.core core).pend.eraseIdx k ∧
        (∀ b ∈ w.bytes, Spec.Unheld s w.place b.1 → (w.place = .glob → Spec.Plain s b.1 ∧ ∃ d, s.backing (partyDie core) b.1 = .mem d) →
          Spec.home t w.place b.1 = b.2 ∧
          ∃ e ∈ t.hist, e.id = w.id ∧ e.ix = s.homeIx ∧ e.party = w.party ∧ (w.place ≠ .glob ∨ s.windows = [] → e.byteAt w.place b.1 = some (b.2, Spec.home s w.place b.1))) ∧
        (∀ pl a, pl ≠ w.place ∨ (∀ b ∈ w.bytes, b.1 ≠ a) → (pl = .glob → Spec.Plain s a) → Spec.home t pl a = Spec.home s pl a)) ∧
    ((s.core core).mayArrive k = false → exec (.writeArrival core k) s = .fault .notEnabled) ∧
    (∀ r : Release, (s.core core).releases[k]? = some r → r.need = [] → (∀ q ∈ (s.core core).releases.take k, q.party ≠ r.party) →
      ∃ t, exec (.releaseComplete core k) s = .next t ∧ (t.core core).releases = (s.core core).releases.filter (fun q => q.id != r.id) ∧ t.mem = s.mem ∧
        ∀ j, Tab.find t.waves j = (Tab.find s.waves j).map fun w => { w with gates := w.gates.filter fun g => g != .rel r.id })

/-! ### Barriers -/

/-- A live barrier of the wave's group: its handle names entry `k`, whose object is `o`. -/
def Spec.Barrier (s : State) (w : Wave) (h : Word) (k : Nat) (count : Bool) (o : Obj) : Prop :=
  s.entryOf w.core w.group h = some k ∧ (s.entry w.core k).count = count ∧ s.obj w.core k = o ∧ (Tab.find s.groups w.group).isSome = true

/-- 12 R236: `BALLOC` takes the lowest free entry for an object that no live entry holds: the handle goes to D, the object starts at its fields; without an
entry, or with the bank set at its limit, D is 0; an object that is not in the window stops with 0x11, one not aligned with 0x12, an EXPECT out of range
with 0x32, in this order. -/
def Spec.barrier_allocation : Prop :=
  ∀ (s : State) (id : Nat) (w : Wave) (x : W) (l : Nat) (g : Group), Issuing s id w → l < 32 → w.exm.getLsbD l = true →
    (∀ j, j < l → w.exm.getLsbD j = false) → Tab.find s.groups w.group = some g →
    let off := (w.opnd32 x.a l).toNat
    let p := (w.opnd32 x.b l).toNat
    let limit := min 256 (s.regF (.barlim w.core g.bset) 8 0)
    ∀ e ∈ [(Instr.ballocPhase x, false, Obj.phase p 0 0 0 false), (.ballocCount x, true, Obj.count p false)],
      let fits := off % 16 = 0 ∧ off + 16 ≤ g.window ∧ (e.2.1 = false → 0 < p ∧ p < 65536)
      let fresh := ∀ b ∈ (s.core w.core).barriers, ¬ (b.2.live = true ∧ b.2.group = w.group ∧ b.2.off = off)
      let writes := fun (t : State) (v : Wave) (h : Word) => Tab.find t.waves id = some v ∧ v.pc = nextPc w.pc ∧
        (∀ j, j < 32 → w.exm.getLsbD j = true → v.regLane x.d.toNat j = h) ∧
        (∀ j, j ≠ w.key x.d.toNat → Tab.get zeroReg v.regs j = Tab.get zeroReg w.regs j) ∧ t.mem = s.mem
      (∀ k, fits → fresh → k < 256 → (s.entry w.core k).live = false → (∀ j, j < k → (s.entry w.core j).live = true) → s.barUsed w.core g.bset < limit →
        ∃ t v, exec e.1 s = .next t ∧ writes t v (handleOf k (s.entry w.core k).gen) ∧
          t.entry w.core k = { live := true, group := w.group, count := e.2.1, gen := (s.entry w.core k).gen, off } ∧ t.obj w.core k = e.2.2 ∧
          ∀ j, j ≠ k → t.entry w.core j = s.entry w.core j) ∧
      (fits → fresh → (∀ j, j < 256 → (s.entry w.core j).live = true) ∨ limit ≤ s.barUsed w.core g.bset → ∃ t v, exec e.1 s = .next t ∧ writes t v 0) ∧
      (g.window < off + 16 → ∃ t, exec e.1 s = .next t ∧ Faulted s t id w 0x11 (some l)) ∧
      (off + 16 ≤ g.window → off % 16 ≠ 0 → ∃ t, exec e.1 s = .next t ∧ Faulted s t id w 0x12 (some l)) ∧
      (off % 16 = 0 → off + 16 ≤ g.window → e.2.1 = false → p = 0 ∨ 65535 < p → ∃ t, exec e.1 s = .next t ∧ Faulted s t id w 0x32 none)

/-- 12 R233, R237-R240, 11 R225: arriving, expecting and signalling update the object of the handle, whose phase ends when its arrivals are complete and nothing is
pending; an arrival and a signal count as releases at `.core`; freeing lets the entry go; a stale handle raises 0x30, a barrier of the other kind or a value out of range 0x32. -/
def Spec.barrier_updates : Prop :=
  ∀ (s : State) (id : Nat) (w : Wave) (x : W) (l : Nat), Issuing s id w → l < 32 → w.exm.getLsbD l = true → (∀ j, j < l → w.exm.getLsbD j = false) →
    let h := w.opnd32 x.a l
    let after := fun (t : State) (v : Wave) (i : Instr) (k : Nat) (o : Obj) => exec i s = .next t ∧ Spec.Issued s t id (Spec.reading w i x) v ∧
      t.obj w.core k = o ∧ t.mem = s.mem
    let told := fun (t : State) (k : Nat) => t.entry w.core k = { s.entry w.core k with rels := (s.entry w.core k).rels ++ [s.nextId] } ∧
      ∃ y ∈ t.rels, y.id = s.nextId ∧ y.party = .wave id ∧ y.core = w.core ∧ y.scope = .core
    let phase := fun (e a : Nat) (q : Int) (n : Nat) (f : Bool) => if a = e ∧ q = 0 then Obj.phase e 0 0 ((n + 1) % 2 ^ 32) f else Obj.phase e a q n f
    (∀ k e a q n f, Spec.Barrier s w h k false (.phase e a q n f) →
      (a + x.bits 79 64 ≤ e → s.signalGates w.core id = [] → ∃ t v, after t v (.barrive x) k (phase e (a + x.bits 79 64) q n f) ∧ told t k) ∧
      (e < a + x.bits 79 64 → ∃ t, exec (.barrive x) s = .next t ∧ Faulted s t id w 0x32 none) ∧
      (let b : Int := (w.opnd true x.b l).toNat
       (b < 2 ^ 55 → -2 ^ 55 ≤ q + b → q + b < 2 ^ 55 → ∃ t v, after t v (.bexpect x) k (phase e a (q + b) n f) ∧ t.entry w.core k = s.entry w.core k) ∧
       (2 ^ 55 ≤ b ∨ 2 ^ 55 ≤ q + b → ∃ t, exec (.bexpect x) s = .next t ∧ Faulted s t id w 0x32 none))) ∧
    (∀ k c f, Spec.Barrier s w h k true (.count c f) →
      ∀ e ∈ [(Instr.bsigImm x, x.bits 79 64), (.bsigReg x, (w.opnd true x.b l).toNat)],
        (c + e.2 < 2 ^ 64 → s.signalGates w.core id = [] → ∃ t v, after t v e.1 k (.count (c + e.2) f) ∧ told t k) ∧
        (2 ^ 64 ≤ c + e.2 → ∃ t, exec e.1 s = .next t ∧ Faulted s t id w 0x32 none)) ∧
    (∀ k, s.entryOf w.core w.group h = some k →
      (s.named w.core w.group h = false → ∃ t v, exec (.bfree x) s = .next t ∧ Tab.find t.waves id = some v ∧ v.pc = nextPc w.pc ∧ v.regs = w.regs ∧
        t.entry w.core k = { s.entry w.core k with live := false, gen := if (s.entry w.core k).gen = 255 then 1 else (s.entry w.core k).gen + 1 } ∧
        t.entryOf w.core w.group h = none ∧ t.mem = s.mem) ∧
      (s.named w.core w.group h = true → ∃ t, exec (.bfree x) s = .next t ∧ Faulted s t id w 0x32 none)) ∧
    (s.entryOf w.core w.group h = none → ∀ i ∈ [Instr.bfree x, .barrive x, .bexpect x, .bsigImm x, .bsigReg x, .waitbPh x, .waitbCt x],
      ∃ t, exec i s = .next t ∧ Faulted s t id w 0x30 none)

/-- 12 R241, R225: a wait passes once the phase is past its argument, or the count has reached it, and then acquires at `.core`; until then the wave waits
at the instruction, and wakes when the barrier satisfies it. What the signals that the barrier counted have published is then in the wave's floor. -/
def Spec.barrier_waits : Prop :=
  ∀ (s : State) (id : Nat) (w : Wave) (x : W), Tab.find s.waves id = some w →
    let past := fun (n : Nat) (b : DWord) => 1 ≤ ((BitVec.ofNat 32 n : Word) - b.setWidth 32).toNat ∧ ((BitVec.ofNat 32 n : Word) - b.setWidth 32).toNat ≤ 2 ^ 31
    let passed := fun (t : State) (v : Wave) => Tab.find t.waves id = some v ∧ v.pc = nextPc w.pc ∧ v.regs = w.regs ∧ t.mem = s.mem ∧
      (w.leavesKernel = false → v.cond = .running) ∧ (t.core w.core).phase = (s.core w.core).phase
    let acquired := fun (k : Nat) (v : Wave) => (∀ n ∈ (s.entry w.core k).rels, n ∈ v.heard) ∧
      ∀ y ∈ s.rels, y.id ∈ (s.entry w.core k).rels → y.mutual .core (.wave id) w.core = true → ∀ d ∈ s.events w.core,
        (s.covers w.core .core d.place d.addr = true ∨ d.core = w.core) → y.pub.holds d = true → Spec.InFloor v.base v.know d
    (∀ l, s.cur = some id → l < 32 → w.exm.getLsbD l = true → (∀ j, j < l → w.exm.getLsbD j = false) →
      let h := w.opnd32 x.a l
      (∀ k e a q n f b, Spec.Barrier s w h k false (.phase e a q n f) → n < 2 ^ 32 → b = w.opnd false x.b l →
        (past n b → ∃ t v, exec (.waitbPh x) s = .next t ∧ passed t v ∧ acquired k v) ∧
        (¬ past n b → f = true → ∃ t, exec (.waitbPh x) s = .next t ∧ Faulted s t id w 0x32 none) ∧
        (¬ past n b → f = false → ∃ t, exec (.waitbPh x) s = .next t ∧ Tab.find t.waves id =
          some { Spec.reading w (.waitbPh x) x with cond := .waiting (.waitb false h b), held := some (.waitbPh x), run := none, waited := true, latches := lostLatches })) ∧
      (∀ k c f b, Spec.Barrier s w h k true (.count c f) → b = w.opnd true x.b l →
        (b.toNat ≤ c → ∃ t v, exec (.waitbCt x) s = .next t ∧ passed t v ∧ acquired k v) ∧
        (c < b.toNat → f = true → ∃ t, exec (.waitbCt x) s = .next t ∧ Faulted s t id w 0x32 none) ∧
        (c < b.toNat → f = false → ∃ t, exec (.waitbCt x) s = .next t ∧ Tab.find t.waves id =
          some { Spec.reading w (.waitbCt x) x with cond := .waiting (.waitb false h b), held := some (.waitbCt x), run := none, waited := true, latches := lostLatches }))) ∧
    (∀ freed h b i, w.cond = .waiting (.waitb freed h b) → w.held = some i → w.evicted = none →
      (freed = false → ∀ k e a q n f, i = .waitbPh x → Spec.Barrier s w h k false (.phase e a q n f) → n < 2 ^ 32 → past n b →
        ∃ t v, exec (.waitbWake id) s = .next t ∧ passed t v ∧ acquired k v) ∧
      (freed = false → ∀ k c f, i = .waitbCt x → Spec.Barrier s w h k true (.count c f) → b.toNat ≤ c → ∃ t v, exec (.waitbWake id) s = .next t ∧ passed t v ∧ acquired k v) ∧
      (freed = true → ∃ t, exec (.waitbWake id) s = .next t ∧ Faulted s t id w 0x30 none))

/-! ### Copies -/

/-- The wave's lowest active lane, which gives a command its operands (12 R235, R245). -/
def Spec.Lowest (w : Wave) (l : Nat) : Prop := l < 32 ∧ w.exm.getLsbD l = true ∧ ∀ j, j < l → w.exm.getLsbD j = false

/-- 12 R244, R245, R247, R250: a `CPY` whose checks pass captures its quads and descriptor and enters flight, blocked where its ring slot is not free; with
FO its follow-on's record is queued behind it and the wave goes on past both; at 128 in flight it waits. -/
def Spec.copy_commands_issue : Prop :=
  ∀ (s : State) (id : Nat) (w : Wave) (x : W) (l : Nat) (g : Group), Issuing s id w → Spec.Lowest w l → Tab.find s.groups w.group = some g →
    let copies := (s.core w.core).copies
    let u := (s.settleReads id w).1
    let w' := (s.settleReads id w).2
    ∀ e ∈ [(Instr.cpyLin x, CopyKind.lin, false), (.cpyTile x, .tile, true)],
      let c : Copy := { id := s.nextId, kind := e.2.1, by_ := u.issuer id w', word := x, tcap := w.quadQ x.q1 l, scap := w.quadQ x.q2 l
                        desc := w.descQ x.a l, seq := if x.tail.getLsbD 12 then (w.opnd true x.b l).toNat else 0 }
      let c' : Copy := if x.tail.getLsbD 12 = true ∧ s.slotFree w.core c = false then { c with state := .blocked } else c
      (copyChks e.2.2 x s w l = [] → x.mod.getLsbD 5 = false → s.signalGates w.core id = [] → copies.length < 128 →
        ∃ t v, exec e.1 s = .next t ∧ Passes ((u.updCore w.core fun k => { k with copies := k.copies ++ [c'] }).fresh) t id w' v) ∧
      (copyChks e.2.2 x s w l = [] → x.mod.getLsbD 5 = false → 128 ≤ copies.length → exec e.1 s = .next (s.setWave id
        { w with cond := .waiting .copySlot, held := some e.1, run := none, waited := true, latches := lostLatches })) ∧
      (∀ i y last, copyChks e.2.2 x s w l = [] → x.mod.getLsbD 5 = true → s.foSlot w = .mma i y last → foChks y i s w l = [] →
        s.signalGates w.core id = [] → copies.length < 128 → g.queue.length < 64 →
        ∃ t v r g', exec e.1 s = .next t ∧ Tab.find t.waves id = some v ∧ v.pc = nextPc (nextPc w.pc) ∧ v.regs = w.regs ∧
          (t.core w.core).copies = copies ++ [{ c' with fo := some r.id }] ∧ Tab.find t.groups w.group = some g' ∧ g'.queue = g.queue ++ [r] ∧
          r.foOf = some c.id ∧ r.inst = i ∧ r.desc = w.descQ y.a l ∧ t.mem = s.mem)

/-- 12 R244, R248, R249, R256: a chunk of a running copy lands: its target bytes read as what the engine may read of its source; the last one signals its barrier and the copy is
gone; ring copies start when their slot is free and signal in order. -/
def Obligations.copies_land : Prop :=
  ∀ (s : State) (core id : Nat) (c : Copy) (g : Group), s.findCopy core id = some c → (c.kind = .lin ∨ c.kind = .tile) →
    Tab.find s.groups c.by_.group = some g → g.core = core → (c.word.acqX = false ∨ c.acqDone = true) →
    let ring := c.word.tail.getLsbD 12
    let gone := fun (t : State) => ∀ d ∈ (t.core core).copies, d.id ≠ id
    let h := copyH c.desc
    let bar := fun (k : Nat) (count : Bool) (o : Obj) => s.entryOf core c.by_.group h = some k ∧ (s.entry core k).count = count ∧ s.obj core k = o
    let p : Party := .copy core
    let clear := s.engineClear core p = true
    (∀ i off n sp sa tp ta, c.state = .running → c.chunk c.prog = some (i, off, n) → s.windows = [] →
      (s.countsBytes core c = true → (s.core core).openReleases p = []) →
      let s1 := (s.cacheRows core c.by_.ctx c.scap ⟨c.srcOff i + off, 1, 0, n⟩).cacheRows core c.by_.ctx c.tcap ⟨c.rowAt i - c.tcap.base + off, 1, 0, n⟩
      s1.capBytes core c.by_ c.scap (c.srcOff i + off) n .read = .ok (sp, sa) →
      s1.capBytes core c.by_ c.tcap (c.rowAt i - c.tcap.base + off) n .write = .ok (tp, ta) →
      let u := if sp = .glob then s1.prepRead (dieOf core) c.by_.ctx (.ofCode (c.word.bits 87 86)) sa else s1
      (∀ a ∈ sa, u.viewPoison core p sp a = false) → ta.Nodup → (∀ a ∈ ta, s.atHome core tp a = false) →
      Spec.Grouped sa → ta.length = sa.length →
        ∃ t, exec (.copyChunkLand core id) s = .next t ∧ (t.findCopy core id).map Copy.prog = some (c.prog + 1) ∧ t.mem = s.mem ∧ t.waves = s.waves ∧
          ∀ (k a b : Nat), ta[k]? = some a → sa[k]? = some b → Spec.MayReturn s (c.by_.reader core p) sp b (t.viewByte core p tp a)) ∧
    (c.state = .running → c.chunks ≤ c.prog → clear → (c.word.relX = false ∨ s.published core p c.by_ = true) →
      (∀ k v f, ring = false → bar k true (.count v f) → v + 1 < 2 ^ 64 →
        ∃ t, exec (.copySignal core id) s = .next t ∧ t.obj core k = .count (v + 1) f ∧ gone t ∧ t.mem = s.mem) ∧
      (∀ k e a q n f, ring = false → bar k false (.phase e a q n f) → -2 ^ 55 ≤ q - c.lastBytes →
        ∃ t, exec (.copySignal core id) s = .next t ∧ t.obj core k = (Obj.phase e a (q - c.lastBytes) n f).settle ∧ gone t ∧ t.mem = s.mem) ∧
      (∀ k v f, ring = true → bar k true (.count v f) → v + 1 < 2 ^ 64 →
        (v = c.seq → ∃ t, exec (.copySignal core id) s = .next t ∧ t.obj core k = .count (v + 1) f ∧ gone t) ∧
        (v < c.seq → ∃ t, exec (.copySignal core id) s = .next t ∧ (t.findCopy core id).map Copy.state = some .holding ∧ t.obj core k = .count v f))) ∧
    (c.state = .blocked → s.slotFree core c = true → ∃ t, exec (.ringCopyResume core id) s = .next t ∧ (t.findCopy core id).map Copy.state = some .running) ∧
    (c.state = .blocked → s.slotFree core c = false → exec (.ringCopyResume core id) s = .fault .notEnabled) ∧
    (∀ k v f, ring = true → c.state = .holding → clear → bar k true (.count v f) → v = c.seq → v + 1 < 2 ^ 64 →
      ∃ t, exec (.ringSignalRelease core id) s = .next t ∧ t.obj core k = .count (v + 1) f ∧ gone t)

/-- 12 R247, 13 R260, 25 R428: a wave that waits for room in its engine's queue issues its command again when there is room. -/
def Spec.engine_waits_end : Prop :=
  ∀ (s : State) (id : Nat) (w : Wave), Tab.find s.waves id = some w → w.evicted = none →
    let again := s.setWave id { w with cond := .running }
    (w.cond = .waiting .copySlot → exec (.copySlotWaitEnd id) s =
      if (s.core w.core).copies.length < 128 then .next again else .fault .notEnabled) ∧
    (w.cond = .waiting .matrixQueue → exec (.matrixQueueWaitEnd id) s = if s.queued w.group < 64 then .next again else .fault .notEnabled)

/-! ### The matrix engine -/

/-- 13 R260, R262, R265, R267, R272, R275-R277, R279-R282: a matrix command whose checks pass queues its record, with what it captured, and the wave goes on;
with 64 records queued it waits. `WBLD` marks its slot, `MBATCH` and `BATON.PASS` close the open batch, and a pass moves the baton on. -/
def Spec.matrix_commands_issue : Prop :=
  ∀ (s : State) (id : Nat) (w : Wave) (x : W) (l : Nat) (g : Group), Issuing s id w → Spec.Lowest w l → Tab.find s.groups w.group = some g →
    s.signalGates w.core id = [] →
    let h := w.opnd32 x.a l
    let base := fun (t : State) (v : Wave) (i : Instr) => exec i s = .next t ∧ Spec.Issued s t id (Spec.reading w i x) v ∧ t.mem = s.mem
    (∀ e ∈ ([(.mma x, mmaChks x s w l), (.mmaZ x, mmaChks x s w l), (.wbld x, wbldChks x s w l), (.accz x, acczChks x s w l),
             (.accld x, accldChks x s w l), (.accst x, accstChks x s w l)] : List (Instr × List Chk)),
      (e.2 = [] → g.queue.length < 64 → ∃ t v r g', exec e.1 s = .next t ∧ Spec.Issued s t id w v ∧ t.mem = s.mem ∧ Tab.find t.groups w.group = some g' ∧
        g'.queue = g.queue ++ [r] ∧ g'.acc = g.acc ∧ g'.scr = g.scr ∧ g'.wbuf = g.wbuf ∧ r.inst = e.1 ∧ r.cap1 = w.quadQ x.q1 l ∧ r.cap2 = w.quadQ x.q2 l ∧
        r.desc = w.descQ x.a l ∧ r.batch = g.openBatch ∧ r.started = false ∧ r.prog = 0 ∧ r.foOf = none ∧
        ((∃ y, e.1 = .wbld y) → (Tab.find g'.slots (x.bits 79 76)).map WSlot.fmt = some (w.quadQ x.q1 l).fmt)) ∧
      (e.2 = [] → 64 ≤ g.queue.length → exec e.1 s = .next (s.setWave id
        { w with cond := .waiting .matrixQueue, held := some e.1, run := none, waited := true, latches := lostLatches })) ∧
      (∀ c, pickChk e.2 = some c → ∃ t, exec e.1 s = .next t ∧ Faulted s t id w c.code c.lane)) ∧
    (s.countChk w h = [] → s.accb w ≠ 0 → g.queue.length < 64 → ∃ t v r g', base t v (.mbatch x) ∧ Tab.find t.groups w.group = some g' ∧
      g'.queue = g.queue ++ [r] ∧ r.inst = .mbatch x ∧ r.desc = [h] ∧ r.batch = g.openBatch ∧ g'.openBatch = g.openBatch + 1) ∧
    (s.accb w ≠ 0 → h = 0 ∨ s.countChk w h = [] → ∃ t v g', base t v (.batonSet x) ∧ Tab.find t.groups w.group = some g' ∧
      g'.baton = (if h = 0 then none else some (h, x.bits 69 64)) ∧ g'.queue = g.queue) ∧
    (∀ e ∈ [(Instr.batonPass x, false), (.batonPassSignal x, true)], ∀ b n k v f, g.baton = some (b, n) → s.batonChk w = [] →
      (e.2 = true → s.countChk w h = []) → s.accb w ≠ 0 → g.queue.length < 64 → s.entryOf w.core w.group b = some k → s.obj w.core k = .count v f →
      v + 1 < 2 ^ 64 → (s.entry w.core k).count = true →
        ∃ t u r g', base t u e.1 ∧ Tab.find t.groups w.group = some g' ∧ g'.queue = g.queue ++ [r] ∧ r.inst = e.1 ∧
          r.desc = (if e.2 then [h] else []) ∧ g'.openBatch = g.openBatch + 1 ∧ t.obj w.core k = .count (v + 1) f) ∧
    (∀ b n k v f, g.baton = some (b, n) → s.entryOf w.core w.group b = some k → s.obj w.core k = .count v f →
      (s.batonChk w = [] ↔ w.wig < n ∧ v % n = w.wig))

/-- 03 R85: a partial sum of finite products is exact: its value is the sum of theirs. -/
def Spec.partial_sums_are_exact : Prop :=
  ∀ xs : List FV, (∀ y ∈ xs, Spec.finite y = true) → Spec.finite (sumFV xs) = true ∧ Spec.rat (sumFV xs) = (xs.map Spec.rat).sum

/-- 13 R261, R270, R275, R283: the head of the queue starts on an active array; a k-step adds to every element of its tile what its row and its column give,
and to no other tile; the record then leaves the queue. -/
def Spec.records_run : Prop :=
  ∀ (s : State) (gid : Nat) (g : Group) (r : MRec) (rest : List MRec), Tab.find s.groups gid = some g → g.queue = r :: rest →
    let x := r.word
    let d := r.desc
    let at' := fun (g : Group) (n i j : Nat) => Tab.get 0 g.acc (16384 * n + 128 * i + j)
    let p : Party := .matrix g.core
    let after := fun (t : State) (g' : Group) => Tab.find t.groups gid = some g' ∧ t.mem = s.mem ∧ t.waves = s.waves
    let ready := r.works = true ∧ r.started = false ∧ r.parked = false ∧ r.foOf = none ∧ s.regF (.mxstat g.core) 1 0 = 0
    (ready → g.failed.contains r.batch = true → ∃ t g', exec (.matrixRecordStart gid) s = .next t ∧ after t g' ∧ g'.queue = rest ∧ g'.failed = g.failed) ∧
    (ready → g.failed.contains r.batch = false → r.dead = true →
      ∃ t g', exec (.matrixRecordStart gid) s = .next t ∧ after t g' ∧ g'.queue = rest ∧ g'.failed = g.failed ++ [r.batch]) ∧
    (ready → g.failed.contains r.batch = false → r.dead = false → ∃ t g' b, exec (.matrixRecordStart gid) s = .next t ∧ after t g' ∧
      g'.queue = { r with started := true, acqDone := true, by_ := b } :: rest ∧ b = { r.by_ with base := b.base, know := b.know } ∧
      (∀ e ∈ s.events g.core, Spec.InFloor r.by_.base r.by_.know e → Spec.InFloor b.base b.know e) ∧ (r.acquires = false ∨ r.acqDone = true → b = r.by_)) ∧
    (s.regF (.mxstat g.core) 1 0 ≠ 0 → exec (.matrixRecordStart gid) s = .fault .notEnabled) ∧
    (∀ (y z : RowsRead) (wd : WData), isMma r.inst = true → r.started = true → r.parked = false → r.prog ≤ x.ks → mmaRows d ≤ 128 →
      let f := r.cap1.fmt
      let n := mmaRows d
      let fresh := decide (r.prog = 0) && (match r.inst with | .mmaZ _ => true | _ => false)
      let per := match scaleShape f with | (0, _) => 0 | (bs, e) => 128 / bs * e
      let oa := descW d 0 + r.prog * kstepLen f
      let os := descW d 1 + r.prog * per
      let s1 := s.touchRows g r.by_ r.cap1 ⟨oa, n, 16 * r.cap1.pitch, kstepLen f⟩
      let s2 := if x.sv then s1.touchRows g r.by_ r.cap2 ⟨os, n, 16 * r.cap2.pitch, scaleLen f 128⟩ else s1
      s2.readRows g r.by_ r.cap1 oa n (16 * r.cap1.pitch) (kstepLen f) = .ok y → y.bad = [] →
      (x.sv = true → s2.readRows g r.by_ r.cap2 os n (16 * r.cap2.pitch) (scaleLen f 128) = .ok z ∧ z.bad = []) →
      (x.sv = false → z.rows = (List.range n).map (fun _ => ([] : List (Option Byte)))) →
      Tab.find g.wbuf ((r.chain[r.prog]?).getD 0) = some wd → fresh = true ∨ g.accBad x.acc n = [] →
        ∃ t g', exec (.mmaKstepCommit gid) s = .next t ∧ Tab.find t.groups gid = some g' ∧ t.waves = s.waves ∧
          (∀ b, Spec.Plain s b → t.rdByte b = s.rdByte b) ∧ g'.queue = { r with prog := r.prog + 1 } :: rest ∧
          (∀ i j, i < n → j < 128 →
            let sc := (z.rows[i]?).getD []
            at' g' x.acc i j = kstepElem (if fresh then 0 else at' g x.acc i j) (rowVals f ((y.rows[i]?).getD []) sc) (colVals wd j) (outerA f sc) (outerB wd j)) ∧
          (∀ i j, n ≤ i → i < 128 → j < 128 → at' g' x.acc i j = if fresh then 0 else at' g x.acc i j) ∧
          (∀ m i j, m ≠ x.acc → i < 128 → j < 128 → at' g' m i j = at' g m i j)) ∧
    (isMma r.inst = true → r.started = true → r.parked = false → x.ks < r.prog →
      ∃ t g', exec (.matrixRecordComplete gid) s = .next t ∧ after t g' ∧ g' = { g with queue := rest }) ∧
    ((∃ w, r.inst = .accz w) → r.started = true → r.parked = false →
      ∃ t g', exec (.matrixRecordComplete gid) s = .next t ∧ after t g' ∧ g'.queue = rest ∧
        ∀ n i j, i < 128 → j < 128 → at' g' n i j = if n = x.acc then 0 else at' g n i j) ∧
    (∀ h k c f w, r.inst = .mbatch w ∨ r.inst = .batonPassSignal w → r.desc = [h] → s.entryOf g.core gid h = some k → (s.entry g.core k).count = true →
      s.obj g.core k = .count c f → c + 1 < 2 ^ 64 →
      (g.failed.contains r.batch = false → s.engineClear g.core p = true → w.relX = false ∨ s.published g.core p r.by_ = true →
        ∃ t g', exec (.batchComplete gid) s = .next t ∧ after t g' ∧ g'.queue = rest ∧ t.obj g.core k = .count (c + 1) f) ∧
      (g.failed.contains r.batch = true →
        ∃ t g', exec (.batchComplete gid) s = .next t ∧ after t g' ∧ g'.queue = rest ∧ t.obj g.core k = .count c true)) ∧
    (∀ w, r.inst = .batonPass w → ∃ t g', exec (.batchComplete gid) s = .next t ∧ after t g' ∧ g'.queue = rest)

/-- 13 R287: the power states of the array: clock-gated after its idle region cycles, power-gated after its idle reference cycles, awake when a record
arrives. -/
def Spec.matrix_power_states : Prop :=
  ∀ (s : State) (core : Nat),
    let st := s.regF (.mxstat core) 1 0
    let idle := (s.core core).mxIdle
    let n1 := s.regF (.mxpwr core) 15 0
    let n2 := s.regF (.mxpwr core) 31 16
    (st = 0 → s.mxBusy core = false → n1 ≠ 0 → n1 ≤ idle →
      ∃ t, exec (.mxClockGate core) s = .next t ∧ t.regF (.mxstat core) 1 0 = 1 ∧ t.mem = s.mem ∧ t.groups = s.groups ∧ t.waves = s.waves) ∧
    (st = 1 → n2 ≠ 0 → n2 * 1024 ≤ idle →
      ∃ t, exec (.mxPowerGate core) s = .next t ∧ t.regF (.mxstat core) 1 0 = 2 ∧ t.mem = s.mem ∧ t.groups = s.groups ∧ t.waves = s.waves) ∧
    (st ≠ 0 → s.regF (.mxstat core) 14 8 ≠ 0 →
      ∃ t, exec (.mxWake core) s = .next t ∧ t.regF (.mxstat core) 1 0 = 0 ∧ t.regF (.mxstat core) 14 8 = s.regF (.mxstat core) 14 8 ∧
        t.regF (.coreCtr core .mxWake) 31 0 = (s.regF (.coreCtr core .mxWake) 31 0 + if st = 2 then 1 else 0) % 2 ^ 32) ∧
    (n1 = 0 → exec (.mxClockGate core) s = .fault .notEnabled) ∧ (n2 = 0 → exec (.mxPowerGate core) s = .fault .notEnabled)

/-! ### Roles, tasks, launches and joins -/

/-- A wave that a wait without a strand holds at its instruction (02 R41, R55). -/
def Spec.waiting (w : Wave) (k : Wait) (i : Instr) : Wave := { w with cond := .waiting k, held := some i, run := none, waited := true, latches := lostLatches }

/-- The target of a 32-bit field (04 R104). -/
def Spec.target (w : Wave) (x : W) : PC := (w.pc &&& ~~~(63 : PC)) + BitVec.ofInt 57 (64 * (x.tail.toInt / 8)) + BitVec.ofNat 57 (fld x.tail 2 0)

/-- 14 R300: `ROLE` maps another window once no result, release or copy of the wave is open, with every live lane active at the target; until then the wave
waits. A window beyond the kernel's, or a token on the stack, is cause 0x32. -/
def Spec.roles : Prop :=
  ∀ (s : State) (id : Nat) (w : Wave) (x : W), Tab.find s.waves id = some w →
    let n := fld x.mod 1 0
    let moved := s.setWave id { w with
      tokens := [], run := none, waited := false, pc := Spec.target w x, cond := .running, held := none, xcnt := 0, win := n, exm := w.live, latches := lostLatches }
    (s.drained id w = true ↔ w.scoreboard = [] ∧ (∀ r ∈ (s.core w.core).releases, r.party ≠ .wave id) ∧ ∀ c ∈ (s.core w.core).copies, c.by_.wave ≠ id) ∧
    (s.cur = some id → checkTarget s w (Spec.target w x) = .good →
      (n < w.windows → w.tokens = [] → s.drained id w = true → exec (.role x) s = .next moved) ∧
      (n < w.windows → w.tokens = [] → s.drained id w = false → exec (.role x) s = .next (s.setWave id (Spec.waiting w .roleDrain (.role x)))) ∧
      (w.windows ≤ n ∨ w.tokens ≠ [] → ∃ t, exec (.role x) s = .next t ∧ Faulted s t id w 0x32 none)) ∧
    (w.cond = .waiting .roleDrain → w.held = some (.role x) → w.evicted = none → w.tokens = [] →
      exec (.roleDrainEnd id) s = if s.drained id w then .next moved else .fault .notEnabled)

/-- 14 R303: `TASKADD` enqueues one task for each active lane, in ascending order, while the ring has room: each gets the next id, or 0xFFFFFFFF; NEXTID and
TAIL advance by the tasks enqueued. An entry that is no line of the kernel is cause 0x03, a record past the pool 0x11, which needs no header, an invalid
queue 0x32. -/
def Spec.task_enqueue : Prop :=
  ∀ (s : State) (id : Nat) (w : Wave) (x : W), Issuing s id w →
    let act := w.active x.g
    let on := fun (l : Nat) => l < 32 ∧ act.getLsbD l = true
    let rank := fun (l : Nat) => ((laneList act).filter (· < l)).length
    let ctx := s.ctxOf w
    let at' := s.taskDesc ctx (fld x.tail 3 0)
    let d := s.taskQueue ctx (fld x.tail 3 0)
    let room := tqCap d - tqUsed d
    let n := min (laneList act).length room
    (act = 0 → ∃ t v, exec (.taskadd x) s = .next t ∧ Passes s t id (Spec.reading w (.taskadd x) x) v) ∧
    ((∃ l, on l ∧ badPc (w.opnd true x.b l) = true) → ∃ t, exec (.taskadd x) s = .next t ∧ Faulted s t id w 0x03 none) ∧
    (act ≠ 0 → (∀ l, on l → badPc (w.opnd true x.b l) = false) →
      let long := fun (l : Nat) => (s.taskPool ctx (fld x.tail 3 0)).len < (w.opnd32 x.a l).toNat + tqRecord d
      let first := fun (l : Nat) => on l ∧ long l ∧ ∀ k, k < l → on k → ¬ long k
      (tqValid d = false → ∃ t, exec (.taskadd x) s = .next t ∧ Faulted s t id w 0x32 none) ∧
      (tqValid d = true → (∀ f, translateRange s w.core ctx (tqHeader d) 64 .read = .error f → ∀ l, first l →
        ∃ t, exec (.taskadd x) s = .next t ∧ Faulted s t id w 0x11 (some l)) ∧
       ∀ as, translateRange s w.core ctx (tqHeader d) 64 .read = .ok as →
        let u := (s.readHome w.core ctx as).1
        let bad := fun (l : Nat) => badEntry (s.readHome w.core ctx as).2 (w.opnd true x.b l)
        ((∃ l, on l ∧ bad l = true) → ∃ t, exec (.taskadd x) s = .next t ∧ Faulted u t id w 0x03 none) ∧
        ((∀ l, on l → bad l = false) → ∀ l, first l → ∃ t, exec (.taskadd x) s = .next t ∧ Faulted u t id w 0x11 (some l)) ∧
        ((∀ l, on l → bad l = false ∧ ¬ long l) → (u.releaseGate id w .pkg).2.2 = [] → tqUsed d ≤ tqCap d →
          ∃ y t v, exec (.taskadd x) s = .next t ∧ y.waves = s.waves ∧
            Wrote y t id w v x act (fun l => if rank l < room then BitVec.ofNat 32 ((tqNext d + rank l) % 2 ^ 31) else 0xFFFF_FFFF) ∧
            ((∀ i, i < 4 → ∀ a ∈ [at' + 40 + i, at' + 56 + i], Spec.Plain s a ∧ ∃ e, s.backing (ctx / 256) a = .mem e) →
             ∀ i, i < 4 → t.rdByte (at' + 40 + i) = (leBytes 4 ((tqNext d + n) % 2 ^ 31)).getD i 0 ∧
               t.rdByte (at' + 56 + i) = (leBytes 4 ((tqTail d + n) % 2 ^ 32)).getD i 0))))

/-- 14 R305, 21 R390: a launch whose record can be read answers FULL, no budget, no join entry, or places the record, counts the budget down and answers 0 or
the ticket of a join entry that was free; `GLAUNCH.W` waits while the die's records are full, until one leaves. -/
def Spec.launches : Prop :=
  ∀ (s : State) (id : Nat) (w : Wave) (x : W) (l : Nat) (c : Ctx), Tab.find s.waves id = some w →
    let die := dieOf w.core
    let ctx := s.ctxOf w
    let q := x.bits 79 76
    let nj := x.tail.getLsbD 16
    let budget : LReg := .dlctl c.vdev q
    let full := (s.launchFull die = true)
    (∀ e ∈ [(Instr.glaunch x, false), (.glaunchW x, true)], ∀ pl as, s.cur = some id → Spec.Lowest w l → Tab.find s.ctxs ctx = some c →
      launchChks x s w l = [] → s.capBytes w.core (s.issuer id w) (w.quadQ x.q1 l) 0 128 .read = .ok (pl, as) →
      let u := if pl = .glob then s.prepRead (dieOf w.core) ctx .normal as else s
      u.poisonGranules w.core (.wave id) pl as = [] → Spec.Grouped as →
      let counted := u.bumpCore w.core .launchFull
      (full → e.2 = false → ∃ t v, exec e.1 s = .next t ∧ Wrote counted t id w v x w.exm (fun _ => 0x8000_0001)) ∧
      (full → e.2 = true → exec e.1 s = .next (counted.setWave id (Spec.waiting w .glaunch e.1))) ∧
      (¬ full → s.regF budget 63 32 = 0 → ∃ t v, exec e.1 s = .next t ∧ Wrote u.drawn t id w v x w.exm (fun _ => 0x8000_0003)) ∧
      (¬ full → s.regF budget 63 32 ≠ 0 → nj = false → c.freeJoins = [] →
        ∃ t v, exec e.1 s = .next t ∧ Wrote u.drawn t id w v x w.exm (fun _ => 0x8000_0002)) ∧
      (¬ full → s.regF budget 63 32 ≠ 0 → nj = true ∨ c.freeJoins ≠ [] → (u.releaseGate id w .pkg).2.2 = [] →
        ∃ y t v r c' st, exec e.1 s = .next t ∧ y.waves = s.waves ∧ Wrote y t id w v x w.exm (fun _ => st) ∧ Tab.find t.ctxs ctx = some c' ∧
          ((s.die die).pool.length < 4096 → (s.die die).overflow = [] → t.mem = u.mem) ∧
          t.regF budget 63 32 = s.regF budget 63 32 - 1 ∧ r.ctx = ctx ∧ r.queue = q ∧ r.bytes.length = as.length ∧
          (∀ (i : Nat) (b : Byte) (a : Nat), r.bytes[i]? = some b → as[i]? = some a → Spec.MayReturn u ((s.issuer id w).reader w.core (.wave id)) pl a b) ∧
          (t.die die).pool ++ (t.die die).overflow = (s.die die).pool ++ (s.die die).overflow ++ [r] ∧
          (nj = true → st = 0 ∧ r.ticket = none ∧ c'.joins = c.joins) ∧
          (nj = false → ∃ j, j ∈ c.freeJoins ∧ r.ticket = some j ∧ st = BitVec.ofNat 32 (j + (Tab.get {} c.joins j).gen * 1024) ∧
            Tab.get {} c'.joins j = { Tab.get {} c.joins j with valid := true, done := false, status := 0 }))) ∧
    (w.cond = .waiting .glaunch → w.evicted = none →
      exec (.glaunchWRetry id) s = if s.launchFull die then .fault .notEnabled else .next (s.setWave id { w with cond := .running })) ∧
    (∀ d r rest, (s.die d).overflow = r :: rest →
      (∀ n, s.ringAt d n = 128 * (s.regF (.ovflctl d) 51 7 + ((s.die d).ringHead + n) % 2 ^ min 20 (s.regF (.ovflctl d) 56 52))) ∧
      ((s.die d).pool.length < 4096 → ∃ t, exec (.overflowRecordMove d) s = .next t ∧ (t.die d).overflow = rest ∧ (t.die d).ringHead = (s.die d).ringHead + 1 ∧
        (t.die d).pool = (s.die d).pool ++ [{ r with bytes := s.homeBytes (s.ringAt d 0) 128 }] ∧ t.waves = s.waves ∧ (s.windows = [] → t.mem = s.mem)) ∧
      (4096 ≤ (s.die d).pool.length → exec (.overflowRecordMove d) s = .fault .notEnabled))

/-- 14 R306: a join takes the child's status once it is known, with an acquire at `.pkg`, and frees the entry under its next generation; before, `GJOIN` waits
and `GJOIN.TRY` answers 0xFFFFFFFF. A ticket that names no live entry is cause 0x32. -/
def Spec.joins : Prop :=
  ∀ (s : State) (id : Nat) (w : Wave) (x : W) (l : Nat), Tab.find s.waves id = some w → Spec.Lowest w l →
    let ctx := s.ctxOf w
    let ticket := w.opnd32 x.a l
    (∀ j e, s.joinOf ctx ticket = some (j, e) ↔ ∃ c, Tab.find s.ctxs ctx = some c ∧ j = fld ticket 9 0 ∧ e = Tab.get {} c.joins j ∧ e.valid = true ∧
      ticket.getLsbD 31 = false ∧ e.gen = fld ticket 30 10) ∧
    (s.cur = some id →
      (∀ i ∈ [Instr.gjoin x, .gjoinTry x],
        (s.joinOf ctx ticket = none → ∃ t, exec i s = .next t ∧ Faulted s t id w 0x32 none) ∧
        (∀ j e, s.joinOf ctx ticket = some (j, e) → e.done = true →
          ∃ u t v c, exec i s = .next t ∧ (∀ k, k ≠ id → Tab.find u.waves k = Tab.find s.waves k) ∧ Wrote u t id w v x w.exm (fun _ => BitVec.ofNat 32 e.status) ∧
            t.mem = s.mem ∧ (t.core w.core).phase = (s.core w.core).phase + 1 ∧ w.base ≤ v.base ∧ e.base ≤ v.base ∧ Tab.find t.ctxs ctx = some c ∧
            Tab.get {} c.joins j = { gen := if e.gen + 1 = 2 ^ 21 then 1 else e.gen + 1, valid := false, done := false, status := 0 })) ∧
      (∀ j e, s.joinOf ctx ticket = some (j, e) → e.done = false →
        exec (.gjoin x) s = .next (s.setWave id (Spec.waiting w .gjoin (.gjoin x))) ∧
        ∃ t v, exec (.gjoinTry x) s = .next t ∧ Wrote s t id w v x w.exm (fun _ => 0xFFFF_FFFF))) ∧
    (w.cond = .waiting .gjoin → w.held = some (.gjoin x) → w.evicted = none →
      ((s.joinOf ctx ticket = none ∨ ∃ j e, s.joinOf ctx ticket = some (j, e) ∧ e.done = true) →
        exec (.gjoinWake id) s = .next (s.setWave id { w with cond := .running })) ∧
      (∀ j e, s.joinOf ctx ticket = some (j, e) → e.done = false → exec (.gjoinWake id) s = .fault .notEnabled))

/-- 18 R319-R321: an arrival is counted once in a phase; the phase ends with the last wave that has not ended, and those that wait for it go on after an acquire
at `.clus`. Without a gang, or arriving twice, the cause is 0x32. -/
def Spec.gang_barrier : Prop :=
  ∀ (s : State) (id : Nat) (w : Wave) (x : W), Tab.find s.waves id = some w →
    let passed := fun (t : State) (v : Wave) => Tab.find t.waves id = some v ∧ v.pc = nextPc w.pc ∧ v.regs = w.regs ∧ v.exm = w.exm ∧ t.mem = s.mem ∧
      (t.core w.core).phase = (s.core w.core).phase + 1 ∧ (w.leavesKernel = false → v.cond = .running)
    let past := fun (n p : Word) => 1 ≤ (n - p).toNat ∧ (n - p).toNat ≤ 2 ^ 31
    (s.cur = some id → s.gangEntry w = none → ∀ i ∈ [Instr.gsync x, .garrive x, .gwait x], ∃ t, exec i s = .next t ∧ Faulted s t id w 0x32 none) ∧
    (∀ n g, s.gangEntry w = some (n, g) →
      let last := g.nwaves ≤ g.arrived.length + 1 + g.ended.length
      let after := fun (t : State) => ∃ g', Tab.find t.gangs n = some g' ∧ g'.phnum = (if last then g.phnum + 1 else g.phnum) ∧
        g'.arrived = (if last then [] else g.arrived ++ [id])
      (s.cur = some id →
        (id ∈ g.arrived → ∀ i ∈ [Instr.gsync x, .garrive x], ∃ t, exec i s = .next t ∧ Faulted s t id w 0x32 none) ∧
        (id ∉ g.arrived → (s.releaseGate id w .clus).2.2 = [] →
          (last → ∃ t v, exec (.gsync x) s = .next t ∧ after t ∧ passed t v) ∧
          (¬ last → ∃ t, exec (.gsync x) s = .next t ∧ after t ∧ Tab.find t.waves id = some (Spec.waiting (s.settleReads id w).2 (.gang g.phnum) (.gsync x)) ∧ t.mem = s.mem) ∧
          (∃ u t v, exec (.garrive x) s = .next t ∧ after t ∧ u.waves = s.waves ∧ Wrote u t id w v x w.live (fun _ => g.phnum) ∧ t.mem = s.mem)) ∧
        (∀ l p, l < 32 → w.live.getLsbD l = true → (∀ k, k < l → w.live.getLsbD k = false) → p = w.opnd32 x.a l →
          (past g.phnum p → ∃ t v, exec (.gwait x) s = .next t ∧ passed t v ∧ t.gangs = s.gangs) ∧
          (¬ past g.phnum p → exec (.gwait x) s = .next (s.setWave id (Spec.waiting w (.gang p) (.gwait x)))))) ∧
      (∀ p, w.cond = .waiting (.gang p) → w.evicted = none →
        (past g.phnum p → ∃ t v, exec (.gangWaitWake id) s = .next t ∧ passed t v) ∧
        (¬ past g.phnum p → exec (.gangWaitWake id) s = .fault .notEnabled)))

/-! ### Progress beats -/

/-- 20 R349-R352, R347: `BEAT` sends its count on its way, `BTARGET` sets the target unless it is locked or too large, `BREAD` gives what the last interval
end left, and the FLAGS as they are; with no active lane none of them has an effect; a beat that arrives adds its count to CUM, the beats of one wave in their order. -/
def Spec.beat_instructions : Prop :=
  ∀ (s : State) (id : Nat) (w : Wave) (x : W), Issuing s id w →
    let ctx := s.ctxOf w
    (w.exm = 0 → ∀ i ∈ [Instr.beat x, .btarget x, .bread x], ∃ t v, exec i s = .next t ∧ Passes s t id w v) ∧
    (∀ l, Spec.Lowest w l →
      (∃ t v, exec (.beat x) s = .next t ∧ Passes { s with beats := s.beats ++ [(id, ctx, x.bits 79 64)] } t id w v) ∧
      (let a := w.opnd32 x.a l
       let lock := s.regF (.ctxw ctx 18) 61 61
       (fld a 31 24 ≠ 0 ∨ lock = 1 → ∃ t, exec (.btarget x) s = .next t ∧ Faulted s t id w 0x32 none) ∧
       (fld a 31 24 = 0 → lock = 0 → ∃ t v, exec (.btarget x) s = .next t ∧
          Passes (s.setRegF (.ctxw ctx 16) 23 0 (fld a 23 0)) t id (Spec.reading w (.btarget x) x) v)) ∧
      (∃ t v, exec (.bread x) s = .next t ∧
        Wrote s t id w v x w.exm (fun _ => s.breadOf ctx (x.bits 67 64)))) ∧
    (∀ c sel, Tab.find s.ctxs ctx = some c →
      s.breadOf ctx sel = if sel = 5 then BitVec.ofNat 32 (s.regF (.ctxw ctx 20) 63 56) else (c.bread[sel]?).getD 0) ∧
    (∀ c, (∀ b ∈ s.beats, b.2.1 ≠ c) → exec (.beatArrive c) s = .fault .notEnabled) ∧
    (∀ c, (∃ b ∈ s.beats, b.2.1 = c) → ∃ t before b after, exec (.beatArrive c) s = .next t ∧ s.beats = before ++ b :: after ∧ b.2.1 = c ∧
      (∀ e ∈ before, ¬ (e.1 = b.1 ∧ e.2.1 = c)) ∧ t.beats = before ++ after ∧ t.reg (.ctxw c 22) = s.reg (.ctxw c 22) + BitVec.ofNat 64 b.2.2 ∧
      t.mem = s.mem ∧ t.waves = s.waves ∧ ∀ r, r ≠ .ctxw c 22 → t.reg r = s.reg r)

/-- The least and greatest value that a bound allows. -/
def Spec.clamp (lo hi x : Int) : Int := max lo (min hi x)

/-- 20 R353, R354: what an interval end of a context outside any merge group leaves: the measured count M, the error's sum and the correction, the demand D, and each
actuator's request, which the walk takes from D. -/
def Spec.interval_ends : Prop :=
  ∀ (s : State) (ctx : Nat) (c : Ctx), Tab.find s.ctxs ctx = some c →
    let f := fun (s : State) (i hi lo : Nat) => s.regF (.ctxw ctx (16 + i)) hi lo
    let S := fun (s : State) => (BitVec.ofNat 32 (f s 3 31 0)).toInt
    let u := fun (s : State) => (BitVec.ofNat 16 (f s 3 63 48)).toInt
    let cum := (s.reg (.ctxw ctx 22)).toNat
    let prev := (s.reg (.ctxw ctx 23)).toNat
    let M := min (cum - prev) (2 ^ 24 - 1)
    let on := f s 2 60 60 = 1 ∧ f s 0 23 0 ≠ 0
    let e : Int := (f s 0 23 0 : Int) - M
    let acts := s.actuators ctx
    (f s 5 49 16 < c.ilen * 1024 → exec (.intervalEnd ctx) s = .fault .notEnabled) ∧
    (c.ilen * 1024 ≤ f s 5 49 16 → f s 5 15 0 = 0 → ∃ t, exec (.intervalEnd ctx) s = .next t ∧ t.mem = s.mem ∧ t.waves = s.waves ∧
      t.reg (.ctxw ctx 23) = BitVec.ofNat 64 (max prev cum) ∧ f t 4 23 0 = M ∧ f t 5 49 16 = 0 ∧ f t 4 55 24 = (f s 4 55 24 + 1) % 2 ^ 32 ∧
      (f t 4 61 61 = 1 ↔ 2 ^ 24 - 1 < cum - prev) ∧
      (¬ on → S t = S s ∧ u t = u s ∧ f t 3 47 32 = f s 2 15 0 ∧ f t 4 60 60 = 0) ∧
      (on → let b : Int := f s 1 62 32
        S t = Spec.clamp (-b) b (S s + e) ∧ (f t 4 60 60 = 1 ↔ S t ≠ S s + e) ∧
        u t = Spec.clamp (-32768) 32767 (((f s 1 15 0 : Int) * e + (f s 1 31 16 : Int) * S t).fdiv 4096) ∧
        (f t 3 47 32 : Int) = Spec.clamp 0 (f s 2 31 16) ((f s 2 15 0 : Int) + u t)) ∧
      ∃ rem : Nat → Nat, rem 0 = f t 3 47 32 ∧ ∀ i n g, i < 5 → acts[i]? = some (n, g) →
        let k := if n = 0 ∨ g = 0 then 0 else min n (rem i / g)
        t.regF (.ctxw ctx (24 + i)) 42 34 = k ∧ rem (i + 1) = rem i - k * g)

/-- 20 R355, R356: an evaluation of the Quay grants each context of a hard partition no more than it asks, and all together no more than the capacity of each
actuator; SHED says whether any grant falls short. -/
def Spec.quay_grants_fit : Prop :=
  ∀ (s : State) (hp d : Nat), d < 4 → s.hpOf d = hp → (∀ e, e < d → s.hpOf e ≠ hp) → (s.hpCtxs hp).Nodup →
    let asked := fun (s : State) (c i : Nat) => s.regF (.ctxw c (24 + i)) 42 34
    let kreq := fun (c i : Nat) => if s.actOn c i = true ∧ (i = 4 → s.holdsAnyRegion c = true) then asked s c i else 0
    let kgr := fun (s : State) (c i : Nat) => s.regF (.ctxw c (24 + i)) 51 43
    (s.ref d % 2 ^ min 24 (max 10 (s.regF (.qcap hp) 42 38)) ≠ 0 ∨ (s.die d).quayAt = some (s.ref d) ∨ (∃ c, c ∈ s.hpCtxs hp ∧ s.intervalDue c = true) →
      exec (.quayEval hp) s = .fault .notEnabled) ∧
    (s.ref d % 2 ^ min 24 (max 10 (s.regF (.qcap hp) 42 38)) = 0 → (s.die d).quayAt ≠ some (s.ref d) →
    (∀ c x, c ∈ s.hpCtxs hp → Tab.find s.ctxs c = some x → s.regF (.ctxw c 21) 49 16 < x.ilen * 1024) →
      ∃ t, exec (.quayEval hp) s = .next t ∧ t.mem = s.mem ∧ t.waves = s.waves ∧
        (∀ c i, c ∈ s.hpCtxs hp → i < 5 → asked t c i = asked s c i ∧ kgr t c i ≤ kreq c i) ∧
        (∀ i, i < 4 → ((s.hpCtxs hp).map fun c => kgr t c i).sum ≤ s.capacity hp i) ∧
        (∀ c, c ∈ s.hpCtxs hp → kgr t c 4 = kreq c 4 ∧ (t.regF (.ctxw c 20) 58 58 = 1 ↔ ∃ i, i < 5 ∧ kgr t c i < kreq c i)))

/-- 20 R356: the shares of one round of grants never exceed what is left, nor any context its demand. -/
def Spec.shares_are_bounded : Prop :=
  ∀ (k : Nat) (asks : List Ask) (left : Nat),
    let r := shareOut k asks left
    r.1.length = asks.length ∧ (r.1.map Ask.g).sum + r.2 = (asks.map Ask.g).sum + left ∧
    ∀ (i : Nat) (a b : Ask), asks[i]? = some a → r.1[i]? = some b → b.ctx = a.ctx ∧ a.g ≤ b.g ∧ b.g + b.d = a.g + a.d

/-- 20 R357-R361, 21 R391: applying grants leaves the granted contexts ways that do not overlap; loop words and capacities are written by who may, after what the
same cycle owes, and refused where class 0 floors would not fit, and a new merge group is joined afresh; a device past its quantum has its newest group saved,
unless that leaves it fewer cores than its floor. -/
def Spec.grants_and_loop_writes : Prop :=
  ∀ (s : State) (ctx : Nat) (v : DWord) (i : Inst),
    (∀ c, Tab.find s.ctxs ctx = some c →
      (c.granted = false → exec (.grantApply ctx) s = .fault .notEnabled) ∧
      (c.granted = true → ∃ t c', exec (.grantApply ctx) s = .next t ∧ Tab.find t.ctxs ctx = some c' ∧ c'.granted = false ∧ t.mem = s.mem ∧
        (s.actOn ctx 2 = true → ∀ d a b w, d ∈ s.partDies ctx → a ∈ s.hpCtxs (s.hpOf d) → b ∈ s.hpCtxs (s.hpOf d) → s.actOn a 2 = true → s.actOn b 2 = true →
          a % 256 ≠ b % 256 → w < 16 → (t.regF (.llcway d (a % 256)) 15 0).testBit w = true → (t.regF (.llcway d (b % 256)) 15 0).testBit w = false) ∧
        ∀ d r, d ∈ s.partDies ctx → r < 8 → (∀ k, Tab.find s.ctxs k ≠ none → s.holdsRegion (8 * d + r) k = false) →
          t.regF (.clkcap d r) 3 0 = s.regF (.clkdef d) 3 0)) ∧
    (∀ word, let r : LReg := .ctxw ctx word
      let t := s.writeReg r v
      let same := t.regF (.ctxw ctx 18) 33 32 = s.regF (.ctxw ctx 18) 33 32 ∧ t.regF (.ctxw ctx 18) 59 44 = s.regF (.ctxw ctx 18) 59 44
      let hp := s.hpOf (ctx / 256)
      (s.mayWrite i r = false ∨ word < 16 ∨ 28 < word ∨ s.intervalDue ctx = true ∨ s.quayDue hp = true →
        exec (.tillerWordWrite ctx word v i) s = .fault .notEnabled) ∧
      (16 ≤ word → word ≤ 28 → (Tab.find s.ctxs ctx).isSome = true → s.mayWrite i r = true → s.intervalDue ctx = false → s.quayDue hp = false →
        exec (.tillerWordWrite ctx word v i) s = .next
          (if word = 18 then (if same ∨ t.floorsFit hp = true then t.setRegF (.ctxw ctx 18) 62 62 0 else s.setRegF (.ctxw ctx 18) 62 62 1)
           else if word = 21 ∧ t.regF (.ctxw ctx 21) 15 0 ≠ s.regF (.ctxw ctx 21) 15 0 then t.joinMerge ctx else t))) ∧
    (∀ hp, let r : LReg := .qcap hp
      let t := s.writeReg r v
      (s.mayWrite i r = false ∨ s.quayDue hp = true → exec (.qcapWrite hp v i) s = .fault .notEnabled) ∧
      (hp < 4 → s.mayWrite i r = true → s.quayDue hp = false → ∀ d, s.quayDie hp = some d →
        exec (.qcapWrite hp v i) s = .next
          (if t.floorsFit hp = true then (t.setRegF r 43 43 0).updDie d fun x => { x with quayAt := some (s.ref d) } else s.setRegF r 43 43 1))) ∧
    (∀ n d gid g, Tab.find s.vdevs n = some d → Tab.find s.groups gid = some g → g.ctx = d.ctx → s.bankResident g.ctx = false →
      s.regF (.vdsched n) 31 8 * 100 ≤ d.heldFor → s.weightedWaits g.ctx = true → g.saving = false →
      (∀ k x, (k, x) ∈ s.groups → x.ctx = g.ctx → k ≠ gid → ¬ (g.admitted < x.admitted) ∨ x.saving = true) →
      let floor := if s.classOf g.ctx = 0 then s.regF (.ctxw g.ctx 25) 33 25 + min (s.floorSteps g.ctx 1 (s.regF (.ctxw g.ctx 18) 59 44)) (s.kreq g.ctx 1) else 0
      ((∃ k x, (k, x) ∈ s.groups ∧ k ≠ gid ∧ x.ctx = g.ctx ∧ x.core = g.core) ∨ floor < (s.ctxCores g.ctx).length) →
        ∃ t, exec (.quantumSave n gid) s = .next t ∧ t = { s with groups := t.groups } ∧
          ∀ k, Tab.find t.groups k = (Tab.find s.groups k).map fun x => if k ∈ s.together gid then { x with saving := true } else x)

/-- 20 R359, 25 R436: a member publishes its CUM to the other members that its merge list names; a publication received raises the count kept for its member and
never lowers it; the merged count is the least of the members' counts and never falls; a member silent for 8 periods makes the group stale, and the merged
count then stays. -/
def Obligations.merge_groups : Prop :=
  ∀ (s : State) (ctx : Nat) (c : Ctx), Tab.find s.ctxs ctx = some c →
    let grp := fun (k : Nat) => s.regF (.ctxw k 21) 15 0
    let per := max 1 (s.regF (.mgcfg ctx) 27 20) * 1024
    let cum := (s.reg (.ctxw ctx 22)).toNat
    let kept := fun (c : Ctx) (m : Nat) => (Tab.get (0, 0) c.kept m).1
    (grp ctx = 0 ∨ s.ref (ctx / 256) < c.pubAt + per → exec (.mergePublish ctx) s = .fault .notEnabled) ∧
    (grp ctx ≠ 0 → c.pubAt + per ≤ s.ref (ctx / 256) → ∃ t c', exec (.mergePublish ctx) s = .next t ∧ t.mem = s.mem ∧ t.waves = s.waves ∧
      Tab.find t.ctxs ctx = some c' ∧ c'.pubAt = s.ref (ctx / 256) ∧ s.outbox <+: t.outbox ∧
      ∀ m k e b, m ∈ s.mergeMembers ctx → m ≠ s.mergeIdx ctx → e = s.reg (.mglist ctx m) → e.getLsbD 23 = true → e.getLsbD 22 = true →
        k = fld e 21 20 * 256 + fld e 19 12 → grp k = grp ctx → Tab.find s.ctxs k = some b →
          ∃ b', Tab.find t.ctxs k = some b' ∧ kept b' (s.mergeIdx ctx) = max cum (kept b (s.mergeIdx ctx))) ∧
    (∀ m v, grp ctx ≠ 0 → s.mergeIdx ctx ≠ m → ∃ t c', exec (.mergePubReceive (grp ctx) m v) s = .next t ∧ t.mem = s.mem ∧ t.waves = s.waves ∧
      Tab.find t.ctxs ctx = some c' ∧ kept c' m = max v.toNat (kept c m) ∧ ∀ n, n ≠ m → kept c' n = kept c n) ∧
    (grp ctx ≠ 0 → s.staleMembers ctx c = true → s.regF (.ctxw ctx 20) 59 59 = 0 → ∃ t r, exec (.mergeStale ctx) s = .next t ∧
      t.regF (.ctxw ctx 20) 59 59 = 1 ∧ t.recs = s.recs ++ [r] ∧ r.cls = 5 ∧ t.mem = s.mem ∧ t.waves = s.waves ∧
      ∃ c', Tab.find t.ctxs ctx = some c' ∧ t.mergedCount ctx c' = s.mergedCount ctx c) ∧
    (s.regF (.ctxw ctx 20) 59 59 = 1 → s.mergedCount ctx c = c.mergedMax) ∧ c.mergedMax ≤ s.mergedCount ctx c ∧
    (s.regF (.ctxw ctx 20) 59 59 = 0 → ∀ m, m ∈ s.mergeMembers ctx →
      (∀ n, n ∈ s.mergeMembers ctx → (if m = s.mergeIdx ctx then cum else kept c m) ≤ (if n = s.mergeIdx ctx then cum else kept c n)) →
      s.mergedCount ctx c = max c.mergedMax (if m = s.mergeIdx ctx then cum else kept c m)) ∧
    (s.staleMembers ctx c = true ↔ ∃ m, m ∈ s.mergeMembers ctx ∧ m ≠ s.mergeIdx ctx ∧ (Tab.get (0, 0) c.kept m).2 + 8 * per ≤ s.ref (ctx / 256))

/-! ### The fabric -/

/-- 25 R427-R429, R431-R433: a fabric command whose checks pass enters flight with its captured quads and descriptor, a collective joining its member's instance;
with 128 commands in flight it waits. -/
def Spec.fabric_commands_issue : Prop :=
  ∀ (s : State) (id : Nat) (w : Wave) (x : W) (l : Nat), Issuing s id w → Spec.Lowest w l →
    let copies := (s.core w.core).copies
    let u := (s.settleReads id w).1
    let w' := (s.settleReads id w).2
    let coll := fun (sub : Nat) => CopyKind.coll sub (x.bits 83 82) (x.bits 85 84) (x.bits 81 76)
    let none' : Cap := { bits := 0, tag := false }
    let q1 := w.quadQ x.q1 l
    let q2 := w.quadQ x.q2 l
    ∀ e ∈ ([(.put x, .put, remoteChks x false s w l, none', q1), (.get x, .get, remoteChks x true s w l, q1, none'),
            (.collAllred x, coll 0, collChks x 0 s w l, q1, q2), (.collBcast x, coll 1, collChks x 1 s w l, q1, q2),
            (.collAllgath x, coll 2, collChks x 2 s w l, q1, q2)] : List (Instr × CopyKind × List Chk × Cap × Cap)),
      let c : Copy := { id := s.nextId, kind := e.2.1, by_ := u.issuer id w', word := x, tcap := e.2.2.2.1, scap := e.2.2.2.2, desc := w.descQ x.a l, seq := 0 }
      (e.2.2.1 = [] → s.signalGates w.core id = [] → copies.length < 128 →
        ∃ t v, exec e.1 s = .next t ∧ Spec.Issued s t id w v ∧ v.seen = w'.seen ∧ (t.core w.core).copies = copies ++ [c] ∧ t.mem = s.mem ∧
          (isColl c = true → ∃ k ∈ t.colls, k.ctx = s.ctxOf w ∧ k.g = x.bits 81 76 ∧ k.cmd = some (w.core, c.id))) ∧
      (e.2.2.1 = [] → 128 ≤ copies.length → exec e.1 s = .next (s.setWave id (Spec.waiting w .copySlot e.1))) ∧
      (∀ k, pickChk e.2.2.1 = some k → ∃ t, exec e.1 s = .next t ∧ Faulted s t id w k.code k.lane)

/-- 25 R430, R434: a chunk of a `PUT` that completes has been read and sent, one of a `GET` has landed with the peer's bytes; a lost one counts in LOSS, and a
`GET`'s bytes land as zero; when all are accounted for the command signals its barrier and is gone. -/
def Spec.remote_chunks : Prop :=
  ∀ (s : State) (core id j : Nat) (c : Copy) (data : List Byte), s.findCopy core id = some c → (c.kind = .put ∨ c.kind = .get) → s.windows = [] →
    (c.word.acqX = false ∨ c.acqDone = true) → c.state = .running →
    let p : Party := .copy core
    let get := isGet c
    let ctx := c.by_.ctx
    let hp := s.hpOf (ctx / 256)
    let peer := rwinPeer s ctx (rwinNo c.word)
    let key := rwinKey s ctx (rwinNo c.word)
    let off := (c.remoteChunk j).1
    let n := (c.remoteChunk j).2
    let lo := descW c.desc 0 + off
    let y := (s.openRemote core c).1
    let s1 := y.cacheRows core ctx (if get then c.tcap else c.scap) ⟨lo, 1, 0, n⟩
    let z := if s.portOpen (portOf (s.peer hp peer)) = false ∨ Config.choice s.draw 0 = true then s.drawn.bumpPort (portOf (s.peer hp peer)) .e2eDrop else s.drawn
    let counted := fun (t : State) => ∃ c', t.findCopy core id = some c' ∧ c'.done = c.done ++ [j] ∧ c'.state = .running
    let lands := fun (t : State) (pl : Place) (as : List Nat) (f : Nat → Byte) => ∀ k a, as[k]? = some a → t.viewByte core p pl a = f k
    let lost := min (2 ^ 32 - 1) (s.regF (.ctxw ctx 3) 31 0 + 1)
    let open' := (get = true ∨ c.word.relX = false ∨ s.published core p c.by_ = true) ∧ (s.countsBytes core c = true → (s.core core).openReleases p = [])
    (j ∈ c.done ∨ c.remoteChunks ≤ j → exec (.fabricChunkComplete core id j data) s = .fault .notEnabled ∧ exec (.fabricChunkLost core id j) s = .fault .notEnabled) ∧
    (j ∉ c.done → j < c.remoteChunks → open' → ∀ pl as,
      (s1.capBytes core c.by_ (if get then c.tcap else c.scap) lo n (if get then .write else .read) = .ok (pl, as) →
        s.peerValid hp peer = true → s.portOpen (portOf (s.peer hp peer)) = true →
        (get = false → Spec.Grouped as →
          (∀ a ∈ as, (if pl = .glob then s1.prepRead (dieOf core) ctx .normal as else s1).viewPoison core p pl a = false) →
          ∃ t bs, exec (.fabricChunkComplete core id j data) s = .next t ∧ counted t ∧ t.mem = s.mem ∧
            t.outbox = s.outbox ++ [.put peer key (descW c.desc 1 + off) bs] ∧ bs.length = as.length ∧
            ∀ (k a : Nat) (v : Byte), as[k]? = some a → bs[k]? = some v → Spec.MayReturn y (c.by_.reader core p) pl a v) ∧
        (get = true → data.length = n → as.Nodup → as.length = n → (∀ a ∈ as, s.atHome core pl a = false) →
          ∃ t, exec (.fabricChunkComplete core id j data) s = .next t ∧ counted t ∧ t.mem = s.mem ∧
            t.outbox = s.outbox ++ [.getReq peer key (descW c.desc 1 + off) n] ∧ lands t pl as (fun k => data.getD k 0))) ∧
      (c.by_.strict = false → (get = true → as.Nodup ∧ (∀ a ∈ as, s.atHome core pl a = false) ∧
          (z.cacheRows core ctx c.tcap ⟨lo, 1, 0, n⟩).capBytes core c.by_ c.tcap lo n .write = .ok (pl, as)) →
        ∃ t, exec (.fabricChunkLost core id j) s = .next t ∧ counted t ∧ t.mem = s.mem ∧ t.outbox = s.outbox ∧ t.regF (.ctxw ctx 3) 31 0 = lost ∧
          (get = true → lands t pl as fun _ => 0)) ∧
      (c.by_.strict = true → ∃ t r more, exec (.fabricChunkLost core id j) s = .next t ∧ t.findCopy core id = none ∧ t.recs = s.recs ++ r :: more ∧ r.cls = 2 ∧
        fld r.body 7 0 = 0x22)) ∧
    (∀ k last, c.remoteChunks ≤ c.done.length → last = (match c.done.getLast? with | some j => (c.remoteChunk j).2 | none => 0) →
      (get = false ∨ c.word.relX = false ∨ s.published core p c.by_ = true) → s.engineClear core p = true →
      (∃ g, Tab.find s.groups c.by_.group = some g ∧ g.core = core) →
      s.entryOf core c.by_.group (copyH c.desc) = some k →
      (∀ v f, (s.entry core k).count = true → s.obj core k = .count v f → v + 1 < 2 ^ 64 →
        ∃ t, exec (.fabricCommandComplete core id) s = .next t ∧ t.findCopy core id = none ∧ t.obj core k = .count (v + 1) f ∧ t.mem = s.mem) ∧
      (∀ e a q m f, (s.entry core k).count = false → s.obj core k = .phase e a q m f → -2 ^ 55 ≤ q - last →
        ∃ t, exec (.fabricCommandComplete core id) s = .next t ∧ t.findCopy core id = none ∧ t.obj core k = (Obj.phase e a (q - last) m f).settle ∧
          t.mem = s.mem))

/-- 25 R433: the result of a collective: an integer sum over the contributions that are there, rank 0's elements of a broadcast, all elements in order of
rank of a gather, zero for what is missing. -/
def Spec.collective_results : Prop :=
  ∀ (k : Coll) (nmem op et count i : Nat), 0 < nmem → nmem ≤ 1024 → i < count →
    let z := etSize et
    let elem := fun (m : Nat) => match Tab.find k.contribs m with | some b => leNat ((b.drop (i * z)).take z) | none => 0
    let at' := fun (r : List Byte) (p : Nat) => leNat ((r.drop (p * z)).take z)
    (et = 2 ∨ et = 3 → at' (collResult k nmem (0, 0, et, count)) i = ((List.range nmem).map elem).sum % 2 ^ 32) ∧
    at' (collResult k nmem (1, op, et, count)) i = elem 0 ∧
    ∀ m, m < nmem → at' (collResult k nmem (2, op, et, count)) (m * count + i) = elem m

/-- 25 R432-R434: contributions gather in an instance until its deadline; its result lands at each member with the mask of the members that are missing, each of
them counted in LOSS. -/
def Spec.collectives_run : Prop :=
  ∀ (s : State) (ctx g : Nat),
    let tmo := max 1 (s.regF (.collgrp ctx g) 36 21) * 1024
    let due := fun (k : Coll) => k.ctx = ctx ∧ k.g = g ∧ k.timedOut = false ∧ ∃ a, k.firstAt = some a ∧ a + tmo ≤ s.ref (ctx / 256)
    let has := fun (t : State) (m : Nat) (b : List Byte) => ∃ k ∈ t.colls, k.ctx = ctx ∧ k.g = g ∧ Tab.find k.contribs m = some b
    (∀ m b, let e := s.member ctx g m
      let hp := s.hpOf (ctx / 256)
      m ≠ s.rank ctx g → m < s.nmem ctx g → (Tab.find s.ctxs ctx).isSome = true → (s.reg (.collgrp ctx g)).getLsbD 0 = true → e.getLsbD 23 = true →
      e.getLsbD 22 = false → s.peerValid hp (fld e 11 0) = true → s.portOpen (portOf (s.peer hp (fld e 11 0))) = true →
        ∃ t, exec (.collContribArrive ctx g m b) s = .next t ∧ has t m b ∧ t.mem = s.mem ∧ t.waves = s.waves) ∧
    ((∀ k ∈ s.colls, ¬ due k) → exec (.collTimeout ctx g) s = .fault .notEnabled) ∧
    ((∃ k ∈ s.colls, due k) → ∃ t, exec (.collTimeout ctx g) s = .next t ∧ (∃ k ∈ t.colls, k.ctx = ctx ∧ k.g = g ∧ k.timedOut = true) ∧ t.mem = s.mem ∧ t.waves = s.waves) ∧
    (∀ k core id c sub op et sh, k ∈ s.colls → k.ctx = ctx → k.g = g → (∀ o ∈ s.colls, o.ctx = ctx → o.g = g → o = k) → k.cmd = some (core, id) →
      s.findCopy core id = some c → c.kind = .coll sub op et g → c.state = .running → c.landed = false → (c.word.acqX = false ∨ c.acqDone = true) →
      s.windows = [] → k.shape = some sh → k.bad = false →
      (∀ b pl as, let m := s.rank ctx g
        let n := contribBytes sub et (descW c.desc 2) m
        let s1 := s.cacheRows core c.by_.ctx c.scap ⟨descW c.desc 0, 1, 0, n⟩
        let u := if pl = .glob then s1.prepRead (dieOf core) c.by_.ctx .normal as else s1
        Tab.find k.contribs m = none → k.timedOut = false → 0 < n → s1.capBytes core c.by_ c.scap (descW c.desc 0) n .read = .ok (pl, as) →
        Spec.Grouped as → (∀ a ∈ as, u.viewPoison core (.copy core) pl a = false) →
          ∃ t bs, exec (.collContribArrive ctx g m b) s = .next t ∧ has t m bs ∧ bs.length = as.length ∧
            ∀ (i a : Nat) (v : Byte), as[i]? = some a → bs[i]? = some v → Spec.MayReturn s (c.by_.reader core (.copy core)) pl a v) ∧
      (Tab.find k.contribs (s.rank ctx g) = none → k.timedOut = false → contribBytes sub et (descW c.desc 2) (s.rank ctx g) = 0 → ∀ b,
        ∃ t, exec (.collContribArrive ctx g (s.rank ctx g) b) s = .next t ∧ has t (s.rank ctx g) []) ∧
      (∀ p1 as p2 ms, let bytes := collResult k (s.nmem ctx g) sh
        let mask := collMask k (s.nmem ctx g)
        let toff := descW c.desc 1
        let s1 := s.cacheRows core c.by_.ctx c.tcap ⟨toff, 1, 0, maskAt bytes.length + 128⟩
        s.collReady k = true → k.result = none → c.by_.ctx = ctx →
        s1.capBytes core c.by_ c.tcap toff bytes.length .write = .ok (p1, as) → s1.capBytes core c.by_ c.tcap (toff + maskAt bytes.length) 128 .write = .ok (p2, ms) →
        as.length = bytes.length → as.Nodup → (∀ a ∈ as, s.atHome core p1 a = false ∧ (p1 = p2 → a ∉ ms)) →
          ∃ t, exec (.collResultLand ctx g false) s = .next t ∧ (t.findCopy core id).map Copy.landed = some true ∧
            t.regF (.ctxw ctx 3) 31 0 = min (2 ^ 32 - 1) (s.regF (.ctxw ctx 3) 31 0 + ((List.range (s.nmem ctx g)).filter mask.testBit).length) ∧
            ∀ i a, as[i]? = some a → t.viewByte core (.copy core) p1 a = bytes.getD i 0))

/-- 25 R421, R423-R426: a request from a peer reaches memory only through an open port, in a size that the port knows, from a known peer, by a valid exporting window; all
else is rejected and counted, and changes no byte. -/
def Spec.inbound_requests : Prop :=
  ∀ (s : State) (port peer : Nat) (key : Word) (off n : Nat) (data : List Byte),
    let rejected := fun (t : State) => t.regF (.portCtr port .fabReject) 31 0 = (s.regF (.portCtr port .fabReject) 31 0 + 1) % 2 ^ 32 ∧ t.mem = s.mem ∧ t.waves = s.waves
    let ctx := fld key 9 8 * 256 + fld key 7 0
    let lo := s.reg (.xwin ctx (fld key 15 10) 0)
    let hi := s.reg (.xwin ctx (fld key 15 10) 1)
    let sized := fun (m : Nat) => 48 ≤ port ∨ (m = 64 ∨ m = 128 ∨ m = 256) ∧ off % 128 = 0
    (s.portOpen port = false → exec (.inboundWrite port peer key off data) s = .fault .notEnabled ∧ exec (.inboundRead port peer key off n) s = .fault .notEnabled ∧
      exec (.inboundUnsupportedRequest port) s = .fault .notEnabled) ∧
    (s.portOpen port = true →
      (∃ t, exec (.inboundUnsupportedRequest port) s = .next t ∧ rejected t ∧ t.outbox = s.outbox) ∧
      (s.knownPeer port peer = false → ∀ i ∈ [Instr.inboundWrite port peer key off data, .inboundRead port peer key off n],
        ∃ t, exec i s = .next t ∧ rejected t ∧ t.outbox = s.outbox) ∧
      (¬ sized data.length → ∃ t, exec (.inboundWrite port peer key off data) s = .next t ∧ rejected t ∧ t.outbox = s.outbox) ∧
      (¬ sized n → ∃ t, exec (.inboundRead port peer key off n) s = .next t ∧ rejected t ∧ t.outbox = s.outbox) ∧
      (s.knownPeer port peer = true → sized data.length → sized n →
        (s.exported port peer key off data.length .write = none → ∃ t, exec (.inboundWrite port peer key off data) s = .next t ∧ rejected t ∧
          t.outbox = s.outbox ++ [.writeReply port peer false]) ∧
        (s.exported port peer key off n .read = none → ∃ t, exec (.inboundRead port peer key off n) s = .next t ∧ rejected t ∧
          t.outbox = s.outbox ++ [.writeReply port peer false]) ∧
        (∀ c va as, s.exported port peer key off data.length .write = some (c, va, as) → ∃ t, exec (.inboundWrite port peer key off data) s = .next t ∧
          t.outbox = s.outbox ++ [.writeReply port peer true] ∧ t.waves = s.waves ∧
          (∀ k a, as[k]? = some a → as.Nodup → as.length = data.length → Spec.Plain s a → (∃ d, s.backing (portDie port) a = .mem d) → t.rdByte a = data.getD k 0) ∧
          ∀ a, a ∉ as → Spec.Plain s a → t.rdByte a = s.rdByte a) ∧
        (∀ c va as, s.windows = [] → s.exported port peer key off n .read = some (c, va, as) →
          let u := ((s.flitOk port).walkTouch c va n).prepRead (portDie port) c .normal as
          ∃ t, exec (.inboundRead port peer key off n) s = .next t ∧ t.mem = s.mem ∧
            t.outbox = s.outbox ++ [.readReply port peer (as.map fun a => if s.backing (portDie port) a = .none ∨ u.poisoned a = true then 0 else s.rdByte a)]))) ∧
    (∀ k, lo.getLsbD 57 = false ∨ fld hi 63 52 ≠ fld key 27 16 ∨ fld hi 39 0 < off + n ∨ (fld hi 51 40 ≠ 0xFFF ∧ fld hi 51 40 ≠ peer) →
      s.exported port peer key off n k = none)

/-- 25 R425, R431, R437: a write that sets V of a window gives it its next generation; a group with a live instance keeps its words. -/
def Spec.fabric_registers : Prop :=
  ∀ (s : State) (ctx n k : Nat) (lo hi : DWord) (v : Word) (i : Inst), n < 64 → k < 1024 →
    let gen := s.regF (.xwin ctx n 1) 63 52
    let live := s.groupLive ctx n
    (s.mayWrite i (.xwin ctx n 0) = true → ∃ t, exec (.xwinWrite ctx n lo hi i) s = .next t ∧ t.reg (.xwin ctx n 0) = (s.writeReg (.xwin ctx n 0) lo).reg (.xwin ctx n 0) ∧
      t.regF (.xwin ctx n 1) 51 0 = fld hi 51 0 ∧ t.regF (.xwin ctx n 1) 63 52 = (if lo.getLsbD 57 = false then gen else if gen = 4095 then 1 else gen + 1) ∧ t.mem = s.mem) ∧
    (s.mayWrite i (.collgrp ctx n) = true → exec (.collgrpWrite ctx n lo i) s = .next (if live = true then s else s.writeReg (.collgrp ctx n) lo)) ∧
    (s.mayWrite i (.mlist ctx n k) = true → exec (.mlistWrite ctx n k v i) s = .next (if live = true then s else s.writeReg (.mlist ctx n k) (v.setWidth 64))) ∧
    (s.mayWrite i (.xwin ctx n 0) = false → exec (.xwinWrite ctx n lo hi i) s = .fault .notEnabled) ∧
    (s.mayWrite i (.collgrp ctx n) = false → exec (.collgrpWrite ctx n lo i) s = .fault .notEnabled) ∧
    (s.mayWrite i (.mlist ctx n k) = false → exec (.mlistWrite ctx n k v i) s = .fault .notEnabled)

/-! ### Selection, sharing and the quarter's events -/

/-- 14 R289, 02 R40, 08 R158: in a region cycle a quarter chooses at most two starts among its ready waves, and one at least where a wave is ready and a strand
free; two of one wave only where they are an independent pair; once in a cycle. -/
def Spec.selection : Prop :=
  ∀ (s : State) (core q : Nat), (s.waves.map Prod.fst).Nodup →
    let now := s.cycle core
    ((s.quarter (core * 4 + q)).issuedAt = some now ∨ s.coreUp core = false → exec (.quarterIssue core q) s = .fault .notEnabled) ∧
    (core < 256 → q < 4 → (s.quarter (core * 4 + q)).issuedAt ≠ some now → s.coreUp core = true →
      ∃ t ids, exec (.quarterIssue core q) s = .next t ∧ t.starts = s.starts ++ ids ∧ ids.length ≤ 2 ∧ (t.quarter (core * 4 + q)).issuedAt = some now ∧ t.mem = s.mem ∧
        (∀ k ∈ ids, ∃ w, Tab.find s.waves k = some w ∧ w.core = core ∧ w.qtr = q ∧ w.evicted = none ∧ s.ready w = true) ∧
        ((∃ k w, (k, w) ∈ s.waves ∧ w.core = core ∧ w.qtr = q ∧ w.evicted = none ∧ s.ready w = true) → s.freeStrands core q ≠ 0 → ids ≠ []) ∧
        (∀ k, ids = [k, k] → ∃ w i j, Tab.find s.waves k = some w ∧ s.pairOf w.begin = some (i, j) ∧ independent w.begin i j = true) ∧
        ∀ k, (Tab.find t.waves k).map (fun w => { w with yieldTo := [], apart := none }) = (Tab.find s.waves k).map (fun w => { w with yieldTo := [], apart := none }))

/-- 09 R165, R168-R170, R174, 02 R36, 09 R167: hashing a result, ending a compare and copying a slice change no register, tag, mask or pc of any wave, and no byte of
memory; the refetch of a line stops its wave with 0x04 where the parity fails again. -/
def Spec.sharing_is_invisible : Prop :=
  ∀ (s : State) (core q k : Nat), q < 4 →
    let seen := fun (w : Wave) => (w.regs, w.tags, w.pc, w.exm, w.live, w.cond, w.latches, w.fpc)
    let same := fun (t : State) => t.mem = s.mem ∧ t.groups = s.groups ∧ ∀ j, (Tab.find t.waves j).map seen = (Tab.find s.waves j).map seen
    ((s.quarter (core * 4 + q)).wb = [] → exec (.writeback core q) s = .fault .notEnabled) ∧
    (∀ p rest, (s.quarter (core * 4 + q)).wb = p :: rest → ∃ t, exec (.writeback core q) s = .next t ∧ same t ∧ (t.quarter (core * 4 + q)).wb = rest) ∧
    (∀ c, (s.quarter (core * 4 + q)).compares[k]? = some c → ∃ t, exec (.dedupCompareEnd core q k) s = .next t ∧ same t) ∧
    (∀ n g h, (s.quarter (core * 4 + q)).sliceCopies[k]? = some (n, g, h) → ∃ t, exec (.sliceCopyComplete core q k) s = .next t ∧ same t ∧
      (t.quarter (core * 4 + q)).sliceCopies = (s.quarter (core * 4 + q)).sliceCopies.eraseIdx k ∧
      ((∀ j x, j < 4 → x ∈ (t.quarter (core * 4 + j)).sliceCopies → x.2.1 ≠ g) → ∀ e ∈ (t.core core).held, e.1 ≠ g)) ∧
    (∀ id w, Tab.find s.waves id = some w →
      let v := { w with refetched := none }
      (w.refetched = none → exec (.lineRefetch id) s = .fault .notEnabled) ∧
      (∀ pc pas, w.refetched = some pc → fetchLine s w pc = .ok pas →
        let good := parBad (s.lineBits (dieOf w.core) pas) (slotOf pc) = false ∧ s.linePoison (dieOf w.core) pas = false
        (good → exec (.lineRefetch id) s = .next (s.setWave id v)) ∧
        (¬ good → ∃ t, exec (.lineRefetch id) s = .next t ∧ Faulted s t id v 0x04 none)))

/-! ### Faults and their handlers -/

/-- 21 R370-R372: a record is written as the next entry of the queue of the holder to whom it is routed, who becomes the handler of its wave; a full queue counts
what waits. -/
def Spec.fault_queue_records : Prop :=
  ∀ (s : State) (i : Inst),
    let tail := s.regF (.fqtail i) 31 0
    let at' := fld (s.reg (.fqbase i)) 51 6 * 64 + 64 * (tail % s.fqSize i)
    ((∀ r ∈ s.recs, s.route r ≠ i) → exec (.faultQueueRecordWrite i) s = .fault .notEnabled) ∧
    (∀ before r after, s.recs = before ++ r :: after → s.route r = i → (∀ x ∈ before, s.route x ≠ i) →
      (s.fqOpen i = true → ∃ t more, exec (.faultQueueRecordWrite i) s = .next t ∧ t.recs = before ++ after ++ more ∧
        t.regF (.fqtail i) 31 0 = (tail + 1) % 2 ^ 32 ∧
        (∀ k, k < 64 → Spec.Plain s (at' + k) → (∃ d, s.backing (s.homeDie at') (at' + k) = .mem d) → t.rdByte (at' + k) = (leBytes 64 r.body.toNat).getD k 0) ∧
        (∀ a, (a < at' ∨ at' + 64 ≤ a) → Spec.Plain s a → t.rdByte a = s.rdByte a) ∧
        (∀ id w, r.wave = some id → Tab.find s.waves id = some w → w.cond = .stopped none → Tab.find t.waves id = some { w with cond := .stopped (some i) }) ∧
        ((s.reg (.fqctl i)).getLsbD 5 = true → t.outbox = s.outbox ++ [.interrupt i])) ∧
      (s.fqOpen i = false → let news := (s.recs.filter fun x => s.route x == i && !x.waited).length
        (news = 0 → exec (.faultQueueRecordWrite i) s = .fault .notEnabled) ∧
        (news ≠ 0 → ∃ t, exec (.faultQueueRecordWrite i) s = .next t ∧ t.mem = s.mem ∧ t.waves = s.waves ∧
          t.regF (.fqfull i) 31 0 = (s.regF (.fqfull i) 31 0 + news) % 2 ^ 32 ∧ t.recs.length = s.recs.length ∧
          ∀ x ∈ t.recs, s.route x = i → x.waited = true)))

/-- 06 R145, 12 R252, 19 R341, R342: the oldest requester that waits takes a free entry or joins its own; an answer frees the entry, and each requester replays, or is
declined: a wave stops with cause 0x20, a copy is abandoned. -/
def Spec.fault_buffer : Prop :=
  ∀ (s : State) (core : Nat),
    (∀ x rest, (s.core core).fbWait = x :: rest →
      let mine := fun (e : FbEntry) => e.ctx = x.ctx ∧ e.stage = x.stage ∧ e.frame = x.iaddr / 4096
      ((∃ k e, (k, e) ∈ (s.core core).fbuf ∧ mine e) ∨ (∃ k, k < 64 ∧ Tab.find (s.core core).fbuf k = none) →
        ∃ t k e, exec (.faultBufferWaitEnd core) s = .next t ∧ (t.core core).fbWait = rest ∧ Tab.find (t.core core).fbuf k = some e ∧ mine e ∧ (x.req, x.va) ∈ e.reqs ∧
          t.mem = s.mem ∧ t.waves = s.waves)) ∧
    (∀ (die : Nat) (v : Word) (i : Inst), die < 4 → fld v 13 12 = 0 ∨ fld v 13 12 = 3 → s.mayWrite i (.fresp die) = true →
      ∃ t, exec (.registerWrite (.fresp die) (v.setWidth 64) i) s = .next t ∧ t = { s with lregs := t.lregs }) ∧
    (∀ die v i, die < 4 → s.fresp die v i = none → (fld v 13 12 = 1 → exec (.frespRetry die v i) s = .next s) ∧ (fld v 13 12 = 2 → exec (.frespDecline die v i) s = .next s)) ∧
    (∀ die v i k e, die < 4 → s.fresp die v i = some (core, k, e) →
      i = s.stageOwner e.ctx e.stage ∧
      (fld v 13 12 = 1 → ∃ t, exec (.frespRetry die v i) s = .next t ∧ Tab.find (t.core core).fbuf k = none ∧ t.mem = s.mem ∧
        ∀ id va w l m a, (Req.wave id, va) ∈ e.reqs → Tab.find s.waves id = some w → w.cond = .parked l m a →
          Tab.find t.waves id = some { w with cond := .running, run := none, latches := lostLatches }) ∧
      (fld v 13 12 = 2 → ∃ t, exec (.frespDecline die v i) s = .next t ∧ Tab.find (t.core core).fbuf k = none ∧ t.mem = s.mem ∧
        (∀ id va w l m a, (Req.wave id, va) ∈ e.reqs → Tab.find s.waves id = some w → w.cond = .parked l m a → (∀ j, l = some j → j < 32) →
          ∃ u r, Tab.find t.waves id = some u ∧ u.cond = .stopped none ∧ fld u.cause 7 0 = 0x20 ∧ u.pc = w.pc ∧ u.regs = w.regs ∧ u.exm = w.exm ∧
            r ∈ t.recs ∧ r.wave = some id ∧ fld r.body 7 0 = 0x20 ∧ fld r.body 15 14 = 2) ∧
        ∀ c va, (Req.copy c, va) ∈ e.reqs → t.findCopy core c = none))

/-- 21 R378, 06 R148, 02 R38: a handler reads and writes the registers, mask and flags of a wave that stopped for it, resumes it, ends it or its context; a command that
names no such wave, or a register that the wave does not declare, sets ERR and does nothing. -/
def Obligations.wave_control : Prop :=
  ∀ (s : State) (die : Nat) (v : DWord) (i : Inst), die < 4 →
    let op := fld v 3 0
    let n := fld v 11 4
    let l := fld v 16 12
    let data := s.reg (.wdata die)
    let ok := fun (t : State) => t.setRegF (.wcmd die) 17 17 0
    let err := Host.Outcome.next (ρ := Refusal) (φ := Fault) (s.setRegF (.wcmd die) 17 17 1)
    let runs := fun (w : Wave) => { w with cond := Cond.running, run := none, waited := false, entering := false, latches := lostLatches }
    (s.selected die v i = none → ∀ e ∈ [(Instr.wcmdReadReg die v i, 1), (.wcmdWriteReg die v i, 2), (.wcmdReadExm die v i, 3), (.wcmdWriteExm die v i, 4),
        (.wcmdReadFpc die v i, 5), (.wcmdWriteFpc die v i, 6), (.wcmdResume die v i, 8), (.wcmdResumeAt die v i, 9), (.wcmdEndWave die v i, 10), (.wcmdEndContext die v i, 11)],
      op = e.2 → exec e.1 s = err) ∧
    (∀ id w, s.selected die v i = some (id, w) →
      w.cond = .stopped (some i) ∧
      (w.declared ≤ n → (op = 1 → exec (.wcmdReadReg die v i) s = err) ∧ (op = 2 → exec (.wcmdWriteReg die v i) s = err)) ∧
      (n < w.declared → op = 1 → exec (.wcmdReadReg die v i) s = .next (ok (s.setReg (.wdata die) ((w.regLane n l).setWidth 64)))) ∧
      (n < w.declared → op = 2 → ∃ t u, exec (.wcmdWriteReg die v i) s = .next t ∧ Tab.find t.waves id = some u ∧ u.pc = w.pc ∧ u.cond = w.cond ∧ u.exm = w.exm ∧ t.mem = s.mem ∧
        t.regF (.wcmd die) 17 17 = 0 ∧
        (∀ k, k < 32 → (sliceMask w.live).getLsbD k = true → u.regLane n k = if k = l then data.setWidth 32 else w.regLane n k) ∧
        (l < 32 → (Tab.get 0 u.tags (w.key n)).getLsbD l = false) ∧
        ∀ k, k ≠ w.key n → Tab.get zeroReg u.regs k = Tab.get zeroReg w.regs k ∧ Tab.get 0 u.tags k = Tab.get 0 w.tags k) ∧
      (op = 3 → exec (.wcmdReadExm die v i) s = .next (ok (s.setReg (.wdata die) (w.exm.setWidth 64)))) ∧
      (op = 4 → exec (.wcmdWriteExm die v i) s = .next (ok (s.setWave id { w with exm := data.setWidth 32 &&& w.live }))) ∧
      (op = 5 → exec (.wcmdReadFpc die v i) s = .next (ok (s.setReg (.wdata die) ((w.fpc &&& 0x7F1F).setWidth 64)))) ∧
      (op = 6 → exec (.wcmdWriteFpc die v i) s = .next (ok (s.setWave id { w with fpc := data.setWidth 32 &&& 0x7F1F }))) ∧
      (op = 8 → w.hold3 = false → exec (.wcmdResume die v i) s = .next (ok (s.setWave id (runs w)))) ∧
      (op = 8 → w.hold3 = true → ∃ t u, exec (.wcmdResume die v i) s = .next t ∧ Tab.find t.waves id = some u ∧ u.cond = .stopped none ∧ u.cause = 3 ∧ u.pc = w.pc ∧ u.hold3 = false) ∧
      (op = 9 → exec (.wcmdResumeAt die v i) s = .next (ok (s.setWave id (runs { w with pc := data.setWidth 57, xcnt := 0, hold3 := false })))) ∧
      (op = 10 → ∃ t, exec (.wcmdEndWave die v i) s = .next t ∧ Tab.find t.waves id = none ∧ t.mem = s.mem) ∧
      (op = 11 → ∃ t, exec (.wcmdEndContext die v i) s = .next t ∧ ((∀ e, e < 4 → ∀ r ∈ (s.die e).overflow, r.ctx ≠ s.ctxOf w) → t.mem = s.mem) ∧
        (∀ k u, Tab.find s.waves k = some u → s.ctxOf u = s.ctxOf w → Tab.find t.waves k = none) ∧
        ∀ k g, Tab.find t.grids k = some g → g.ctx = s.ctxOf w → g.ended = true ∧ g.worst = 3))

/-- 21 R369, R372: a holder may give only what it holds, and what it takes away goes from every descendant at once; a fault queue's HEAD and base. -/
def Spec.rights_and_queue_registers : Prop :=
  ∀ (s : State) (i : Inst) (v : DWord) (h : Word),
    let old := s.reg (.drights i)
    (∃ t, exec (.drightsWrite i v) s = .next t ∧ t.mem = s.mem ∧ t.waves = s.waves ∧
      (∀ b, b < 11 → (t.reg (.drights i)).getLsbD b = (v.getLsbD b && (s.hasRight i b || old.getLsbD b))) ∧
      (∀ j, Inst.under i j = true → t.reg (.drights j) = s.reg (.drights j) &&& ~~~(old &&& ~~~t.reg (.drights i))) ∧
      (∀ j, Inst.under i j = false → j ≠ i → t.reg (.drights j) = s.reg (.drights j))) ∧
    (let used := (s.regF (.fqtail i) 31 0 + 2 ^ 32 - h.toNat) % 2 ^ 32
     (s.fqSize i < used → exec (.fqheadWrite i h) s = .next s) ∧
     (used ≤ s.fqSize i → exec (.fqheadWrite i h) s = .next (s.setReg (.fqhead i) (h.setWidth 64)))) ∧
    (∃ t, exec (.fqbaseWrite i v) s = .next t ∧ fld (t.reg (.fqbase i)) 51 6 = fld v 51 6 ∧ (t.reg (.fqbase i)).getLsbD 63 = v.getLsbD 63 ∧ t.mem = s.mem ∧
      ((s.reg (.fqbase i)).getLsbD 63 = false → v.getLsbD 63 = true → t.reg (.fqtail i) = 0 ∧ t.reg (.fqhead i) = 0))

/-! ### Landing cores -/

/-- A Landing core takes an exception (21 R366): pc, code and value are kept for the level that takes it, which is the level above where the core's own handler
runs; DPREV keeps the level left, and the core goes to the vector. Nothing else changes. -/
structure Spec.Excepted (s t : State) (lc : Nat) (r : LCore) (code tval : Nat) : Prop where
  core : let lv := if r.level ∈ r.handling then r.level - 1 else r.level
    let q := t.lcore lc
    q.level = lv ∧ lv ∈ q.handling ∧ q.pc = (s.reg (.dvec (r.inst lv)) &&& ~~~3) ∧ Tab.get 0 q.epc lv = r.pc ∧ Tab.get 0 q.ecause lv = code ∧
      Tab.get 0 q.etval lv = BitVec.ofNat 64 tval ∧ q.x = r.x ∧ q.dc = r.dc ∧ (t.reg (.dprev (r.inst lv))).toNat = r.level % 2 ^ 64
  others : ∀ k, k ≠ lc → t.lcore k = s.lcore k
  rest : t = { s with lcores := t.lcores, lregs := t.lregs }

/-- The signed or unsigned value of the bytes of a load (21 R365). -/
def Spec.extends (b : List Byte) (zero : Bool) (v : DWord) : Prop :=
  if zero = true ∨ b.length = 8 then v.toNat = leNat b else v.toInt = (BitVec.ofNat (8 * b.length) (leNat b)).toInt

/-- 21 R363-R366, 23 R404: every Dalcy instruction: the checks of its capability, with the exception of the first that fails, and its effect. -/
def Spec.dalcy : Prop :=
  ∀ (s : State) (r : LCore), r = s.lcore s.curL → r.fenced = false →
    let lc := s.curL
    let k := landingCore lc
    let me : Party := .landing lc
    let only := fun (t : State) (q : LCore) => t.lcore lc = { q with pc := r.pc + 4 } ∧ (∀ n, n ≠ lc → t.lcore n = s.lcore n) ∧ t.waves = s.waves
    let backed := fun (a : Nat) => s.backing (partyDie k) a ≠ .none
    (∀ (c : Cap) (off n perm : Nat), let ea := c.base + off
      capFault c off n perm =
        if c.tag = false then some (24, ea) else if 2 ^ 52 < c.base + c.len then some (25, ea) else if min (c.base + c.len) (2 ^ 57) < ea + n then
          some (25, max ea (min (c.base + c.len) (2 ^ 57))) else if c.scr = true ∨ c.has perm = false then some (26, ea) else none) ∧
    (∀ (d : BitVec 5) (c : BitVec 4) (o : BitVec 5) (z : BitVec 2) (u : Bool),
      let n := 2 ^ z.toNat
      let off := (r.get o).toNat
      let pa := (r.cap c).base + off
      (∀ code v, capFault (r.cap c) off n pRD = some (code, v) → ∃ t, exec (.dld d c o z u) s = .next t ∧ Spec.Excepted s t lc r code v) ∧
      (∀ code v, capFault (r.cap c) off n pWR = some (code, v) → ∃ t, exec (.dst d c o z) s = .next t ∧ Spec.Excepted s t lc r code v) ∧
      (capFault (r.cap c) off n pRD = none → pa % n ≠ 0 → ∃ t, exec (.dld d c o z u) s = .next t ∧ Spec.Excepted s t lc r 4 pa) ∧
      (capFault (r.cap c) off n pWR = none → pa % n ≠ 0 → ∃ t, exec (.dst d c o z) s = .next t ∧ Spec.Excepted s t lc r 6 pa) ∧
      (capFault (r.cap c) off n pRD = none → pa % n = 0 → ∃ t v bs seen, exec (.dld d c o z u) s = .next t ∧
        only t { r.put d v with seen } ∧ Spec.LandingRead (s.lTouch lc pa n) lc pa n bs ∧ Spec.extends bs u v ∧ (s.windows = [] → t.mem = s.mem)) ∧
      (capFault (r.cap c) off n pWR = none → pa % n = 0 → ∃ t, exec (.dst d c o z) s = .next t ∧ only t r ∧ t.mem = s.mem ∧
        (∀ i, i < n → backed (pa + i) → t.viewByte k me .glob (pa + i) = (leBytes n (r.get d).toNat).getD i 0) ∧
        ∀ a, (a < pa ∨ pa + n ≤ a) → t.viewByte k me .glob a = s.viewByte k me .glob a)) ∧
    (∀ (d c : BitVec 4) (o : BitVec 5),
      let off := (r.get o).toNat
      let pa := (r.cap c).base + off
      (∀ code v, capFault (r.cap c) off 16 pRD = some (code, v) → ∃ t, exec (.dldc d c o) s = .next t ∧ Spec.Excepted s t lc r code v) ∧
      (∀ code v, capFault (r.cap c) off 16 pWR = some (code, v) → ∃ t, exec (.dstc d c o) s = .next t ∧ Spec.Excepted s t lc r code v) ∧
      (capFault (r.cap c) off 16 pRD = none → pa % 16 ≠ 0 → ∃ t, exec (.dldc d c o) s = .next t ∧ Spec.Excepted s t lc r 4 pa) ∧
      (capFault (r.cap c) off 16 pWR = none → pa % 16 ≠ 0 → ∃ t, exec (.dstc d c o) s = .next t ∧ Spec.Excepted s t lc r 6 pa) ∧
      (capFault (r.cap c) off 16 pRD = none → pa % 16 = 0 → ∃ t bs tag seen, exec (.dldc d c o) s = .next t ∧
        only t { r.putCap d ⟨BitVec.ofNat 128 (leNat bs), tag⟩ with seen } ∧ Spec.LandingRead (s.lTouch lc pa 16) lc pa 16 bs ∧
        (s.windows = [] → Spec.Quiet s k .glob (pa / 16) → tag = s.homeTag k .glob (pa / 16))) ∧
      (capFault (r.cap c) off 16 pWR = none → pa % 16 = 0 → ∃ t, exec (.dstc d c o) s = .next t ∧ only t r ∧ t.mem = s.mem ∧
        (∀ i, i < 16 → backed (pa + i) → t.viewByte k me .glob (pa + i) = (leBytes 16 (r.cap d).bits.toNat).getD i 0) ∧
        (backed pa → t.viewTag k me .glob (pa / 16) = (r.cap d).tag))) ∧
    (∀ (d c : BitVec 4) (o l : BitVec 5), ∀ e ∈ [(Instr.dnarrow d c o l, narrow (r.cap c) (r.get o).toNat (r.get l).toNat 0),
        (.dperm d c o, permit (r.cap c) (((r.get o).setWidth 32) &&& 0x3F) 0)],
      (∀ v, e.2 = .ok v → ∃ t, exec e.1 s = .next t ∧ only t (r.putCap d v) ∧ t.mem = s.mem) ∧
      (∀ x, e.2 = .error x → ∃ t, exec e.1 s = .next t ∧ Spec.Excepted s t lc r (if x.code = 0x10 then 24 else 25) x.addr)) ∧
    (∀ (d : BitVec 5) (c : BitVec 4) (f : CapField), ∃ t, exec (.dget d c f) s = .next t ∧ only t (r.put d (BitVec.ofNat 64 (capField f (r.cap c)))) ∧ t.mem = s.mem) ∧
    (∀ (d c : BitVec 4), ∃ t, exec (.dmov d c) s = .next t ∧ only t (r.putCap d (r.cap c)) ∧ t.mem = s.mem)

/-- 21 R364, R398, 23 R404: below root an ordinary access goes through `dc0`, a fetch through `dc15`, with that capability's exceptions; at root it is unchecked. `FENCE`
releases what the core has written and seen, and then takes every write that has arrived into the core's floor. A fenced core does nothing. -/
def Spec.landing_accesses : Prop :=
  ∀ (s : State),
    (∀ die core kind x addr z, die < 4 → core < 8 →
      let lc := die * 8 + core
      let r := s.lcore lc
      let k := landingCore lc
      let n := if kind = LAccess.fetch then 4 else 2 ^ z.toNat
      let cap := if kind = LAccess.fetch then r.cap 15 else r.cap 0
      let perm := if kind = LAccess.store then pWR else pRD
      let go := fun (pa : Nat) =>
        let only := fun (t : State) (q : LCore) => t.lcore lc = q ∧ (∀ j, j ≠ lc → t.lcore j = s.lcore j) ∧ t.waves = s.waves
        (kind = .load → ∃ t v bs seen, exec (.landingOrdinaryAccess die core kind x addr z) s = .next t ∧ only t { r.put x v with pc := r.pc + 4, seen } ∧
          Spec.LandingRead (s.lTouch lc pa n) lc pa n bs ∧ Spec.extends bs false v) ∧
        (kind = .store → ∃ t, exec (.landingOrdinaryAccess die core kind x addr z) s = .next t ∧ only t { r with pc := r.pc + 4 } ∧ t.mem = s.mem ∧
          (∀ i, i < n → s.backing (partyDie k) (pa + i) ≠ .none → t.viewByte k (.landing lc) .glob (pa + i) = (leBytes n (r.get x).toNat).getD i 0) ∧
          ∀ a, (a < pa ∨ pa + n ≤ a) → t.viewByte k (.landing lc) .glob a = s.viewByte k (.landing lc) .glob a) ∧
        (kind = .fetch → ∃ t, exec (.landingOrdinaryAccess die core kind x addr z) s = .next t ∧ only t r)
      (kind = .fetch → addr = r.pc) → r.fenced = false →
        (r.level = 0 → go addr.toNat) ∧
        (r.level ≠ 0 → capFault cap addr.toNat n perm = none → go (cap.base + addr.toNat)) ∧
        (r.level ≠ 0 → ∀ code v, capFault cap addr.toNat n perm = some (code, v) →
          ∃ t, exec (.landingOrdinaryAccess die core kind x addr z) s = .next t ∧ Spec.Excepted s t lc r code v)) ∧
    (let lc := s.curL
     let r := s.lcore lc
     let k := landingCore lc
     let pub : Pub := { base := r.base, ids := r.know ++ r.seen, owns := [(.landing lc, s.nextId)] }
     let left := (s.core k).publication (.landing lc) pub.ids ≠ [] ∨ ∃ q ∈ (s.core k).releases, q.party = .landing lc
     r.fenced = false → ∃ t q, exec .landingFenceRw s = .next t ∧ t.lcore lc = { q with pc := r.pc + 4 } ∧ (∀ j, j ≠ lc → t.lcore j = s.lcore j) ∧ t.mem = s.mem ∧
       t.waves = s.waves ∧ t.rels = s.rels ++ [{ id := s.nextId, core := k, party := .landing lc, scope := .sys, pub }] ∧
       (left → q = { r with gate := some s.nextId } ∧ ∃ x ∈ (t.core k).releases, x.id = s.nextId ∧ x.party = .landing lc ∧ x.scope = .sys) ∧
       (¬ left → (∀ x ∈ (s.core k).releases, x.id ≠ s.nextId) → q = { r with gate := none, base := q.base, know := q.know } ∧
         (∀ e ∈ s.events k, Spec.InFloor r.base r.know e → Spec.InFloor q.base q.know e) ∧
         ∀ e ∈ s.events k, e.place = .glob → e.ix ≠ none → (∀ x ∈ s.rels, x.pub.holds e = false) → pub.holds e = false → Spec.InFloor q.base q.know e)) ∧
    ((s.lcore s.curL).fenced = true → ∀ d c o z u f (a b : BitVec 5), ∀ i ∈ [Instr.dld a d o z u, .dst a d o z, .dldc c d o, .dstc c d o, .dnarrow c d o b, .dperm c d o,
      .dget a d f, .dmov c d, .landingFenceRw], exec i s = .fault .coreFenced)

/-! ### Admission and placement -/

/-- 08 R159-R163, 13 R259, 20 R354: a core takes a group only into banks of the context's own bank set that are in its mask, no spill bank and in no use, each
for one purpose: within REGB for registers, SCRB consecutive ones, ACCB; each wave on the next quarter in a slot of its own; within the context's limits. -/
def Spec.plans_keep_to_the_partition : Prop :=
  ∀ (s : State) (core ctx : Nat) (part kprog : Word) (p : Plan), s.planRoom core ctx part kprog = some p →
    let n := fld kprog 11 7 + 1
    let banks := p.regBanks ++ (List.range (scrbOf part)).map (p.b0 + ·) ++ p.accBanks
    p.core = core ∧ (p.bset, ctx) ∈ (s.core core).setOwner ∧ (s.reg (.bsctl core p.bset)).getLsbD 6 = true ∧ s.coreUp core = true ∧ banks.Nodup ∧
    (∀ b ∈ banks, b < 64 ∧ (s.reg (.bsmask core p.bset)).getLsbD b = true ∧ fld (s.reg (.bsctl core p.bset)) 5 0 ≠ b ∧ b ∉ s.usedBanks core) ∧
    p.regBanks.length ≤ regbOf part ∧ p.accBanks.length = accbOf part ∧
    (∀ q, q < 4 → wavesOn n p.q0 q * ((fld kprog 4 0 + 1) * 8) * (fld kprog 6 5 + 1) ≤ 512 * (p.regBanks.filter fun b => b / 16 == q).length) ∧
    p.q0 < 4 ∧ p.slots.length = n ∧ p.slots.Nodup ∧
    (∀ j, j < n → ∃ k, k < 32 ∧ p.slots[j]? = some ((p.q0 + j) % 4, k) ∧ ∀ e ∈ s.residents core ((p.q0 + j) % 4), e.2.slot ≠ k) ∧
    s.ctxWaves core ctx + n ≤ s.waveLimit ctx ∧
    (accbOf part ≠ 0 → ∀ e ∈ s.groups, e.2.core = core → accbOf e.2.part = 0)

/-- Wave `j` of a group of a grid in its initial state (01 R28, R32, 14 R301): the kernel's entry, every lane live and active, `c0` in quad 0 of each window, every
other register zero without a tag. -/
structure Spec.Fresh (g : Grid) (gid index core j : Nat) (sl : Nat × Nat) (w : Wave) : Prop where
  place : w.group = gid ∧ w.core = core ∧ w.qtr = sl.1 ∧ w.slot = sl.2 ∧ w.wig = j ∧ w.evicted = none
  flow : w.pc = BitVec.ofNat 57 g.entry ∧ w.cond = .running ∧ w.live = BitVec.allOnes 32 ∧ w.exm = w.live ∧ w.tokens = [] ∧ w.held = none ∧ w.entering = true
  words : w.gridW = g.gridW ∧ w.groupW = BitVec.ofNat 32 index ∧ w.cause = 0 ∧ w.fpc = 0 ∧ w.share = 0 ∧ w.win = 0
  regs : ∀ key l, l < 32 → Lanes.at' 0 (Tab.get zeroReg w.regs key) l =
    if key % 256 < 4 ∧ key / 256 < fld g.kprog 6 5 + 1 then (g.c0.bits >>> (32 * (key % 256))).setWidth 32 else 0
  tags : ∀ key, Tab.get 0 w.tags key = if key % 256 < 4 ∧ key / 256 < fld g.kprog 6 5 + 1 ∧ g.c0.tag = true then BitVec.allOnes 32 else 0
  seeds : ∀ l, l < 32 → let v := g.gseed ^^^ BitVec.ofNat 32 ((index * 1024 + j * 32 + l) * 0x9E3779B9)
    Tab.get 0 w.seed l = if v = 0 then 1 else v

/-- 18 R313-R316, 08 R161, 21 R384: the next element of a grid whose turn it is goes to the first place that admits all its groups, each with fresh waves and an
empty window; where none does the grid keeps its place. A gang that has waited reserves the window that costs least. -/
def Spec.elements_are_placed : Prop :=
  ∀ (s : State) (grid : Nat) (g : Grid), Tab.find s.grids grid = some g → s.mayPlace grid g = true →
    let n := gangSize g.ferry
    let it := g.item grid
    let claim := s.claimOf (.grid grid)
    (∀ (i : Instr) (p e c : Nat) (plans : List Plan), g.next = some (p, e) →
      (i = .placeElement grid ∧ (∃ k, claim = some k ∧ k.moves = [] ∧ k.core = c) ∧ s.planAt it true c = some plans ∨
        (i = .placeElement grid ∨ i = .admitGroup grid c ∧ isGang g.ferry = false) ∧ claim = none ∧ s.firstPlace it = some (c, plans) ∧ s.turnOf grid g = true) →
      ∃ t ids, exec i s = .next t ∧ t.mem = s.mem ∧ (∀ k, k < s.nextId → Tab.find t.waves k = Tab.find s.waves k) ∧ plans.length = n ∧ ids.length = n ∧
        (i = .placeElement grid → t.claimOf (.grid grid) = none) ∧
        Tab.find t.grids grid = some { g with pos := p + 1, lastCluster := some (clusterOf c), waitSince := 0, reserved := none, groups := g.groups ++ ids } ∧
        ∀ r plan, plans[r]? = some plan → ∃ gid x, ids[r]? = some gid ∧ Tab.find t.groups gid = some x ∧ x.grid = some grid ∧ x.ctx = g.ctx ∧
          plan.core = c + r ∧ x.core = c + r ∧ x.bset = plan.bset ∧ x.index = e * n + r ∧ x.rank = r ∧ x.regBanks = plan.regBanks ∧ x.b0 = plan.b0 ∧
          x.accBanks = plan.accBanks ∧ x.scr = [] ∧ x.acc = [] ∧ x.queue = [] ∧ x.waves.length = plan.slots.length ∧
          ∀ j sl, plan.slots[j]? = some sl →
            ∃ id w, x.waves[j]? = some id ∧ Tab.find t.waves id = some w ∧ Spec.Fresh g gid (e * n + r) (c + r) j sl w) ∧
    (claim = none → (s.firstPlace it).isSome = true → s.turnOf grid g = false → exec (.placeElement grid) s = .fault .notEnabled) ∧
    (claim = none → s.firstPlace it = none →
      ∃ t h, exec (.placeElement grid) s = .next t ∧ t.mem = s.mem ∧ Tab.find t.grids grid = some h ∧ h.pos = g.pos ∧ h.groups = g.groups) ∧
    (let due := max 1 (s.regF (.ferryctl (g.ctx / 256)) 15 0) * 1024
     isGang g.ferry = true → g.waitSince ≠ 0 → g.reserved = none → g.waitSince + due ≤ s.ref (g.ctx / 256) + 1 →
      (∃ d ∈ s.placesOf it, s.windowCost it d ≠ none) →
      ∃ t c v, exec (.gangReserveWindow grid) s = .next t ∧ c ∈ s.placesOf it ∧ s.windowCost it c = some v ∧
        (∀ d ∈ s.placesOf it, ∀ u, s.windowCost it d = some u → lexLe v u = true) ∧
        Tab.find t.grids grid = some { g with reserved := some (c, n) } ∧ t.waves = s.waves ∧ t.groups = s.groups ∧ t.mem = s.mem)

/-- 14 R302, R304: the gatherer forms one wave of up to 32 waiting tasks of one entry, when 32 are there or the oldest has waited GWAIT: lane k runs the k-th task,
with its record offset, its id and the pool; the ring entries are taken. -/
def Spec.task_waves : Prop :=
  ∀ (s : State) (ctx q at' pa : Nat) (i : Instr) (hdr : BitVec 512) (p : Plan) (k : Task) (rest : List Task) (c : Ctx),
    let d := s.taskQueue ctx q
    let ts := collect (s.tasks d)
    let u := s.prepRead (ctx / 256) ctx .normal ([s.taskDesc ctx q, pa] ++ (s.tasks d).map fun t => tqRing d + 16 * (t.pos % tqCap d))
    q < 16 → Tab.find s.ctxs ctx = some c → c.stopped = false → (∀ e ∈ s.images, e.2.group.ctx ≠ ctx) → tqValid d = true → ts = k :: rest →
    s.taskHeader ctx d = .ok (pa, hdr) → fld hdr 43 39 = 0 → fld hdr 38 37 = 0 →
    s.claimOf (.tasks ctx q) = none → u.firstPlace (taskItem ctx q hdr) = some (at', [p]) →
    (i = .taskDispatch ctx q ∧ ts.length = 32 ∨ i = .taskGwaitExpire ctx q ∧ Tab.get 0 c.taskTimes (16 * k.pos + q) + tqWait d ≤ s.ref (ctx / 256)) →
    (∀ x ∈ ts, x ∈ s.tasks d ∧ x.v = true ∧ x.pc = k.pc) ∧ ts.length ≤ 32 ∧
    ∃ t gid x w, exec i s = .next t ∧ s.nextId ≤ gid ∧ (∀ n, n < s.nextId → Tab.find t.waves n = Tab.find s.waves n) ∧
      Tab.find t.groups gid = some x ∧ x.task = some (q, BitVec.ofNat 32 k.id, ts.length) ∧ x.ctx = ctx ∧ x.core = p.core ∧
      Tab.find t.waves (gid + 1) = some w ∧ w.group = gid ∧ w.core = p.core ∧ w.isTask = true ∧ w.cond = .running ∧ w.pc = BitVec.ofNat 57 k.pc ∧
      (∀ l, l < 32 → w.live.getLsbD l = decide (l < ts.length)) ∧ w.exm = w.live ∧
      (∀ l y, ts[l]? = some y → w.regLane 2 l = BitVec.ofNat 32 y.off ∧ w.regLane 3 l = BitVec.ofNat 32 y.id ∧
        (w.quadLane 4 l).tag = (u.taskPool ctx q).tag ∧ (w.quadLane 4 l).base = (u.taskPool ctx q).base ∧ (w.quadLane 4 l).len = (u.taskPool ctx q).len ∧
        (w.quadLane 4 l).perms = 1) ∧
      (tqRing d + 16 * tqCap d ≤ s.taskDesc ctx q ∨ s.taskDesc ctx q + 64 ≤ tqRing d → ∀ y ∈ ts,
        let a := tqRing d + 16 * (y.pos % tqCap d)
        (∀ j, j < 4 → Spec.Plain s (a + 12 + j) ∧ ∃ e, s.backing (ctx / 256) (a + 12 + j) = .mem e) → (t.rdByte (a + 15)).getLsbD 7 = false)

/-! ### Eviction and re-admission -/

/-- Some waves are marked to leave; nothing else of any wave changes, and of the state only counters. -/
structure Spec.Marked (s t : State) (ids : List Nat) : Prop where
  waves : ∀ k, Tab.find t.waves k = (Tab.find s.waves k).map fun v => if k ∈ ids then { v with leaving := true } else v
  rest : t = { s with waves := t.waves, lregs := t.lregs }

/-- 14 R292-R295, R290: a settled wave that is to leave gives up its place and keeps all that it holds, with its re-admission time; a request marks waves of no
higher priority that are not protected; a wave that fits again is seated; at its deadline it asks for room, then by force. -/
def Obligations.evictions : Prop :=
  ∀ (s : State) (id : Nat) (w : Wave), Tab.find s.waves id = some w →
    let ctx := s.ctxOf w
    let fits := fun (q : Nat) => s.fitsBack w q
    let same := fun (u : Wave) => u.regs = w.regs ∧ u.tags = w.tags ∧ u.pc = w.pc ∧ u.exm = w.exm ∧ u.live = w.live ∧ u.tokens = w.tokens ∧ u.cond = w.cond ∧
      u.held = w.held ∧ u.fpc = w.fpc ∧ u.seed = w.seed ∧ u.win = w.win
    let asked := fun (n : Int) (t : State) (force : Bool) => ∃ ids, Spec.Marked (s.setWave id { w with evicted := some (n, some (s.radl ctx)) }) t ids ∧
      ∀ k ∈ ids, k ≠ id ∧ ∃ v, (k, v) ∈ s.waves ∧ v.core = w.core ∧ v.evicted = none ∧ v.protect = 0 ∧ (force = true ∨ s.prio (s.ctxOf v) ≤ s.prio ctx)
    (w.leaving = true → w.evicted = none → s.settled id w = true → s.isSaving w = false → ∃ t u r, exec (.evictWave id) s = .next t ∧ Tab.find t.waves id = some u ∧ same u ∧
      u.evicted = some ((s.radl ctx : Int), none) ∧ u.leaving = false ∧ u.waitUntil = none ∧ t.mem = s.mem ∧
      Tab.find t.saveArea id = some ((s.settleReads id w).2.imageBytes (s.radl ctx)) ∧ t.rels = s.rels ++ [r] ∧ r.party = .wave id ∧ r.scope = .pkg ∧ t.starts = s.starts.filter (· != id) ∧
      (∀ k, k ≠ id → Tab.find t.waves k = (Tab.find s.waves k).map fun v => { v with yieldTo := v.yieldTo.filter (· != id) }) ∧
      t.regF (.coreCtr w.core .evict) 31 0 = (s.regF (.coreCtr w.core .evict) 31 0 + 1) % 2 ^ 32) ∧
    (∀ q, q < 4 → w.evicted ≠ none → fits q = true → s.setEnabled w = true → s.coreUp w.core = true →
      (∀ e ∈ s.waitingBack w.core, e.1 = id ∨ w.deadline ≤ e.2.deadline ∨ ∀ j, j < 4 → s.fitsBack e.2 j = false) →
      ∃ t u, exec (.readmitWave id q) s = .next t ∧ Tab.find t.waves id = some u ∧ same u ∧ u.evicted = none ∧ u.qtr = q ∧ u.slot ∈ s.freeSlots w.core q ∧
        t.mem = s.mem ∧ (∀ k, k ≠ id → Tab.find t.waves k = Tab.find s.waves k) ∧
        t.regF (.coreCtr w.core .readmit) 31 0 = (s.regF (.coreCtr w.core .readmit) 31 0 + 1) % 2 ^ 32) ∧
    ((∀ q, q < 4 → fits q = false) →
      (∀ n, w.evicted = some (n, none) → n ≤ 0 → ∃ t, exec (.deadlineExpire id) s = .next t ∧ asked n t false) ∧
      (∀ n, w.evicted = some (n, some 0) → ∃ t, exec (.deadlineForce id) s = .next t ∧ asked n t true)) ∧
    (∀ n m, w.evicted = some (n, some m) → ∃ t ids, exec (.evictionRequest w.core ctx (s.prio ctx) 1 (some id)) s = .next t ∧ Spec.Marked s t ids ∧ id ∉ ids) ∧
    (∀ core c n, n ≠ 0 → n ≤ s.excess core c → n ≤ (s.candidates core (s.prio c) false (some c) none none).length →
      ∃ t ids, exec (.evictionRequest core c (s.prio c) n none) s = .next t ∧ ids.length = n ∧ Spec.Marked s t ids ∧
        ∀ k ∈ ids, ∃ v, (k, v) ∈ s.waves ∧ v.core = core ∧ v.evicted = none ∧ v.protect = 0 ∧ s.ctxOf v = c) ∧
    (w.protect = 1 → exec (.minresExpire id) s = .next (s.setWave id { w with protect := 0 })) ∧
    (s.ready w = true → w.boosted = false → w.lastStart + 4096 ≤ s.cycle w.core → ∃ t, exec (.waveBoost id) s = .next t ∧
      t = { s.setWave id { w with boosted := true } with lregs := t.lregs } ∧
      t.regF (.coreCtr w.core .boost) 31 0 = (s.regF (.coreCtr w.core .boost) 31 0 + 1) % 2 ^ 32)

/-! ### Groups and grids: save, restore, end, loss -/

/-- 14 R297, R298, 18 R318, 13 R286: groups saved together leave their cores at once, each with an image of its window, its waves, its barrier entries, its copies
and its matrix state; a core that admits an image has the group again, every wave at its restart point. -/
def Spec.groups_are_saved_and_restored : Prop :=
  ∀ (s : State) (n : Nat),
    let same := fun (u v : Wave) => v.regs = u.regs ∧ v.tags = u.tags ∧ v.pc = u.pc ∧ v.exm = u.exm ∧ v.live = u.live ∧ v.tokens = u.tokens ∧ v.held = u.held ∧
      v.fpc = u.fpc ∧ v.cause = u.cause ∧ v.seed = u.seed ∧ v.win = u.win ∧ v.xcnt = u.xcnt
    (∀ g, Tab.find s.groups n = some g →
      (∀ k ∈ s.together n, ∀ x, Tab.find s.groups k = some x → x.saving = true ∧ s.mayStop k x = true) →
      (∀ e ∈ s.groups, e.2.saving = true → e.2.ctx = g.ctx → e.1 ∉ s.together n → e.2.admitted ≤ g.admitted) →
      ∃ t, exec (.groupSave n) s = .next t ∧ t.mem = s.mem ∧
        (∀ k ∈ s.together n, Tab.find t.groups k = none ∧ (∀ id u, Tab.find t.waves id = some u → u.group ≠ k) ∧
          ((Tab.find s.groups k).isSome = true → (Tab.find t.images k).isSome = true)) ∧
        (g.gang = none → ∃ img, Tab.find t.images n = some img ∧
          img.group = { g with saving := false, moving := none, queue := g.queue.map fun r => { r with started := false, parked := false } } ∧
          (∀ e ∈ s.waves, e.2.group = n → ∃ u, (e.1, u) ∈ img.waves ∧ same e.2 u) ∧
          img.entries = (s.core g.core).barriers.filter (fun e => e.2.live && e.2.group == n) ∧
          img.copies.map Copy.id = ((s.core g.core).copies.filter fun c => c.by_.group == n).map Copy.id ∧
          (∀ k, (t.entry g.core k).live = true → (t.entry g.core k).group ≠ n) ∧ ∀ c ∈ (t.core g.core).copies, c.by_.group ≠ n)) ∧
    (∀ core it plans, s.savedItem n = some it → s.claimOf it.owner = none → s.firstPlace it = some (core, plans) →
      (∀ c, Tab.find s.ctxs it.ctx = some c → c.stopped = false) → ((s.imagesWith n).map Prod.fst).Nodup →
      ((s.imagesWith n).flatMap fun x => x.2.waves.map Prod.fst).Nodup →
      let known := fun (b : Issuer) => { b with base := s.homeIx, know := [], need := [] }
      ∃ t, exec (.groupRestore n core) s = .next t ∧ t.mem = s.mem ∧ plans.length = (s.imagesWith n).length ∧
        (∀ k i rest l e, s.imagesWith n = (k, i) :: rest → i.group.gang = some l → i.gang = some e → Tab.find t.gangs l = some e) ∧
        ∀ (j k : Nat) (img : GImage) (p : Plan), (s.imagesWith n)[j]? = some (k, img) → plans[j]? = some p →
          ∃ x, Tab.find t.images k = none ∧ Tab.find t.groups k = some x ∧ x.core = p.core ∧ p.core = core + (if it.gang then img.group.rank else 0) ∧
            x.scr = img.group.scr ∧ x.scrTags = img.group.scrTags ∧ x.scrPoison = img.group.scrPoison ∧ x.acc = img.group.acc ∧ x.slots = img.group.slots ∧
            x.wbuf = img.group.wbuf ∧ x.queue = img.group.queue.map (fun r => { r with by_ := known r.by_ }) ∧
            (∀ c ∈ img.copies, { c with state := if c.state = .parked then .running else c.state, by_ := known c.by_ } ∈ (t.core p.core).copies) ∧
            ∀ y ∈ img.waves, ∃ v, Tab.find t.waves y.1 = some v ∧ same y.2 v ∧ v.group = k ∧ v.core = p.core)

/-- 12 R254, 13 R263, 21 R381, R385, 14 R306: a group ends when no wave and no command of it is left, and its barrier entries with it; a grid completes when its last
group has ended and its writes are home: its slot is free, its joiner and its command learn the status. -/
def Spec.groups_and_grids_end : Prop :=
  ∀ (s : State),
    (∀ n g, Tab.find s.groups n = some g → (∀ e ∈ s.waves, e.2.group ≠ n) →
      let mine := (s.core g.core).copies.filter fun c => c.by_.group == n
      (mine = [] → g.queue = [] → ∃ t, exec (.groupEnd n) s = .next t ∧ t.mem = s.mem ∧ Tab.find t.groups n = none ∧
        (∀ k, (t.entry g.core k).live = true → (t.entry g.core k).group ≠ n) ∧
        ∀ k r, g.grid = some k → Tab.find t.grids k = some r → n ∉ r.groups) ∧
      (mine ≠ [] → (∀ c ∈ mine, c.state = .blocked ∧ s.slotFree g.core c = false ∨ c.state = .holding ∧ s.filled g.core c < c.seq) → ∃ t, exec (.groupEnd n) s = .next t ∧ t.mem = s.mem ∧
        ∀ c ∈ (t.core g.core).copies, c.by_.group ≠ n)) ∧
    (∀ n g c, Tab.find s.grids n = some g → Tab.find s.ctxs g.ctx = some c → g.groups = [] → g.ended = true ∨ g.next = none ∧ g.status = .running →
      s.ctxHome g.ctx = true → (∀ e ∈ s.grids, e.2.parent ≠ some n) →
      let status := if g.worst ≠ 0 then g.worst else if s.lossOf g ≠ 0 ∧ g.kind = 1 then 1 else 0
      ∃ t c', exec (.gridComplete n) s = .next t ∧ Tab.find t.grids n = none ∧ t.waves = s.waves ∧ t.groups = s.groups ∧ Tab.find t.ctxs g.ctx = some c' ∧
        (g.compl = none ∨ g.parent ≠ none → t.mem = s.mem) ∧
        (g.kind = 1 → ∀ j, g.argSlot = some j → j ∉ c'.argUsed) ∧
        (g.parent = none → ∀ j e, g.ticket = some j → Tab.find c.joins j = some e → ∃ b, Tab.find c'.joins j = some { e with done := true, status, base := b } ∧
          (g.compl = none → b = s.homeIx)) ∧
        (∀ p h, g.parent = some p → p ≠ n → Tab.find s.grids p = some h → Tab.find t.grids p = some { h with worst := max h.worst status }) ∧
        (g.parent = none → ∀ a h, g.compl = some (a, h) → (Tab.find s.vdevs c.vdev).isSome = true →
          (t.vqueue c.vdev g.queue).usedIdx = ((s.vqueue c.vdev g.queue).usedIdx + 1) % 65536)) ∧
    (∀ v q head a status reason loss as,
      let ctx := (s.vdev v).ctx
      let bytes := leBytes 4 (status + reason * 256) ++ leBytes 4 loss ++ leBytes 8 (s.reg (.ctxw ctx 22)).toNat
      s.devRange ctx a 16 .write .write .write = some as → as.Nodup → (∀ b ∈ as, Spec.Plain s b ∧ ∃ d, s.backing (ctx / 256) b = .mem d) →
      ∃ u : State, s.complete v q head (some a) status reason loss = u.pushUsed v q head 16 ∧ (∀ k b, as[k]? = some b → u.rdByte b = bytes.getD k 0) ∧
        ∀ b, b ∉ as → Spec.Plain s b → u.rdByte b = s.rdByte b)

/-- 18 R322, 24 R419, 21 R375: a lost core keeps no group and no wave, and serves no more; a fenced die has every core lost and no memory behind its addresses; each is
counted or reported to root. -/
def Spec.losses : Prop :=
  ∀ (s : State),
    (∀ core, core < 256 → (s.core core).lost = false → ∀ i ∈ [Instr.coreUnresponsive core, .coreLogicError core],
      ∃ t r, exec i s = .next t ∧ t.mem = s.mem ∧ (t.core core).lost = true ∧
        (∀ k x y, Tab.find t.groups k = some x → Tab.find s.groups k = some y → y.core ≠ core) ∧
        (∀ k w y, Tab.find t.waves k = some w → Tab.find s.groups w.group = some y → y.core ≠ core) ∧
        (∀ k y, Tab.find s.groups k = some y → (∀ e ∈ s.groups, e.1 = k → e.2.core ≠ core) → (Tab.find t.groups k).isSome = true) ∧
        r ∈ t.recs ∧ r.toRoot = true ∧ r.cls = 3 ∧ fld r.body 55 52 = 5 ∧ fld r.body 57 56 = core / 64 ∧ fld r.body 63 58 = core % 64 ∧
        t.regF (.dieCtr (core / 64) .coreLost) 31 0 = (s.regF (.dieCtr (core / 64) .coreLost) 31 0 + 1) % 2 ^ 32) ∧
    (∀ die, die < 4 → (s.die die).fenced = false → (∀ k, k < 8 → (s.lcore (die * 8 + k)).fenced = true) →
      ∃ t r, exec (.dieFence die) s = .next t ∧ t.mem = s.mem ∧ (t.die die).fenced = true ∧ (t.die die).up = false ∧
        (t.reg .pkgst0).getLsbD (28 + die) = false ∧ (∀ k, k < 64 → (t.core (die * 64 + k)).lost = true) ∧
        (∀ pa, dieOfPa pa = some die → t.memBacked pa = false) ∧ r ∈ t.recs ∧ r.toRoot = true ∧ fld r.body 55 52 = 6 ∧ fld r.body 57 56 = die)

/-- 08 R162-R164: the bank masks, spill banks and gates that the Landing writes: a bank stays out of a second set and a used bank in its own; a spill bank lies in its
mask. Windows that were moved have their new place, counted in banks. -/
def Spec.bank_sets : Prop :=
  ∀ (s : State) (core n : Nat) (v : DWord) (u : Word), core < 256 → n < 8 →
    (∃ t, exec (.coreGateWrite core u) s = .next t ∧ t = { s with cores := t.cores, lregs := t.lregs } ∧ t.regF (.coreGate core) 7 0 = fld u 7 0 ∧
      ((∀ a o, (s.core core).gateWas = some (a, o) → a ≤ s.cycle core) → ∀ w : Wave, w.core = core → t.setEnabled w = s.setEnabled w) ∧
      ∀ (y : State) (w : Wave), y.core core = t.core core → y.reg (.coreGate core) = t.reg (.coreGate core) → s.cycle core < y.cycle core →
        (∀ a o, (s.core core).gateWas = some (a, o) → a ≤ s.cycle core) → w.core = core → w.bset < 8 → y.setEnabled w = u.getLsbD w.bset) ∧
    (∃ t, exec (.bsmaskWrite core n v) s = .next t ∧ t = s.setReg (.bsmask core n) (t.reg (.bsmask core n)) ∧
      ∀ b, b < 64 → (t.reg (.bsmask core n)).getLsbD b =
        if v.getLsbD b then (s.reg (.bsmask core n)).getLsbD b || !((List.range 8).any fun m => m != n && (s.reg (.bsmask core m)).getLsbD b)
        else (s.reg (.bsmask core n)).getLsbD b && decide (b ∈ s.boundBanks core n)) ∧
    (∃ t, exec (.bsctlWrite core n u) s = .next t ∧ t = s.setReg (.bsctl core n) (t.reg (.bsctl core n)) ∧
      (t.reg (.bsctl core n)).getLsbD 7 = u.getLsbD 7 ∧
      t.regF (.bsctl core n) 6 0 = if (s.reg (.bsmask core n)).getLsbD (fld u 5 0) then fld u 6 0 else s.regF (.bsctl core n) 6 0) ∧
    (let due := fun (g : Group) => g.core = core ∧ ∃ b m, g.moving = some (b, m) ∧ m ≤ s.cycle core
     (∃ e ∈ s.groups, due e.2) → ∃ t, exec (.compactionEnd core) s = .next t ∧ t = { s with groups := t.groups, lregs := t.lregs } ∧
      (∀ k g b m, Tab.find s.groups k = some g → g.core = core → g.moving = some (b, m) → m ≤ s.cycle core →
        Tab.find t.groups k = some { g with b0 := b, moving := none }) ∧
      ∀ k g, Tab.find s.groups k = some g → (∀ e ∈ s.groups, e.1 = k → ¬ due e.2) → Tab.find t.groups k = some g)

/-! ### The last-level cache, format ranges, shoot-downs, memory errors -/

/-- 19 R328, R329: a context's ways: a cleared way is given up at once and drained of the context's lines, a set one is held as soon as no drain of it runs. -/
def Spec.cache_ways : Prop :=
  ∀ (s : State) (die : Nat),
    (∀ slot (v : Word) i, die < 4 → slot < 256 → s.mayWrite i (.llcway die slot) = true →
      let r : LReg := .llcway die slot
      ∃ t, exec (.llcwayWrite die slot v i) s = .next t ∧ t.mem = s.mem ∧ (t.die die).llc = (s.die die).llc ∧ (∀ q, q ≠ r → t.reg q = s.reg q) ∧
        (∀ w, w < 16 →
          let old := (s.reg r).getLsbD w
          let held := (s.reg r).getLsbD (16 + w)
          let drains := (s.die die).drains.any fun x => x.1 == w
          (t.reg r).getLsbD w = v.getLsbD w ∧
          (t.reg r).getLsbD (16 + w) = (!(old && !v.getLsbD w) && (held || v.getLsbD w && !old && !drains))) ∧
        (∀ x ∈ (t.die die).drains, x ∈ (s.die die).drains ∨ x.2 = slot ∧ x.1 < 16 ∧ (s.reg r).getLsbD x.1 = true ∧ v.getLsbD x.1 = false) ∧
        ∀ x ∈ (s.die die).drains, x ∈ (t.die die).drains) ∧
    (∀ line l way, ((s.die die).llc.find? fun k => k.line == line) = some l → l.way = way → (way, l.slot) ∈ (s.die die).drains →
      ∃ t, exec (.wayDrainLine die way line) s = .next t ∧ (t.die die).llc = (s.die die).llc.filter (fun k => k.line != line) ∧
        (s.winAt (line * 128) = none ∨ l.dirty = false → t.mem = s.mem) ∧
        t.regF (.dieCtr die .llcDrain) 31 0 = (s.regF (.dieCtr die .llcDrain) 31 0 + if l.dirty then 1 else 0) % 2 ^ 32) ∧
    (∀ way x, way < 16 → ((s.die die).drains.find? fun y => y.1 == way && ((s.die die).draining way y.2).isEmpty) = some x →
      ∃ t, exec (.wayDrainEnd die way) s = .next t ∧ (t.die die).drains = (s.die die).drains.filter (· != x) ∧ t.mem = s.mem ∧
        ((∃ y ∈ (t.die die).drains, y.1 = way) → t.lregs = s.lregs) ∧
        ((∀ y ∈ (t.die die).drains, y.1 ≠ way) → ∀ slot, (s.reg (.llcway die slot)).getLsbD way = true → (t.reg (.llcway die slot)).getLsbD (16 + way) = true))

/-- 19 R330-R335: a range becomes valid unless its format, its places or an overlap forbid it, which ERR says; while valid it keeps its registers, and ends with none
of its lines cached. A line that is filled reads as the window presents it; a line that leaves is stored: unchanged bytes for SPLIT, re-encoded blocks for EXPAND. -/
def Spec.format_range_lines : Prop :=
  ∀ (s : State) (die : Nat),
    (∀ w : Win, s.frrRefused w = true ↔
      frrShape w.sfmt = none ∨ (w.expand = true ∧ w.shape.2.2.2.2 = false) ∨
      (∀ e ∈ s.memRanges w.die, ¬ (e.1 ≤ w.sbase ∧ w.sbase + w.storedSize ≤ e.1 + e.2)) ∨
      (∃ x ∈ s.windows, ¬ (x.die = w.die ∧ x.n = w.n) ∧
        (overlaps w.sbase w.storedSize x.sbase x.storedSize = true ∨ overlaps w.pbase w.size x.pbase x.size = true)) ∨
      ∃ d e, d < 4 ∧ e ∈ s.memRanges d ∧ overlaps w.pbase w.size e.1 e.2 = true) ∧
    (∀ n (v : DWord) i, die < 4 → n < 64 →
      let r : LReg := .frrc die n
      s.mayWrite i r = true →
      (v.getLsbD 63 = true → (s.reg r).getLsbD 63 = true → exec (.frrValidate die n v i) s = .next s) ∧
      (v.getLsbD 63 = true → (s.reg r).getLsbD 63 = false →
        let u := s.writeReg r (v &&& 0x7FFF_FFFF_FFFF_FFFF)
        ∃ t, exec (.frrValidate die n v i) s = .next t ∧ t = { s with lregs := t.lregs } ∧ (∀ q, q ≠ r → t.reg q = s.reg q) ∧ t.regF r 42 0 = fld v 42 0 ∧
          (t.reg r).getLsbD 63 = !u.frrRefused (u.frr die n) ∧ (t.reg r).getLsbD 62 = u.frrRefused (u.frr die n)) ∧
      (v.getLsbD 63 = false → (s.reg r).getLsbD 63 = true →
        ∃ t, exec (.frrInvalidate die n v i) s = .next t ∧ (t.reg r).getLsbD 63 = false ∧ (∀ l ∈ (t.die die).llc, (s.frr die n).covers (l.line * 128) = false) ∧
          ∀ l ∈ (s.die die).llc, (s.frr die n).covers (l.line * 128) = false → l ∈ (t.die die).llc)) ∧
    (∀ line w, s.winAt (line * 128) = some w → w.die = die → (∀ l ∈ (s.die die).llc, l.line ≠ line) →
      ∃ t, exec (.frrLineFill die line) s = .next t ∧ (t.die die).llc = (s.die die).llc ∧
        (∀ k, k < 128 → t.rdByte (line * 128 + k) = s.presented w (line * 128 - w.pbase + k) ∧ t.tagAt (line * 128 + k) = false) ∧
        ∀ a, a / 128 ≠ line → t.rdByte a = s.rdByte a ∧ t.tagAt a = s.tagAt a) ∧
    (∀ line w l, s.winAt (line * 128) = some w → w.die = die → ((s.die die).llc.find? fun k => k.line == line) = some l → l.dirty = true →
      (w.pbase + w.size ≤ w.sbase ∨ w.sbase + w.storedSize ≤ w.pbase) → (frrShape w.sfmt).isSome = true → (w.expand = true → w.shape.2.2.2.2 = true) →
      ∃ t, exec (.frrLineWriteback die line) s = .next t ∧ (t.die die).llc = (s.die die).llc.filter (fun k => k.line != line) ∧
        (∀ a, (a < w.sbase ∨ w.sbase + w.storedSize ≤ a) → t.rdByte a = s.rdByte a) ∧
        (w.expand = false → ∀ k a, k < 128 → w.splitMap (line * 128 - w.pbase + k) = some a → t.rdByte a = s.rdByte (line * 128 + k)) ∧
        (w.expand = true → w.sr = false → ∀ b ∈ w.blocksOf (line * 128 - w.pbase), ∀ k, k < w.recBytes →
          t.rdByte (w.sbase + b * w.recBytes + k) =
            ((reencodeBlock w ((List.range w.shape.1).map fun j => (fmtTy w.pfmt).decode (leNat (s.rdBytes (w.pbase + 2 * (b * w.shape.1 + j)) 2))) 0).1).getD k 0))

/-- 19 R343: a shoot-down by the stage's owner names translations of the context; each core of its partition drops them at a moment of its own, and what it has cached may be
used until then; it is done once every core has dropped them and every access that it issued before has performed. -/
def Spec.shoot_downs : Prop :=
  ∀ (s : State) (die : Nat) (v : DWord),
    let r : LReg := .shootb die
    let ctx := die * 256 + fld v 25 18
    let stage := fld v 17 16
    (die < 4 → stage ≠ 0 → v.getLsbD 63 = true →
      ((s.reg r).getLsbD 62 = false → ∃ t, exec (.shootGo die v (s.stageOwner ctx stage)) s = .next t ∧ t = { s with lregs := t.lregs, dies := t.dies } ∧
        (t.reg r).getLsbD 62 = true ∧ t.regF r 25 0 = fld v 25 0 ∧
        (t.die die).shoot = some { ctx, stage, first := s.regF (.shoota die) 56 12, pages := fld v 15 0, dropped := [] }) ∧
      ((s.reg r).getLsbD 62 = true → ∃ t, exec (.shootGo die v (s.stageOwner ctx stage)) s = .next t ∧ t = { s with lregs := t.lregs } ∧ (t.reg r).getLsbD 62 = true) ∧
      ∀ i, i ≠ s.stageOwner ctx stage → exec (.shootGo die v i) s = .fault .notEnabled) ∧
    (∀ x, (s.die die).shoot = some x → (∀ k ∈ s.partCores x.ctx, s.oldAccess k x.ctx (Tab.get s.nextId x.dropped k) = false) →
      ∃ t, exec (.shootDone die) s = .next t ∧ t.mem = s.mem ∧ t.waves = s.waves ∧ (t.die die).shoot = none ∧ (t.reg r).getLsbD 62 = false ∧ (t.reg r).getLsbD 61 = true ∧
        t.regF (.dieCtr die .shootCnt) 31 0 = (s.regF (.dieCtr die .shootCnt) 31 0 + 1) % 2 ^ 32 ∧
        ∀ k e, (k ∈ s.partCores x.ctx → Tab.find x.dropped k = none → (e ∈ (t.core k).tlb ↔ e ∈ (s.core k).tlb ∧ e.covered x.ctx x.stage x.first x.pages = false)) ∧
          (k ∉ s.partCores x.ctx ∨ Tab.find x.dropped k ≠ none → (t.core k).tlb = (s.core k).tlb)) ∧
    (∀ x k, (s.die die).shoot = some x → k ∈ s.partCores x.ctx → s.oldAccess k x.ctx (Tab.get s.nextId x.dropped k) = true → exec (.shootDone die) s = .fault .notEnabled)

/-- 19 R344, 21 R375: a corrected error is counted; an uncorrectable one poisons its granule in memory, where a line that the cache holds is served as it is; an error in a
dirty cached line poisons its granule there; both are counted and reported. A clean line is fetched again, with the poison of memory. -/
def Spec.memory_errors : Prop :=
  ∀ (s : State) (g : Nat),
    let pa := g * 32
    let struck := fun (t : State) (die src : Nat) (slot : Option Nat) =>
      (∀ a, a / 32 ≠ g → t.poisoned a = s.poisoned a) ∧ t.mem = s.mem ∧ t.waves = s.waves ∧
      t.regF (.dieCtr die .memUnc) 31 0 = (s.regF (.dieCtr die .memUnc) 31 0 + 1) % 2 ^ 32 ∧
      ∃ r, t.recs = s.recs ++ [r] ∧ r.cls = 3 ∧ r.toRoot = slot.isNone ∧ (pa < 2 ^ 52 → fld r.body 51 0 = pa ∧ fld r.body 55 52 = src ∧ fld r.body 57 56 = die)
    (∀ die, die < 4 → ∃ t, exec (.memCorrected die) s = .next t ∧ t = { s with lregs := t.lregs } ∧
      t.regF (.dieCtr die .memCorr) 31 0 = (s.regF (.dieCtr die .memCorr) 31 0 + 1) % 2 ^ 32) ∧
    (∀ slot, s.memBacked pa = true → ∃ t, exec (.memUncorrectable g slot) s = .next t ∧ struck t (s.homeDie pa) (if pa < 2 ^ 42 then 0 else 1) slot ∧
      Tab.get false t.mpoison g = true ∧ t.lpoison = s.lpoison ∧
      (s.cached (g / 4) = none → t.poisoned pa = true) ∧ (s.cached (g / 4) ≠ none → t.poisoned pa = s.poisoned pa)) ∧
    (let line := g / 4
     let die := s.homeDie (line * 128)
     ∀ l, s.cached line = some l →
      (l.dirty = true → die < 4 → ∃ t, exec (.llcSoftError g) s = .next t ∧ struck t die 2 none ∧ t.poisoned pa = true ∧ t.mpoison = s.mpoison) ∧
      (l.dirty = false → s.winAt (line * 128) = none → ∃ t, exec (.llcSoftError g) s = .next t ∧ t = { s with lpoison := t.lpoison } ∧
        ∀ k, k < 4 → t.poisoned (line * 128 + 32 * k) = Tab.get false s.mpoison (4 * line + k)) ∧
      (∀ w, l.dirty = false → s.winAt (line * 128) = some w → ∃ t, exec (.llcSoftError g) s = .next t ∧ t.poisoned pa = s.presentedBad w (g * 32 - w.pbase) ∧
        ∀ k, k < 128 → t.rdByte (line * 128 + k) = s.presented w (line * 128 - w.pbase + k)))

/-! ### Virtual devices: notifies, commands, registers -/

/-- A notify is dropped (21 R376, R386): DROP grows; the first of a period is reported, with its device, queue and reason. -/
structure Spec.Dropped (s t : State) (v q reason : Nat) : Prop where
  count : t.regF (.nqctl v q) 47 16 = (s.regF (.nqctl v q) 47 16 + 1) % 2 ^ 32
  report : (s.vqueue v q).dropPeriod ≠ some (s.ref (s.vdev v).home / 2 ^ 20) →
    ∃ r, t.recs = s.recs ++ [r] ∧ r.cls = 4 ∧ fld r.body 9 0 = v ∧ fld r.body 13 10 = q ∧ fld r.body 17 14 = reason
  regs : ∀ r, r ≠ .nqctl v q → t.reg r = s.reg r
  rest : t.dies = s.dies ∧ t.mem = s.mem ∧ t.waves = s.waves ∧ t.ctxs = s.ctxs

/-- 21 R386, R387: a message is held back while the journal is full; else it is dropped for the first reason that applies (queue, key, SEQ, MAC), or its SEQ is kept and
the journal has its entry. The Landing's own notify skips the key's checks. A key write sets the key and starts SEQ again. -/
def Spec.notifies : Prop :=
  ∀ (s : State) (die : Nat) (msg : List Byte),
    let x := leNat msg
    let v := x % 1024
    let q := x / 1024 % 16
    let seq := x / 2 ^ 64 % 2 ^ 64
    let c := s.reg (.nqctl v q)
    let full := 4096 ≤ (s.die die).journal.length ∨ (s.die die).heldMsgs ≠ []
    let go := exec (.notifyReceive die msg) s
    let mac := (hmac512 (keyBytes ((List.range 8).map fun k => s.reg (.nkey v q k))) (msg.take 16)).take 16 = (msg.drop 16).take 16
    (die < 4 → msg.length = 32 → (∀ d, Tab.find s.vdevs v = some d → d.home = die) → (s.die die).fenced = false →
      (full → ∃ t, go = .next t ∧ (t.die die).heldMsgs = (s.die die).heldMsgs ++ [msg] ∧ (t.die die).journal = (s.die die).journal ∧
        t.regF (.dieCtr die .njfull) 31 0 = (s.regF (.dieCtr die .njfull) 31 0 + 1) % 2 ^ 32 ∧ t.mem = s.mem ∧ t.waves = s.waves) ∧
      (¬ full →
        (c.getLsbD 0 = false ∨ c.getLsbD 1 = false → ∃ t, go = .next t ∧ Spec.Dropped s t v q 2) ∧
        (c.getLsbD 0 = true → c.getLsbD 1 = true →
          (c.getLsbD 2 = false → ∃ t, go = .next t ∧ Spec.Dropped s t v q 3) ∧
          (c.getLsbD 2 = true → seq ≤ (s.reg (.lastseq v q)).toNat → ∃ t, go = .next t ∧ Spec.Dropped s t v q 4) ∧
          (c.getLsbD 2 = true → (s.reg (.lastseq v q)).toNat < seq → ¬ mac → ∃ t, go = .next t ∧ Spec.Dropped s t v q 5) ∧
          (c.getLsbD 2 = true → (s.reg (.lastseq v q)).toNat < seq → mac → ∃ t e, go = .next t ∧ (t.reg (.lastseq v q)).toNat = seq ∧
            (t.die die).journal = (s.die die).journal ++ [e] ∧ e.vdev = v ∧ e.queue = q ∧ e.ack = false ∧ t = { s with lregs := t.lregs, dies := t.dies })))) ∧
    (∀ u k i d, Tab.find s.vdevs u = some d → u < 1024 → k < 16 → i.covers (s.tenantOf d.ctx) = true →
      ((s.reg (.nqctl u k)).getLsbD 0 = false → ∃ t, exec (.landingNotify u k i) s = .next t ∧ Spec.Dropped s t u k 2) ∧
      ((s.reg (.nqctl u k)).getLsbD 0 = true → s.served u = true → exec (.landingNotify u k i) s = .next (s.readRing u k)) ∧
      ((s.reg (.nqctl u k)).getLsbD 0 = true → s.served u = false → ∃ t e, exec (.landingNotify u k i) s = .next t ∧
        (t.die d.home).journal = (s.die d.home).journal ++ [e] ∧ e.vdev = u ∧ e.queue = k ∧ e.ack = false ∧ t = { s with dies := t.dies })) ∧
    (∀ e before after, (s.die die).journal = before ++ e :: after → e.ack = false → s.served e.vdev = true → (∀ y ∈ before, y.ack = true ∨ s.served y.vdev = false) →
      (s.die die).heldMsgs = [] → ∃ t, exec (.notifyProcess die) s = .next t ∧ (t.die die).journal = before ++ after ∧
        t = { s.readRing e.vdev e.queue with dies := t.dies }) ∧
    (∀ u k (key : List DWord) i, u < 1024 → k < 16 → key.length = 8 → s.mayWrite i (.nkey u k 0) = true →
      ∃ t, exec (.nkeyWrite u k key i) s = .next t ∧ t = { s with lregs := t.lregs } ∧ (∀ j, j < 8 → t.reg (.nkey u k j) = key.getD j 0) ∧
        (t.reg (.nqctl u k)).getLsbD 2 = true ∧ t.reg (.lastseq u k) = 0)

/-- No format range is valid, and each cached line has the poison of its memory: what a read finds does not turn on which lines the cache holds. -/
def Spec.PlainCache (s : State) : Prop :=
  s.windows = [] ∧ ∀ d, ∀ l ∈ (s.die d).llc, ∀ k, k < 4 → Tab.get false s.lpoison (4 * l.line + k) = Tab.get false s.mpoison (4 * l.line + k)

/-- 21 R380, R384: a queue's commands are read from its ring in ring order, each with the next place in the context's order. -/
def Spec.rings_are_read_in_order : Prop :=
  ∀ (s : State) (v q : Nat) (d : VDev) (c : Ctx) (b : List Byte) (h : Nat → List Byte), Tab.find s.vdevs v = some d → Tab.find s.ctxs d.ctx = some c → Spec.PlainCache s →
    let vq := s.vqueue v q
    let n := (leNat b + 65536 - vq.seen) % 65536
    s.devRead d.ctx (vq.avail + 2) 2 = some b → (∀ i, i < n → s.devRead d.ctx (vq.avail + 4 + 2 * ((vq.seen + i) % vq.size)) 2 = some (h i)) →
    vq.seen < 65536 →
    ((s.readRing v q).vqueue v q).ready = vq.ready ++ (List.range n).map (fun i => (leNat (h i), c.order + i)) ∧
    ((s.readRing v q).vqueue v q).seen = (vq.seen + n) % 65536 ∧ Tab.find (s.readRing v q).ctxs d.ctx = some { c with order := c.order + n }

/-- 21 R381-R385, 14 R306, 18 R312, 08 R160: the oldest command of a queue is refused for the first reason found, or becomes a grid of the context, which runs once it
has an argument slot; then the block lies in the slot and `c0` covers it. -/
def Spec.commands_become_grids : Prop :=
  ∀ (s : State) (v q : Nat) (c : Cmd), s.nextCmd v q = some c → s.mayDispatch v q = true → (Tab.find s.vdevs v).isSome = true →
    let ch := (s.cmdRecord v q c).1
    let child := match c with | .child .. => true | .chain .. => false
    let ctx := (s.vdev v).ctx
    let refused := fun (reason : Nat) => Host.Outcome.next (φ := Fault) (ρ := Refusal) (((s.cmdTouch v q c).takeCmd v q c).refuse v q c ch reason)
    ((s.cmdRecord v q c).2 = none → exec (.gridCommand v q) s = refused (if ch.good then 10 else 1)) ∧
    (∀ r, (s.cmdRecord v q c).2 = some r →
      let hva := recF r 16 8 % 2 ^ 57
      let len := recF r 32 4
      let part : Word := BitVec.ofNat 32 (recF r 4 4)
      let ferry : DWord := BitVec.ofNat 64 (recF r 8 8)
      (recF r 0 4 ≠ 1 → child = true ∨ recF r 0 4 ≠ 2 ∧ recF r 0 4 ≠ 3 → exec (.gridCommand v q) s = refused 2) ∧
      (recF r 0 4 = 1 → (recF r 42 2).testBit 0 = false ∨ (∀ e ∈ s.grids, e.2.ctx = ctx → e.2.queue ≠ q) →
        (s.devRead ctx hva 64 = none ∨ s.devRead ctx (recF r 24 8 % 2 ^ 57) len = none → exec (.gridCommand v q) s = refused 10) ∧
        (∀ hb args, s.devRead ctx hva 64 = some hb → s.devRead ctx (recF r 24 8 % 2 ^ 57) len = some args →
          let hdr : BitVec 512 := BitVec.ofNat 512 (leNat hb)
          (badHeader hva hdr len = true → exec (.gridCommand v q) s = refused 5) ∧
          (badHeader hva hdr len = false → badPart part hdr = true → exec (.gridCommand v q) s = refused 3) ∧
          (badHeader hva hdr len = false → badPart part hdr = false → badFerry ferry = true → exec (.gridCommand v q) s = refused 4)) ∧
        (∀ e, s.checkGrid v q r = .error e → exec (.gridCommand v q) s = refused e) ∧
        (∀ g, s.checkGrid v q r = .ok g →
          g.ctx = ctx ∧ g.queue = q ∧ g.part = part ∧ g.ferry = ferry ∧ badPart part (BitVec.ofNat 512 (leNat ((s.devRead ctx hva 64).getD []))) = false ∧
          ∃ t, exec (.gridCommand v q) s = .next t ∧ t.waves = s.waves ∧
            (s.argFree ctx = none → (s.windows = [] → t.mem = s.mem) ∧ ∃ h, Tab.find t.grids s.nextId = some h ∧ h.status = .queued ∧ h.part = part ∧ h.ferry = ferry ∧ h.kprog = g.kprog ∧
              h.entry = g.entry ∧ h.nlines = g.nlines ∧ h.args = g.args ∧ h.gridW = g.gridW ∧
              (∀ k o, c = .chain k o → h.order = o ∧ h.compl = ch.compl.map fun a => (a, k)) ∧ ∀ e p, c = .child e p → h.order = p.order ∧ h.ticket = p.ticket)))) ∧
    (∀ k o, c = .chain k o → s.refuse v q c ch 7 = s.complete v q k ch.compl 2 7 0) ∧ (∀ e p, c = .child e p → s.refuse v q c ch 7 = s.reportJoin p.ctx p.ticket 2)

/-- 21 R383, 10 R192: a grid that gets an argument slot has its block there, the rebuilt capabilities tagged, and `c0` over it for reading; where the context's tables do
not let the block be written, the command is refused. -/
def Spec.argument_slots : Prop :=
  ∀ (s : State) (ctx k j : Nat) (g : Grid),
    let waiting := s.grids.filter fun e => e.2.ctx == ctx && decide (e.2.status = .queued) && !e.2.ended
    (waiting.find? fun e => some e.2.order == (waiting.map fun y => y.2.order).min?) = some (k, g) → s.argFree ctx = some j →
    let a := s.regF (.ctxw ctx 11) 56 0 + 2304 * j
    j < s.regF (.ctxw ctx 12) 15 0 ∧
    (s.devRange ctx a g.args.length .read .write .write = none → ∃ t, exec (.argSlotWaitEnd ctx) s = .next t ∧ Tab.find t.grids k = none) ∧
    (∀ as, s.devRange ctx a g.args.length .read .write .write = some as →
      ∃ t h, exec (.argSlotWaitEnd ctx) s = .next t ∧ t.waves = s.waves ∧ Tab.find t.grids k = some h ∧ h.status = .running ∧ h.argSlot = some j ∧
        h.c0.tag = true ∧ h.c0.base = a % 2 ^ 57 ∧ (g.args.length < 2 ^ 40 → h.c0.len = g.args.length) ∧ h.c0.perms = 1 ∧ h.c0.scr = false ∧
        (∀ c, Tab.find s.ctxs ctx = some c → ∃ d, Tab.find t.ctxs ctx = some d ∧ d.argUsed = c.argUsed ++ [j]) ∧
        (as.Nodup → (∀ b ∈ as, Spec.Plain s b ∧ ∃ d, s.backing (ctx / 256) b = .mem d) →
          (∀ n b, as[n]? = some b → t.rdByte b = g.args.getD n 0) ∧ ∀ b, b ∉ as → Spec.Plain s b → t.rdByte b = s.rdByte b))

/-- 21 R367, R379, R388, R390, R391: a device is created with a context of its own, nothing of it set; a function-level reset ends all of it without reports; VDSCHED and
OVFLCTL take only what their rules allow. -/
def Spec.devices : Prop :=
  ∀ (s : State),
    (∀ die v wpart rpart i, die < 4 →
      let tenant : Word := BitVec.ofNat 32 (v + wpart * 2 ^ 10 + rpart * 2 ^ 14)
      i.covers tenant = true → s.hasRight i 0 = true →
      (1024 ≤ v ∨ 16 ≤ wpart ∨ 64 ≤ rpart ∨ (Tab.find s.vdevs v).isSome = true ∨ (∀ k, k < 256 → (Tab.find s.ctxs (die * 256 + k)).isSome = true) →
        exec (.virtualDeviceCreate die v wpart rpart i) s = .next s) ∧
      (v < 1024 → wpart < 16 → rpart < 64 → Tab.find s.vdevs v = none → ∀ k, k < 256 → Tab.find s.ctxs (die * 256 + k) = none →
        (∀ j, j < k → (Tab.find s.ctxs (die * 256 + j)).isSome = true) →
        let ctx := die * 256 + k
        ∃ t d c, exec (.virtualDeviceCreate die v wpart rpart i) s = .next t ∧ t.mem = s.mem ∧ t.waves = s.waves ∧ t.grids = s.grids ∧
          Tab.find t.vdevs v = some d ∧ d.ctx = ctx ∧ d.wpart = wpart ∧ d.rpart = rpart ∧ d.home = die ∧ (∀ q, (t.vqueue v q).seen = 0 ∧ (t.vqueue v q).ready = []) ∧
          Tab.find t.ctxs ctx = some c ∧ c.vdev = v ∧ c.joins = [] ∧ c.troot.tag = false ∧ t.tenantOf ctx = tenant ∧
          (∀ q, t.reg (.nqctl v q) = 0 ∧ t.reg (.dlctl v q) = 0) ∧ (∀ n, n ∈ [1, 2, 3, 4, 5, 6, 11, 12] → t.reg (.ctxw ctx n) = BitVec.ofNat 64 (LReg.ctxw ctx n).reset) ∧
          (∀ u, u ≠ v → Tab.find t.vdevs u = Tab.find s.vdevs u) ∧ ∀ n, n ≠ ctx → Tab.find t.ctxs n = Tab.find s.ctxs n)) ∧
    (∀ v i d, Tab.find s.vdevs v = some d → i.covers (s.tenantOf d.ctx) = true → s.hasRight i 5 = true →
      ∃ t, exec (.functionLevelReset v i) s = .next t ∧ ((∀ e, e < 4 → ∀ r ∈ (s.die e).overflow, r.ctx ≠ d.ctx) → t.mem = s.mem) ∧
        (∀ q, q < 16 → (t.reg (.nqctl v q)).getLsbD 0 = false ∧ (t.vqueue v q).seen = 0 ∧ (t.vqueue v q).usedIdx = 0 ∧ (t.vqueue v q).ready = []) ∧
        (∀ e, e < 4 → ∀ j ∈ (t.die e).journal, j.vdev = v → j.ack = true) ∧
        (∀ k u, Tab.find s.waves k = some u → s.ctxOf u = d.ctx → Tab.find t.waves k = none) ∧
        (∀ k g, Tab.find t.grids k = some g → g.ctx = d.ctx → g.ended = true ∧ g.compl = none ∧ g.ticket = none) ∧
        ∀ k u, Tab.find s.vdevs k = some u → k ≠ v → ∃ u', Tab.find t.vdevs k = some u' ∧ u'.ctx = u.ctx ∧ ∀ q, (t.vqueue k q).ready = (s.vqueue k q).ready) ∧
    (∀ die (v : DWord) i, die < 4 → s.mayWrite i (.ovflctl die) = true →
      (s.regF (.ovflst die) 20 0 ≠ 0 → exec (.ovflctlWrite die v i) s = .next s) ∧
      (s.regF (.ovflst die) 20 0 = 0 → ∃ t, exec (.ovflctlWrite die v i) s = .next t ∧ t = { s.setReg (.ovflctl die) (t.reg (.ovflctl die)) with dies := t.dies } ∧ (t.die die).ringHead = 0 ∧
        t.regF (.ovflctl die) 57 7 = fld v 57 7)) ∧
    (∀ v (x : DWord) i d, Tab.find s.vdevs v = some d → s.mayWrite i (.vdsched v) = true →
      let r : LReg := .vdsched v
      let save := s.regF r 55 34
      ∃ t, exec (.vdschedWrite v x i) s = .next t ∧ t = s.setReg r (t.reg r) ∧ t.regF r 55 34 = save ∧
        (fld x 31 8 = 0 → (t.reg r).getLsbD 33 = true ∧ t.regF r 31 0 = s.regF r 31 0) ∧
        (fld x 31 8 ≠ 0 → (t.reg r).getLsbD 33 = false ∧ t.regF r 7 0 = fld x 7 0 ∧
          (s.bankResident d.ctx = true ∨ save ≤ fld x 31 8 → t.regF r 31 8 = fld x 31 8 ∧ (t.reg r).getLsbD 32 = false) ∧
          (s.bankResident d.ctx = false → fld x 31 8 < save → t.regF r 31 8 = (save + 50) % 2 ^ 24 ∧ (t.reg r).getLsbD 32 = true)))

/-- 00 R3, 21 R368, 19 R330, R332, R343: a read of a register gives its write-only bits as zero. A register write by a holder who may make it (of SHOOTB: the owner of the
stage that is written, log 19) stores the writable bits, clears where 1 is written to a W1C bit, and changes no other register; a range's places stand while it is valid,
a zero seed is stored as 1; TROOT follows its two words. Who may not write changes nothing. -/
def Spec.register_writes : Prop :=
  ∀ (s : State),
    (∀ (r : LReg) n, (s.readReg r).getLsbD n = ((s.reg r).getLsbD n && !r.wo.testBit n)) ∧
    (∀ v q k, s.readReg (.nkey v q k) = 0) ∧
    ∀ (r : LReg) (v : DWord) (i : Inst), ownEvent s v r = false →
      let m : DWord := BitVec.ofNat 64 r.rw
      let stored := ((s.reg r &&& ~~~m) ||| (v &&& m)) &&& ~~~(BitVec.ofNat 64 r.w1c &&& v)
      (s.admits i v r = false → exec (.registerWrite r v i) s = .fault .notEnabled) ∧
      ((∀ d, r ≠ .shootb d) → s.admits i v r = s.mayWrite i r) ∧
      (∀ d, r = .shootb d → (s.admits i v r = true ↔ fld v 17 16 ≠ 0 ∧ i = s.stageOwner (d * 256 + fld v 25 18) (fld v 17 16))) ∧
      (s.admits i v r = true → s.frrHeld r = true → exec (.registerWrite r v i) s = .next s) ∧
      (s.admits i v r = true → s.frrHeld r = false → ∃ t, exec (.registerWrite r v i) s = .next t ∧ t.mem = s.mem ∧ t.waves = s.waves ∧
        ((∀ d n, r ≠ .frrd d n) → t.reg r = stored) ∧ (∀ d n, r = .frrd d n → t.reg r = if fld v 31 0 = 0 then 1 else stored) ∧
        ((∀ d, r ≠ .clkdef d) → ∀ q, q ≠ r → t.reg q = s.reg q) ∧
        (∀ d, r = .clkdef d → ∀ q, (∀ n, q ≠ .clkcap d n) → q ≠ r → t.reg q = s.reg q) ∧
        (r = .hbeat → t.hbeatAge = 0) ∧ (r ≠ .hbeat → t.hbeatAge = s.hbeatAge) ∧
        (∀ ctx c, Tab.find s.ctxs ctx = some c →
          (r = .ctxw ctx 8 → ∃ d, Tab.find t.ctxs ctx = some d ∧ d.troot.tag = false ∧ d.troot.bits = ((c.troot.bits >>> 64).setWidth 64 ++ v : BitVec 128)) ∧
          (r = .ctxw ctx 9 → ∃ d, Tab.find t.ctxs ctx = some d ∧ d.troot.tag = true ∧ d.troot.bits = (v ++ c.troot.bits.setWidth 64 : BitVec 128))))

/-! ### Checkpoints -/

/-- 21 R393: the parts of a context's image lie where the rule says; its size is its length, and its code is the HMAC under the partition's key of all but itself. -/
def Spec.checkpoint_image : Prop :=
  ∀ (s : State) (v : Nat),
    let ctx := (s.vdev v).ctx
    let img := s.checkpoint v
    let groups := (s.images.filter fun e => e.2.group.ctx == ctx).length
    9600 ≤ img.length ∧
    (img.length < 2 ^ 64 → recF img 8 8 = img.length) ∧ recF img 0 4 = 1 ∧ recF img 4 4 = groups % 2 ^ 32 ∧ recF img 16 4 = (s.pendingOf ctx).length % 2 ^ 32 ∧
    (img.drop 64).take 64 = hmac512 (s.ckeyBytes (s.vdev v).wpart) (img.take 64 ++ img.drop 128) ∧
    (∀ k, k < 32 → k ≠ 8 → k ≠ 9 → recF img (128 + 8 * k) 8 = (s.reg (.ctxw ctx k)).toNat) ∧
    (∀ q j, q < 16 → j < 64 → img.getD (384 + 64 * q + j) 0 = s.homeAt (s.taskDesc ctx q + j)) ∧
    (∀ c j, Tab.find s.ctxs ctx = some c → j < 1024 →
      let e := Tab.get {} c.joins j
      let x := recF img (1408 + 8 * j) 8
      x % 2 ^ 21 = e.gen % 2 ^ 21 ∧ x.testBit 21 = e.valid ∧ x.testBit 22 = e.done ∧ x / 2 ^ 23 % 8 = e.status % 8)

/-- 21 R392, R394, R385, 20 R348, R352, R360: a save first holds the context's groups at issue; when all may stop it refuses an image that does not fit (9) or cannot be
written (10), else writes it. A launch is refused while the context has grids (11), for an image that cannot be read (10), is malformed (9) or does not verify (8); else it
loads the context: of TL4, REDUCED is the package's own, an interval length of 0 counts as 1, and `BREAD` reads the loop that was restored. -/
def Spec.checkpoint_commands : Prop :=
  ∀ (s : State) (v q : Nat) (d : VDev) (x : Ctx) (c : Cmd) (ch : Chain) (h : Nat) (r : List Byte), Tab.find s.vdevs v = some d → Tab.find s.ctxs d.ctx = some x →
    let ctx := d.ctx
    let ids := s.groupsOf ctx
    let after := s.cmdTouch v q c
    (s.checkpointCmd v q 3 = some (c, ch, h, r) → s.served v = true → (∀ e ∈ s.grids, e.2.ctx = ctx → e.2.queue = q → e.2.status ≠ .queued) →
      let held := x.stopped = true ∧ ∀ k ∈ ids, ∀ g, Tab.find s.groups k = some g → g.saving = true
      let out := after.takeCmd v q c
      let saved := after.saveContext ctx
      let img := saved.checkpoint v
      (¬ held → ∃ t y, exec (.checkpointSave v q) s = .next t ∧ Tab.find t.ctxs ctx = some y ∧ y.stopped = true ∧ t.mem = s.mem ∧ t.waves = s.waves ∧
        ∀ k ∈ ids, ∀ g, Tab.find t.groups k = some g → g.saving = true) ∧
      (held → (∀ k ∈ ids, ∀ g, Tab.find s.groups k = some g → s.mayStop k g = true) →
        (recF r 24 8 < img.length → exec (.checkpointSave v q) s = .next ((out.refuse v q c ch 9).goOn ctx)) ∧
        (img.length ≤ recF r 24 8 → (saved.takeCmd v q c).devWrite ctx (recF r 16 8 % 2 ^ 57) img = none →
          exec (.checkpointSave v q) s = .next ((out.refuse v q c ch 10).goOn ctx)) ∧
        (∀ u, img.length ≤ recF r 24 8 → (saved.takeCmd v q c).devWrite ctx (recF r 16 8 % 2 ^ 57) img = some u →
          let fin := u.complete v q h ch.compl 0 0 0
          ∃ t y, exec (.checkpointSave v q) s = .next t ∧ ((recF r 42 2).testBit 1 = false ∨ (∀ e, e < 4 → ∀ z ∈ (fin.die e).overflow, z.ctx ≠ ctx) → t.mem = fin.mem) ∧
            Tab.find t.ctxs ctx = some y ∧ y.stopped = false ∧
            (t.vqueue v q).usedIdx = ((s.vqueue v q).usedIdx + 1) % 65536 ∧
            ((recF r 42 2).testBit 1 = true → ∀ k g, Tab.find t.grids k = some g → g.ctx = ctx → g.ended = true ∧ g.compl = none ∧ g.ticket = none)))) ∧
    (s.checkpointCmd v q 2 = some (c, ch, h, r) → s.mayDispatch v q = true →
      let va := recF r 16 8 % 2 ^ 57
      let out := (after.devTouch ctx va 16).takeCmd v q c
      let no := fun (reason : Nat) => exec (.checkpointLaunch v q) s = .next (out.refuse v q c ch reason)
      ((∃ e ∈ s.grids, e.2.ctx = ctx) → no 11) ∧
      ((∀ e ∈ s.grids, e.2.ctx ≠ ctx) →
        (s.devRead ctx va 16 = none → no 10) ∧
        (∀ b, s.devRead ctx va 16 = some b →
          let size := recF b 8 8
          (recF b 0 4 ≠ 1 ∨ size < 9600 ∨ recF r 24 8 < size → no 9) ∧
          (recF b 0 4 = 1 → 9600 ≤ size → size ≤ recF r 24 8 →
            (s.devRead ctx va size = none → no 10) ∧
            (∀ img, s.devRead ctx va size = some img →
              let good := (img.drop 64).take 64 = hmac512 (s.ckeyBytes d.wpart) (img.take 64 ++ img.drop 128)
              (¬ good → no 8) ∧ (good → imageParts img = none → no 9) ∧
              (∀ p, good → imageParts img = some p →
                let gs := p.groups.zipIdx.map fun y => (y.1.1, y.1.2.1, groupOfImage y.1.2.2 (s.nextId + 1 + idStride * y.2) ctx y.1.2.1 y.1.1 (s.tenantOf ctx)
                  (s.handlerFor (s.tenantOf ctx)) fun k => Config.unstated 4 (s.draw + 2 * y.2 + k))
                let bad := ∃ y ∈ gs, ∃ b ∈ imageCaps y.2.2.img, rebuild x.troot y.2.2.img.group.part b = none
                let word := fun (k : Nat) => (BitVec.ofNat 64 (recF img (128 + 8 * k) 8) : DWord)
                (bad → no 6) ∧
                (¬ bad → ∃ t cmd y, exec (.checkpointLaunch v q) s = .next t ∧ Tab.find t.grids s.nextId = some cmd ∧ cmd.kind = 2 ∧ cmd.status = .running ∧ cmd.ctx = ctx ∧
                  cmd.compl = ch.compl.map (fun a => (a, h)) ∧ t.waves = s.waves ∧ Tab.find t.ctxs ctx = some y ∧
                  (∀ k ∈ [1, 2, 3, 11, 12, 16, 17, 18, 19, 21, 22, 24, 25, 26, 27, 28], t.reg (.ctxw ctx k) = word k) ∧
                  (∀ n, n < 64 → (t.reg (.ctxw ctx 20)).getLsbD n = if n = 56 then (s.reg .pkgst0).getLsbD 40 else (word 20).getLsbD n) ∧
                  (∀ k ∈ [10, 23], (t.reg (.ctxw ctx k)).toNat = max (s.reg (.ctxw ctx k)).toNat (recF img (128 + 8 * k) 8)) ∧
                  y.ilen = max 1 (fld (word 16) 55 32) ∧ y.bread = t.breadList ctx ∧
                  (∀ j, j < 1024 → (Tab.get {} y.joins j).gen = recF img (1408 + 8 * j) 8 % 2 ^ 21 ∧ (Tab.get {} y.joins j).valid = (recF img (1408 + 8 * j) 8).testBit 21) ∧
                  ∀ e ∈ gs, ∃ i, Tab.find t.images (e.2.2.img.group.waves.headD 1 - 1) = some i ∧ i.group.ctx = ctx)))))))

/-! ### Hard partitions and supervisors -/

/-- 21 R395-R397: a handshake closes the affected queues and drains; when nothing of the affected dies runs the map changes, memory that moved reads zero, and no translation of
an affected context is left; at the deadline the queues reopen and nothing has changed. -/
def Spec.handshakes : Prop :=
  ∀ (s : State) (v : Word) (i : Inst),
    let new := s.regF .hpst 15 8
    let moved := fun (d : Nat) => d < 4 ∧ s.hpOf d ≠ new / 4 ^ d % 4
    (s.mayWrite i .hpst = true →
      (v.getLsbD 31 = true → (s.reg .hpst).getLsbD 2 = false → ∃ t, exec (.hpstGo v i) s = .next t ∧ t = { s with lregs := t.lregs, drainLeft := t.drainLeft } ∧
        t.regF .hpst 15 8 = fld v 15 8 ∧ t.regF .hpst 1 0 = 1 ∧ (t.reg .hpst).getLsbD 2 = true ∧ t.drainLeft = max 1 (s.regF .draindl 31 0) * 1024) ∧
      (v.getLsbD 31 = false ∨ (s.reg .hpst).getLsbD 2 = true → exec (.hpstGo v i) s = .next (s.writeReg .hpst (v.setWidth 64)))) ∧
    (s.regF .hpst 1 0 = 1 → s.drainedParts = true → ∃ t, exec .hpDrainDone s = .next t ∧ t.waves = s.waves ∧ t.regF .hpmap 7 0 = new ∧
      t.regF .hpst 1 0 = 0 ∧ (t.reg .hpst).getLsbD 2 = false ∧ (t.reg .hpst).getLsbD 4 = true ∧
      (∀ d, d < 4 → s.affected d = true → ∀ e, e < 4 → (t.reg (.memacc d)).getLsbD e = decide (new / 4 ^ e % 4 = new / 4 ^ d % 4)) ∧
      (∀ d pa, moved d → dieOfPa pa = some d → t.rdByte pa = 0 ∧ t.tagAt pa = false ∧ t.poisoned pa = false) ∧
      (∀ d, d < 4 → s.affected d = true → (t.die d).llc = []) ∧
      (∀ ctx c, Tab.find s.ctxs ctx = some c → ctx < 1024 → s.affected (ctx / 256) = true →
        ∀ k ∈ t.partCores ctx, ∀ e ∈ (t.core k).tlb, e.ctx = ctx → e.stage = 0 ∨ 3 < e.stage)) ∧
    (s.regF .hpst 1 0 = 1 → s.drainLeft = 0 → s.drainedParts = false → ∃ t, exec .hpDrainTimeout s = .next t ∧ t = s.setReg .hpst (t.reg .hpst) ∧
      t.regF .hpst 1 0 = 0 ∧ (t.reg .hpst).getLsbD 2 = false ∧ (t.reg .hpst).getLsbD 3 = true ∧ t.regF .hpst 15 8 = new)

/-- 21 R398-R400: the primary counts HBEAT each period; a standby that has seen none for four periods fences it and takes its place; a silent command core is fenced and its
devices move; a fenced core runs nothing and its writes that have not arrived are gone. -/
def Spec.supervisors : Prop :=
  ∀ (s : State),
    let silent := fun (t : State) (lc : Nat) => (t.lcore lc).fenced = true ∧ (t.core (256 + lc)).pend = [] ∧ (t.core (256 + lc)).releases = []
    (s.booted = true → (s.lcore s.primary).fenced = false → s.hbPeriod ≤ s.hbeatAge → ∃ t, exec .heartbeat s = .next t ∧ t.hbeatAge = 0 ∧ t.mem = s.mem ∧ t.waves = s.waves ∧
      t.regF .hbeat 31 0 = (s.regF .hbeat 31 0 + 1) % 2 ^ 32 ∧
      ∀ k, k < 32 → t.lcore k = if (s.lcore k).fenced then s.lcore k else { s.lcore k with heart := (s.lcore k).heart + 1 }) ∧
    (s.booted = true → s.noStandby = false → (s.lcore s.standby).fenced = false → 4 * s.hbPeriod ≤ s.hbeatAge →
      ∃ t, exec .standbyTakeover s = .next t ∧ t.hbeatAge = 0 ∧ t.waves = s.waves ∧ (s.windows = [] → t.mem = s.mem) ∧ silent t s.primary ∧ t.primary = s.standby ∧
        (t.reg .supst).getLsbD (7 + s.primary) = true ∧
        ((∀ c, 2 ≤ c → c < 8 → c ≠ s.standby → c = s.primary ∨ (s.lcore c).fenced = true) → t.noStandby = true) ∧
        (∀ c, 2 ≤ c → c < 8 → c ≠ s.standby → c ≠ s.primary → (s.lcore c).fenced = false →
          (∀ j, 2 ≤ j → j < c → j ≠ s.standby → j = s.primary ∨ (s.lcore j).fenced = true) → t.standby = c)) ∧
    (∀ (v : Word) i, s.mayWrite i .lfence = true →
      let lc := fld v 4 3 * 8 + fld v 2 0
      (v.getLsbD 5 = true → ∃ t, exec (.lfenceGo v i) s = .next t ∧ silent t lc ∧ (∀ k, k ≠ lc → t.lcore k = s.lcore k) ∧ (t.reg .lfence).getLsbD 31 = true ∧ t.mem = s.mem ∧
        t.waves = s.waves) ∧
      (v.getLsbD 5 = false → ∃ t, exec (.lfenceGo v i) s = .next t ∧ t = s.setReg .lfence (t.reg .lfence) ∧ t.regF .lfence 4 0 = fld v 4 0 ∧
        (t.reg .lfence).getLsbD 31 = (s.lcore lc).fenced)) ∧
    (∀ die core, die < 4 → core < 8 → die * 8 + core ∈ s.commandCores die →
      let lc := die * 8 + core
      ∃ t, exec (.commandCoreFence die core) s = .next t ∧ silent t lc ∧ (s.windows = [] → t.mem = s.mem) ∧ t.waves = s.waves ∧
        (∀ k u, Tab.find s.vdevs k = some u → ∃ u', Tab.find t.vdevs k = some u' ∧ u'.ctx = u.ctx ∧ (u.lcore ≠ lc → u'.lcore = u.lcore) ∧
          (u.lcore = lc → (∃ y, y ∈ s.commandCores die ∧ y ≠ lc) → u'.lcore ∈ s.commandCores die ∧ u'.lcore ≠ lc)))

/-! ### Bring-up, attestation, power and clocks, links -/

/-- 24 R414, R416, R419: the boot ROM measures and starts the first image that verifies, else the package stays in recovery; another die starts on request. An item trains in its
turn, within three attempts; memory that trains is zero; when all have settled reduced service ends. Which root capabilities firmware leaves at boot is the model's free value (log 69). -/
def Spec.bring_up : Prop :=
  ∀ (s : State),
    let caps := fun (t : State) (lc : Nat) => ∀ j, (t.lcore lc).cap j = match Config.bootCap lc j.toNat with | some b => ⟨b, true⟩ | none => (s.lcore lc).cap j
    (∀ a b, s.booted = false → (s.reg .pkgst0).getLsbD 41 = false →
      let started := fun (img : List Byte) => ∃ t, exec (.powerOn a b) s = .next t ∧ t.booted = true ∧ (t.die 0).up = true ∧ (t.die 0).refclk = 0 ∧
        (t.reg .pkgst0).getLsbD 28 = true ∧
        t.measBytes 0 0 = sha512 (s.measBytes 0 0 ++ sha512 img) ∧ t.mem = s.mem ∧ ∀ k, k < 8 → caps t k
      (imageGood a = true → started a) ∧ (imageGood a = false → imageGood b = true → started b) ∧
      (imageGood a = false → imageGood b = false → ∃ t, exec (.powerOn a b) s = .next t ∧ t = s.setReg .pkgst0 (t.reg .pkgst0) ∧ (t.reg .pkgst0).getLsbD 41 = true)) ∧
    (s.booted = true →
      (∀ die, 0 < die → die < 4 → (s.die die).up = false → (s.die die).fenced = false → ∃ t, exec (.dieResetRelease die) s = .next t ∧ (t.die die).up = true ∧
        (t.die die).refclk = 0 ∧ (t.reg .pkgst0).getLsbD (28 + die) = true ∧ t.mem = s.mem ∧ ∀ k, k < 8 → caps t (die * 8 + k)) ∧
      (∀ die n item, die < 4 → 0 < n → n < 4 → ∃ t, exec (.measExtend die n item) s = .next t ∧ t = { s with lregs := t.lregs } ∧
        t.measBytes die n = sha512 (s.measBytes die n ++ sha512 item) ∧ ∀ d k, (d, k) ≠ (die, n) → t.measBytes d k = s.measBytes d k) ∧
      (∀ die nonce, die < 4 → nonce.length = 32 → ∃ sig, exec (.attestQuote die nonce) s = .next { s with outbox := s.outbox ++ [.quote nonce sig] } ∧
        sig = Config.ed25519Sign (Config.attestKey (s.measBytes 0 0))
          (sha512 (nonce ++ (s.measBytes die 0 ++ s.measBytes die 1 ++ s.measBytes die 2 ++ s.measBytes die 3) ++ leBytes 8 (s.reg .pkgst0).toNat))) ∧
      ((s.reg .pkgst0).getLsbD 40 = true →
        (∀ item cap, trainReal item = true → s.settledItem item = false → s.mayTrain item = true →
          (∃ t, exec (.trainItem item true cap) s = .next t ∧ t.trained item = true ∧ t.waves = s.waves ∧
            (∀ pa, inItem item pa = true → t.rdByte pa = 0 ∧ t.tagAt pa = false ∧ t.poisoned pa = false) ∧
            ∀ pa, inItem item pa = false → t.rdByte pa = s.rdByte pa) ∧
          ∃ t, exec (.trainItem item false cap) s = .next t ∧ t.mem = s.mem ∧ t.trained item = false ∧ t.tries item = s.tries item + 1 ∧
            t.regF (.dieCtr (trainDie item) .trainFail) 31 0 = (s.regF (.dieCtr (trainDie item) .trainFail) 31 0 + if s.tries item = 2 then 1 else 0) % 2 ^ 32) ∧
        ((∀ item, trainReal item = true → s.settledItem item = true) → ∃ t, exec .trainingComplete s = .next t ∧ t = { s with lregs := t.lregs } ∧
          (t.reg .pkgst0).getLsbD 40 = false)))

/-- 24 R409-R413: power steps follow the window's average, a trip forces step 0 until it recovers; a region's step is the smallest of its cap, the package's and reduced
service's, one lower under a lasting droop; a brief droop stretches a period, at most one in eight. -/
def Spec.power_and_clocks : Prop :=
  ∀ (s : State),
    let p := s.regF .pkgpwr 27 24
    let trip := (s.reg .pkgpwr).getLsbD 28
    (∀ w : BitVec 12, 2 ^ 20 ≤ s.powerWin → ∃ t, exec (.powerWindowEnd w) s = .next t ∧ t = { s.setReg .pkgpwr (t.reg .pkgpwr) with powerWin := 0 } ∧
      t.regF .pkgpwr 23 12 = w.toNat ∧ t.regF .pkgpwr 11 0 = s.regF .pkgpwr 11 0 ∧
      (let limit := min 3000 (s.regF .pkgpwr 11 0)
       (limit < w.toNat → t.regF .pkgpwr 27 24 = p - 1) ∧
       (w.toNat ≤ limit → 100 * w.toNat < 95 * limit → trip = false → t.regF .pkgpwr 27 24 = min 15 (p + 1)) ∧
       (w.toNat ≤ limit → 95 * limit ≤ 100 * w.toNat ∨ trip = true → t.regF .pkgpwr 27 24 = p))) ∧
    (trip = false → ∃ t, exec .thermalTrip s = .next t ∧ t = { s with lregs := t.lregs } ∧ t.regF .pkgpwr 27 24 = 0 ∧ (t.reg .pkgpwr).getLsbD 28 = true ∧
      t.regF (.dieCtr 0 .thermTrip) 31 0 = (s.regF (.dieCtr 0 .thermTrip) 31 0 + 1) % 2 ^ 32) ∧
    (trip = true → ∃ t, exec .thermalRecover s = .next t ∧ t = s.setReg .pkgpwr (t.reg .pkgpwr) ∧ (t.reg .pkgpwr).getLsbD 28 = false ∧ t.regF .pkgpwr 27 0 = s.regF .pkgpwr 27 0) ∧
    (∀ die region, die < 4 → region < 8 →
      let r : LReg := .clkcap die region
      let eff := min (s.regF r 3 0) (min p (if (s.reg .pkgst0).getLsbD 40 then 0 else 15))
      let low := Tab.get false (s.die die).droop region
      let due := if low then eff - 1 else eff
      (s.regF r 7 4 ≠ due → ∃ t, exec (.clockStepChange die region) s = .next t ∧ t = s.setReg r (t.reg r) ∧ t.regF r 7 4 = due ∧ t.regF r 3 0 = s.regF r 3 0) ∧
      (s.regF r 7 4 = due → exec (.clockStepChange die region) s = .fault .notEnabled) ∧
      (low = false → ∃ t, exec (.supplyDroop die region true) s = .next t ∧ t = { s with lregs := t.lregs, dies := t.dies } ∧ t.regF r 7 4 = s.regF r 7 4 - 1 ∧
        Tab.get false (t.die die).droop region = true ∧ t.regF (.dieCtr die .droopStep) 31 0 = (s.regF (.dieCtr die .droopStep) 31 0 + 1) % 2 ^ 32) ∧
      (8 ≤ Tab.get 8 (s.die die).stretch region → ∃ t, exec (.supplyDroop die region false) s = .next t ∧ t = { s with dies := t.dies } ∧
        Tab.get 8 (t.die die).stretch region = 0) ∧
      (Tab.get 8 (s.die die).stretch region < 8 → exec (.supplyDroop die region false) s = .fault .notEnabled) ∧
      (low = true → ∃ t, exec (.supplyRecover die region) s = .next t ∧ t = { s with lregs := t.lregs, dies := t.dies } ∧ t.regF r 7 4 = eff ∧
        Tab.get false (t.die die).droop region = false))

/-- 24 R405, R419, R420, 25 R439: replays are counted; eight in a row retrain the port, which goes on or is marked failed; a mesh link that cannot recover fences the die at its
far end. -/
def Spec.links : Prop :=
  ∀ (s : State),
    (∀ a b, a < 4 → b < 4 → (meshLink a b = true ↔ (a % 2 ≠ b % 2 ∧ a / 2 = b / 2) ∨ (a % 2 = b % 2 ∧ a / 2 ≠ b / 2))) ∧
    (∀ die peer, meshLink die peer = true → (s.die peer).fenced = false → ∃ t, exec (.d2dLinkFail die peer) s = .next t ∧ (t.die peer).fenced = true ∧ t.mem = s.mem ∧
      ∀ k, k < 64 → (t.core (peer * 64 + k)).lost = true) ∧
    (∀ die, die < 4 → ∃ t, exec (.d2dFlitReplay die) s = .next t ∧ t = { s with lregs := t.lregs } ∧
      t.regF (.dieCtr die .d2dReplay) 31 0 = (s.regF (.dieCtr die .d2dReplay) 31 0 + 1) % 2 ^ 32) ∧
    (∀ port, s.portUp port = true →
      let n := Tab.get 0 s.replays port
      let item : TrainItem := if port < 48 then .sport port else .uport (port - 48)
      (n < 8 → ∃ t, exec (.flitCrcFail port) s = .next t ∧ t = { s with lregs := t.lregs, replays := t.replays } ∧ Tab.get 0 t.replays port = n + 1 ∧
        t.regF (.portCtr port .flitReplay) 31 0 = (s.regF (.portCtr port .flitReplay) 31 0 + 1) % 2 ^ 32) ∧
      (n = 8 → ∀ ok, ∃ t, exec (.linkRetrain port ok) s = .next t ∧ t = { s with lregs := t.lregs, replays := t.replays } ∧ Tab.get 0 t.replays port = 0 ∧
        t.trained item = ok ∧ t.regF (.portCtr port .linkRetrain) 31 0 = (s.regF (.portCtr port .linkRetrain) 31 0 + 1) % 2 ^ 32))

/-! ### The machine -/

/-- A step whose next start is a wave: the line at its PC is fetched, and the slot's instruction runs on it (02 R34-R39, R57, 08 R155); beside its effect only the
wave's times, the strands and the counters move. -/
def Spec.step_runs_the_decoded_instruction : Prop :=
  ∀ (s : State) (id : Nat) (rest : List Nat) (w : Wave) (pas : List Nat) (i : Instr), s.starts = id :: rest → Tab.find s.waves id = some w → w.held = none →
    let u := { s with starts := rest }
    let v := w.begin
    let line := s.lineBits (dieOf w.core) pas
    let v' := { v with line := lineWord line, entering := false }
    let c := ((u.setWave id v).cacheLeaves w.core (s.ctxOf w) (lineOf v.pc).toNat).prepRead (dieOf w.core) (s.ctxOf w) .normal pas
    s.ready w = true → fetchLine (u.setWave id v) v v.pc = .ok pas → kindBad (lineWord line) = false → illegalPc v.pc = false →
    parBad line (slotOf v.pc) = false → s.linePoison (dieOf w.core) pas = false → (w.entering = true → (lineWord line).getLsbD (5 + slotOf v.pc) = true) →
    decodeWave (slotWord line (slotOf v.pc)) = .ok i → v'.beyond i.named = false →
    (v.regs = w.regs ∧ v.tags = w.tags ∧ v.live = w.live ∧ (w.continuesRun = true → v = w) ∧ (agedIndex w.tokens w.ageLimit = none → v.pc = w.pc ∧ v.exm = w.exm)) ∧
    (c.freeStrands w.core w.qtr ≠ 0 → c.wouldHit v' i = none →
      ∃ (k : Option SKey) (m : State), m = { c with lregs := m.lregs } ∧
        (∀ f, exec i { m.setWave id { v' with looked := k } with cur := some id } = .fault f → step s = .fault f) ∧
        ∀ t, exec i { m.setWave id { v' with looked := k } with cur := some id } = .next t →
          ∃ r, step s = .next r ∧ r.mem = t.mem ∧ r.groups = t.groups ∧ r.cores = t.cores ∧ r.recs = t.recs ∧ r.ctxs = t.ctxs ∧
            ∀ n y, Tab.find t.waves n = some y → ∃ z, Tab.find r.waves n = some z ∧ z.regs = y.regs ∧ z.tags = y.tags ∧ z.pc = y.pc ∧ z.exm = y.exm ∧ z.live = y.live ∧
              z.cond = y.cond ∧ z.cause = y.cause ∧ z.fpc = y.fpc ∧ z.tokens = y.tokens ∧ z.latches = y.latches)

/-- A step of a Landing core runs the instruction that its word decodes to (21 R364, R365); an event of the agenda is its own step (log 2); a clock's turn is one period of
it, once what falls in the period before has happened (01 R20, 20 R348, R355, 24 R413). -/
def Spec.step_runs_landing_words_and_events : Prop :=
  ∀ (s : State), s.starts = [] →
    (∀ lc rest, (s.agenda = .landing lc :: rest ∨ s.agenda = [] ∧ lc = 0 ∧ rest = []) →
      let r := s.lcore lc
      let s' := { s with agenda := rest }
      let u := if r.gate = none then s' else s'.acquireL lc r
      let at' := if r.level = 0 then r.pc.toNat else (r.cap 15).base + r.pc.toNat
      let y := u.lTouch lc at' 4
      let word := BitVec.ofNat 32 (leNat (y.lRead lc at' 4))
      (r.fenced = true → step s = .fault .coreFenced) ∧
      (r.fenced = false → (∀ g, r.gate = some g → ∃ x ∈ (s.core (256 + lc)).releases, x.id = g) → r.gate ≠ none → step s = .fault .notEnabled) ∧
      (r.fenced = false → (∀ g, r.gate = some g → ∀ x ∈ (s.core (256 + lc)).releases, x.id ≠ g) →
        u.lcore lc = { r with gate := none, base := (u.lcore lc).base, know := (u.lcore lc).know } ∧
        (r.level = 0 ∨ capFault (r.cap 15) r.pc.toNat 4 0 = none →
          (∀ i, decodeLanding word = some i → step s = exec i { y with curL := lc }) ∧
          (decodeLanding word = none → fld word 6 0 = 0x0F → fld word 14 12 = 0 → step s = .next (y.setL lc { u.lcore lc with pc := (u.lcore lc).pc + 4 })) ∧
          (decodeLanding word = none → fld word 6 0 = 0x0B → ∃ t, step s = .next t ∧ Spec.Excepted y t lc (u.lcore lc) 2 word.toNat)) ∧
        (∀ code v, r.level ≠ 0 → capFault (r.cap 15) r.pc.toNat 4 0 = some (code, v) → ∃ t, step s = .next t ∧ Spec.Excepted u t lc (u.lcore lc) code v))) ∧
    (∀ i rest, s.agenda = .event i :: rest → encode i = none → step s = exec i { s with agenda := rest }) ∧
    (∀ die region rest, s.agenda = .regionCycle die region :: rest → die < 4 → region < 16 →
      ∃ t, step s = .next t ∧ Tab.get 0 t.cycles (die * 16 + region) = Tab.get 0 s.cycles (die * 16 + region) + 1 ∧ t.mem = s.mem ∧ t.waves = s.waves) ∧
    (∀ die rest, s.agenda = .refCycle die :: rest → s.cycleOpen die = true → step s = .fault .notEnabled) ∧
    (∀ die rest, s.agenda = .refCycle die :: rest → die < 4 → s.cycleOpen die = false → ∃ t, step s = .next t ∧ (t.die die).refclk = (s.die die).refclk + 1 ∧ t.mem = s.mem ∧
      ∀ k w, Tab.find s.waves k = some w → ∃ v, Tab.find t.waves k = some v ∧ v.regs = w.regs ∧ v.pc = w.pc ∧ v.cond = w.cond)

/-- Every step keeps the memory in its canonical form. -/
def Obligations.step_keeps_memory_canonical : Prop :=
  ∀ (s t : State), s.MemCanonical → step s = .next t → t.MemCanonical

/-- The canonical form holds at reset; and the values that the spec states for reset (00 R3, 13 R287, 19 R330, R332, 20 R348, 21 R363, R396-R400, 24 R406-R412, R415): no
wave, no virtual device, no die up, the package in reduced service, the limits of power, the periods and deadlines, the clocks, the words of cores and dies. That
a byte which nothing has written reads as zero is the model's choice (log 4). -/
def Obligations.reset_is_as_stated : Prop :=
  State.reset.MemCanonical ∧ State.reset.waves = [] ∧ State.reset.vdevs = [] ∧ (∀ a, State.reset.rdByte a = 0) ∧
  (∀ k, (State.reset.lcore k).level = 0 ∧ (State.reset.lcore k).fenced = false) ∧ (∀ d, (State.reset.die d).up = false ∧ (State.reset.die d).fenced = false) ∧
  (∀ n k m, ∀ e ∈ [(LReg.pkgst0, 2 ^ 40), (.pkgst1, 0), (.supst, 8), (.hpst, 0), (.draindl, 0x10000), (.hbper, 0x10000), (.pkgpwr, 0x0F00_0BB8), (.mxpwr n, 0x0010_0040),
      (.mxwake n, 0x0190_0008), (.mxstat n, 2), (.frrd n k, 1), (.ferryctl n, 0x100), (.memacc n, 0xF), (.clkcap n k, 0xF), (.clkdef n, 0xF), (.meas n k m, 0)],
    State.reset.reg e.1 = BitVec.ofNat 64 e.2)


/-! ### Words of the spec, and two rules word for word -/

/-- 02 R60: the padding word, its instruction and its parity. -/
def Obligations.padding_word : Prop :=
  decodeWave 0x0000_0000_0000_0000_0000_00FB = .ok (.nop (W.ofBits 0)) ∧ parity 0x0000_0000_0000_0000_0000_00FB = true ∧
  ∀ x : IWord, decodeWave x = .ok (.nop (W.ofBits 0)) → x = 0xFB

/-- 24 R408: DIES of MEMACC has the bits of every die at reset; root alone writes it, and no other bit of the register is written; a request from a die whose bit is clear
finds nothing behind an address of the die, in its memory or in a format range that it presents; the handshake sets DIES to the dies of the new partition. -/
def Obligations.memory_access_of_dies : Prop :=
  ∀ (s : State),
    (∀ d, State.reset.reg (.memacc d) = 0xF) ∧
    (∀ i d, s.mayWrite i (.memacc d) = true ↔ i = .root) ∧
    (∀ d v, ∃ t, exec (.registerWrite (.memacc d) v .root) s = .next t ∧ t = s.setReg (.memacc d) (t.reg (.memacc d)) ∧
      t.reg (.memacc d) = (s.reg (.memacc d) &&& ~~~0xF) ||| (v &&& 0xF)) ∧
    (∀ d v i, i ≠ .root → exec (.registerWrite (.memacc d) v i) s = .fault .notEnabled) ∧
    (∀ d e pa, dieOfPa pa = some d → s.memBacked pa = true → s.backing e pa = if (s.reg (.memacc d)).getLsbD e then .mem d else .none) ∧
    (∀ e pa w, s.memBacked pa = false → s.winAt pa = some w → (s.reg (.memacc w.die)).getLsbD e = false → s.backing e pa = .none) ∧
    (∀ e pa, s.memBacked pa = false → s.winAt pa = none → s.backing e pa = .none) ∧
    (s.regF .hpst 1 0 = 1 → s.drainedParts = true → ∃ t, exec .hpDrainDone s = .next t ∧
      ∀ d, d < 4 → s.affected d = true → ∀ e, e < 4 → (t.reg (.memacc d)).getLsbD e = decide (t.regF .hpmap 7 0 / 4 ^ e % 4 = t.regF .hpmap 7 0 / 4 ^ d % 4))

/-- A 96-bit word from its three 32-bit words, low first. -/
def Spec.word (lo mid hi : BitVec 32) : IWord := (hi ++ mid ++ lo : BitVec 96)

/-- The fields of a word: type, destination, operands A and B, MOD, TAIL. -/
def Spec.fields (ty : BitVec 4) (d a b : BitVec 8) (mod : BitVec 6) (tail : BitVec 32) (g : Guard := .always) : W :=
  { ty, nw := false, d, a := .reg a false false, b := .reg b false false, g, mod, tail }

/-- Words that the spec's worked examples and entries write out, one or more of each family (02 R42-R45): each decodes to the instruction that it is given for. -/
def Spec.words_decode : Prop :=
  ∀ e ∈ ([
    (Spec.word 0x1C24_1002 0x0000_0000 0x0030_0000, .addImm (Spec.fields 1 18 14 0 0 0x0030_0000)),
    (Spec.word 0x2224_1601 0x0000_0130 0x0000_0014, .mad (Spec.fields 1 18 17 19 0 20)),
    (Spec.word 0x1018_2004 0x0000_0000 0x0000_0004, .cmpImm .eq (Spec.fields 2 12 8 0 0 4)),
    (Spec.word 0x161C_211C 0x0000_0000 0x0000_0005, .shrImm (Spec.fields 2 14 11 0 0 5)),
    (Spec.word 0x0014_2025 0x0000_0000 0x0000_0080, .movImm (Spec.fields 2 10 0 0 0 0x80)),
    (Spec.word 0x1800_0042 0x0000_0000 0x000C_0009, .split (Spec.fields 0 0 12 0 0 0x000C_0009)),
    (Spec.word 0x0000_0048 0x0012_8000 0x0000_0000, .exit (Spec.fields 0 0 0 0 0 0 (.on false 9))),
    (Spec.word 0x2E34_A080 0x0000_0000 0x0000_8000, .cvtFF (Spec.fields 10 26 23 0 0 0x8000)),
    (Spec.word 0x3A3C_0094 0x0400_0000 0x0000_0000, .lredFloat .add (Spec.fields 0 30 29 0 1 0)),
    (Spec.word 0x2400_62A1 0x0018_8160 0x0000_0002, .st .gl (Spec.fields 6 0 18 22 0 2 (.on false 12))),
    (Spec.word 0x082E_22A4 0x0000_0160 0x0000_1000, .ldg .gl (Spec.fields 2 23 4 22 0 0x1000)),
    (Spec.word 0x240A_10B0 0x0000_0060 0x0100_0040, .atom .add (Spec.fields 1 5 18 6 0 0x0100_0040)),
    (Spec.word 0x0000_00BD 0x0000_0000 0x0200_0000, .acq (Spec.fields 0 0 0 0 0 0x0200_0000)),
    (Spec.word 0x121A_01C0 0x0000_0090 0x0000_0000, .ballocCount (Spec.fields 0 13 9 9 0 0)),
    (Spec.word 0x3800_01C8 0x8000_0340 0x001C_3046, .cpyTile (Spec.fields 0 0 28 52 0x20 0x001C_3046)),
    (Spec.word 0x2000_01D0 0x8000_0000 0x0050_3081, .mmaZ (Spec.fields 0 0 16 0 0x20 0x0050_3081)),
    (Spec.word 0x0000_00E0 0x0400_0000 0x0000_0010, .role (Spec.fields 0 0 0 0 1 0x10)),
    (Spec.word 0x000C_01E2 0x0000_0000 0x0000_2005, .glaunchW (Spec.fields 0 6 0 0 0 0x2005)),
    (Spec.word 0x000A_00EA 0x0000_0000 0x0000_0004, .bread (Spec.fields 0 5 0 0 0 4)),
    (Spec.word 0x0A00_02EC 0x0000_0000 0x0000_0000, .gwait (Spec.fields 0 0 5 0 0 0)),
    (Spec.word 0x2000_00F0 0x5800_0000 0x0000_3002, .put (Spec.fields 0 0 16 0 0x16 0x3002))] : List (IWord × Instr)), decodeWave e.1 = .ok e.2

/-! ### The statements that join these -/

/-- Every bit of every encoding is kept: wave instructions and the Landing's own (02 R42-R47, 21 R365, 23 R404). -/
def Obligations.decode_of_encode : Prop := Spec.wave_decode_of_encode ∧ Spec.landing_decode_of_encode

/-- The words that the spec writes out decode to their instructions, and the reserved codes decode to none (02 R42-R45, R58, R59). -/
def Obligations.words_decode_as_written : Prop := Spec.words_decode ∧ Spec.reserved_opcodes

/-- 04 R88, 02 R51: integer arithmetic on registers and with an immediate. -/
def Obligations.integer_arithmetic : Prop := Spec.integer_arithmetic_registers ∧ Spec.integer_arithmetic_immediate

/-- 04 R89-R91: compares, selection and bit counts. -/
def Obligations.compares_selects_and_counts : Prop := Spec.compare_and_select ∧ Spec.bit_counts

/-- 04 R92, R93, 02 R51: bitwise logic and any function of three inputs. -/
def Obligations.logic_and_ternary : Prop := Spec.logic ∧ Spec.ternary_function

/-- 04 R94-R97: shifts, rotates, fields, moves and byte selection. -/
def Obligations.shifts_fields_and_moves : Prop := Spec.shifts ∧ Spec.fields_moves_and_bytes

/-- 05 R122, 03 R69, R74, R76: what an operation on finite values rounds, and which NaN it gives. -/
def Obligations.float_results : Prop := Spec.float_operations_round_the_exact_result ∧ Spec.float_nan_results

/-- 05 R122-R125, 02 R51: float arithmetic, compares and classes. -/
def Obligations.float_instructions : Prop := Spec.float_arithmetic ∧ Spec.float_compare_and_classify

/-- 05 R126, R127: `FRCP`, `FRSQ`, `FSQRT`, `FEX2`, `FLG2`, `FSIN` and `FCOS` complete with the value and the flags of their operation; its special inputs, its exact cases,
and NX elsewhere. -/
def Obligations.reciprocals_roots_and_approximations : Prop := Spec.reciprocal_root_and_approximations ∧ Spec.special_inputs ∧ Spec.exact_cases

/-- 05 R128, R129, 03 R78, R79, R81: conversions between float formats and to and from integers. -/
def Obligations.format_conversions : Prop := Spec.conversions ∧ Spec.integer_conversion_clamps

/-- 05 R130-R133, 03 R77: block scales, quantised elements, packing. -/
def Obligations.scales_quantisation_and_packing : Prop := Spec.block_scales_and_packing ∧ Spec.quantised_element

/-- 05 R138, 03 R83, R84: reductions and scans over lanes, integer and float. -/
def Obligations.reductions_and_scans : Prop := Spec.integer_reductions_and_scans ∧ Spec.float_reductions_and_scans

/-- 04 R98-R103, 01 R15, R16, 06 R141: derivations, their checks, fields and tests. -/
def Obligations.capabilities : Prop := Spec.derivation_checks ∧ Spec.derivations ∧ Spec.capability_fields_and_checks

/-- 04 R104-R106, 02 R37, 06 R141: branches, calls and returns. -/
def Obligations.transfers_of_control : Prop := Spec.transfers ∧ Spec.return_transfers

/-- 04 R107-R111: splits, meets, loops and breaks, and the settling of an empty path. -/
def Obligations.reconvergence : Prop := Spec.settling ∧ Spec.reconvergence_tokens ∧ Spec.breaks

/-- 04 R112-R117, 01 R8, R14, 06 R146, R149: no-ops, waits, exits, service calls and traps. -/
def Obligations.waits_exits_and_traps : Prop := Spec.exit_ends_lanes_and_waves ∧ Spec.no_operations_and_waits ∧ Spec.service_calls_and_traps

/-- 04 R114, 01 R11, R19-R23, R27, R28: reads and writes of every special register. -/
def Obligations.special_registers : Prop := Spec.special_register_reads ∧ Spec.special_register_writes

/-- 10 R182-R190, R193, R194, R206, 01 R14, R17: loads take what their lanes read, and the data returns. -/
def Obligations.loads : Prop := Spec.loads_sample ∧ Spec.load_data_returns

/-- 10 R187, R191-R195, 11 R214, 12 R232, 06 R147: stores, their tags, spills and fills. -/
def Obligations.stores_spills_and_fills : Prop := Spec.stores ∧ Spec.stored_tags ∧ Spec.spill_and_fill

/-- 10 R184-R186, 01 R16, 06 R141: the first check of an access that fails stops it without effect. -/
def Obligations.checks_of_accesses : Prop := Spec.access_checks_stop ∧ Spec.form_checks

/-- 10 R196-R200: atomics send one request for each address, which performs at its home in lane order. -/
def Obligations.atomics : Prop := Spec.atomics_send_requests ∧ Spec.aggregation_is_sequential ∧ Spec.atomic_requests_perform

/-- 10 R201-R205, 11 R212, R216, R217, R220: releases, acquires, fences, and the arrival of writes. -/
def Obligations.ordering : Prop := Spec.ordering_instructions ∧ Spec.accesses_wait_for_order ∧ Spec.arrivals_and_releases ∧ Spec.acquires_raise_the_floor ∧ Spec.scopes_nest

/-- 12 R233, R236-R241, 11 R225: barrier objects from allocation to waiting. -/
def Obligations.barriers : Prop := Spec.barrier_allocation ∧ Spec.barrier_updates ∧ Spec.barrier_waits

/-- 12 R244, R245, R247, R250, 13 R260, 25 R428: copies are captured at issue; a wave waits for a free record and goes on when one is. -/
def Obligations.copies_issue : Prop := Spec.copy_commands_issue ∧ Spec.engine_waits_end

/-- 13 R260-R287: matrix commands are captured at issue; the array's power states. -/
def Obligations.matrix_commands : Prop := Spec.matrix_commands_issue ∧ Spec.matrix_power_states

/-- 13 R261, R270, R275, R283, 03 R85: records run in order, and a k-step adds the exact sum of its products. -/
def Obligations.matrix_records_run : Prop := Spec.partial_sums_are_exact ∧ Spec.records_run

/-- 14 R300, R302-R304: role windows, enqueued tasks, and the waves that run them. -/
def Obligations.roles_and_tasks : Prop := Spec.roles ∧ Spec.task_enqueue ∧ Spec.task_waves

/-- 14 R305, R306, 21 R390, 18 R319-R321: device-side launches and joins, and the gang barrier. -/
def Obligations.launches_joins_and_gangs : Prop := Spec.launches ∧ Spec.joins ∧ Spec.gang_barrier

/-- 20 R347, R349-R354: beats, and what an interval end computes. -/
def Obligations.beats_and_intervals : Prop := Spec.beat_instructions ∧ Spec.interval_ends

/-- 20 R355-R361, 21 R391: grants fit their limits, shares are bounded, and both take effect. -/
def Obligations.quay_and_tiller : Prop := Spec.quay_grants_fit ∧ Spec.shares_are_bounded ∧ Spec.grants_and_loop_writes

/-- 25 R425, R427-R433, R437: fabric commands at issue, and the windows and groups that they name. -/
def Obligations.fabric_commands_and_windows : Prop := Spec.fabric_commands_issue ∧ Spec.fabric_registers

/-- 25 R421, R423-R426, R430, R434: chunks of remote commands, and requests that peers make here. -/
def Obligations.remote_memory : Prop := Spec.remote_chunks ∧ Spec.inbound_requests

/-- 25 R432-R434: contributions, results and losses of collectives. -/
def Obligations.collectives : Prop := Spec.collective_results ∧ Spec.collectives_run

/-- 14 R289, 02 R40, 08 R158, R165, 09 R167-R174: which wave starts, and that sharing changes no value. -/
def Obligations.selection_and_sharing : Prop := Spec.selection ∧ Spec.sharing_is_invisible

/-- 21 R369-R372, 06 R145, 12 R252, 19 R341, R342: records to their queues, the fault buffer, rights and queue registers. -/
def Obligations.fault_queues : Prop := Spec.fault_queue_records ∧ Spec.fault_buffer ∧ Spec.rights_and_queue_registers

/-- 21 R363-R366, R398, 23 R404: Dalcy, ordinary accesses, exceptions, `FENCE`. -/
def Obligations.landing_cores : Prop := Spec.dalcy ∧ Spec.landing_accesses

/-- 14 R297, R298, R306, 18 R318, 12 R254, 13 R263, R286, 21 R381, R385: groups saved, restored and ended, grids completed. -/
def Obligations.groups_live_and_end : Prop := Spec.groups_are_saved_and_restored ∧ Spec.groups_and_grids_end

/-- 18 R322, 24 R405, R419, R420, 25 R439: lost cores, fenced dies, links. -/
def Obligations.losses_and_links : Prop := Spec.losses ∧ Spec.links

/-- 08 R162-R164, 19 R328, R329: what the Landing gives a context of a core's banks and of the cache. -/
def Obligations.bank_sets_and_cache_ways : Prop := Spec.bank_sets ∧ Spec.cache_ways

/-- 19 R330-R335: format ranges, their fills and their write-backs. -/
def Obligations.format_ranges : Prop := Spec.format_range_lines

/-- 19 R343, R344, 21 R375: shoot-downs and memory errors. -/
def Obligations.shoot_downs_and_memory_errors : Prop := Spec.shoot_downs ∧ Spec.memory_errors

/-- 21 R380, R384, R386, R387: notifies, and the rings that they make read. -/
def Obligations.notifies_and_rings : Prop := Spec.notifies ∧ Spec.rings_are_read_in_order

/-- 21 R381-R385, 14 R306, 18 R312, 08 R160, 10 R192: commands become grids, and grids get their arguments. -/
def Obligations.commands_and_argument_slots : Prop := Spec.commands_become_grids ∧ Spec.argument_slots

/-- 21 R367, R368, R379, R388, R390, R391, 00 R3, 19 R330, R332: devices, and writes of registers. -/
def Obligations.devices_and_registers : Prop := Spec.devices ∧ Spec.register_writes

/-- 21 R385, R392-R394: the image, its save and its launch. -/
def Obligations.checkpoints : Prop := Spec.checkpoint_image ∧ Spec.checkpoint_commands

/-- 21 R395-R400: handshakes of hard partitions, and the supervisor pair. -/
def Obligations.partitions_and_supervisors : Prop := Spec.handshakes ∧ Spec.supervisors

/-- 24 R409-R416: bring-up, attestation, power and clocks. -/
def Obligations.package : Prop := Spec.bring_up ∧ Spec.power_and_clocks

/-- 02 R34-R39, R57, 08 R155, 21 R364, R365, 01 R20: a step runs the instruction that it decodes, an event, or a tick of a clock. -/
def Obligations.machine_steps : Prop := Spec.step_runs_the_decoded_instruction ∧ Spec.step_runs_landing_words_and_events

/-- 08 R159-R163, 13 R259, 18 R313-R316, 20 R354, 21 R384: plans keep to the partition, and elements go where the first plan is. -/
def Obligations.placement : Prop := Spec.plans_keep_to_the_partition ∧ Spec.elements_are_placed
end

