-- ==== Sys2Proof/Laws/Tab.lean ====
section
/-! SUPPORT. What the operations of a sparse table do: reading after writing, and the canonical form. -/

namespace Sys2Proof.Machine

variable {α : Type}

/-! ### Reading after writing -/

@[simp] theorem Tab.find_set (t : Tab α) (n m : Nat) (v : α) : Tab.find (Tab.set t n v) m = if m = n then some v else Tab.find t m := by
  induction t with
  | nil => simp [Tab.set, Tab.find]
  | cons e t ih =>
    obtain ⟨k, w⟩ := e
    simp only [Tab.set]
    split
    · subst_vars; simp only [Tab.find]; split <;> simp_all
    · split
      · simp only [Tab.find]
      · simp only [Tab.find, ih]; split <;> split <;> simp_all

@[simp] theorem Tab.get_set (d : α) (t : Tab α) (n m : Nat) (v : α) : Tab.get d (Tab.set t n v) m = if m = n then v else Tab.get d t m := by
  induction t with
  | nil => simp [Tab.set, Tab.get]
  | cons e t ih =>
    obtain ⟨k, w⟩ := e
    simp only [Tab.set]
    split
    · subst_vars; simp only [Tab.get]; split <;> simp_all
    · split
      · simp only [Tab.get]
      · simp only [Tab.get, ih]; split <;> split <;> simp_all

@[simp] theorem Tab.get_erase (d : α) (t : Tab α) (n m : Nat) : Tab.get d (Tab.erase t n) m = if m = n then d else Tab.get d t m := by
  induction t with
  | nil => simp [Tab.erase, Tab.get]
  | cons e t ih =>
    obtain ⟨k, w⟩ := e
    simp only [Tab.erase] at ih ⊢
    simp only [List.filter_cons]
    split
    · simp only [Tab.get, ih]; split <;> split <;> simp_all
    · simp only [Tab.get, ih]; split <;> simp_all

@[simp] theorem Tab.find_erase (t : Tab α) (n m : Nat) : Tab.find (Tab.erase t n) m = if m = n then none else Tab.find t m := by
  induction t with
  | nil => simp [Tab.erase, Tab.find]
  | cons e t ih =>
    obtain ⟨k, w⟩ := e
    simp only [Tab.erase] at ih ⊢
    simp only [List.filter_cons]
    split
    · simp only [Tab.find, ih]; split <;> split <;> simp_all
    · simp only [Tab.find, ih]; split <;> simp_all

@[simp] theorem Tab.get_put [DecidableEq α] (d : α) (t : Tab α) (n m : Nat) (v : α) :
    Tab.get d (Tab.put d t n v) m = if m = n then v else Tab.get d t m := by
  unfold Tab.put
  split
  · subst_vars; simp
  · simp

theorem Tab.get_of_find (d : α) (t : Tab α) (n : Nat) : Tab.get d t n = (Tab.find t n).getD d := by
  induction t with
  | nil => rfl
  | cons e t ih => obtain ⟨k, w⟩ := e; simp only [Tab.get, Tab.find]; split <;> simp_all

@[simp] theorem Tab.find_upd (t : Tab α) (n m : Nat) (f : α → α) :
    Tab.find (Tab.upd t n f) m = if m = n then (Tab.find t n).map f else Tab.find t m := by
  unfold Tab.upd
  split <;> rename_i h
  · split <;> simp_all
  · simp [h]

/-! ### The canonical form -/

theorem Tab.wfFrom_mono [DecidableEq α] (d : α) {a b : Nat} (h : a ≤ b) : ∀ {t : Tab α}, Tab.wfFrom d b t = true → Tab.wfFrom d a t = true
  | [], _ => rfl
  | (k, v) :: t, w => by
    simp only [Tab.wfFrom, Bool.and_eq_true, decide_eq_true_eq] at w ⊢
    exact ⟨⟨by omega, w.1.2⟩, w.2⟩

theorem Tab.wfFrom_filter [DecidableEq α] (d : α) (p : Nat × α → Bool) : ∀ {t : Tab α} {a : Nat}, Tab.wfFrom d a t = true →
    Tab.wfFrom d a (t.filter p) = true
  | [], _, _ => rfl
  | (k, v) :: t, a, w => by
    simp only [Tab.wfFrom, Bool.and_eq_true, decide_eq_true_eq] at w
    rw [List.filter_cons]
    split
    · simp only [Tab.wfFrom, Bool.and_eq_true, decide_eq_true_eq]
      exact ⟨w.1, Tab.wfFrom_filter d p w.2⟩
    · exact Tab.wfFrom_mono d (by omega) (Tab.wfFrom_filter d p w.2)

theorem Tab.wfFrom_set [DecidableEq α] (d : α) (n : Nat) (v : α) (hv : v ≠ d) : ∀ {t : Tab α} {a : Nat}, Tab.wfFrom d a t = true → a ≤ n →
    Tab.wfFrom d a (Tab.set t n v) = true
  | [], a, _, h => by simp [Tab.set, Tab.wfFrom, hv, h]
  | (k, w) :: t, a, hw, h => by
    simp only [Tab.wfFrom, Bool.and_eq_true, decide_eq_true_eq] at hw
    simp only [Tab.set]
    split
    · subst_vars; simp [Tab.wfFrom, hv, h, hw.2]
    · split
      · simp [Tab.wfFrom, hv, h, hw.1.2, hw.2]; omega
      · simp only [Tab.wfFrom, Bool.and_eq_true, decide_eq_true_eq]
        exact ⟨hw.1, Tab.wfFrom_set d n v hv hw.2 (by omega)⟩

/-- A canonical write keeps the canonical form. -/
theorem Tab.wf_put [DecidableEq α] (d : α) {t : Tab α} (n : Nat) (v : α) (h : Tab.wf d t = true) : Tab.wf d (Tab.put d t n v) = true := by
  unfold Tab.put
  split
  · exact Tab.wfFrom_filter d _ h
  · exact Tab.wfFrom_set d n v ‹_› h (Nat.zero_le n)

theorem Tab.wf_filter [DecidableEq α] (d : α) {t : Tab α} (p : Nat × α → Bool) (h : Tab.wf d t = true) : Tab.wf d (t.filter p) = true :=
  Tab.wfFrom_filter d p h

/-- Writes one after another keep the canonical form. -/
theorem Tab.wf_foldl_put [DecidableEq α] {β : Type} (d : α) (key : β → Nat) (val : β → α) (l : List β) :
    ∀ {t : Tab α}, Tab.wf d t = true → Tab.wf d (l.foldl (fun m b => Tab.put d m (key b) (val b)) t) = true := by
  induction l with
  | nil => intro t h; exact h
  | cons b l ih => intro t h; exact ih (Tab.wf_put d (key b) (val b) h)

/-- Two canonical tables that read alike are equal. -/
theorem Tab.wfFrom_get_lt [DecidableEq α] (d : α) {t : Tab α} {a n : Nat} (h : Tab.wfFrom d a t = true) (hn : n < a) : Tab.get d t n = d := by
  induction t generalizing a with
  | nil => rfl
  | cons e t ih =>
    obtain ⟨k, v⟩ := e
    simp only [Tab.wfFrom, Bool.and_eq_true, decide_eq_true_eq] at h
    have : n ≠ k := by omega
    simp only [Tab.get, this, if_false]
    exact ih h.2 (by omega)

theorem Tab.wfFrom_ext [DecidableEq α] (d : α) : ∀ {t u : Tab α} {a : Nat}, Tab.wfFrom d a t = true → Tab.wfFrom d a u = true →
    (∀ n, Tab.get d t n = Tab.get d u n) → t = u
  | [], [], _, _, _, _ => rfl
  | [], (k, v) :: u, a, _, hu, h => by
    simp only [Tab.wfFrom, Bool.and_eq_true, decide_eq_true_eq] at hu
    exact absurd (by simpa [Tab.get] using (h k).symm) hu.1.2
  | (k, v) :: t, [], a, ht, _, h => by
    simp only [Tab.wfFrom, Bool.and_eq_true, decide_eq_true_eq] at ht
    exact absurd (by simpa [Tab.get] using h k) ht.1.2
  | (k, v) :: t, (j, w) :: u, a, ht, hu, h => by
    simp only [Tab.wfFrom, Bool.and_eq_true, decide_eq_true_eq] at ht hu
    have hk := h k
    have hj := h j
    rcases Nat.lt_trichotomy k j with hlt | rfl | hlt
    · have hu' : Tab.get d u k = d := Tab.wfFrom_get_lt d hu.2 (by omega)
      have hne : k ≠ j := by omega
      simp [Tab.get, hne, hu'] at hk
      exact absurd hk ht.1.2
    · have hv : v = w := by simpa [Tab.get] using hk
      subst hv
      have htl : t = u := by
        refine Tab.wfFrom_ext d ht.2 hu.2 fun n => ?_
        by_cases hn : n = k
        · subst hn; rw [Tab.wfFrom_get_lt d ht.2 (by omega), Tab.wfFrom_get_lt d hu.2 (by omega)]
        · simpa [Tab.get, hn] using h n
      rw [htl]
    · have ht' : Tab.get d t j = d := Tab.wfFrom_get_lt d ht.2 (by omega)
      have hne : j ≠ k := by omega
      simp [Tab.get, hne, ht'] at hj
      exact absurd hj.symm hu.1.2

end Sys2Proof.Machine
end

