-- ==== Sys2Proof/Laws/State.lean ====
section
/-! SUPPORT. One lemma per field per update of the state: what each named update leaves unchanged, and what the changed field holds. -/

namespace Sys2Proof.Machine

theorem State.setCore_cores (s : State) (c : Nat) (x : CoreSt) : (s.setCore c x).cores = Tab.set s.cores c x := rfl
@[simp] theorem State.setCore_agenda (s : State) (c : Nat) (x : CoreSt) : (s.setCore c x).agenda = s.agenda := rfl
@[simp] theorem State.setCore_starts (s : State) (c : Nat) (x : CoreSt) : (s.setCore c x).starts = s.starts := rfl
@[simp] theorem State.setCore_cur (s : State) (c : Nat) (x : CoreSt) : (s.setCore c x).cur = s.cur := rfl
@[simp] theorem State.setCore_curL (s : State) (c : Nat) (x : CoreSt) : (s.setCore c x).curL = s.curL := rfl
@[simp] theorem State.setCore_draw (s : State) (c : Nat) (x : CoreSt) : (s.setCore c x).draw = s.draw := rfl
@[simp] theorem State.setCore_nextId (s : State) (c : Nat) (x : CoreSt) : (s.setCore c x).nextId = s.nextId := rfl
@[simp] theorem State.setCore_lregs (s : State) (c : Nat) (x : CoreSt) : (s.setCore c x).lregs = s.lregs := rfl
@[simp] theorem State.setCore_mem (s : State) (c : Nat) (x : CoreSt) : (s.setCore c x).mem = s.mem := rfl
@[simp] theorem State.setCore_mtags (s : State) (c : Nat) (x : CoreSt) : (s.setCore c x).mtags = s.mtags := rfl
@[simp] theorem State.setCore_mpoison (s : State) (c : Nat) (x : CoreSt) : (s.setCore c x).mpoison = s.mpoison := rfl
@[simp] theorem State.setCore_lpoison (s : State) (c : Nat) (x : CoreSt) : (s.setCore c x).lpoison = s.lpoison := rfl
@[simp] theorem State.setCore_hist (s : State) (c : Nat) (x : CoreSt) : (s.setCore c x).hist = s.hist := rfl
@[simp] theorem State.setCore_homeIx (s : State) (c : Nat) (x : CoreSt) : (s.setCore c x).homeIx = s.homeIx := rfl
@[simp] theorem State.setCore_rels (s : State) (c : Nat) (x : CoreSt) : (s.setCore c x).rels = s.rels := rfl
@[simp] theorem State.setCore_engSeen (s : State) (c : Nat) (x : CoreSt) : (s.setCore c x).engSeen = s.engSeen := rfl
@[simp] theorem State.setCore_waves (s : State) (c : Nat) (x : CoreSt) : (s.setCore c x).waves = s.waves := rfl
@[simp] theorem State.setCore_groups (s : State) (c : Nat) (x : CoreSt) : (s.setCore c x).groups = s.groups := rfl
@[simp] theorem State.setCore_grids (s : State) (c : Nat) (x : CoreSt) : (s.setCore c x).grids = s.grids := rfl
@[simp] theorem State.setCore_gangs (s : State) (c : Nat) (x : CoreSt) : (s.setCore c x).gangs = s.gangs := rfl
@[simp] theorem State.setCore_quarters (s : State) (c : Nat) (x : CoreSt) : (s.setCore c x).quarters = s.quarters := rfl
@[simp] theorem State.setCore_ctxs (s : State) (c : Nat) (x : CoreSt) : (s.setCore c x).ctxs = s.ctxs := rfl
@[simp] theorem State.setCore_vdevs (s : State) (c : Nat) (x : CoreSt) : (s.setCore c x).vdevs = s.vdevs := rfl
@[simp] theorem State.setCore_dies (s : State) (c : Nat) (x : CoreSt) : (s.setCore c x).dies = s.dies := rfl
@[simp] theorem State.setCore_lcores (s : State) (c : Nat) (x : CoreSt) : (s.setCore c x).lcores = s.lcores := rfl
@[simp] theorem State.setCore_recs (s : State) (c : Nat) (x : CoreSt) : (s.setCore c x).recs = s.recs := rfl
@[simp] theorem State.setCore_beats (s : State) (c : Nat) (x : CoreSt) : (s.setCore c x).beats = s.beats := rfl
@[simp] theorem State.setCore_colls (s : State) (c : Nat) (x : CoreSt) : (s.setCore c x).colls = s.colls := rfl
@[simp] theorem State.setCore_collNext (s : State) (c : Nat) (x : CoreSt) : (s.setCore c x).collNext = s.collNext := rfl
@[simp] theorem State.setCore_images (s : State) (c : Nat) (x : CoreSt) : (s.setCore c x).images = s.images := rfl
@[simp] theorem State.setCore_claims (s : State) (c : Nat) (x : CoreSt) : (s.setCore c x).claims = s.claims := rfl
@[simp] theorem State.setCore_saveArea (s : State) (c : Nat) (x : CoreSt) : (s.setCore c x).saveArea = s.saveArea := rfl
@[simp] theorem State.setCore_outbox (s : State) (c : Nat) (x : CoreSt) : (s.setCore c x).outbox = s.outbox := rfl
@[simp] theorem State.setCore_cycles (s : State) (c : Nat) (x : CoreSt) : (s.setCore c x).cycles = s.cycles := rfl
@[simp] theorem State.setCore_attempts (s : State) (c : Nat) (x : CoreSt) : (s.setCore c x).attempts = s.attempts := rfl
@[simp] theorem State.setCore_replays (s : State) (c : Nat) (x : CoreSt) : (s.setCore c x).replays = s.replays := rfl
@[simp] theorem State.setCore_powerWin (s : State) (c : Nat) (x : CoreSt) : (s.setCore c x).powerWin = s.powerWin := rfl
@[simp] theorem State.setCore_hbeatAge (s : State) (c : Nat) (x : CoreSt) : (s.setCore c x).hbeatAge = s.hbeatAge := rfl
@[simp] theorem State.setCore_drainLeft (s : State) (c : Nat) (x : CoreSt) : (s.setCore c x).drainLeft = s.drainLeft := rfl
@[simp] theorem State.setCore_booted (s : State) (c : Nat) (x : CoreSt) : (s.setCore c x).booted = s.booted := rfl

theorem State.updCore_cores (s : State) (c : Nat) (f : CoreSt → CoreSt) : (s.updCore c f).cores = Tab.set s.cores c (f (s.core c)) := rfl
@[simp] theorem State.updCore_agenda (s : State) (c : Nat) (f : CoreSt → CoreSt) : (s.updCore c f).agenda = s.agenda := rfl
@[simp] theorem State.updCore_starts (s : State) (c : Nat) (f : CoreSt → CoreSt) : (s.updCore c f).starts = s.starts := rfl
@[simp] theorem State.updCore_cur (s : State) (c : Nat) (f : CoreSt → CoreSt) : (s.updCore c f).cur = s.cur := rfl
@[simp] theorem State.updCore_curL (s : State) (c : Nat) (f : CoreSt → CoreSt) : (s.updCore c f).curL = s.curL := rfl
@[simp] theorem State.updCore_draw (s : State) (c : Nat) (f : CoreSt → CoreSt) : (s.updCore c f).draw = s.draw := rfl
@[simp] theorem State.updCore_nextId (s : State) (c : Nat) (f : CoreSt → CoreSt) : (s.updCore c f).nextId = s.nextId := rfl
@[simp] theorem State.updCore_lregs (s : State) (c : Nat) (f : CoreSt → CoreSt) : (s.updCore c f).lregs = s.lregs := rfl
@[simp] theorem State.updCore_mem (s : State) (c : Nat) (f : CoreSt → CoreSt) : (s.updCore c f).mem = s.mem := rfl
@[simp] theorem State.updCore_mtags (s : State) (c : Nat) (f : CoreSt → CoreSt) : (s.updCore c f).mtags = s.mtags := rfl
@[simp] theorem State.updCore_mpoison (s : State) (c : Nat) (f : CoreSt → CoreSt) : (s.updCore c f).mpoison = s.mpoison := rfl
@[simp] theorem State.updCore_lpoison (s : State) (c : Nat) (f : CoreSt → CoreSt) : (s.updCore c f).lpoison = s.lpoison := rfl
@[simp] theorem State.updCore_hist (s : State) (c : Nat) (f : CoreSt → CoreSt) : (s.updCore c f).hist = s.hist := rfl
@[simp] theorem State.updCore_homeIx (s : State) (c : Nat) (f : CoreSt → CoreSt) : (s.updCore c f).homeIx = s.homeIx := rfl
@[simp] theorem State.updCore_rels (s : State) (c : Nat) (f : CoreSt → CoreSt) : (s.updCore c f).rels = s.rels := rfl
@[simp] theorem State.updCore_engSeen (s : State) (c : Nat) (f : CoreSt → CoreSt) : (s.updCore c f).engSeen = s.engSeen := rfl
@[simp] theorem State.updCore_waves (s : State) (c : Nat) (f : CoreSt → CoreSt) : (s.updCore c f).waves = s.waves := rfl
@[simp] theorem State.updCore_groups (s : State) (c : Nat) (f : CoreSt → CoreSt) : (s.updCore c f).groups = s.groups := rfl
@[simp] theorem State.updCore_grids (s : State) (c : Nat) (f : CoreSt → CoreSt) : (s.updCore c f).grids = s.grids := rfl
@[simp] theorem State.updCore_gangs (s : State) (c : Nat) (f : CoreSt → CoreSt) : (s.updCore c f).gangs = s.gangs := rfl
@[simp] theorem State.updCore_quarters (s : State) (c : Nat) (f : CoreSt → CoreSt) : (s.updCore c f).quarters = s.quarters := rfl
@[simp] theorem State.updCore_ctxs (s : State) (c : Nat) (f : CoreSt → CoreSt) : (s.updCore c f).ctxs = s.ctxs := rfl
@[simp] theorem State.updCore_vdevs (s : State) (c : Nat) (f : CoreSt → CoreSt) : (s.updCore c f).vdevs = s.vdevs := rfl
@[simp] theorem State.updCore_dies (s : State) (c : Nat) (f : CoreSt → CoreSt) : (s.updCore c f).dies = s.dies := rfl
@[simp] theorem State.updCore_lcores (s : State) (c : Nat) (f : CoreSt → CoreSt) : (s.updCore c f).lcores = s.lcores := rfl
@[simp] theorem State.updCore_recs (s : State) (c : Nat) (f : CoreSt → CoreSt) : (s.updCore c f).recs = s.recs := rfl
@[simp] theorem State.updCore_beats (s : State) (c : Nat) (f : CoreSt → CoreSt) : (s.updCore c f).beats = s.beats := rfl
@[simp] theorem State.updCore_colls (s : State) (c : Nat) (f : CoreSt → CoreSt) : (s.updCore c f).colls = s.colls := rfl
@[simp] theorem State.updCore_collNext (s : State) (c : Nat) (f : CoreSt → CoreSt) : (s.updCore c f).collNext = s.collNext := rfl
@[simp] theorem State.updCore_images (s : State) (c : Nat) (f : CoreSt → CoreSt) : (s.updCore c f).images = s.images := rfl
@[simp] theorem State.updCore_claims (s : State) (c : Nat) (f : CoreSt → CoreSt) : (s.updCore c f).claims = s.claims := rfl
@[simp] theorem State.updCore_saveArea (s : State) (c : Nat) (f : CoreSt → CoreSt) : (s.updCore c f).saveArea = s.saveArea := rfl
@[simp] theorem State.updCore_outbox (s : State) (c : Nat) (f : CoreSt → CoreSt) : (s.updCore c f).outbox = s.outbox := rfl
@[simp] theorem State.updCore_cycles (s : State) (c : Nat) (f : CoreSt → CoreSt) : (s.updCore c f).cycles = s.cycles := rfl
@[simp] theorem State.updCore_attempts (s : State) (c : Nat) (f : CoreSt → CoreSt) : (s.updCore c f).attempts = s.attempts := rfl
@[simp] theorem State.updCore_replays (s : State) (c : Nat) (f : CoreSt → CoreSt) : (s.updCore c f).replays = s.replays := rfl
@[simp] theorem State.updCore_powerWin (s : State) (c : Nat) (f : CoreSt → CoreSt) : (s.updCore c f).powerWin = s.powerWin := rfl
@[simp] theorem State.updCore_hbeatAge (s : State) (c : Nat) (f : CoreSt → CoreSt) : (s.updCore c f).hbeatAge = s.hbeatAge := rfl
@[simp] theorem State.updCore_drainLeft (s : State) (c : Nat) (f : CoreSt → CoreSt) : (s.updCore c f).drainLeft = s.drainLeft := rfl
@[simp] theorem State.updCore_booted (s : State) (c : Nat) (f : CoreSt → CoreSt) : (s.updCore c f).booted = s.booted := rfl

theorem State.setQuarter_quarters (s : State) (k : Nat) (x : Quarter) : (s.setQuarter k x).quarters = Tab.set s.quarters k x := rfl
@[simp] theorem State.setQuarter_agenda (s : State) (k : Nat) (x : Quarter) : (s.setQuarter k x).agenda = s.agenda := rfl
@[simp] theorem State.setQuarter_starts (s : State) (k : Nat) (x : Quarter) : (s.setQuarter k x).starts = s.starts := rfl
@[simp] theorem State.setQuarter_cur (s : State) (k : Nat) (x : Quarter) : (s.setQuarter k x).cur = s.cur := rfl
@[simp] theorem State.setQuarter_curL (s : State) (k : Nat) (x : Quarter) : (s.setQuarter k x).curL = s.curL := rfl
@[simp] theorem State.setQuarter_draw (s : State) (k : Nat) (x : Quarter) : (s.setQuarter k x).draw = s.draw := rfl
@[simp] theorem State.setQuarter_nextId (s : State) (k : Nat) (x : Quarter) : (s.setQuarter k x).nextId = s.nextId := rfl
@[simp] theorem State.setQuarter_lregs (s : State) (k : Nat) (x : Quarter) : (s.setQuarter k x).lregs = s.lregs := rfl
@[simp] theorem State.setQuarter_mem (s : State) (k : Nat) (x : Quarter) : (s.setQuarter k x).mem = s.mem := rfl
@[simp] theorem State.setQuarter_mtags (s : State) (k : Nat) (x : Quarter) : (s.setQuarter k x).mtags = s.mtags := rfl
@[simp] theorem State.setQuarter_mpoison (s : State) (k : Nat) (x : Quarter) : (s.setQuarter k x).mpoison = s.mpoison := rfl
@[simp] theorem State.setQuarter_lpoison (s : State) (k : Nat) (x : Quarter) : (s.setQuarter k x).lpoison = s.lpoison := rfl
@[simp] theorem State.setQuarter_hist (s : State) (k : Nat) (x : Quarter) : (s.setQuarter k x).hist = s.hist := rfl
@[simp] theorem State.setQuarter_homeIx (s : State) (k : Nat) (x : Quarter) : (s.setQuarter k x).homeIx = s.homeIx := rfl
@[simp] theorem State.setQuarter_rels (s : State) (k : Nat) (x : Quarter) : (s.setQuarter k x).rels = s.rels := rfl
@[simp] theorem State.setQuarter_engSeen (s : State) (k : Nat) (x : Quarter) : (s.setQuarter k x).engSeen = s.engSeen := rfl
@[simp] theorem State.setQuarter_waves (s : State) (k : Nat) (x : Quarter) : (s.setQuarter k x).waves = s.waves := rfl
@[simp] theorem State.setQuarter_groups (s : State) (k : Nat) (x : Quarter) : (s.setQuarter k x).groups = s.groups := rfl
@[simp] theorem State.setQuarter_grids (s : State) (k : Nat) (x : Quarter) : (s.setQuarter k x).grids = s.grids := rfl
@[simp] theorem State.setQuarter_gangs (s : State) (k : Nat) (x : Quarter) : (s.setQuarter k x).gangs = s.gangs := rfl
@[simp] theorem State.setQuarter_cores (s : State) (k : Nat) (x : Quarter) : (s.setQuarter k x).cores = s.cores := rfl
@[simp] theorem State.setQuarter_ctxs (s : State) (k : Nat) (x : Quarter) : (s.setQuarter k x).ctxs = s.ctxs := rfl
@[simp] theorem State.setQuarter_vdevs (s : State) (k : Nat) (x : Quarter) : (s.setQuarter k x).vdevs = s.vdevs := rfl
@[simp] theorem State.setQuarter_dies (s : State) (k : Nat) (x : Quarter) : (s.setQuarter k x).dies = s.dies := rfl
@[simp] theorem State.setQuarter_lcores (s : State) (k : Nat) (x : Quarter) : (s.setQuarter k x).lcores = s.lcores := rfl
@[simp] theorem State.setQuarter_recs (s : State) (k : Nat) (x : Quarter) : (s.setQuarter k x).recs = s.recs := rfl
@[simp] theorem State.setQuarter_beats (s : State) (k : Nat) (x : Quarter) : (s.setQuarter k x).beats = s.beats := rfl
@[simp] theorem State.setQuarter_colls (s : State) (k : Nat) (x : Quarter) : (s.setQuarter k x).colls = s.colls := rfl
@[simp] theorem State.setQuarter_collNext (s : State) (k : Nat) (x : Quarter) : (s.setQuarter k x).collNext = s.collNext := rfl
@[simp] theorem State.setQuarter_images (s : State) (k : Nat) (x : Quarter) : (s.setQuarter k x).images = s.images := rfl
@[simp] theorem State.setQuarter_claims (s : State) (k : Nat) (x : Quarter) : (s.setQuarter k x).claims = s.claims := rfl
@[simp] theorem State.setQuarter_saveArea (s : State) (k : Nat) (x : Quarter) : (s.setQuarter k x).saveArea = s.saveArea := rfl
@[simp] theorem State.setQuarter_outbox (s : State) (k : Nat) (x : Quarter) : (s.setQuarter k x).outbox = s.outbox := rfl
@[simp] theorem State.setQuarter_cycles (s : State) (k : Nat) (x : Quarter) : (s.setQuarter k x).cycles = s.cycles := rfl
@[simp] theorem State.setQuarter_attempts (s : State) (k : Nat) (x : Quarter) : (s.setQuarter k x).attempts = s.attempts := rfl
@[simp] theorem State.setQuarter_replays (s : State) (k : Nat) (x : Quarter) : (s.setQuarter k x).replays = s.replays := rfl
@[simp] theorem State.setQuarter_powerWin (s : State) (k : Nat) (x : Quarter) : (s.setQuarter k x).powerWin = s.powerWin := rfl
@[simp] theorem State.setQuarter_hbeatAge (s : State) (k : Nat) (x : Quarter) : (s.setQuarter k x).hbeatAge = s.hbeatAge := rfl
@[simp] theorem State.setQuarter_drainLeft (s : State) (k : Nat) (x : Quarter) : (s.setQuarter k x).drainLeft = s.drainLeft := rfl
@[simp] theorem State.setQuarter_booted (s : State) (k : Nat) (x : Quarter) : (s.setQuarter k x).booted = s.booted := rfl

theorem State.updQuarter_quarters (s : State) (k : Nat) (f : Quarter → Quarter) : (s.updQuarter k f).quarters = Tab.set s.quarters k (f (s.quarter k)) := rfl
@[simp] theorem State.updQuarter_agenda (s : State) (k : Nat) (f : Quarter → Quarter) : (s.updQuarter k f).agenda = s.agenda := rfl
@[simp] theorem State.updQuarter_starts (s : State) (k : Nat) (f : Quarter → Quarter) : (s.updQuarter k f).starts = s.starts := rfl
@[simp] theorem State.updQuarter_cur (s : State) (k : Nat) (f : Quarter → Quarter) : (s.updQuarter k f).cur = s.cur := rfl
@[simp] theorem State.updQuarter_curL (s : State) (k : Nat) (f : Quarter → Quarter) : (s.updQuarter k f).curL = s.curL := rfl
@[simp] theorem State.updQuarter_draw (s : State) (k : Nat) (f : Quarter → Quarter) : (s.updQuarter k f).draw = s.draw := rfl
@[simp] theorem State.updQuarter_nextId (s : State) (k : Nat) (f : Quarter → Quarter) : (s.updQuarter k f).nextId = s.nextId := rfl
@[simp] theorem State.updQuarter_lregs (s : State) (k : Nat) (f : Quarter → Quarter) : (s.updQuarter k f).lregs = s.lregs := rfl
@[simp] theorem State.updQuarter_mem (s : State) (k : Nat) (f : Quarter → Quarter) : (s.updQuarter k f).mem = s.mem := rfl
@[simp] theorem State.updQuarter_mtags (s : State) (k : Nat) (f : Quarter → Quarter) : (s.updQuarter k f).mtags = s.mtags := rfl
@[simp] theorem State.updQuarter_mpoison (s : State) (k : Nat) (f : Quarter → Quarter) : (s.updQuarter k f).mpoison = s.mpoison := rfl
@[simp] theorem State.updQuarter_lpoison (s : State) (k : Nat) (f : Quarter → Quarter) : (s.updQuarter k f).lpoison = s.lpoison := rfl
@[simp] theorem State.updQuarter_hist (s : State) (k : Nat) (f : Quarter → Quarter) : (s.updQuarter k f).hist = s.hist := rfl
@[simp] theorem State.updQuarter_homeIx (s : State) (k : Nat) (f : Quarter → Quarter) : (s.updQuarter k f).homeIx = s.homeIx := rfl
@[simp] theorem State.updQuarter_rels (s : State) (k : Nat) (f : Quarter → Quarter) : (s.updQuarter k f).rels = s.rels := rfl
@[simp] theorem State.updQuarter_engSeen (s : State) (k : Nat) (f : Quarter → Quarter) : (s.updQuarter k f).engSeen = s.engSeen := rfl
@[simp] theorem State.updQuarter_waves (s : State) (k : Nat) (f : Quarter → Quarter) : (s.updQuarter k f).waves = s.waves := rfl
@[simp] theorem State.updQuarter_groups (s : State) (k : Nat) (f : Quarter → Quarter) : (s.updQuarter k f).groups = s.groups := rfl
@[simp] theorem State.updQuarter_grids (s : State) (k : Nat) (f : Quarter → Quarter) : (s.updQuarter k f).grids = s.grids := rfl
@[simp] theorem State.updQuarter_gangs (s : State) (k : Nat) (f : Quarter → Quarter) : (s.updQuarter k f).gangs = s.gangs := rfl
@[simp] theorem State.updQuarter_cores (s : State) (k : Nat) (f : Quarter → Quarter) : (s.updQuarter k f).cores = s.cores := rfl
@[simp] theorem State.updQuarter_ctxs (s : State) (k : Nat) (f : Quarter → Quarter) : (s.updQuarter k f).ctxs = s.ctxs := rfl
@[simp] theorem State.updQuarter_vdevs (s : State) (k : Nat) (f : Quarter → Quarter) : (s.updQuarter k f).vdevs = s.vdevs := rfl
@[simp] theorem State.updQuarter_dies (s : State) (k : Nat) (f : Quarter → Quarter) : (s.updQuarter k f).dies = s.dies := rfl
@[simp] theorem State.updQuarter_lcores (s : State) (k : Nat) (f : Quarter → Quarter) : (s.updQuarter k f).lcores = s.lcores := rfl
@[simp] theorem State.updQuarter_recs (s : State) (k : Nat) (f : Quarter → Quarter) : (s.updQuarter k f).recs = s.recs := rfl
@[simp] theorem State.updQuarter_beats (s : State) (k : Nat) (f : Quarter → Quarter) : (s.updQuarter k f).beats = s.beats := rfl
@[simp] theorem State.updQuarter_colls (s : State) (k : Nat) (f : Quarter → Quarter) : (s.updQuarter k f).colls = s.colls := rfl
@[simp] theorem State.updQuarter_collNext (s : State) (k : Nat) (f : Quarter → Quarter) : (s.updQuarter k f).collNext = s.collNext := rfl
@[simp] theorem State.updQuarter_images (s : State) (k : Nat) (f : Quarter → Quarter) : (s.updQuarter k f).images = s.images := rfl
@[simp] theorem State.updQuarter_claims (s : State) (k : Nat) (f : Quarter → Quarter) : (s.updQuarter k f).claims = s.claims := rfl
@[simp] theorem State.updQuarter_saveArea (s : State) (k : Nat) (f : Quarter → Quarter) : (s.updQuarter k f).saveArea = s.saveArea := rfl
@[simp] theorem State.updQuarter_outbox (s : State) (k : Nat) (f : Quarter → Quarter) : (s.updQuarter k f).outbox = s.outbox := rfl
@[simp] theorem State.updQuarter_cycles (s : State) (k : Nat) (f : Quarter → Quarter) : (s.updQuarter k f).cycles = s.cycles := rfl
@[simp] theorem State.updQuarter_attempts (s : State) (k : Nat) (f : Quarter → Quarter) : (s.updQuarter k f).attempts = s.attempts := rfl
@[simp] theorem State.updQuarter_replays (s : State) (k : Nat) (f : Quarter → Quarter) : (s.updQuarter k f).replays = s.replays := rfl
@[simp] theorem State.updQuarter_powerWin (s : State) (k : Nat) (f : Quarter → Quarter) : (s.updQuarter k f).powerWin = s.powerWin := rfl
@[simp] theorem State.updQuarter_hbeatAge (s : State) (k : Nat) (f : Quarter → Quarter) : (s.updQuarter k f).hbeatAge = s.hbeatAge := rfl
@[simp] theorem State.updQuarter_drainLeft (s : State) (k : Nat) (f : Quarter → Quarter) : (s.updQuarter k f).drainLeft = s.drainLeft := rfl
@[simp] theorem State.updQuarter_booted (s : State) (k : Nat) (f : Quarter → Quarter) : (s.updQuarter k f).booted = s.booted := rfl

theorem State.updDie_dies (s : State) (d : Nat) (f : Die → Die) : (s.updDie d f).dies = Tab.set s.dies d (f (s.die d)) := rfl
@[simp] theorem State.updDie_agenda (s : State) (d : Nat) (f : Die → Die) : (s.updDie d f).agenda = s.agenda := rfl
@[simp] theorem State.updDie_starts (s : State) (d : Nat) (f : Die → Die) : (s.updDie d f).starts = s.starts := rfl
@[simp] theorem State.updDie_cur (s : State) (d : Nat) (f : Die → Die) : (s.updDie d f).cur = s.cur := rfl
@[simp] theorem State.updDie_curL (s : State) (d : Nat) (f : Die → Die) : (s.updDie d f).curL = s.curL := rfl
@[simp] theorem State.updDie_draw (s : State) (d : Nat) (f : Die → Die) : (s.updDie d f).draw = s.draw := rfl
@[simp] theorem State.updDie_nextId (s : State) (d : Nat) (f : Die → Die) : (s.updDie d f).nextId = s.nextId := rfl
@[simp] theorem State.updDie_lregs (s : State) (d : Nat) (f : Die → Die) : (s.updDie d f).lregs = s.lregs := rfl
@[simp] theorem State.updDie_mem (s : State) (d : Nat) (f : Die → Die) : (s.updDie d f).mem = s.mem := rfl
@[simp] theorem State.updDie_mtags (s : State) (d : Nat) (f : Die → Die) : (s.updDie d f).mtags = s.mtags := rfl
@[simp] theorem State.updDie_mpoison (s : State) (d : Nat) (f : Die → Die) : (s.updDie d f).mpoison = s.mpoison := rfl
@[simp] theorem State.updDie_lpoison (s : State) (d : Nat) (f : Die → Die) : (s.updDie d f).lpoison = s.lpoison := rfl
@[simp] theorem State.updDie_hist (s : State) (d : Nat) (f : Die → Die) : (s.updDie d f).hist = s.hist := rfl
@[simp] theorem State.updDie_homeIx (s : State) (d : Nat) (f : Die → Die) : (s.updDie d f).homeIx = s.homeIx := rfl
@[simp] theorem State.updDie_rels (s : State) (d : Nat) (f : Die → Die) : (s.updDie d f).rels = s.rels := rfl
@[simp] theorem State.updDie_engSeen (s : State) (d : Nat) (f : Die → Die) : (s.updDie d f).engSeen = s.engSeen := rfl
@[simp] theorem State.updDie_waves (s : State) (d : Nat) (f : Die → Die) : (s.updDie d f).waves = s.waves := rfl
@[simp] theorem State.updDie_groups (s : State) (d : Nat) (f : Die → Die) : (s.updDie d f).groups = s.groups := rfl
@[simp] theorem State.updDie_grids (s : State) (d : Nat) (f : Die → Die) : (s.updDie d f).grids = s.grids := rfl
@[simp] theorem State.updDie_gangs (s : State) (d : Nat) (f : Die → Die) : (s.updDie d f).gangs = s.gangs := rfl
@[simp] theorem State.updDie_cores (s : State) (d : Nat) (f : Die → Die) : (s.updDie d f).cores = s.cores := rfl
@[simp] theorem State.updDie_quarters (s : State) (d : Nat) (f : Die → Die) : (s.updDie d f).quarters = s.quarters := rfl
@[simp] theorem State.updDie_ctxs (s : State) (d : Nat) (f : Die → Die) : (s.updDie d f).ctxs = s.ctxs := rfl
@[simp] theorem State.updDie_vdevs (s : State) (d : Nat) (f : Die → Die) : (s.updDie d f).vdevs = s.vdevs := rfl
@[simp] theorem State.updDie_lcores (s : State) (d : Nat) (f : Die → Die) : (s.updDie d f).lcores = s.lcores := rfl
@[simp] theorem State.updDie_recs (s : State) (d : Nat) (f : Die → Die) : (s.updDie d f).recs = s.recs := rfl
@[simp] theorem State.updDie_beats (s : State) (d : Nat) (f : Die → Die) : (s.updDie d f).beats = s.beats := rfl
@[simp] theorem State.updDie_colls (s : State) (d : Nat) (f : Die → Die) : (s.updDie d f).colls = s.colls := rfl
@[simp] theorem State.updDie_collNext (s : State) (d : Nat) (f : Die → Die) : (s.updDie d f).collNext = s.collNext := rfl
@[simp] theorem State.updDie_images (s : State) (d : Nat) (f : Die → Die) : (s.updDie d f).images = s.images := rfl
@[simp] theorem State.updDie_claims (s : State) (d : Nat) (f : Die → Die) : (s.updDie d f).claims = s.claims := rfl
@[simp] theorem State.updDie_saveArea (s : State) (d : Nat) (f : Die → Die) : (s.updDie d f).saveArea = s.saveArea := rfl
@[simp] theorem State.updDie_outbox (s : State) (d : Nat) (f : Die → Die) : (s.updDie d f).outbox = s.outbox := rfl
@[simp] theorem State.updDie_cycles (s : State) (d : Nat) (f : Die → Die) : (s.updDie d f).cycles = s.cycles := rfl
@[simp] theorem State.updDie_attempts (s : State) (d : Nat) (f : Die → Die) : (s.updDie d f).attempts = s.attempts := rfl
@[simp] theorem State.updDie_replays (s : State) (d : Nat) (f : Die → Die) : (s.updDie d f).replays = s.replays := rfl
@[simp] theorem State.updDie_powerWin (s : State) (d : Nat) (f : Die → Die) : (s.updDie d f).powerWin = s.powerWin := rfl
@[simp] theorem State.updDie_hbeatAge (s : State) (d : Nat) (f : Die → Die) : (s.updDie d f).hbeatAge = s.hbeatAge := rfl
@[simp] theorem State.updDie_drainLeft (s : State) (d : Nat) (f : Die → Die) : (s.updDie d f).drainLeft = s.drainLeft := rfl
@[simp] theorem State.updDie_booted (s : State) (d : Nat) (f : Die → Die) : (s.updDie d f).booted = s.booted := rfl

theorem State.updLcore_lcores (s : State) (k : Nat) (f : LCore → LCore) : (s.updLcore k f).lcores = Tab.set s.lcores k (f (s.lcore k)) := rfl
@[simp] theorem State.updLcore_agenda (s : State) (k : Nat) (f : LCore → LCore) : (s.updLcore k f).agenda = s.agenda := rfl
@[simp] theorem State.updLcore_starts (s : State) (k : Nat) (f : LCore → LCore) : (s.updLcore k f).starts = s.starts := rfl
@[simp] theorem State.updLcore_cur (s : State) (k : Nat) (f : LCore → LCore) : (s.updLcore k f).cur = s.cur := rfl
@[simp] theorem State.updLcore_curL (s : State) (k : Nat) (f : LCore → LCore) : (s.updLcore k f).curL = s.curL := rfl
@[simp] theorem State.updLcore_draw (s : State) (k : Nat) (f : LCore → LCore) : (s.updLcore k f).draw = s.draw := rfl
@[simp] theorem State.updLcore_nextId (s : State) (k : Nat) (f : LCore → LCore) : (s.updLcore k f).nextId = s.nextId := rfl
@[simp] theorem State.updLcore_lregs (s : State) (k : Nat) (f : LCore → LCore) : (s.updLcore k f).lregs = s.lregs := rfl
@[simp] theorem State.updLcore_mem (s : State) (k : Nat) (f : LCore → LCore) : (s.updLcore k f).mem = s.mem := rfl
@[simp] theorem State.updLcore_mtags (s : State) (k : Nat) (f : LCore → LCore) : (s.updLcore k f).mtags = s.mtags := rfl
@[simp] theorem State.updLcore_mpoison (s : State) (k : Nat) (f : LCore → LCore) : (s.updLcore k f).mpoison = s.mpoison := rfl
@[simp] theorem State.updLcore_lpoison (s : State) (k : Nat) (f : LCore → LCore) : (s.updLcore k f).lpoison = s.lpoison := rfl
@[simp] theorem State.updLcore_hist (s : State) (k : Nat) (f : LCore → LCore) : (s.updLcore k f).hist = s.hist := rfl
@[simp] theorem State.updLcore_homeIx (s : State) (k : Nat) (f : LCore → LCore) : (s.updLcore k f).homeIx = s.homeIx := rfl
@[simp] theorem State.updLcore_rels (s : State) (k : Nat) (f : LCore → LCore) : (s.updLcore k f).rels = s.rels := rfl
@[simp] theorem State.updLcore_engSeen (s : State) (k : Nat) (f : LCore → LCore) : (s.updLcore k f).engSeen = s.engSeen := rfl
@[simp] theorem State.updLcore_waves (s : State) (k : Nat) (f : LCore → LCore) : (s.updLcore k f).waves = s.waves := rfl
@[simp] theorem State.updLcore_groups (s : State) (k : Nat) (f : LCore → LCore) : (s.updLcore k f).groups = s.groups := rfl
@[simp] theorem State.updLcore_grids (s : State) (k : Nat) (f : LCore → LCore) : (s.updLcore k f).grids = s.grids := rfl
@[simp] theorem State.updLcore_gangs (s : State) (k : Nat) (f : LCore → LCore) : (s.updLcore k f).gangs = s.gangs := rfl
@[simp] theorem State.updLcore_cores (s : State) (k : Nat) (f : LCore → LCore) : (s.updLcore k f).cores = s.cores := rfl
@[simp] theorem State.updLcore_quarters (s : State) (k : Nat) (f : LCore → LCore) : (s.updLcore k f).quarters = s.quarters := rfl
@[simp] theorem State.updLcore_ctxs (s : State) (k : Nat) (f : LCore → LCore) : (s.updLcore k f).ctxs = s.ctxs := rfl
@[simp] theorem State.updLcore_vdevs (s : State) (k : Nat) (f : LCore → LCore) : (s.updLcore k f).vdevs = s.vdevs := rfl
@[simp] theorem State.updLcore_dies (s : State) (k : Nat) (f : LCore → LCore) : (s.updLcore k f).dies = s.dies := rfl
@[simp] theorem State.updLcore_recs (s : State) (k : Nat) (f : LCore → LCore) : (s.updLcore k f).recs = s.recs := rfl
@[simp] theorem State.updLcore_beats (s : State) (k : Nat) (f : LCore → LCore) : (s.updLcore k f).beats = s.beats := rfl
@[simp] theorem State.updLcore_colls (s : State) (k : Nat) (f : LCore → LCore) : (s.updLcore k f).colls = s.colls := rfl
@[simp] theorem State.updLcore_collNext (s : State) (k : Nat) (f : LCore → LCore) : (s.updLcore k f).collNext = s.collNext := rfl
@[simp] theorem State.updLcore_images (s : State) (k : Nat) (f : LCore → LCore) : (s.updLcore k f).images = s.images := rfl
@[simp] theorem State.updLcore_claims (s : State) (k : Nat) (f : LCore → LCore) : (s.updLcore k f).claims = s.claims := rfl
@[simp] theorem State.updLcore_saveArea (s : State) (k : Nat) (f : LCore → LCore) : (s.updLcore k f).saveArea = s.saveArea := rfl
@[simp] theorem State.updLcore_outbox (s : State) (k : Nat) (f : LCore → LCore) : (s.updLcore k f).outbox = s.outbox := rfl
@[simp] theorem State.updLcore_cycles (s : State) (k : Nat) (f : LCore → LCore) : (s.updLcore k f).cycles = s.cycles := rfl
@[simp] theorem State.updLcore_attempts (s : State) (k : Nat) (f : LCore → LCore) : (s.updLcore k f).attempts = s.attempts := rfl
@[simp] theorem State.updLcore_replays (s : State) (k : Nat) (f : LCore → LCore) : (s.updLcore k f).replays = s.replays := rfl
@[simp] theorem State.updLcore_powerWin (s : State) (k : Nat) (f : LCore → LCore) : (s.updLcore k f).powerWin = s.powerWin := rfl
@[simp] theorem State.updLcore_hbeatAge (s : State) (k : Nat) (f : LCore → LCore) : (s.updLcore k f).hbeatAge = s.hbeatAge := rfl
@[simp] theorem State.updLcore_drainLeft (s : State) (k : Nat) (f : LCore → LCore) : (s.updLcore k f).drainLeft = s.drainLeft := rfl
@[simp] theorem State.updLcore_booted (s : State) (k : Nat) (f : LCore → LCore) : (s.updLcore k f).booted = s.booted := rfl

theorem State.setWave_waves (s : State) (k : Nat) (w : Wave) : (s.setWave k w).waves = Tab.set s.waves k w := rfl
@[simp] theorem State.setWave_agenda (s : State) (k : Nat) (w : Wave) : (s.setWave k w).agenda = s.agenda := rfl
@[simp] theorem State.setWave_starts (s : State) (k : Nat) (w : Wave) : (s.setWave k w).starts = s.starts := rfl
@[simp] theorem State.setWave_cur (s : State) (k : Nat) (w : Wave) : (s.setWave k w).cur = s.cur := rfl
@[simp] theorem State.setWave_curL (s : State) (k : Nat) (w : Wave) : (s.setWave k w).curL = s.curL := rfl
@[simp] theorem State.setWave_draw (s : State) (k : Nat) (w : Wave) : (s.setWave k w).draw = s.draw := rfl
@[simp] theorem State.setWave_nextId (s : State) (k : Nat) (w : Wave) : (s.setWave k w).nextId = s.nextId := rfl
@[simp] theorem State.setWave_lregs (s : State) (k : Nat) (w : Wave) : (s.setWave k w).lregs = s.lregs := rfl
@[simp] theorem State.setWave_mem (s : State) (k : Nat) (w : Wave) : (s.setWave k w).mem = s.mem := rfl
@[simp] theorem State.setWave_mtags (s : State) (k : Nat) (w : Wave) : (s.setWave k w).mtags = s.mtags := rfl
@[simp] theorem State.setWave_mpoison (s : State) (k : Nat) (w : Wave) : (s.setWave k w).mpoison = s.mpoison := rfl
@[simp] theorem State.setWave_lpoison (s : State) (k : Nat) (w : Wave) : (s.setWave k w).lpoison = s.lpoison := rfl
@[simp] theorem State.setWave_hist (s : State) (k : Nat) (w : Wave) : (s.setWave k w).hist = s.hist := rfl
@[simp] theorem State.setWave_homeIx (s : State) (k : Nat) (w : Wave) : (s.setWave k w).homeIx = s.homeIx := rfl
@[simp] theorem State.setWave_rels (s : State) (k : Nat) (w : Wave) : (s.setWave k w).rels = s.rels := rfl
@[simp] theorem State.setWave_engSeen (s : State) (k : Nat) (w : Wave) : (s.setWave k w).engSeen = s.engSeen := rfl
@[simp] theorem State.setWave_groups (s : State) (k : Nat) (w : Wave) : (s.setWave k w).groups = s.groups := rfl
@[simp] theorem State.setWave_grids (s : State) (k : Nat) (w : Wave) : (s.setWave k w).grids = s.grids := rfl
@[simp] theorem State.setWave_gangs (s : State) (k : Nat) (w : Wave) : (s.setWave k w).gangs = s.gangs := rfl
@[simp] theorem State.setWave_cores (s : State) (k : Nat) (w : Wave) : (s.setWave k w).cores = s.cores := rfl
@[simp] theorem State.setWave_quarters (s : State) (k : Nat) (w : Wave) : (s.setWave k w).quarters = s.quarters := rfl
@[simp] theorem State.setWave_ctxs (s : State) (k : Nat) (w : Wave) : (s.setWave k w).ctxs = s.ctxs := rfl
@[simp] theorem State.setWave_vdevs (s : State) (k : Nat) (w : Wave) : (s.setWave k w).vdevs = s.vdevs := rfl
@[simp] theorem State.setWave_dies (s : State) (k : Nat) (w : Wave) : (s.setWave k w).dies = s.dies := rfl
@[simp] theorem State.setWave_lcores (s : State) (k : Nat) (w : Wave) : (s.setWave k w).lcores = s.lcores := rfl
@[simp] theorem State.setWave_recs (s : State) (k : Nat) (w : Wave) : (s.setWave k w).recs = s.recs := rfl
@[simp] theorem State.setWave_beats (s : State) (k : Nat) (w : Wave) : (s.setWave k w).beats = s.beats := rfl
@[simp] theorem State.setWave_colls (s : State) (k : Nat) (w : Wave) : (s.setWave k w).colls = s.colls := rfl
@[simp] theorem State.setWave_collNext (s : State) (k : Nat) (w : Wave) : (s.setWave k w).collNext = s.collNext := rfl
@[simp] theorem State.setWave_images (s : State) (k : Nat) (w : Wave) : (s.setWave k w).images = s.images := rfl
@[simp] theorem State.setWave_claims (s : State) (k : Nat) (w : Wave) : (s.setWave k w).claims = s.claims := rfl
@[simp] theorem State.setWave_saveArea (s : State) (k : Nat) (w : Wave) : (s.setWave k w).saveArea = s.saveArea := rfl
@[simp] theorem State.setWave_outbox (s : State) (k : Nat) (w : Wave) : (s.setWave k w).outbox = s.outbox := rfl
@[simp] theorem State.setWave_cycles (s : State) (k : Nat) (w : Wave) : (s.setWave k w).cycles = s.cycles := rfl
@[simp] theorem State.setWave_attempts (s : State) (k : Nat) (w : Wave) : (s.setWave k w).attempts = s.attempts := rfl
@[simp] theorem State.setWave_replays (s : State) (k : Nat) (w : Wave) : (s.setWave k w).replays = s.replays := rfl
@[simp] theorem State.setWave_powerWin (s : State) (k : Nat) (w : Wave) : (s.setWave k w).powerWin = s.powerWin := rfl
@[simp] theorem State.setWave_hbeatAge (s : State) (k : Nat) (w : Wave) : (s.setWave k w).hbeatAge = s.hbeatAge := rfl
@[simp] theorem State.setWave_drainLeft (s : State) (k : Nat) (w : Wave) : (s.setWave k w).drainLeft = s.drainLeft := rfl
@[simp] theorem State.setWave_booted (s : State) (k : Nat) (w : Wave) : (s.setWave k w).booted = s.booted := rfl

theorem State.updWave_waves (s : State) (k : Nat) (f : Wave → Wave) : (s.updWave k f).waves = Tab.upd s.waves k f := rfl
@[simp] theorem State.updWave_agenda (s : State) (k : Nat) (f : Wave → Wave) : (s.updWave k f).agenda = s.agenda := rfl
@[simp] theorem State.updWave_starts (s : State) (k : Nat) (f : Wave → Wave) : (s.updWave k f).starts = s.starts := rfl
@[simp] theorem State.updWave_cur (s : State) (k : Nat) (f : Wave → Wave) : (s.updWave k f).cur = s.cur := rfl
@[simp] theorem State.updWave_curL (s : State) (k : Nat) (f : Wave → Wave) : (s.updWave k f).curL = s.curL := rfl
@[simp] theorem State.updWave_draw (s : State) (k : Nat) (f : Wave → Wave) : (s.updWave k f).draw = s.draw := rfl
@[simp] theorem State.updWave_nextId (s : State) (k : Nat) (f : Wave → Wave) : (s.updWave k f).nextId = s.nextId := rfl
@[simp] theorem State.updWave_lregs (s : State) (k : Nat) (f : Wave → Wave) : (s.updWave k f).lregs = s.lregs := rfl
@[simp] theorem State.updWave_mem (s : State) (k : Nat) (f : Wave → Wave) : (s.updWave k f).mem = s.mem := rfl
@[simp] theorem State.updWave_mtags (s : State) (k : Nat) (f : Wave → Wave) : (s.updWave k f).mtags = s.mtags := rfl
@[simp] theorem State.updWave_mpoison (s : State) (k : Nat) (f : Wave → Wave) : (s.updWave k f).mpoison = s.mpoison := rfl
@[simp] theorem State.updWave_lpoison (s : State) (k : Nat) (f : Wave → Wave) : (s.updWave k f).lpoison = s.lpoison := rfl
@[simp] theorem State.updWave_hist (s : State) (k : Nat) (f : Wave → Wave) : (s.updWave k f).hist = s.hist := rfl
@[simp] theorem State.updWave_homeIx (s : State) (k : Nat) (f : Wave → Wave) : (s.updWave k f).homeIx = s.homeIx := rfl
@[simp] theorem State.updWave_rels (s : State) (k : Nat) (f : Wave → Wave) : (s.updWave k f).rels = s.rels := rfl
@[simp] theorem State.updWave_engSeen (s : State) (k : Nat) (f : Wave → Wave) : (s.updWave k f).engSeen = s.engSeen := rfl
@[simp] theorem State.updWave_groups (s : State) (k : Nat) (f : Wave → Wave) : (s.updWave k f).groups = s.groups := rfl
@[simp] theorem State.updWave_grids (s : State) (k : Nat) (f : Wave → Wave) : (s.updWave k f).grids = s.grids := rfl
@[simp] theorem State.updWave_gangs (s : State) (k : Nat) (f : Wave → Wave) : (s.updWave k f).gangs = s.gangs := rfl
@[simp] theorem State.updWave_cores (s : State) (k : Nat) (f : Wave → Wave) : (s.updWave k f).cores = s.cores := rfl
@[simp] theorem State.updWave_quarters (s : State) (k : Nat) (f : Wave → Wave) : (s.updWave k f).quarters = s.quarters := rfl
@[simp] theorem State.updWave_ctxs (s : State) (k : Nat) (f : Wave → Wave) : (s.updWave k f).ctxs = s.ctxs := rfl
@[simp] theorem State.updWave_vdevs (s : State) (k : Nat) (f : Wave → Wave) : (s.updWave k f).vdevs = s.vdevs := rfl
@[simp] theorem State.updWave_dies (s : State) (k : Nat) (f : Wave → Wave) : (s.updWave k f).dies = s.dies := rfl
@[simp] theorem State.updWave_lcores (s : State) (k : Nat) (f : Wave → Wave) : (s.updWave k f).lcores = s.lcores := rfl
@[simp] theorem State.updWave_recs (s : State) (k : Nat) (f : Wave → Wave) : (s.updWave k f).recs = s.recs := rfl
@[simp] theorem State.updWave_beats (s : State) (k : Nat) (f : Wave → Wave) : (s.updWave k f).beats = s.beats := rfl
@[simp] theorem State.updWave_colls (s : State) (k : Nat) (f : Wave → Wave) : (s.updWave k f).colls = s.colls := rfl
@[simp] theorem State.updWave_collNext (s : State) (k : Nat) (f : Wave → Wave) : (s.updWave k f).collNext = s.collNext := rfl
@[simp] theorem State.updWave_images (s : State) (k : Nat) (f : Wave → Wave) : (s.updWave k f).images = s.images := rfl
@[simp] theorem State.updWave_claims (s : State) (k : Nat) (f : Wave → Wave) : (s.updWave k f).claims = s.claims := rfl
@[simp] theorem State.updWave_saveArea (s : State) (k : Nat) (f : Wave → Wave) : (s.updWave k f).saveArea = s.saveArea := rfl
@[simp] theorem State.updWave_outbox (s : State) (k : Nat) (f : Wave → Wave) : (s.updWave k f).outbox = s.outbox := rfl
@[simp] theorem State.updWave_cycles (s : State) (k : Nat) (f : Wave → Wave) : (s.updWave k f).cycles = s.cycles := rfl
@[simp] theorem State.updWave_attempts (s : State) (k : Nat) (f : Wave → Wave) : (s.updWave k f).attempts = s.attempts := rfl
@[simp] theorem State.updWave_replays (s : State) (k : Nat) (f : Wave → Wave) : (s.updWave k f).replays = s.replays := rfl
@[simp] theorem State.updWave_powerWin (s : State) (k : Nat) (f : Wave → Wave) : (s.updWave k f).powerWin = s.powerWin := rfl
@[simp] theorem State.updWave_hbeatAge (s : State) (k : Nat) (f : Wave → Wave) : (s.updWave k f).hbeatAge = s.hbeatAge := rfl
@[simp] theorem State.updWave_drainLeft (s : State) (k : Nat) (f : Wave → Wave) : (s.updWave k f).drainLeft = s.drainLeft := rfl
@[simp] theorem State.updWave_booted (s : State) (k : Nat) (f : Wave → Wave) : (s.updWave k f).booted = s.booted := rfl

theorem State.setGroup_groups (s : State) (k : Nat) (g : Group) : (s.setGroup k g).groups = Tab.set s.groups k g := rfl
@[simp] theorem State.setGroup_agenda (s : State) (k : Nat) (g : Group) : (s.setGroup k g).agenda = s.agenda := rfl
@[simp] theorem State.setGroup_starts (s : State) (k : Nat) (g : Group) : (s.setGroup k g).starts = s.starts := rfl
@[simp] theorem State.setGroup_cur (s : State) (k : Nat) (g : Group) : (s.setGroup k g).cur = s.cur := rfl
@[simp] theorem State.setGroup_curL (s : State) (k : Nat) (g : Group) : (s.setGroup k g).curL = s.curL := rfl
@[simp] theorem State.setGroup_draw (s : State) (k : Nat) (g : Group) : (s.setGroup k g).draw = s.draw := rfl
@[simp] theorem State.setGroup_nextId (s : State) (k : Nat) (g : Group) : (s.setGroup k g).nextId = s.nextId := rfl
@[simp] theorem State.setGroup_lregs (s : State) (k : Nat) (g : Group) : (s.setGroup k g).lregs = s.lregs := rfl
@[simp] theorem State.setGroup_mem (s : State) (k : Nat) (g : Group) : (s.setGroup k g).mem = s.mem := rfl
@[simp] theorem State.setGroup_mtags (s : State) (k : Nat) (g : Group) : (s.setGroup k g).mtags = s.mtags := rfl
@[simp] theorem State.setGroup_mpoison (s : State) (k : Nat) (g : Group) : (s.setGroup k g).mpoison = s.mpoison := rfl
@[simp] theorem State.setGroup_lpoison (s : State) (k : Nat) (g : Group) : (s.setGroup k g).lpoison = s.lpoison := rfl
@[simp] theorem State.setGroup_hist (s : State) (k : Nat) (g : Group) : (s.setGroup k g).hist = s.hist := rfl
@[simp] theorem State.setGroup_homeIx (s : State) (k : Nat) (g : Group) : (s.setGroup k g).homeIx = s.homeIx := rfl
@[simp] theorem State.setGroup_rels (s : State) (k : Nat) (g : Group) : (s.setGroup k g).rels = s.rels := rfl
@[simp] theorem State.setGroup_engSeen (s : State) (k : Nat) (g : Group) : (s.setGroup k g).engSeen = s.engSeen := rfl
@[simp] theorem State.setGroup_waves (s : State) (k : Nat) (g : Group) : (s.setGroup k g).waves = s.waves := rfl
@[simp] theorem State.setGroup_grids (s : State) (k : Nat) (g : Group) : (s.setGroup k g).grids = s.grids := rfl
@[simp] theorem State.setGroup_gangs (s : State) (k : Nat) (g : Group) : (s.setGroup k g).gangs = s.gangs := rfl
@[simp] theorem State.setGroup_cores (s : State) (k : Nat) (g : Group) : (s.setGroup k g).cores = s.cores := rfl
@[simp] theorem State.setGroup_quarters (s : State) (k : Nat) (g : Group) : (s.setGroup k g).quarters = s.quarters := rfl
@[simp] theorem State.setGroup_ctxs (s : State) (k : Nat) (g : Group) : (s.setGroup k g).ctxs = s.ctxs := rfl
@[simp] theorem State.setGroup_vdevs (s : State) (k : Nat) (g : Group) : (s.setGroup k g).vdevs = s.vdevs := rfl
@[simp] theorem State.setGroup_dies (s : State) (k : Nat) (g : Group) : (s.setGroup k g).dies = s.dies := rfl
@[simp] theorem State.setGroup_lcores (s : State) (k : Nat) (g : Group) : (s.setGroup k g).lcores = s.lcores := rfl
@[simp] theorem State.setGroup_recs (s : State) (k : Nat) (g : Group) : (s.setGroup k g).recs = s.recs := rfl
@[simp] theorem State.setGroup_beats (s : State) (k : Nat) (g : Group) : (s.setGroup k g).beats = s.beats := rfl
@[simp] theorem State.setGroup_colls (s : State) (k : Nat) (g : Group) : (s.setGroup k g).colls = s.colls := rfl
@[simp] theorem State.setGroup_collNext (s : State) (k : Nat) (g : Group) : (s.setGroup k g).collNext = s.collNext := rfl
@[simp] theorem State.setGroup_images (s : State) (k : Nat) (g : Group) : (s.setGroup k g).images = s.images := rfl
@[simp] theorem State.setGroup_claims (s : State) (k : Nat) (g : Group) : (s.setGroup k g).claims = s.claims := rfl
@[simp] theorem State.setGroup_saveArea (s : State) (k : Nat) (g : Group) : (s.setGroup k g).saveArea = s.saveArea := rfl
@[simp] theorem State.setGroup_outbox (s : State) (k : Nat) (g : Group) : (s.setGroup k g).outbox = s.outbox := rfl
@[simp] theorem State.setGroup_cycles (s : State) (k : Nat) (g : Group) : (s.setGroup k g).cycles = s.cycles := rfl
@[simp] theorem State.setGroup_attempts (s : State) (k : Nat) (g : Group) : (s.setGroup k g).attempts = s.attempts := rfl
@[simp] theorem State.setGroup_replays (s : State) (k : Nat) (g : Group) : (s.setGroup k g).replays = s.replays := rfl
@[simp] theorem State.setGroup_powerWin (s : State) (k : Nat) (g : Group) : (s.setGroup k g).powerWin = s.powerWin := rfl
@[simp] theorem State.setGroup_hbeatAge (s : State) (k : Nat) (g : Group) : (s.setGroup k g).hbeatAge = s.hbeatAge := rfl
@[simp] theorem State.setGroup_drainLeft (s : State) (k : Nat) (g : Group) : (s.setGroup k g).drainLeft = s.drainLeft := rfl
@[simp] theorem State.setGroup_booted (s : State) (k : Nat) (g : Group) : (s.setGroup k g).booted = s.booted := rfl

theorem State.updGroup_groups (s : State) (k : Nat) (f : Group → Group) : (s.updGroup k f).groups = Tab.upd s.groups k f := rfl
@[simp] theorem State.updGroup_agenda (s : State) (k : Nat) (f : Group → Group) : (s.updGroup k f).agenda = s.agenda := rfl
@[simp] theorem State.updGroup_starts (s : State) (k : Nat) (f : Group → Group) : (s.updGroup k f).starts = s.starts := rfl
@[simp] theorem State.updGroup_cur (s : State) (k : Nat) (f : Group → Group) : (s.updGroup k f).cur = s.cur := rfl
@[simp] theorem State.updGroup_curL (s : State) (k : Nat) (f : Group → Group) : (s.updGroup k f).curL = s.curL := rfl
@[simp] theorem State.updGroup_draw (s : State) (k : Nat) (f : Group → Group) : (s.updGroup k f).draw = s.draw := rfl
@[simp] theorem State.updGroup_nextId (s : State) (k : Nat) (f : Group → Group) : (s.updGroup k f).nextId = s.nextId := rfl
@[simp] theorem State.updGroup_lregs (s : State) (k : Nat) (f : Group → Group) : (s.updGroup k f).lregs = s.lregs := rfl
@[simp] theorem State.updGroup_mem (s : State) (k : Nat) (f : Group → Group) : (s.updGroup k f).mem = s.mem := rfl
@[simp] theorem State.updGroup_mtags (s : State) (k : Nat) (f : Group → Group) : (s.updGroup k f).mtags = s.mtags := rfl
@[simp] theorem State.updGroup_mpoison (s : State) (k : Nat) (f : Group → Group) : (s.updGroup k f).mpoison = s.mpoison := rfl
@[simp] theorem State.updGroup_lpoison (s : State) (k : Nat) (f : Group → Group) : (s.updGroup k f).lpoison = s.lpoison := rfl
@[simp] theorem State.updGroup_hist (s : State) (k : Nat) (f : Group → Group) : (s.updGroup k f).hist = s.hist := rfl
@[simp] theorem State.updGroup_homeIx (s : State) (k : Nat) (f : Group → Group) : (s.updGroup k f).homeIx = s.homeIx := rfl
@[simp] theorem State.updGroup_rels (s : State) (k : Nat) (f : Group → Group) : (s.updGroup k f).rels = s.rels := rfl
@[simp] theorem State.updGroup_engSeen (s : State) (k : Nat) (f : Group → Group) : (s.updGroup k f).engSeen = s.engSeen := rfl
@[simp] theorem State.updGroup_waves (s : State) (k : Nat) (f : Group → Group) : (s.updGroup k f).waves = s.waves := rfl
@[simp] theorem State.updGroup_grids (s : State) (k : Nat) (f : Group → Group) : (s.updGroup k f).grids = s.grids := rfl
@[simp] theorem State.updGroup_gangs (s : State) (k : Nat) (f : Group → Group) : (s.updGroup k f).gangs = s.gangs := rfl
@[simp] theorem State.updGroup_cores (s : State) (k : Nat) (f : Group → Group) : (s.updGroup k f).cores = s.cores := rfl
@[simp] theorem State.updGroup_quarters (s : State) (k : Nat) (f : Group → Group) : (s.updGroup k f).quarters = s.quarters := rfl
@[simp] theorem State.updGroup_ctxs (s : State) (k : Nat) (f : Group → Group) : (s.updGroup k f).ctxs = s.ctxs := rfl
@[simp] theorem State.updGroup_vdevs (s : State) (k : Nat) (f : Group → Group) : (s.updGroup k f).vdevs = s.vdevs := rfl
@[simp] theorem State.updGroup_dies (s : State) (k : Nat) (f : Group → Group) : (s.updGroup k f).dies = s.dies := rfl
@[simp] theorem State.updGroup_lcores (s : State) (k : Nat) (f : Group → Group) : (s.updGroup k f).lcores = s.lcores := rfl
@[simp] theorem State.updGroup_recs (s : State) (k : Nat) (f : Group → Group) : (s.updGroup k f).recs = s.recs := rfl
@[simp] theorem State.updGroup_beats (s : State) (k : Nat) (f : Group → Group) : (s.updGroup k f).beats = s.beats := rfl
@[simp] theorem State.updGroup_colls (s : State) (k : Nat) (f : Group → Group) : (s.updGroup k f).colls = s.colls := rfl
@[simp] theorem State.updGroup_collNext (s : State) (k : Nat) (f : Group → Group) : (s.updGroup k f).collNext = s.collNext := rfl
@[simp] theorem State.updGroup_images (s : State) (k : Nat) (f : Group → Group) : (s.updGroup k f).images = s.images := rfl
@[simp] theorem State.updGroup_claims (s : State) (k : Nat) (f : Group → Group) : (s.updGroup k f).claims = s.claims := rfl
@[simp] theorem State.updGroup_saveArea (s : State) (k : Nat) (f : Group → Group) : (s.updGroup k f).saveArea = s.saveArea := rfl
@[simp] theorem State.updGroup_outbox (s : State) (k : Nat) (f : Group → Group) : (s.updGroup k f).outbox = s.outbox := rfl
@[simp] theorem State.updGroup_cycles (s : State) (k : Nat) (f : Group → Group) : (s.updGroup k f).cycles = s.cycles := rfl
@[simp] theorem State.updGroup_attempts (s : State) (k : Nat) (f : Group → Group) : (s.updGroup k f).attempts = s.attempts := rfl
@[simp] theorem State.updGroup_replays (s : State) (k : Nat) (f : Group → Group) : (s.updGroup k f).replays = s.replays := rfl
@[simp] theorem State.updGroup_powerWin (s : State) (k : Nat) (f : Group → Group) : (s.updGroup k f).powerWin = s.powerWin := rfl
@[simp] theorem State.updGroup_hbeatAge (s : State) (k : Nat) (f : Group → Group) : (s.updGroup k f).hbeatAge = s.hbeatAge := rfl
@[simp] theorem State.updGroup_drainLeft (s : State) (k : Nat) (f : Group → Group) : (s.updGroup k f).drainLeft = s.drainLeft := rfl
@[simp] theorem State.updGroup_booted (s : State) (k : Nat) (f : Group → Group) : (s.updGroup k f).booted = s.booted := rfl

theorem State.updGrid_grids (s : State) (k : Nat) (f : Grid → Grid) : (s.updGrid k f).grids = Tab.upd s.grids k f := rfl
@[simp] theorem State.updGrid_agenda (s : State) (k : Nat) (f : Grid → Grid) : (s.updGrid k f).agenda = s.agenda := rfl
@[simp] theorem State.updGrid_starts (s : State) (k : Nat) (f : Grid → Grid) : (s.updGrid k f).starts = s.starts := rfl
@[simp] theorem State.updGrid_cur (s : State) (k : Nat) (f : Grid → Grid) : (s.updGrid k f).cur = s.cur := rfl
@[simp] theorem State.updGrid_curL (s : State) (k : Nat) (f : Grid → Grid) : (s.updGrid k f).curL = s.curL := rfl
@[simp] theorem State.updGrid_draw (s : State) (k : Nat) (f : Grid → Grid) : (s.updGrid k f).draw = s.draw := rfl
@[simp] theorem State.updGrid_nextId (s : State) (k : Nat) (f : Grid → Grid) : (s.updGrid k f).nextId = s.nextId := rfl
@[simp] theorem State.updGrid_lregs (s : State) (k : Nat) (f : Grid → Grid) : (s.updGrid k f).lregs = s.lregs := rfl
@[simp] theorem State.updGrid_mem (s : State) (k : Nat) (f : Grid → Grid) : (s.updGrid k f).mem = s.mem := rfl
@[simp] theorem State.updGrid_mtags (s : State) (k : Nat) (f : Grid → Grid) : (s.updGrid k f).mtags = s.mtags := rfl
@[simp] theorem State.updGrid_mpoison (s : State) (k : Nat) (f : Grid → Grid) : (s.updGrid k f).mpoison = s.mpoison := rfl
@[simp] theorem State.updGrid_lpoison (s : State) (k : Nat) (f : Grid → Grid) : (s.updGrid k f).lpoison = s.lpoison := rfl
@[simp] theorem State.updGrid_hist (s : State) (k : Nat) (f : Grid → Grid) : (s.updGrid k f).hist = s.hist := rfl
@[simp] theorem State.updGrid_homeIx (s : State) (k : Nat) (f : Grid → Grid) : (s.updGrid k f).homeIx = s.homeIx := rfl
@[simp] theorem State.updGrid_rels (s : State) (k : Nat) (f : Grid → Grid) : (s.updGrid k f).rels = s.rels := rfl
@[simp] theorem State.updGrid_engSeen (s : State) (k : Nat) (f : Grid → Grid) : (s.updGrid k f).engSeen = s.engSeen := rfl
@[simp] theorem State.updGrid_waves (s : State) (k : Nat) (f : Grid → Grid) : (s.updGrid k f).waves = s.waves := rfl
@[simp] theorem State.updGrid_groups (s : State) (k : Nat) (f : Grid → Grid) : (s.updGrid k f).groups = s.groups := rfl
@[simp] theorem State.updGrid_gangs (s : State) (k : Nat) (f : Grid → Grid) : (s.updGrid k f).gangs = s.gangs := rfl
@[simp] theorem State.updGrid_cores (s : State) (k : Nat) (f : Grid → Grid) : (s.updGrid k f).cores = s.cores := rfl
@[simp] theorem State.updGrid_quarters (s : State) (k : Nat) (f : Grid → Grid) : (s.updGrid k f).quarters = s.quarters := rfl
@[simp] theorem State.updGrid_ctxs (s : State) (k : Nat) (f : Grid → Grid) : (s.updGrid k f).ctxs = s.ctxs := rfl
@[simp] theorem State.updGrid_vdevs (s : State) (k : Nat) (f : Grid → Grid) : (s.updGrid k f).vdevs = s.vdevs := rfl
@[simp] theorem State.updGrid_dies (s : State) (k : Nat) (f : Grid → Grid) : (s.updGrid k f).dies = s.dies := rfl
@[simp] theorem State.updGrid_lcores (s : State) (k : Nat) (f : Grid → Grid) : (s.updGrid k f).lcores = s.lcores := rfl
@[simp] theorem State.updGrid_recs (s : State) (k : Nat) (f : Grid → Grid) : (s.updGrid k f).recs = s.recs := rfl
@[simp] theorem State.updGrid_beats (s : State) (k : Nat) (f : Grid → Grid) : (s.updGrid k f).beats = s.beats := rfl
@[simp] theorem State.updGrid_colls (s : State) (k : Nat) (f : Grid → Grid) : (s.updGrid k f).colls = s.colls := rfl
@[simp] theorem State.updGrid_collNext (s : State) (k : Nat) (f : Grid → Grid) : (s.updGrid k f).collNext = s.collNext := rfl
@[simp] theorem State.updGrid_images (s : State) (k : Nat) (f : Grid → Grid) : (s.updGrid k f).images = s.images := rfl
@[simp] theorem State.updGrid_claims (s : State) (k : Nat) (f : Grid → Grid) : (s.updGrid k f).claims = s.claims := rfl
@[simp] theorem State.updGrid_saveArea (s : State) (k : Nat) (f : Grid → Grid) : (s.updGrid k f).saveArea = s.saveArea := rfl
@[simp] theorem State.updGrid_outbox (s : State) (k : Nat) (f : Grid → Grid) : (s.updGrid k f).outbox = s.outbox := rfl
@[simp] theorem State.updGrid_cycles (s : State) (k : Nat) (f : Grid → Grid) : (s.updGrid k f).cycles = s.cycles := rfl
@[simp] theorem State.updGrid_attempts (s : State) (k : Nat) (f : Grid → Grid) : (s.updGrid k f).attempts = s.attempts := rfl
@[simp] theorem State.updGrid_replays (s : State) (k : Nat) (f : Grid → Grid) : (s.updGrid k f).replays = s.replays := rfl
@[simp] theorem State.updGrid_powerWin (s : State) (k : Nat) (f : Grid → Grid) : (s.updGrid k f).powerWin = s.powerWin := rfl
@[simp] theorem State.updGrid_hbeatAge (s : State) (k : Nat) (f : Grid → Grid) : (s.updGrid k f).hbeatAge = s.hbeatAge := rfl
@[simp] theorem State.updGrid_drainLeft (s : State) (k : Nat) (f : Grid → Grid) : (s.updGrid k f).drainLeft = s.drainLeft := rfl
@[simp] theorem State.updGrid_booted (s : State) (k : Nat) (f : Grid → Grid) : (s.updGrid k f).booted = s.booted := rfl

theorem State.updCtx_ctxs (s : State) (k : Nat) (f : Ctx → Ctx) : (s.updCtx k f).ctxs = Tab.upd s.ctxs k f := rfl
@[simp] theorem State.updCtx_agenda (s : State) (k : Nat) (f : Ctx → Ctx) : (s.updCtx k f).agenda = s.agenda := rfl
@[simp] theorem State.updCtx_starts (s : State) (k : Nat) (f : Ctx → Ctx) : (s.updCtx k f).starts = s.starts := rfl
@[simp] theorem State.updCtx_cur (s : State) (k : Nat) (f : Ctx → Ctx) : (s.updCtx k f).cur = s.cur := rfl
@[simp] theorem State.updCtx_curL (s : State) (k : Nat) (f : Ctx → Ctx) : (s.updCtx k f).curL = s.curL := rfl
@[simp] theorem State.updCtx_draw (s : State) (k : Nat) (f : Ctx → Ctx) : (s.updCtx k f).draw = s.draw := rfl
@[simp] theorem State.updCtx_nextId (s : State) (k : Nat) (f : Ctx → Ctx) : (s.updCtx k f).nextId = s.nextId := rfl
@[simp] theorem State.updCtx_lregs (s : State) (k : Nat) (f : Ctx → Ctx) : (s.updCtx k f).lregs = s.lregs := rfl
@[simp] theorem State.updCtx_mem (s : State) (k : Nat) (f : Ctx → Ctx) : (s.updCtx k f).mem = s.mem := rfl
@[simp] theorem State.updCtx_mtags (s : State) (k : Nat) (f : Ctx → Ctx) : (s.updCtx k f).mtags = s.mtags := rfl
@[simp] theorem State.updCtx_mpoison (s : State) (k : Nat) (f : Ctx → Ctx) : (s.updCtx k f).mpoison = s.mpoison := rfl
@[simp] theorem State.updCtx_lpoison (s : State) (k : Nat) (f : Ctx → Ctx) : (s.updCtx k f).lpoison = s.lpoison := rfl
@[simp] theorem State.updCtx_hist (s : State) (k : Nat) (f : Ctx → Ctx) : (s.updCtx k f).hist = s.hist := rfl
@[simp] theorem State.updCtx_homeIx (s : State) (k : Nat) (f : Ctx → Ctx) : (s.updCtx k f).homeIx = s.homeIx := rfl
@[simp] theorem State.updCtx_rels (s : State) (k : Nat) (f : Ctx → Ctx) : (s.updCtx k f).rels = s.rels := rfl
@[simp] theorem State.updCtx_engSeen (s : State) (k : Nat) (f : Ctx → Ctx) : (s.updCtx k f).engSeen = s.engSeen := rfl
@[simp] theorem State.updCtx_waves (s : State) (k : Nat) (f : Ctx → Ctx) : (s.updCtx k f).waves = s.waves := rfl
@[simp] theorem State.updCtx_groups (s : State) (k : Nat) (f : Ctx → Ctx) : (s.updCtx k f).groups = s.groups := rfl
@[simp] theorem State.updCtx_grids (s : State) (k : Nat) (f : Ctx → Ctx) : (s.updCtx k f).grids = s.grids := rfl
@[simp] theorem State.updCtx_gangs (s : State) (k : Nat) (f : Ctx → Ctx) : (s.updCtx k f).gangs = s.gangs := rfl
@[simp] theorem State.updCtx_cores (s : State) (k : Nat) (f : Ctx → Ctx) : (s.updCtx k f).cores = s.cores := rfl
@[simp] theorem State.updCtx_quarters (s : State) (k : Nat) (f : Ctx → Ctx) : (s.updCtx k f).quarters = s.quarters := rfl
@[simp] theorem State.updCtx_vdevs (s : State) (k : Nat) (f : Ctx → Ctx) : (s.updCtx k f).vdevs = s.vdevs := rfl
@[simp] theorem State.updCtx_dies (s : State) (k : Nat) (f : Ctx → Ctx) : (s.updCtx k f).dies = s.dies := rfl
@[simp] theorem State.updCtx_lcores (s : State) (k : Nat) (f : Ctx → Ctx) : (s.updCtx k f).lcores = s.lcores := rfl
@[simp] theorem State.updCtx_recs (s : State) (k : Nat) (f : Ctx → Ctx) : (s.updCtx k f).recs = s.recs := rfl
@[simp] theorem State.updCtx_beats (s : State) (k : Nat) (f : Ctx → Ctx) : (s.updCtx k f).beats = s.beats := rfl
@[simp] theorem State.updCtx_colls (s : State) (k : Nat) (f : Ctx → Ctx) : (s.updCtx k f).colls = s.colls := rfl
@[simp] theorem State.updCtx_collNext (s : State) (k : Nat) (f : Ctx → Ctx) : (s.updCtx k f).collNext = s.collNext := rfl
@[simp] theorem State.updCtx_images (s : State) (k : Nat) (f : Ctx → Ctx) : (s.updCtx k f).images = s.images := rfl
@[simp] theorem State.updCtx_claims (s : State) (k : Nat) (f : Ctx → Ctx) : (s.updCtx k f).claims = s.claims := rfl
@[simp] theorem State.updCtx_saveArea (s : State) (k : Nat) (f : Ctx → Ctx) : (s.updCtx k f).saveArea = s.saveArea := rfl
@[simp] theorem State.updCtx_outbox (s : State) (k : Nat) (f : Ctx → Ctx) : (s.updCtx k f).outbox = s.outbox := rfl
@[simp] theorem State.updCtx_cycles (s : State) (k : Nat) (f : Ctx → Ctx) : (s.updCtx k f).cycles = s.cycles := rfl
@[simp] theorem State.updCtx_attempts (s : State) (k : Nat) (f : Ctx → Ctx) : (s.updCtx k f).attempts = s.attempts := rfl
@[simp] theorem State.updCtx_replays (s : State) (k : Nat) (f : Ctx → Ctx) : (s.updCtx k f).replays = s.replays := rfl
@[simp] theorem State.updCtx_powerWin (s : State) (k : Nat) (f : Ctx → Ctx) : (s.updCtx k f).powerWin = s.powerWin := rfl
@[simp] theorem State.updCtx_hbeatAge (s : State) (k : Nat) (f : Ctx → Ctx) : (s.updCtx k f).hbeatAge = s.hbeatAge := rfl
@[simp] theorem State.updCtx_drainLeft (s : State) (k : Nat) (f : Ctx → Ctx) : (s.updCtx k f).drainLeft = s.drainLeft := rfl
@[simp] theorem State.updCtx_booted (s : State) (k : Nat) (f : Ctx → Ctx) : (s.updCtx k f).booted = s.booted := rfl

theorem State.updGang_gangs (s : State) (k : Nat) (f : Gang → Gang) : (s.updGang k f).gangs = Tab.upd s.gangs k f := rfl
@[simp] theorem State.updGang_agenda (s : State) (k : Nat) (f : Gang → Gang) : (s.updGang k f).agenda = s.agenda := rfl
@[simp] theorem State.updGang_starts (s : State) (k : Nat) (f : Gang → Gang) : (s.updGang k f).starts = s.starts := rfl
@[simp] theorem State.updGang_cur (s : State) (k : Nat) (f : Gang → Gang) : (s.updGang k f).cur = s.cur := rfl
@[simp] theorem State.updGang_curL (s : State) (k : Nat) (f : Gang → Gang) : (s.updGang k f).curL = s.curL := rfl
@[simp] theorem State.updGang_draw (s : State) (k : Nat) (f : Gang → Gang) : (s.updGang k f).draw = s.draw := rfl
@[simp] theorem State.updGang_nextId (s : State) (k : Nat) (f : Gang → Gang) : (s.updGang k f).nextId = s.nextId := rfl
@[simp] theorem State.updGang_lregs (s : State) (k : Nat) (f : Gang → Gang) : (s.updGang k f).lregs = s.lregs := rfl
@[simp] theorem State.updGang_mem (s : State) (k : Nat) (f : Gang → Gang) : (s.updGang k f).mem = s.mem := rfl
@[simp] theorem State.updGang_mtags (s : State) (k : Nat) (f : Gang → Gang) : (s.updGang k f).mtags = s.mtags := rfl
@[simp] theorem State.updGang_mpoison (s : State) (k : Nat) (f : Gang → Gang) : (s.updGang k f).mpoison = s.mpoison := rfl
@[simp] theorem State.updGang_lpoison (s : State) (k : Nat) (f : Gang → Gang) : (s.updGang k f).lpoison = s.lpoison := rfl
@[simp] theorem State.updGang_hist (s : State) (k : Nat) (f : Gang → Gang) : (s.updGang k f).hist = s.hist := rfl
@[simp] theorem State.updGang_homeIx (s : State) (k : Nat) (f : Gang → Gang) : (s.updGang k f).homeIx = s.homeIx := rfl
@[simp] theorem State.updGang_rels (s : State) (k : Nat) (f : Gang → Gang) : (s.updGang k f).rels = s.rels := rfl
@[simp] theorem State.updGang_engSeen (s : State) (k : Nat) (f : Gang → Gang) : (s.updGang k f).engSeen = s.engSeen := rfl
@[simp] theorem State.updGang_waves (s : State) (k : Nat) (f : Gang → Gang) : (s.updGang k f).waves = s.waves := rfl
@[simp] theorem State.updGang_groups (s : State) (k : Nat) (f : Gang → Gang) : (s.updGang k f).groups = s.groups := rfl
@[simp] theorem State.updGang_grids (s : State) (k : Nat) (f : Gang → Gang) : (s.updGang k f).grids = s.grids := rfl
@[simp] theorem State.updGang_cores (s : State) (k : Nat) (f : Gang → Gang) : (s.updGang k f).cores = s.cores := rfl
@[simp] theorem State.updGang_quarters (s : State) (k : Nat) (f : Gang → Gang) : (s.updGang k f).quarters = s.quarters := rfl
@[simp] theorem State.updGang_ctxs (s : State) (k : Nat) (f : Gang → Gang) : (s.updGang k f).ctxs = s.ctxs := rfl
@[simp] theorem State.updGang_vdevs (s : State) (k : Nat) (f : Gang → Gang) : (s.updGang k f).vdevs = s.vdevs := rfl
@[simp] theorem State.updGang_dies (s : State) (k : Nat) (f : Gang → Gang) : (s.updGang k f).dies = s.dies := rfl
@[simp] theorem State.updGang_lcores (s : State) (k : Nat) (f : Gang → Gang) : (s.updGang k f).lcores = s.lcores := rfl
@[simp] theorem State.updGang_recs (s : State) (k : Nat) (f : Gang → Gang) : (s.updGang k f).recs = s.recs := rfl
@[simp] theorem State.updGang_beats (s : State) (k : Nat) (f : Gang → Gang) : (s.updGang k f).beats = s.beats := rfl
@[simp] theorem State.updGang_colls (s : State) (k : Nat) (f : Gang → Gang) : (s.updGang k f).colls = s.colls := rfl
@[simp] theorem State.updGang_collNext (s : State) (k : Nat) (f : Gang → Gang) : (s.updGang k f).collNext = s.collNext := rfl
@[simp] theorem State.updGang_images (s : State) (k : Nat) (f : Gang → Gang) : (s.updGang k f).images = s.images := rfl
@[simp] theorem State.updGang_claims (s : State) (k : Nat) (f : Gang → Gang) : (s.updGang k f).claims = s.claims := rfl
@[simp] theorem State.updGang_saveArea (s : State) (k : Nat) (f : Gang → Gang) : (s.updGang k f).saveArea = s.saveArea := rfl
@[simp] theorem State.updGang_outbox (s : State) (k : Nat) (f : Gang → Gang) : (s.updGang k f).outbox = s.outbox := rfl
@[simp] theorem State.updGang_cycles (s : State) (k : Nat) (f : Gang → Gang) : (s.updGang k f).cycles = s.cycles := rfl
@[simp] theorem State.updGang_attempts (s : State) (k : Nat) (f : Gang → Gang) : (s.updGang k f).attempts = s.attempts := rfl
@[simp] theorem State.updGang_replays (s : State) (k : Nat) (f : Gang → Gang) : (s.updGang k f).replays = s.replays := rfl
@[simp] theorem State.updGang_powerWin (s : State) (k : Nat) (f : Gang → Gang) : (s.updGang k f).powerWin = s.powerWin := rfl
@[simp] theorem State.updGang_hbeatAge (s : State) (k : Nat) (f : Gang → Gang) : (s.updGang k f).hbeatAge = s.hbeatAge := rfl
@[simp] theorem State.updGang_drainLeft (s : State) (k : Nat) (f : Gang → Gang) : (s.updGang k f).drainLeft = s.drainLeft := rfl
@[simp] theorem State.updGang_booted (s : State) (k : Nat) (f : Gang → Gang) : (s.updGang k f).booted = s.booted := rfl

theorem State.fresh_nextId (s : State) : (s.fresh).nextId = s.nextId + 1 := rfl
@[simp] theorem State.fresh_agenda (s : State) : (s.fresh).agenda = s.agenda := rfl
@[simp] theorem State.fresh_starts (s : State) : (s.fresh).starts = s.starts := rfl
@[simp] theorem State.fresh_cur (s : State) : (s.fresh).cur = s.cur := rfl
@[simp] theorem State.fresh_curL (s : State) : (s.fresh).curL = s.curL := rfl
@[simp] theorem State.fresh_draw (s : State) : (s.fresh).draw = s.draw := rfl
@[simp] theorem State.fresh_lregs (s : State) : (s.fresh).lregs = s.lregs := rfl
@[simp] theorem State.fresh_mem (s : State) : (s.fresh).mem = s.mem := rfl
@[simp] theorem State.fresh_mtags (s : State) : (s.fresh).mtags = s.mtags := rfl
@[simp] theorem State.fresh_mpoison (s : State) : (s.fresh).mpoison = s.mpoison := rfl
@[simp] theorem State.fresh_lpoison (s : State) : (s.fresh).lpoison = s.lpoison := rfl
@[simp] theorem State.fresh_hist (s : State) : (s.fresh).hist = s.hist := rfl
@[simp] theorem State.fresh_homeIx (s : State) : (s.fresh).homeIx = s.homeIx := rfl
@[simp] theorem State.fresh_rels (s : State) : (s.fresh).rels = s.rels := rfl
@[simp] theorem State.fresh_engSeen (s : State) : (s.fresh).engSeen = s.engSeen := rfl
@[simp] theorem State.fresh_waves (s : State) : (s.fresh).waves = s.waves := rfl
@[simp] theorem State.fresh_groups (s : State) : (s.fresh).groups = s.groups := rfl
@[simp] theorem State.fresh_grids (s : State) : (s.fresh).grids = s.grids := rfl
@[simp] theorem State.fresh_gangs (s : State) : (s.fresh).gangs = s.gangs := rfl
@[simp] theorem State.fresh_cores (s : State) : (s.fresh).cores = s.cores := rfl
@[simp] theorem State.fresh_quarters (s : State) : (s.fresh).quarters = s.quarters := rfl
@[simp] theorem State.fresh_ctxs (s : State) : (s.fresh).ctxs = s.ctxs := rfl
@[simp] theorem State.fresh_vdevs (s : State) : (s.fresh).vdevs = s.vdevs := rfl
@[simp] theorem State.fresh_dies (s : State) : (s.fresh).dies = s.dies := rfl
@[simp] theorem State.fresh_lcores (s : State) : (s.fresh).lcores = s.lcores := rfl
@[simp] theorem State.fresh_recs (s : State) : (s.fresh).recs = s.recs := rfl
@[simp] theorem State.fresh_beats (s : State) : (s.fresh).beats = s.beats := rfl
@[simp] theorem State.fresh_colls (s : State) : (s.fresh).colls = s.colls := rfl
@[simp] theorem State.fresh_collNext (s : State) : (s.fresh).collNext = s.collNext := rfl
@[simp] theorem State.fresh_images (s : State) : (s.fresh).images = s.images := rfl
@[simp] theorem State.fresh_claims (s : State) : (s.fresh).claims = s.claims := rfl
@[simp] theorem State.fresh_saveArea (s : State) : (s.fresh).saveArea = s.saveArea := rfl
@[simp] theorem State.fresh_outbox (s : State) : (s.fresh).outbox = s.outbox := rfl
@[simp] theorem State.fresh_cycles (s : State) : (s.fresh).cycles = s.cycles := rfl
@[simp] theorem State.fresh_attempts (s : State) : (s.fresh).attempts = s.attempts := rfl
@[simp] theorem State.fresh_replays (s : State) : (s.fresh).replays = s.replays := rfl
@[simp] theorem State.fresh_powerWin (s : State) : (s.fresh).powerWin = s.powerWin := rfl
@[simp] theorem State.fresh_hbeatAge (s : State) : (s.fresh).hbeatAge = s.hbeatAge := rfl
@[simp] theorem State.fresh_drainLeft (s : State) : (s.fresh).drainLeft = s.drainLeft := rfl
@[simp] theorem State.fresh_booted (s : State) : (s.fresh).booted = s.booted := rfl

theorem State.drawn_draw (s : State) : (s.drawn).draw = s.draw + 1 := rfl
@[simp] theorem State.drawn_agenda (s : State) : (s.drawn).agenda = s.agenda := rfl
@[simp] theorem State.drawn_starts (s : State) : (s.drawn).starts = s.starts := rfl
@[simp] theorem State.drawn_cur (s : State) : (s.drawn).cur = s.cur := rfl
@[simp] theorem State.drawn_curL (s : State) : (s.drawn).curL = s.curL := rfl
@[simp] theorem State.drawn_nextId (s : State) : (s.drawn).nextId = s.nextId := rfl
@[simp] theorem State.drawn_lregs (s : State) : (s.drawn).lregs = s.lregs := rfl
@[simp] theorem State.drawn_mem (s : State) : (s.drawn).mem = s.mem := rfl
@[simp] theorem State.drawn_mtags (s : State) : (s.drawn).mtags = s.mtags := rfl
@[simp] theorem State.drawn_mpoison (s : State) : (s.drawn).mpoison = s.mpoison := rfl
@[simp] theorem State.drawn_lpoison (s : State) : (s.drawn).lpoison = s.lpoison := rfl
@[simp] theorem State.drawn_hist (s : State) : (s.drawn).hist = s.hist := rfl
@[simp] theorem State.drawn_homeIx (s : State) : (s.drawn).homeIx = s.homeIx := rfl
@[simp] theorem State.drawn_rels (s : State) : (s.drawn).rels = s.rels := rfl
@[simp] theorem State.drawn_engSeen (s : State) : (s.drawn).engSeen = s.engSeen := rfl
@[simp] theorem State.drawn_waves (s : State) : (s.drawn).waves = s.waves := rfl
@[simp] theorem State.drawn_groups (s : State) : (s.drawn).groups = s.groups := rfl
@[simp] theorem State.drawn_grids (s : State) : (s.drawn).grids = s.grids := rfl
@[simp] theorem State.drawn_gangs (s : State) : (s.drawn).gangs = s.gangs := rfl
@[simp] theorem State.drawn_cores (s : State) : (s.drawn).cores = s.cores := rfl
@[simp] theorem State.drawn_quarters (s : State) : (s.drawn).quarters = s.quarters := rfl
@[simp] theorem State.drawn_ctxs (s : State) : (s.drawn).ctxs = s.ctxs := rfl
@[simp] theorem State.drawn_vdevs (s : State) : (s.drawn).vdevs = s.vdevs := rfl
@[simp] theorem State.drawn_dies (s : State) : (s.drawn).dies = s.dies := rfl
@[simp] theorem State.drawn_lcores (s : State) : (s.drawn).lcores = s.lcores := rfl
@[simp] theorem State.drawn_recs (s : State) : (s.drawn).recs = s.recs := rfl
@[simp] theorem State.drawn_beats (s : State) : (s.drawn).beats = s.beats := rfl
@[simp] theorem State.drawn_colls (s : State) : (s.drawn).colls = s.colls := rfl
@[simp] theorem State.drawn_collNext (s : State) : (s.drawn).collNext = s.collNext := rfl
@[simp] theorem State.drawn_images (s : State) : (s.drawn).images = s.images := rfl
@[simp] theorem State.drawn_claims (s : State) : (s.drawn).claims = s.claims := rfl
@[simp] theorem State.drawn_saveArea (s : State) : (s.drawn).saveArea = s.saveArea := rfl
@[simp] theorem State.drawn_outbox (s : State) : (s.drawn).outbox = s.outbox := rfl
@[simp] theorem State.drawn_cycles (s : State) : (s.drawn).cycles = s.cycles := rfl
@[simp] theorem State.drawn_attempts (s : State) : (s.drawn).attempts = s.attempts := rfl
@[simp] theorem State.drawn_replays (s : State) : (s.drawn).replays = s.replays := rfl
@[simp] theorem State.drawn_powerWin (s : State) : (s.drawn).powerWin = s.powerWin := rfl
@[simp] theorem State.drawn_hbeatAge (s : State) : (s.drawn).hbeatAge = s.hbeatAge := rfl
@[simp] theorem State.drawn_drainLeft (s : State) : (s.drawn).drainLeft = s.drainLeft := rfl
@[simp] theorem State.drawn_booted (s : State) : (s.drawn).booted = s.booted := rfl

theorem State.setReg_lregs (s : State) (r : LReg) (v : DWord) : (s.setReg r v).lregs = State.putReg s.lregs r v := rfl
@[simp] theorem State.setReg_agenda (s : State) (r : LReg) (v : DWord) : (s.setReg r v).agenda = s.agenda := rfl
@[simp] theorem State.setReg_starts (s : State) (r : LReg) (v : DWord) : (s.setReg r v).starts = s.starts := rfl
@[simp] theorem State.setReg_cur (s : State) (r : LReg) (v : DWord) : (s.setReg r v).cur = s.cur := rfl
@[simp] theorem State.setReg_curL (s : State) (r : LReg) (v : DWord) : (s.setReg r v).curL = s.curL := rfl
@[simp] theorem State.setReg_draw (s : State) (r : LReg) (v : DWord) : (s.setReg r v).draw = s.draw := rfl
@[simp] theorem State.setReg_nextId (s : State) (r : LReg) (v : DWord) : (s.setReg r v).nextId = s.nextId := rfl
@[simp] theorem State.setReg_mem (s : State) (r : LReg) (v : DWord) : (s.setReg r v).mem = s.mem := rfl
@[simp] theorem State.setReg_mtags (s : State) (r : LReg) (v : DWord) : (s.setReg r v).mtags = s.mtags := rfl
@[simp] theorem State.setReg_mpoison (s : State) (r : LReg) (v : DWord) : (s.setReg r v).mpoison = s.mpoison := rfl
@[simp] theorem State.setReg_lpoison (s : State) (r : LReg) (v : DWord) : (s.setReg r v).lpoison = s.lpoison := rfl
@[simp] theorem State.setReg_hist (s : State) (r : LReg) (v : DWord) : (s.setReg r v).hist = s.hist := rfl
@[simp] theorem State.setReg_homeIx (s : State) (r : LReg) (v : DWord) : (s.setReg r v).homeIx = s.homeIx := rfl
@[simp] theorem State.setReg_rels (s : State) (r : LReg) (v : DWord) : (s.setReg r v).rels = s.rels := rfl
@[simp] theorem State.setReg_engSeen (s : State) (r : LReg) (v : DWord) : (s.setReg r v).engSeen = s.engSeen := rfl
@[simp] theorem State.setReg_waves (s : State) (r : LReg) (v : DWord) : (s.setReg r v).waves = s.waves := rfl
@[simp] theorem State.setReg_groups (s : State) (r : LReg) (v : DWord) : (s.setReg r v).groups = s.groups := rfl
@[simp] theorem State.setReg_grids (s : State) (r : LReg) (v : DWord) : (s.setReg r v).grids = s.grids := rfl
@[simp] theorem State.setReg_gangs (s : State) (r : LReg) (v : DWord) : (s.setReg r v).gangs = s.gangs := rfl
@[simp] theorem State.setReg_cores (s : State) (r : LReg) (v : DWord) : (s.setReg r v).cores = s.cores := rfl
@[simp] theorem State.setReg_quarters (s : State) (r : LReg) (v : DWord) : (s.setReg r v).quarters = s.quarters := rfl
@[simp] theorem State.setReg_ctxs (s : State) (r : LReg) (v : DWord) : (s.setReg r v).ctxs = s.ctxs := rfl
@[simp] theorem State.setReg_vdevs (s : State) (r : LReg) (v : DWord) : (s.setReg r v).vdevs = s.vdevs := rfl
@[simp] theorem State.setReg_dies (s : State) (r : LReg) (v : DWord) : (s.setReg r v).dies = s.dies := rfl
@[simp] theorem State.setReg_lcores (s : State) (r : LReg) (v : DWord) : (s.setReg r v).lcores = s.lcores := rfl
@[simp] theorem State.setReg_recs (s : State) (r : LReg) (v : DWord) : (s.setReg r v).recs = s.recs := rfl
@[simp] theorem State.setReg_beats (s : State) (r : LReg) (v : DWord) : (s.setReg r v).beats = s.beats := rfl
@[simp] theorem State.setReg_colls (s : State) (r : LReg) (v : DWord) : (s.setReg r v).colls = s.colls := rfl
@[simp] theorem State.setReg_collNext (s : State) (r : LReg) (v : DWord) : (s.setReg r v).collNext = s.collNext := rfl
@[simp] theorem State.setReg_images (s : State) (r : LReg) (v : DWord) : (s.setReg r v).images = s.images := rfl
@[simp] theorem State.setReg_claims (s : State) (r : LReg) (v : DWord) : (s.setReg r v).claims = s.claims := rfl
@[simp] theorem State.setReg_saveArea (s : State) (r : LReg) (v : DWord) : (s.setReg r v).saveArea = s.saveArea := rfl
@[simp] theorem State.setReg_outbox (s : State) (r : LReg) (v : DWord) : (s.setReg r v).outbox = s.outbox := rfl
@[simp] theorem State.setReg_cycles (s : State) (r : LReg) (v : DWord) : (s.setReg r v).cycles = s.cycles := rfl
@[simp] theorem State.setReg_attempts (s : State) (r : LReg) (v : DWord) : (s.setReg r v).attempts = s.attempts := rfl
@[simp] theorem State.setReg_replays (s : State) (r : LReg) (v : DWord) : (s.setReg r v).replays = s.replays := rfl
@[simp] theorem State.setReg_powerWin (s : State) (r : LReg) (v : DWord) : (s.setReg r v).powerWin = s.powerWin := rfl
@[simp] theorem State.setReg_hbeatAge (s : State) (r : LReg) (v : DWord) : (s.setReg r v).hbeatAge = s.hbeatAge := rfl
@[simp] theorem State.setReg_drainLeft (s : State) (r : LReg) (v : DWord) : (s.setReg r v).drainLeft = s.drainLeft := rfl
@[simp] theorem State.setReg_booted (s : State) (r : LReg) (v : DWord) : (s.setReg r v).booted = s.booted := rfl

@[simp] theorem State.setRegF_agenda (s : State) (r : LReg) (hi lo v : Nat) : (s.setRegF r hi lo v).agenda = s.agenda := rfl
@[simp] theorem State.setRegF_starts (s : State) (r : LReg) (hi lo v : Nat) : (s.setRegF r hi lo v).starts = s.starts := rfl
@[simp] theorem State.setRegF_cur (s : State) (r : LReg) (hi lo v : Nat) : (s.setRegF r hi lo v).cur = s.cur := rfl
@[simp] theorem State.setRegF_curL (s : State) (r : LReg) (hi lo v : Nat) : (s.setRegF r hi lo v).curL = s.curL := rfl
@[simp] theorem State.setRegF_draw (s : State) (r : LReg) (hi lo v : Nat) : (s.setRegF r hi lo v).draw = s.draw := rfl
@[simp] theorem State.setRegF_nextId (s : State) (r : LReg) (hi lo v : Nat) : (s.setRegF r hi lo v).nextId = s.nextId := rfl
@[simp] theorem State.setRegF_mem (s : State) (r : LReg) (hi lo v : Nat) : (s.setRegF r hi lo v).mem = s.mem := rfl
@[simp] theorem State.setRegF_mtags (s : State) (r : LReg) (hi lo v : Nat) : (s.setRegF r hi lo v).mtags = s.mtags := rfl
@[simp] theorem State.setRegF_mpoison (s : State) (r : LReg) (hi lo v : Nat) : (s.setRegF r hi lo v).mpoison = s.mpoison := rfl
@[simp] theorem State.setRegF_lpoison (s : State) (r : LReg) (hi lo v : Nat) : (s.setRegF r hi lo v).lpoison = s.lpoison := rfl
@[simp] theorem State.setRegF_hist (s : State) (r : LReg) (hi lo v : Nat) : (s.setRegF r hi lo v).hist = s.hist := rfl
@[simp] theorem State.setRegF_homeIx (s : State) (r : LReg) (hi lo v : Nat) : (s.setRegF r hi lo v).homeIx = s.homeIx := rfl
@[simp] theorem State.setRegF_rels (s : State) (r : LReg) (hi lo v : Nat) : (s.setRegF r hi lo v).rels = s.rels := rfl
@[simp] theorem State.setRegF_engSeen (s : State) (r : LReg) (hi lo v : Nat) : (s.setRegF r hi lo v).engSeen = s.engSeen := rfl
@[simp] theorem State.setRegF_waves (s : State) (r : LReg) (hi lo v : Nat) : (s.setRegF r hi lo v).waves = s.waves := rfl
@[simp] theorem State.setRegF_groups (s : State) (r : LReg) (hi lo v : Nat) : (s.setRegF r hi lo v).groups = s.groups := rfl
@[simp] theorem State.setRegF_grids (s : State) (r : LReg) (hi lo v : Nat) : (s.setRegF r hi lo v).grids = s.grids := rfl
@[simp] theorem State.setRegF_gangs (s : State) (r : LReg) (hi lo v : Nat) : (s.setRegF r hi lo v).gangs = s.gangs := rfl
@[simp] theorem State.setRegF_cores (s : State) (r : LReg) (hi lo v : Nat) : (s.setRegF r hi lo v).cores = s.cores := rfl
@[simp] theorem State.setRegF_quarters (s : State) (r : LReg) (hi lo v : Nat) : (s.setRegF r hi lo v).quarters = s.quarters := rfl
@[simp] theorem State.setRegF_ctxs (s : State) (r : LReg) (hi lo v : Nat) : (s.setRegF r hi lo v).ctxs = s.ctxs := rfl
@[simp] theorem State.setRegF_vdevs (s : State) (r : LReg) (hi lo v : Nat) : (s.setRegF r hi lo v).vdevs = s.vdevs := rfl
@[simp] theorem State.setRegF_dies (s : State) (r : LReg) (hi lo v : Nat) : (s.setRegF r hi lo v).dies = s.dies := rfl
@[simp] theorem State.setRegF_lcores (s : State) (r : LReg) (hi lo v : Nat) : (s.setRegF r hi lo v).lcores = s.lcores := rfl
@[simp] theorem State.setRegF_recs (s : State) (r : LReg) (hi lo v : Nat) : (s.setRegF r hi lo v).recs = s.recs := rfl
@[simp] theorem State.setRegF_beats (s : State) (r : LReg) (hi lo v : Nat) : (s.setRegF r hi lo v).beats = s.beats := rfl
@[simp] theorem State.setRegF_colls (s : State) (r : LReg) (hi lo v : Nat) : (s.setRegF r hi lo v).colls = s.colls := rfl
@[simp] theorem State.setRegF_collNext (s : State) (r : LReg) (hi lo v : Nat) : (s.setRegF r hi lo v).collNext = s.collNext := rfl
@[simp] theorem State.setRegF_images (s : State) (r : LReg) (hi lo v : Nat) : (s.setRegF r hi lo v).images = s.images := rfl
@[simp] theorem State.setRegF_claims (s : State) (r : LReg) (hi lo v : Nat) : (s.setRegF r hi lo v).claims = s.claims := rfl
@[simp] theorem State.setRegF_saveArea (s : State) (r : LReg) (hi lo v : Nat) : (s.setRegF r hi lo v).saveArea = s.saveArea := rfl
@[simp] theorem State.setRegF_outbox (s : State) (r : LReg) (hi lo v : Nat) : (s.setRegF r hi lo v).outbox = s.outbox := rfl
@[simp] theorem State.setRegF_cycles (s : State) (r : LReg) (hi lo v : Nat) : (s.setRegF r hi lo v).cycles = s.cycles := rfl
@[simp] theorem State.setRegF_attempts (s : State) (r : LReg) (hi lo v : Nat) : (s.setRegF r hi lo v).attempts = s.attempts := rfl
@[simp] theorem State.setRegF_replays (s : State) (r : LReg) (hi lo v : Nat) : (s.setRegF r hi lo v).replays = s.replays := rfl
@[simp] theorem State.setRegF_powerWin (s : State) (r : LReg) (hi lo v : Nat) : (s.setRegF r hi lo v).powerWin = s.powerWin := rfl
@[simp] theorem State.setRegF_hbeatAge (s : State) (r : LReg) (hi lo v : Nat) : (s.setRegF r hi lo v).hbeatAge = s.hbeatAge := rfl
@[simp] theorem State.setRegF_drainLeft (s : State) (r : LReg) (hi lo v : Nat) : (s.setRegF r hi lo v).drainLeft = s.drainLeft := rfl
@[simp] theorem State.setRegF_booted (s : State) (r : LReg) (hi lo v : Nat) : (s.setRegF r hi lo v).booted = s.booted := rfl

@[simp] theorem State.writeReg_agenda (s : State) (r : LReg) (v : DWord) : (s.writeReg r v).agenda = s.agenda := rfl
@[simp] theorem State.writeReg_starts (s : State) (r : LReg) (v : DWord) : (s.writeReg r v).starts = s.starts := rfl
@[simp] theorem State.writeReg_cur (s : State) (r : LReg) (v : DWord) : (s.writeReg r v).cur = s.cur := rfl
@[simp] theorem State.writeReg_curL (s : State) (r : LReg) (v : DWord) : (s.writeReg r v).curL = s.curL := rfl
@[simp] theorem State.writeReg_draw (s : State) (r : LReg) (v : DWord) : (s.writeReg r v).draw = s.draw := rfl
@[simp] theorem State.writeReg_nextId (s : State) (r : LReg) (v : DWord) : (s.writeReg r v).nextId = s.nextId := rfl
@[simp] theorem State.writeReg_mem (s : State) (r : LReg) (v : DWord) : (s.writeReg r v).mem = s.mem := rfl
@[simp] theorem State.writeReg_mtags (s : State) (r : LReg) (v : DWord) : (s.writeReg r v).mtags = s.mtags := rfl
@[simp] theorem State.writeReg_mpoison (s : State) (r : LReg) (v : DWord) : (s.writeReg r v).mpoison = s.mpoison := rfl
@[simp] theorem State.writeReg_lpoison (s : State) (r : LReg) (v : DWord) : (s.writeReg r v).lpoison = s.lpoison := rfl
@[simp] theorem State.writeReg_hist (s : State) (r : LReg) (v : DWord) : (s.writeReg r v).hist = s.hist := rfl
@[simp] theorem State.writeReg_homeIx (s : State) (r : LReg) (v : DWord) : (s.writeReg r v).homeIx = s.homeIx := rfl
@[simp] theorem State.writeReg_rels (s : State) (r : LReg) (v : DWord) : (s.writeReg r v).rels = s.rels := rfl
@[simp] theorem State.writeReg_engSeen (s : State) (r : LReg) (v : DWord) : (s.writeReg r v).engSeen = s.engSeen := rfl
@[simp] theorem State.writeReg_waves (s : State) (r : LReg) (v : DWord) : (s.writeReg r v).waves = s.waves := rfl
@[simp] theorem State.writeReg_groups (s : State) (r : LReg) (v : DWord) : (s.writeReg r v).groups = s.groups := rfl
@[simp] theorem State.writeReg_grids (s : State) (r : LReg) (v : DWord) : (s.writeReg r v).grids = s.grids := rfl
@[simp] theorem State.writeReg_gangs (s : State) (r : LReg) (v : DWord) : (s.writeReg r v).gangs = s.gangs := rfl
@[simp] theorem State.writeReg_cores (s : State) (r : LReg) (v : DWord) : (s.writeReg r v).cores = s.cores := rfl
@[simp] theorem State.writeReg_quarters (s : State) (r : LReg) (v : DWord) : (s.writeReg r v).quarters = s.quarters := rfl
@[simp] theorem State.writeReg_ctxs (s : State) (r : LReg) (v : DWord) : (s.writeReg r v).ctxs = s.ctxs := rfl
@[simp] theorem State.writeReg_vdevs (s : State) (r : LReg) (v : DWord) : (s.writeReg r v).vdevs = s.vdevs := rfl
@[simp] theorem State.writeReg_dies (s : State) (r : LReg) (v : DWord) : (s.writeReg r v).dies = s.dies := rfl
@[simp] theorem State.writeReg_lcores (s : State) (r : LReg) (v : DWord) : (s.writeReg r v).lcores = s.lcores := rfl
@[simp] theorem State.writeReg_recs (s : State) (r : LReg) (v : DWord) : (s.writeReg r v).recs = s.recs := rfl
@[simp] theorem State.writeReg_beats (s : State) (r : LReg) (v : DWord) : (s.writeReg r v).beats = s.beats := rfl
@[simp] theorem State.writeReg_colls (s : State) (r : LReg) (v : DWord) : (s.writeReg r v).colls = s.colls := rfl
@[simp] theorem State.writeReg_collNext (s : State) (r : LReg) (v : DWord) : (s.writeReg r v).collNext = s.collNext := rfl
@[simp] theorem State.writeReg_images (s : State) (r : LReg) (v : DWord) : (s.writeReg r v).images = s.images := rfl
@[simp] theorem State.writeReg_claims (s : State) (r : LReg) (v : DWord) : (s.writeReg r v).claims = s.claims := rfl
@[simp] theorem State.writeReg_saveArea (s : State) (r : LReg) (v : DWord) : (s.writeReg r v).saveArea = s.saveArea := rfl
@[simp] theorem State.writeReg_outbox (s : State) (r : LReg) (v : DWord) : (s.writeReg r v).outbox = s.outbox := rfl
@[simp] theorem State.writeReg_cycles (s : State) (r : LReg) (v : DWord) : (s.writeReg r v).cycles = s.cycles := rfl
@[simp] theorem State.writeReg_attempts (s : State) (r : LReg) (v : DWord) : (s.writeReg r v).attempts = s.attempts := rfl
@[simp] theorem State.writeReg_replays (s : State) (r : LReg) (v : DWord) : (s.writeReg r v).replays = s.replays := rfl
@[simp] theorem State.writeReg_powerWin (s : State) (r : LReg) (v : DWord) : (s.writeReg r v).powerWin = s.powerWin := rfl
@[simp] theorem State.writeReg_hbeatAge (s : State) (r : LReg) (v : DWord) : (s.writeReg r v).hbeatAge = s.hbeatAge := rfl
@[simp] theorem State.writeReg_drainLeft (s : State) (r : LReg) (v : DWord) : (s.writeReg r v).drainLeft = s.drainLeft := rfl
@[simp] theorem State.writeReg_booted (s : State) (r : LReg) (v : DWord) : (s.writeReg r v).booted = s.booted := rfl

@[simp] theorem State.bump_agenda (s : State) (r : LReg) (n : Nat) : (s.bump r n).agenda = s.agenda := rfl
@[simp] theorem State.bump_starts (s : State) (r : LReg) (n : Nat) : (s.bump r n).starts = s.starts := rfl
@[simp] theorem State.bump_cur (s : State) (r : LReg) (n : Nat) : (s.bump r n).cur = s.cur := rfl
@[simp] theorem State.bump_curL (s : State) (r : LReg) (n : Nat) : (s.bump r n).curL = s.curL := rfl
@[simp] theorem State.bump_draw (s : State) (r : LReg) (n : Nat) : (s.bump r n).draw = s.draw := rfl
@[simp] theorem State.bump_nextId (s : State) (r : LReg) (n : Nat) : (s.bump r n).nextId = s.nextId := rfl
@[simp] theorem State.bump_mem (s : State) (r : LReg) (n : Nat) : (s.bump r n).mem = s.mem := rfl
@[simp] theorem State.bump_mtags (s : State) (r : LReg) (n : Nat) : (s.bump r n).mtags = s.mtags := rfl
@[simp] theorem State.bump_mpoison (s : State) (r : LReg) (n : Nat) : (s.bump r n).mpoison = s.mpoison := rfl
@[simp] theorem State.bump_lpoison (s : State) (r : LReg) (n : Nat) : (s.bump r n).lpoison = s.lpoison := rfl
@[simp] theorem State.bump_hist (s : State) (r : LReg) (n : Nat) : (s.bump r n).hist = s.hist := rfl
@[simp] theorem State.bump_homeIx (s : State) (r : LReg) (n : Nat) : (s.bump r n).homeIx = s.homeIx := rfl
@[simp] theorem State.bump_rels (s : State) (r : LReg) (n : Nat) : (s.bump r n).rels = s.rels := rfl
@[simp] theorem State.bump_engSeen (s : State) (r : LReg) (n : Nat) : (s.bump r n).engSeen = s.engSeen := rfl
@[simp] theorem State.bump_waves (s : State) (r : LReg) (n : Nat) : (s.bump r n).waves = s.waves := rfl
@[simp] theorem State.bump_groups (s : State) (r : LReg) (n : Nat) : (s.bump r n).groups = s.groups := rfl
@[simp] theorem State.bump_grids (s : State) (r : LReg) (n : Nat) : (s.bump r n).grids = s.grids := rfl
@[simp] theorem State.bump_gangs (s : State) (r : LReg) (n : Nat) : (s.bump r n).gangs = s.gangs := rfl
@[simp] theorem State.bump_cores (s : State) (r : LReg) (n : Nat) : (s.bump r n).cores = s.cores := rfl
@[simp] theorem State.bump_quarters (s : State) (r : LReg) (n : Nat) : (s.bump r n).quarters = s.quarters := rfl
@[simp] theorem State.bump_ctxs (s : State) (r : LReg) (n : Nat) : (s.bump r n).ctxs = s.ctxs := rfl
@[simp] theorem State.bump_vdevs (s : State) (r : LReg) (n : Nat) : (s.bump r n).vdevs = s.vdevs := rfl
@[simp] theorem State.bump_dies (s : State) (r : LReg) (n : Nat) : (s.bump r n).dies = s.dies := rfl
@[simp] theorem State.bump_lcores (s : State) (r : LReg) (n : Nat) : (s.bump r n).lcores = s.lcores := rfl
@[simp] theorem State.bump_recs (s : State) (r : LReg) (n : Nat) : (s.bump r n).recs = s.recs := rfl
@[simp] theorem State.bump_beats (s : State) (r : LReg) (n : Nat) : (s.bump r n).beats = s.beats := rfl
@[simp] theorem State.bump_colls (s : State) (r : LReg) (n : Nat) : (s.bump r n).colls = s.colls := rfl
@[simp] theorem State.bump_collNext (s : State) (r : LReg) (n : Nat) : (s.bump r n).collNext = s.collNext := rfl
@[simp] theorem State.bump_images (s : State) (r : LReg) (n : Nat) : (s.bump r n).images = s.images := rfl
@[simp] theorem State.bump_claims (s : State) (r : LReg) (n : Nat) : (s.bump r n).claims = s.claims := rfl
@[simp] theorem State.bump_saveArea (s : State) (r : LReg) (n : Nat) : (s.bump r n).saveArea = s.saveArea := rfl
@[simp] theorem State.bump_outbox (s : State) (r : LReg) (n : Nat) : (s.bump r n).outbox = s.outbox := rfl
@[simp] theorem State.bump_cycles (s : State) (r : LReg) (n : Nat) : (s.bump r n).cycles = s.cycles := rfl
@[simp] theorem State.bump_attempts (s : State) (r : LReg) (n : Nat) : (s.bump r n).attempts = s.attempts := rfl
@[simp] theorem State.bump_replays (s : State) (r : LReg) (n : Nat) : (s.bump r n).replays = s.replays := rfl
@[simp] theorem State.bump_powerWin (s : State) (r : LReg) (n : Nat) : (s.bump r n).powerWin = s.powerWin := rfl
@[simp] theorem State.bump_hbeatAge (s : State) (r : LReg) (n : Nat) : (s.bump r n).hbeatAge = s.hbeatAge := rfl
@[simp] theorem State.bump_drainLeft (s : State) (r : LReg) (n : Nat) : (s.bump r n).drainLeft = s.drainLeft := rfl
@[simp] theorem State.bump_booted (s : State) (r : LReg) (n : Nat) : (s.bump r n).booted = s.booted := rfl

end Sys2Proof.Machine
end

