-- ==== Sys2Proof/Laws/Memory.lean ====
section
/-! SUPPORT. Every operation that writes physical memory keeps its canonical form; every other operation of the memory layer leaves its bytes alone. -/

namespace Sys2Proof.Machine

/-- A property that every pass of a loop keeps holds after the loop. -/
theorem foldl_keeps {σ β : Type} (P : σ → Prop) (f : σ → β → σ) (hf : ∀ s b, P s → P (f s b)) : ∀ (l : List β) {s : σ}, P s → P (l.foldl f s)
  | [], _, h => h
  | b :: l, s, h => foldl_keeps P f hf l (hf s b h)

/-- A part that every pass of a loop leaves alone is unchanged after the loop. -/
theorem foldl_same {σ β γ : Type} (p : σ → γ) (f : σ → β → σ) (hf : ∀ s b, p (f s b) = p s) (l : List β) (s : σ) : p (l.foldl f s) = p s :=
  foldl_keeps (fun t => p t = p s) f (fun t b h => (hf t b).trans h) l rfl

/-- Memory in canonical form is determined by what its bytes read as. -/
theorem Memory.ext {m n : Mem} (hm : Memory.wf m = true) (hn : Memory.wf n = true) (h : ∀ a, Tab.get emptyByte m a = Tab.get emptyByte n a) : m = n :=
  Tab.wfFrom_ext emptyByte hm hn h

theorem State.reset_memCanonical : State.reset.MemCanonical := rfl

theorem State.MemCanonical.of_mem {s t : State} (h : s.MemCanonical) (e : t.mem = s.mem) : t.MemCanonical := by
  unfold State.MemCanonical at *; rw [e]; exact h

/-! ### Operations that leave the bytes of physical memory alone -/

@[simp] theorem State.record_mem (s : State) (x : Writer) (pl : Place) (b : List (Nat × Byte)) (t : List (Nat × Bool)) (f : Nat → Byte) (g : Nat → Bool) :
    (s.record x pl b t f g).mem = s.mem := by
  unfold State.record; dsimp only; split <;> rfl

@[simp] theorem State.forget_mem (s : State) (pl : Place) (as : List Nat) : (s.forget pl as).mem = s.mem := rfl
@[simp] theorem State.passGate_mem (s : State) (g : Gate) : (s.passGate g).mem = s.mem := rfl
@[simp] theorem State.fixLoads_mem (s : State) (core wave : Nat) : (s.fixLoads core wave).mem = s.mem := rfl
@[simp] theorem State.settleReads_mem (s : State) (id : Nat) (w : Wave) : (s.settleReads id w).1.mem = s.mem := rfl
@[simp] theorem State.sendRec_mem (s : State) (r : PendRec) : (s.sendRec r).mem = s.mem := rfl
@[simp] theorem State.poison_mem (s : State) (l : List Nat) : (s.poison l).mem = s.mem := rfl
@[simp] theorem State.bumpCore_mem (s : State) (k : Nat) (c : CoreCtr) (n : Nat) : (s.bumpCore k c n).mem = s.mem := rfl
@[simp] theorem State.bumpQ_mem (s : State) (k q : Nat) (c : QCtr) (n : Nat) : (s.bumpQ k q c n).mem = s.mem := rfl
@[simp] theorem State.bumpDie_mem (s : State) (k : Nat) (c : DieCtr) (n : Nat) : (s.bumpDie k c n).mem = s.mem := rfl
@[simp] theorem State.addLoss_mem (s : State) (c n : Nat) : (s.addLoss c n).mem = s.mem := rfl

@[simp] theorem State.dropEntries_mem (p : Place → List Nat → Bool) (core : Nat) (s : State) (q : Nat) : (s.dropEntries p core q).mem = s.mem := by
  unfold State.dropEntries; dsimp only; split <;> rfl

@[simp] theorem State.dropLoads_mem (s : State) (core : Nat) (p : Place → List Nat → Bool) : (s.dropLoads core p).mem = s.mem := by
  have h := foldl_same State.mem (State.dropEntries p core) (fun s q => State.dropEntries_mem p core s q) (List.range 4) s
  unfold State.dropLoads
  generalize (List.range 4).foldl (State.dropEntries p core) s = t at h ⊢
  dsimp only
  split
  · exact h
  · exact h

@[simp] theorem State.dropLines_mem (s : State) (core : Nat) (pl : Place) (ls : List Nat) : (s.dropLines core pl ls).mem = s.mem :=
  State.dropLoads_mem s core _

@[simp] theorem State.scrWrite_mem (s : State) (x : Writer) (g : Nat) (b : List (Nat × Byte)) (t : List (Nat × Bool)) (c : List Nat) :
    (s.scrWrite x g b t c).mem = s.mem := by
  unfold State.scrWrite
  split
  · rfl
  · dsimp only
    split <;> simp

@[simp] theorem State.performWrite_mem (s : State) (core : Nat) (p : Party) (ctx : Nat) (pl : Place) (b : List (Nat × Byte)) (t : List (Nat × Bool))
    (a : List Nat) (cp : Policy) (c : List Nat) : (s.performWrite core p ctx pl b t a cp c).mem = s.mem := by
  unfold State.performWrite
  split
  · rfl
  · dsimp only; split <;> simp

@[simp] theorem State.release_mem (s : State) (core : Nat) (p : Party) (sc : Scope) (pub : Pub) (need : List Nat) :
    (s.release core p sc pub need).mem = s.mem := by
  unfold State.release; dsimp only; split <;> rfl

@[simp] theorem State.refresh_mem (s : State) (core : Nat) (sc : Scope) : (s.refresh core sc).mem = s.mem := by
  unfold State.refresh; split <;> simp

@[simp] theorem State.acquire_mem (s : State) (id : Nat) (w : Wave) (sc : Scope) : (s.acquire id w sc).mem = s.mem := by
  unfold State.acquire; simp

@[simp] theorem State.releaseBy_mem (s : State) (id : Nat) (w : Wave) (sc : Scope) : (s.releaseBy id w sc).1.mem = s.mem := by
  unfold State.releaseBy; simp

@[simp] theorem State.enterFault_mem (s : State) (core : Nat) (w : FbWait) : (s.enterFault core w).mem = s.mem := by
  unfold State.enterFault
  dsimp only
  split
  · rfl
  · split <;> rfl

/-! ### Operations that write it -/

@[simp] theorem State.homeWrite_mem (s : State) (o : Option Writer) (b : List (Nat × Byte)) (t : List (Nat × Bool)) (c : List Nat) :
    (s.homeWrite o b t c).mem = b.foldl (fun m e => Tab.put emptyByte m e.1 e.2) s.mem := by
  unfold State.homeWrite; cases o <;> simp

/-- The one write at a home keeps the canonical form (11 R214). -/
theorem State.homeWrite_memCanonical {s : State} (h : s.MemCanonical) (o : Option Writer) (b : List (Nat × Byte)) (t : List (Nat × Bool)) (c : List Nat) :
    (s.homeWrite o b t c).MemCanonical := by
  unfold State.MemCanonical
  rw [State.homeWrite_mem]
  exact Tab.wf_foldl_put emptyByte Prod.fst Prod.snd b h

theorem State.fillLine_memCanonical {s : State} (h : s.MemCanonical) (w : Win) (line : Nat) : (s.fillLine w line).MemCanonical := by
  have h1 := State.homeWrite_memCanonical h none (s.presentedBytes w line) [] []
  unfold State.fillLine
  generalize s.homeWrite none (s.presentedBytes w line) [] = t at h1 ⊢
  dsimp only
  split
  · exact foldl_keeps State.MemCanonical _ (fun u b hu => hu.of_mem (State.sendRec_mem u _)) _ (h1.of_mem rfl)
  · exact h1.of_mem rfl

theorem State.reencodeOne_memCanonical {s : State} (h : s.MemCanonical) (w : Win) (b : Nat) : (s.reencodeOne w b).MemCanonical := by
  have h1 := State.homeWrite_memCanonical h none
  unfold State.reencodeOne
  dsimp only
  split <;> split
  · exact (h1 _ [] []).of_mem (by simp; rfl)
  · exact (h1 _ [] []).of_mem (by simp; rfl)
  · exact (h1 _ [] []).of_mem (by simp; rfl)
  · exact h1 _ _ _

theorem State.reencodeLine_memCanonical {s : State} (h : s.MemCanonical) (w : Win) (line : Nat) : (s.reencodeLine w line).MemCanonical := by
  unfold State.reencodeLine
  split
  · exact foldl_keeps State.MemCanonical _ (fun u b hu => State.reencodeOne_memCanonical hu w b) _ h
  · exact (State.homeWrite_memCanonical h none _ [] []).of_mem (by simp; rfl)

theorem State.evictLine_memCanonical {s : State} (h : s.MemCanonical) (d : Nat) (l : LlcLine) : (s.evictLine d l).MemCanonical := by
  unfold State.evictLine
  dsimp only
  split
  · split
    · exact State.reencodeLine_memCanonical h _ _
    · exact h
  · exact h

theorem State.allocLine_memCanonical {s : State} (h : s.MemCanonical) (d slot line : Nat) (p : Policy) (wr : Bool) :
    (s.allocLine d slot line p wr).MemCanonical := by
  unfold State.allocLine
  dsimp only
  split
  · exact h.of_mem rfl
  · exact (State.evictLine_memCanonical h d _).of_mem rfl
  · exact h.of_mem rfl

theorem State.touchLine_memCanonical {s : State} (h : s.MemCanonical) (ctx : Nat) (p : Policy) (wr full : Bool) (line : Nat) :
    (s.touchLine ctx p wr full line).MemCanonical := by
  unfold State.touchLine
  dsimp only
  split
  · exact h
  · have key : ∀ {u : State} (c : Prop) [Decidable c] (d slot : Nat) (q : Policy), u.MemCanonical → (if c then u else u.allocLine d slot line q wr).MemCanonical :=
      fun c _ d slot q hu => by
        split
        · exact hu
        · exact State.allocLine_memCanonical hu _ _ _ _ _
    refine key _ _ _ _ ?_
    split
    · split
      · exact h
      · exact State.fillLine_memCanonical h _ _
    · exact h

theorem State.settleLine_memCanonical {s : State} (h : s.MemCanonical) (line : Nat) : (s.settleLine line).MemCanonical := by
  unfold State.settleLine
  split
  · exact h
  · split
    · exact h
    · exact State.reencodeLine_memCanonical h _ _

theorem State.prepRead_memCanonical {s : State} (h : s.MemCanonical) (e ctx : Nat) (p : Policy) (as : List Nat) : (s.prepRead e ctx p as).MemCanonical := by
  unfold State.prepRead
  refine foldl_keeps State.MemCanonical _ (fun u l hu => ?_) _ h
  split
  · exact hu
  · exact State.touchLine_memCanonical hu _ _ _ _ _

/-- A write event's arrival at its home keeps the canonical form (19 R334, R336). -/
theorem State.arriveWrite_memCanonical {s : State} (h : s.MemCanonical) (o : Option Writer) (e ctx : Nat) (p : Policy) (b : List (Nat × Byte))
    (t : List (Nat × Bool)) (c : List Nat) : (s.arriveWrite o e ctx p b t c).MemCanonical := by
  unfold State.arriveWrite
  dsimp only
  have h1 : ∀ (l : List Nat) (f : Nat → Bool) {u : State}, u.MemCanonical → (l.foldl (fun (s : State) l => s.touchLine ctx p true (f l) l) u).MemCanonical :=
    fun l f u hu => foldl_keeps State.MemCanonical _ (fun v k hv => State.touchLine_memCanonical hv _ _ _ _ _) l hu
  have h2 : ∀ (l : List Nat) {u : State}, u.MemCanonical → (l.foldl (fun (s : State) l => s.settleLine l) u).MemCanonical :=
    fun l u hu => foldl_keeps State.MemCanonical _ (fun v k hv => State.settleLine_memCanonical hv _) l hu
  split
  · exact h2 _ (State.homeWrite_memCanonical (h1 _ _ h) _ _ _ _)
  · exact h2 _ (State.homeWrite_memCanonical (h1 _ _ h) _ _ _ _)

theorem State.arrive_memCanonical {s : State} (h : s.MemCanonical) (core k : Nat) : (s.arrive core k).MemCanonical := by
  unfold State.arrive
  split
  · exact h
  · dsimp only
    split
    · exact h.of_mem (by simp)
    · exact State.arriveWrite_memCanonical (h.of_mem (by rw [State.passGate_mem]; exact State.updCore_mem s core _)) _ _ _ _ _ _ _

theorem State.flushOverlap_memCanonical {s : State} (h : s.MemCanonical) (r : Reader) (pl : Place) (as : List Nat) :
    (s.flushOverlap r pl as).MemCanonical := by
  unfold State.flushOverlap
  refine foldl_keeps State.MemCanonical _ (fun u i hu => ?_) _ h
  split
  · exact State.arrive_memCanonical hu _ _
  · exact hu

/-- Memory that a map change zeroes keeps the canonical form (21 R396). -/
theorem State.zeroMem_memCanonical {s : State} (h : s.MemCanonical) (p : Nat → Bool) : (s.zeroMem p).MemCanonical := Tab.wf_filter emptyByte _ h

/-- Placing bytes keeps the canonical form. -/
theorem State.poke_memCanonical {s : State} (h : s.MemCanonical) (a : Nat) (b : List Byte) : (s.poke a b).MemCanonical :=
  Tab.wf_foldl_put emptyByte (fun (x : Byte × Nat) => a + x.2) Prod.fst b.zipIdx h

/-! ### What a byte reads as after a write -/

theorem State.homeWrite_rdByte_single (s : State) (o : Option Writer) (a : Nat) (v : Byte) (t : List (Nat × Bool)) (c : List Nat) (x : Nat) :
    (s.homeWrite o [(a, v)] t c).rdByte x = if x = a then v else s.rdByte x := by
  simp [State.rdByte]

theorem foldl_put_get_out (b : List (Nat × Byte)) (x : Nat) (hx : ∀ e ∈ b, e.1 ≠ x) :
    ∀ m : Mem, Tab.get emptyByte (b.foldl (fun m e => Tab.put emptyByte m e.1 e.2) m) x = Tab.get emptyByte m x := by
  induction b with
  | nil => intro m; rfl
  | cons e b ih =>
    intro m
    have h1 := ih (fun f hf => hx f (List.mem_cons_of_mem e hf)) (Tab.put emptyByte m e.1 e.2)
    have h2 : x ≠ e.1 := fun h => hx e List.mem_cons_self h.symm
    simpa [h2] using h1

/-- A byte outside a write event reads as before. -/
theorem State.homeWrite_rdByte_out (s : State) (o : Option Writer) (b : List (Nat × Byte)) (t : List (Nat × Bool)) (c : List Nat) (x : Nat)
    (hx : ∀ e ∈ b, e.1 ≠ x) : (s.homeWrite o b t c).rdByte x = s.rdByte x := by
  rw [State.rdByte, State.homeWrite_mem]; exact foldl_put_get_out b x hx s.mem

/-- A write by a party without a list of pending writes keeps the canonical form (11 R212). -/
theorem State.foreignWrite_memCanonical {s : State} (h : s.MemCanonical) (p : Party) (core e ctx : Nat) (b : List (Nat × Byte)) (t : List (Nat × Bool)) :
    (s.foreignWrite p core e ctx b t).MemCanonical := State.arriveWrite_memCanonical (s := s.fresh) (h.of_mem rfl) _ _ _ _ _ _ _

end Sys2Proof.Machine
end

