-- ==== Sys2Proof/Laws/Lanes.lean ====
section
/-! SUPPORT. What the shared operations of a wave instruction can do: delivering a cause, completing, writing a lane's result. -/

namespace Sys2Proof.Machine

/-! ### Reaching the wave -/

theorem withWave_eq {s : State} {id : Nat} {w : Wave} (hc : s.cur = some id) (hw : Tab.find s.waves id = some w) (k : Nat → Wave → Out) :
    withWave s k = k id w := by
  simp [withWave, hc, hw]

/-- A meaning on the issuing wave that answers a next state has a wave. -/
theorem withWave_next {s t : State} {k : Nat → Wave → Out} (h : withWave s k = .next t) :
    ∃ id w, s.cur = some id ∧ Tab.find s.waves id = some w ∧ k id w = .next t := by
  unfold withWave at h
  split at h
  · cases h
  · rename_i id hc
    split at h
    · cases h
    · rename_i w hw
      exact ⟨id, w, hc, hw, h⟩

theorem when_true {g : Bool} (h : g = true) (t : State) : when g t = .next t := by simp [when, h]

theorem when_next {g : Bool} {t u : State} (h : when g t = .next u) : g = true ∧ u = t := by
  cases g with
  | true => simp [when] at h; exact ⟨rfl, h.symm⟩
  | false => simp [when] at h

/-! ### Lanes -/

@[simp] theorem lanes_at' {α : Type} (d : α) (f : Nat → α) (l : Nat) (h : l < 32) : Lanes.at' d (lanes f) l = f l := by
  simp [Lanes.at', lanes, h]

theorem maskOf_bit (p : Nat → Bool) (l : Nat) (h : l < 32) : (maskOf p).getLsbD l = p l := by
  simp only [maskOf, BitVec.getLsbD_setWidth, h, decide_true, Bool.true_and, BitVec.getLsbD_ofBoolListLE]
  simp [h]

theorem mem_laneList (m : Mask) (l : Nat) : l ∈ laneList m ↔ l < 32 ∧ m.getLsbD l = true := by
  simp [laneList]

/-! ### Stopping -/

theorem deliver_waves (s : State) (id : Nat) (w : Wave) (t : TrapInfo) : (deliver s id w t).waves = Tab.set s.waves id
    { w with cause := causeWord t, pc := t.rpc, cond := .stopped none, run := none, waited := false, latches := lostLatches, held := none,
             xcnt := t.xcnt, gates := if t.kind = 1 then w.gates else [] } := rfl

theorem deliver_rest (s : State) (id : Nat) (w : Wave) (t : TrapInfo) :
    deliver s id w t = { s with waves := (deliver s id w t).waves, recs := (deliver s id w t).recs } := rfl

theorem deliver_recs (s : State) (id : Nat) (w : Wave) (t : TrapInfo) : ∃ r, (deliver s id w t).recs = s.recs ++ [r] ∧ r.wave = some id ∧
    r.body = trapRecord s w t := ⟨_, rfl, rfl, rfl⟩

theorem above_byte (x k : Nat) : ∃ y, x * 2 ^ (8 + k) = 256 * y := ⟨x * 2 ^ k, by rw [Nat.pow_add]; show x * (256 * _) = _; rw [Nat.mul_left_comm]⟩

/-- The CODE of a trap record (06 R146). -/
theorem trapRecord_code (s : State) (w : Wave) (t : TrapInfo) : fld (trapRecord s w t) 7 0 = t.code % 256 := by
  unfold trapRecord
  simp only [fld, BitVec.toNat_ofNat, Nat.shiftRight_zero]
  rw [Nat.mod_mod_of_dvd _ (Nat.pow_dvd_pow 2 (by omega))]
  obtain ⟨a1, h1⟩ := above_byte t.kind 6
  obtain ⟨a2, h2⟩ := above_byte t.imm 8
  obtain ⟨a3, h3⟩ := above_byte t.rpc.toNat 56
  obtain ⟨a4, h4⟩ := above_byte t.ipc.toNat 120
  obtain ⟨a5, h5⟩ := above_byte (t.addr % 2 ^ 57) 184
  obtain ⟨a6, h6⟩ := above_byte t.mask.toNat 248
  obtain ⟨a7, h7⟩ := above_byte t.xcnt 280
  obtain ⟨a8, h8⟩ := above_byte w.waveW.toNat 312
  obtain ⟨a9, h9⟩ := above_byte w.tenant.toNat 344
  obtain ⟨b1, g1⟩ := above_byte w.gridW.toNat 376
  obtain ⟨b2, g2⟩ := above_byte (s.recGroup w).toNat 408
  obtain ⟨b3, g3⟩ := above_byte 1 496
  rw [h1, h2, h3, h4, h5, h6, h7, h8, h9, g1, g2, g3]
  show _ % 256 = _
  cases t.lane <;> dsimp only <;> omega

/-- Everything that a fault of an instruction does (06 R140). -/
theorem faultWave_spec (s : State) (id : Nat) (w : Wave) (code : Nat) (c : Chk) (mask : Mask) :
    ∃ t, faultWave s id w code c mask = .next t ∧ Faulted s t id w code c.lane := by
  refine ⟨_, rfl, ⟨?_, ?_, ?_, rfl⟩⟩
  · rw [deliver_waves, Tab.find_set, if_pos rfl]; rfl
  · intro k hk; rw [deliver_waves, Tab.find_set, if_neg hk]
  · exact ⟨_, rfl, trapRecord_code _ _ _, rfl⟩

/-! ### Completing -/

theorem advance_rest (s : State) (id : Nat) (w : Wave) :
    advance s id w = { s with waves := (advance s id w).waves, recs := (advance s id w).recs } := by
  unfold advance; dsimp only; split <;> rfl

theorem advance_others (s : State) (id : Nat) (w : Wave) (k : Nat) (h : k ≠ id) : Tab.find (advance s id w).waves k = Tab.find s.waves k := by
  unfold advance; dsimp only; split
  · rw [deliver_waves]; simp [h]
  · rw [State.setWave_waves]; simp [h]

theorem advance_goes (s : State) (id : Nat) (w : Wave) (h : w.leavesKernel = false) : advance s id w = s.setWave id (w.goto (nextPc w.pc)) := by
  simp [advance, h]

theorem advance_leaves (s : State) (id : Nat) (w : Wave) (h : w.leavesKernel = true) :
    advance s id w = deliver s id (w.goto (nextPc w.pc)) { code := 0x03, kind := 1, rpc := nextPc w.pc, ipc := w.pc } := by
  simp [advance, h]; rfl

/-- Everything that completion does to the wave. -/
theorem advance_find (s : State) (id : Nat) (w : Wave) : ∃ v, Tab.find (advance s id w).waves id = some v ∧
    v = { w with latches := v.latches, tokens := ageTokens w.tokens, run := v.run, waited := false, pc := nextPc w.pc, cond := v.cond, cause := v.cause,
                 held := none, xcnt := 0 } ∧
    (w.leavesKernel = false → v.cond = .running ∧ v.cause = w.cause ∧ (advance s id w).recs = s.recs ∧ v.latches = w.latches) ∧
    (w.leavesKernel = true → v.cond = .stopped none ∧ v.cause = 3 ∧ ∃ r, (advance s id w).recs = s.recs ++ [r]) := by
  cases h : w.leavesKernel with
  | false =>
    rw [advance_goes s id w h]
    exact ⟨w.goto (nextPc w.pc), by simp [State.setWave_waves], rfl, fun _ => ⟨rfl, rfl, rfl, rfl⟩, fun h => by cases h⟩
  | true =>
    rw [advance_leaves s id w h]
    exact ⟨_, by rw [deliver_waves, Tab.find_set, if_pos rfl], rfl, fun h => (by cases h), fun _ => ⟨rfl, rfl, _, rfl⟩⟩

/-! ### Names and quarters -/

/-- Only the tables of quarters differ. -/
def OnlyQuarters (s t : State) : Prop := ∃ q, t = { s with quarters := q }

theorem OnlyQuarters.refl (s : State) : OnlyQuarters s s := ⟨_, rfl⟩
theorem OnlyQuarters.trans {s t u : State} : OnlyQuarters s t → OnlyQuarters t u → OnlyQuarters s u := by
  rintro ⟨q, rfl⟩ ⟨q', rfl⟩; exact ⟨q', rfl⟩

theorem passSlices_only (s : State) (qk wave group n : Nat) (l : List Nat) : OnlyQuarters s (s.passSlices qk wave group n l) := by
  unfold State.passSlices
  dsimp only
  split
  · exact .refl s
  · refine foldl_keeps (OnlyQuarters s) _ (fun u k hu => hu.trans ?_) l (.refl s)
    split
    · exact ⟨_, rfl⟩
    · exact .refl u

theorem dropRefs_only (s : State) (qk wave group : Nat) (olds : List Nat) : OnlyQuarters s (s.dropRefs qk wave group olds) := by
  unfold State.dropRefs
  dsimp only
  have h : ∀ l : List Nat, OnlyQuarters s (l.foldl (fun s n => s.passSlices qk wave group n [0, 1, 2, 3]) s) := fun l =>
    foldl_keeps (OnlyQuarters s) _ (fun u k hu => hu.trans (passSlices_only u qk wave group k _)) l (.refl s)
  split
  · exact h _
  · exact (h _).trans ⟨_, rfl⟩

theorem noteNames_only (s : State) (id : Nat) (w w' : Wave) (keys : List Nat) (key : Option SKey) (flags : Nat) (b : Bool) :
    OnlyQuarters (s.setWave id w') (s.noteNames id w w' keys key flags b) :=
  OnlyQuarters.trans ⟨_, rfl⟩ (dropRefs_only _ _ _ _ _)

/-! ### Writing a result -/

theorem rename_fields (w : Wave) (keys : List Nat) (base : Nat) : w.rename keys base =
    { w with names := (w.rename keys base).names, looked := none, scoreboard := w.scoreboard.filter fun e => !keys.contains e.1 } := rfl

/-- Everything that the completion of a register write does: `w'` holds the results. -/
theorem finish_spec (s : State) (id : Nat) (w w' : Wave) (keys : List Nat) (flags : Nat) (hp : w'.pc = w.pc) (hl : w'.line = w.line) :
    ∃ t v, finish s id w w' keys flags = .next t ∧ Tab.find t.waves id = some v ∧ (∀ k, k ≠ id → Tab.find t.waves k = Tab.find s.waves k) ∧
      t = { s with waves := t.waves, quarters := t.quarters, recs := t.recs } ∧
      v = { w' with names := v.names, looked := none, scoreboard := w'.scoreboard.filter fun e => !keys.contains e.1
                    latches := v.latches, tokens := ageTokens w'.tokens, run := v.run, waited := false, pc := nextPc w.pc, cond := v.cond, cause := v.cause, held := none, xcnt := 0 } ∧
      (w.leavesKernel = false → v.cond = .running ∧ v.cause = w'.cause ∧ t.recs = s.recs ∧ v.latches = w'.latches) ∧
      (w.leavesKernel = true → v.cond = .stopped none ∧ v.cause = 3 ∧ ∃ r, t.recs = s.recs ++ [r]) := by
  have hk : w'.leavesKernel = w.leavesKernel := by simp [Wave.leavesKernel, hp, hl]
  obtain ⟨q, hq⟩ := noteNames_only s id w (w'.rename keys (s.quarter w.quarterKey).nextName) keys w.looked flags true
  obtain ⟨v, h1, h2, h3, h4⟩ := advance_find (s.noteWrite id w (w'.rename keys (s.quarter w.quarterKey).nextName) keys flags) id
    (w'.rename keys (s.quarter w.quarterKey).nextName)
  refine ⟨_, v, rfl, h1, ?_, ?_, ?_, ?_, ?_⟩
  · intro k hk
    rw [advance_others _ _ _ _ hk, State.noteWrite, hq]
    simp [State.setWave_waves, hk]
  · rw [advance_rest]
    simp only [State.noteWrite, hq]
    rfl
  · rw [h2, ← hp]; rfl
  · intro h
    obtain ⟨a, b, c, d⟩ := h3 (hk.trans h)
    exact ⟨a, b, c.trans (by rw [State.noteWrite, hq]; rfl), d⟩
  · intro h
    obtain ⟨a, b, r, c⟩ := h4 (hk.trans h)
    exact ⟨a, b, r, c.trans (by rw [State.noteWrite, hq]; rfl)⟩

end Sys2Proof.Machine
end

