-- ==== Sys2Proof/Laws/PerInstr.lean ====
section
/-! SUPPORT. One fact of every instruction, as syntax: the word that the encoder gives it carries its OP in bits 7..0 and its SUB in
bits 11..8 (02 R42), so that no two formats overlap there; what has neither is the hint, a Landing instruction or an event. -/

/-- OP and SUB stand where 02 R42 puts them. -/
def Sys2Proof.Laws.Keyed.Statement (i : Sys2Proof.Instr) : Prop :=
  ∀ op sub w, i.wave = some (op, sub, w) →
    ∃ x, Sys2Proof.encodeWave i = some x ∧ Sys2Proof.fld x 7 0 = op ∧ Sys2Proof.fld x 11 8 = sub

theorem Sys2Proof.Laws.assemble_key (op sub : Nat) (w : Sys2Proof.W) (ho : op < 256) (hs : sub < 16) :
    Sys2Proof.fld (Sys2Proof.assemble op sub w) 7 0 = op ∧ Sys2Proof.fld (Sys2Proof.assemble op sub w) 11 8 = sub := by
  have h : ∀ (x : BitVec 84), ((x ++ BitVec.ofNat 4 sub ++ BitVec.ofNat 8 op : BitVec 96)).toNat = x.toNat * 4096 + sub * 256 + op := by
    intro x
    rw [BitVec.toNat_append, BitVec.toNat_append, ← Nat.shiftLeft_add_eq_or_of_lt (by simp; omega), ← Nat.shiftLeft_add_eq_or_of_lt (by simp; omega)]
    simp only [BitVec.toNat_ofNat, Nat.shiftLeft_eq, Nat.reducePow]
    omega
  unfold Sys2Proof.fld Sys2Proof.assemble
  rw [h]
  simp only [Nat.shiftRight_eq_div_pow]
  omega

theorem Sys2Proof.Laws.keyed_of_wave {i : Sys2Proof.Instr} {op sub : Nat} {w : Sys2Proof.W} (hw : i.wave = some (op, sub, w))
    (he : Sys2Proof.encodeWave i = some (Sys2Proof.assemble op sub w)) (ho : op < 256) (hs : sub < 16) : Sys2Proof.Laws.Keyed.Statement i := by
  intro op' sub' w' h
  simp only [hw, Option.some.injEq, Prod.mk.injEq] at h
  obtain ⟨rfl, rfl, rfl⟩ := h
  exact ⟨_, he, Sys2Proof.Laws.assemble_key _ _ _ ho hs⟩

theorem Sys2Proof.Laws.keyed_of_none {i : Sys2Proof.Instr} (hw : i.wave = none) : Sys2Proof.Laws.Keyed.Statement i := by
  intro op sub w h
  simp [hw] at h

theorem Sys2Proof.Laws.Keyed.add (w : W) : Sys2Proof.Laws.Keyed.Statement (.add w) := Sys2Proof.Laws.keyed_of_wave rfl rfl (by decide) (by decide)
theorem Sys2Proof.Laws.Keyed.sub (w : W) : Sys2Proof.Laws.Keyed.Statement (.sub w) := Sys2Proof.Laws.keyed_of_wave rfl rfl (by decide) (by decide)
theorem Sys2Proof.Laws.Keyed.mul (w : W) : Sys2Proof.Laws.Keyed.Statement (.mul w) := Sys2Proof.Laws.keyed_of_wave rfl rfl (by decide) (by decide)
theorem Sys2Proof.Laws.Keyed.mulhi (w : W) : Sys2Proof.Laws.Keyed.Statement (.mulhi w) := Sys2Proof.Laws.keyed_of_wave rfl rfl (by decide) (by decide)
theorem Sys2Proof.Laws.Keyed.min (w : W) : Sys2Proof.Laws.Keyed.Statement (.min w) := Sys2Proof.Laws.keyed_of_wave rfl rfl (by decide) (by decide)
theorem Sys2Proof.Laws.Keyed.max (w : W) : Sys2Proof.Laws.Keyed.Statement (.max w) := Sys2Proof.Laws.keyed_of_wave rfl rfl (by decide) (by decide)
theorem Sys2Proof.Laws.Keyed.mad (w : W) : Sys2Proof.Laws.Keyed.Statement (.mad w) := Sys2Proof.Laws.keyed_of_wave rfl rfl (by decide) (by decide)
theorem Sys2Proof.Laws.Keyed.addImm (w : W) : Sys2Proof.Laws.Keyed.Statement (.addImm w) := Sys2Proof.Laws.keyed_of_wave rfl rfl (by decide) (by decide)
theorem Sys2Proof.Laws.Keyed.subImm (w : W) : Sys2Proof.Laws.Keyed.Statement (.subImm w) := Sys2Proof.Laws.keyed_of_wave rfl rfl (by decide) (by decide)
theorem Sys2Proof.Laws.Keyed.mulImm (w : W) : Sys2Proof.Laws.Keyed.Statement (.mulImm w) := Sys2Proof.Laws.keyed_of_wave rfl rfl (by decide) (by decide)
theorem Sys2Proof.Laws.Keyed.mulhiImm (w : W) : Sys2Proof.Laws.Keyed.Statement (.mulhiImm w) := Sys2Proof.Laws.keyed_of_wave rfl rfl (by decide) (by decide)
theorem Sys2Proof.Laws.Keyed.minImm (w : W) : Sys2Proof.Laws.Keyed.Statement (.minImm w) := Sys2Proof.Laws.keyed_of_wave rfl rfl (by decide) (by decide)
theorem Sys2Proof.Laws.Keyed.maxImm (w : W) : Sys2Proof.Laws.Keyed.Statement (.maxImm w) := Sys2Proof.Laws.keyed_of_wave rfl rfl (by decide) (by decide)
theorem Sys2Proof.Laws.Keyed.cmp (c : Cc) (w : W) : Sys2Proof.Laws.Keyed.Statement (.cmp c w) := Sys2Proof.Laws.keyed_of_wave rfl rfl (by decide) (by cases c <;> decide)
theorem Sys2Proof.Laws.Keyed.cmpImm (c : Cc) (w : W) : Sys2Proof.Laws.Keyed.Statement (.cmpImm c w) := Sys2Proof.Laws.keyed_of_wave rfl rfl (by decide) (by cases c <;> decide)
theorem Sys2Proof.Laws.Keyed.sel (w : W) : Sys2Proof.Laws.Keyed.Statement (.sel w) := Sys2Proof.Laws.keyed_of_wave rfl rfl (by decide) (by decide)
theorem Sys2Proof.Laws.Keyed.popc (w : W) : Sys2Proof.Laws.Keyed.Statement (.popc w) := Sys2Proof.Laws.keyed_of_wave rfl rfl (by decide) (by decide)
theorem Sys2Proof.Laws.Keyed.clz (w : W) : Sys2Proof.Laws.Keyed.Statement (.clz w) := Sys2Proof.Laws.keyed_of_wave rfl rfl (by decide) (by decide)
theorem Sys2Proof.Laws.Keyed.ctz (w : W) : Sys2Proof.Laws.Keyed.Statement (.ctz w) := Sys2Proof.Laws.keyed_of_wave rfl rfl (by decide) (by decide)
theorem Sys2Proof.Laws.Keyed.brev (w : W) : Sys2Proof.Laws.Keyed.Statement (.brev w) := Sys2Proof.Laws.keyed_of_wave rfl rfl (by decide) (by decide)
theorem Sys2Proof.Laws.Keyed.and (w : W) : Sys2Proof.Laws.Keyed.Statement (.and w) := Sys2Proof.Laws.keyed_of_wave rfl rfl (by decide) (by decide)
theorem Sys2Proof.Laws.Keyed.or (w : W) : Sys2Proof.Laws.Keyed.Statement (.or w) := Sys2Proof.Laws.keyed_of_wave rfl rfl (by decide) (by decide)
theorem Sys2Proof.Laws.Keyed.xor (w : W) : Sys2Proof.Laws.Keyed.Statement (.xor w) := Sys2Proof.Laws.keyed_of_wave rfl rfl (by decide) (by decide)
theorem Sys2Proof.Laws.Keyed.andn (w : W) : Sys2Proof.Laws.Keyed.Statement (.andn w) := Sys2Proof.Laws.keyed_of_wave rfl rfl (by decide) (by decide)
theorem Sys2Proof.Laws.Keyed.orn (w : W) : Sys2Proof.Laws.Keyed.Statement (.orn w) := Sys2Proof.Laws.keyed_of_wave rfl rfl (by decide) (by decide)
theorem Sys2Proof.Laws.Keyed.not (w : W) : Sys2Proof.Laws.Keyed.Statement (.not w) := Sys2Proof.Laws.keyed_of_wave rfl rfl (by decide) (by decide)
theorem Sys2Proof.Laws.Keyed.andImm (w : W) : Sys2Proof.Laws.Keyed.Statement (.andImm w) := Sys2Proof.Laws.keyed_of_wave rfl rfl (by decide) (by decide)
theorem Sys2Proof.Laws.Keyed.orImm (w : W) : Sys2Proof.Laws.Keyed.Statement (.orImm w) := Sys2Proof.Laws.keyed_of_wave rfl rfl (by decide) (by decide)
theorem Sys2Proof.Laws.Keyed.xorImm (w : W) : Sys2Proof.Laws.Keyed.Statement (.xorImm w) := Sys2Proof.Laws.keyed_of_wave rfl rfl (by decide) (by decide)
theorem Sys2Proof.Laws.Keyed.andnImm (w : W) : Sys2Proof.Laws.Keyed.Statement (.andnImm w) := Sys2Proof.Laws.keyed_of_wave rfl rfl (by decide) (by decide)
theorem Sys2Proof.Laws.Keyed.ornImm (w : W) : Sys2Proof.Laws.Keyed.Statement (.ornImm w) := Sys2Proof.Laws.keyed_of_wave rfl rfl (by decide) (by decide)
theorem Sys2Proof.Laws.Keyed.tern (w : W) : Sys2Proof.Laws.Keyed.Statement (.tern w) := Sys2Proof.Laws.keyed_of_wave rfl rfl (by decide) (by decide)
theorem Sys2Proof.Laws.Keyed.shl (w : W) : Sys2Proof.Laws.Keyed.Statement (.shl w) := Sys2Proof.Laws.keyed_of_wave rfl rfl (by decide) (by decide)
theorem Sys2Proof.Laws.Keyed.shr (w : W) : Sys2Proof.Laws.Keyed.Statement (.shr w) := Sys2Proof.Laws.keyed_of_wave rfl rfl (by decide) (by decide)
theorem Sys2Proof.Laws.Keyed.sar (w : W) : Sys2Proof.Laws.Keyed.Statement (.sar w) := Sys2Proof.Laws.keyed_of_wave rfl rfl (by decide) (by decide)
theorem Sys2Proof.Laws.Keyed.rol (w : W) : Sys2Proof.Laws.Keyed.Statement (.rol w) := Sys2Proof.Laws.keyed_of_wave rfl rfl (by decide) (by decide)
theorem Sys2Proof.Laws.Keyed.ror (w : W) : Sys2Proof.Laws.Keyed.Statement (.ror w) := Sys2Proof.Laws.keyed_of_wave rfl rfl (by decide) (by decide)
theorem Sys2Proof.Laws.Keyed.shlImm (w : W) : Sys2Proof.Laws.Keyed.Statement (.shlImm w) := Sys2Proof.Laws.keyed_of_wave rfl rfl (by decide) (by decide)
theorem Sys2Proof.Laws.Keyed.shrImm (w : W) : Sys2Proof.Laws.Keyed.Statement (.shrImm w) := Sys2Proof.Laws.keyed_of_wave rfl rfl (by decide) (by decide)
theorem Sys2Proof.Laws.Keyed.sarImm (w : W) : Sys2Proof.Laws.Keyed.Statement (.sarImm w) := Sys2Proof.Laws.keyed_of_wave rfl rfl (by decide) (by decide)
theorem Sys2Proof.Laws.Keyed.rolImm (w : W) : Sys2Proof.Laws.Keyed.Statement (.rolImm w) := Sys2Proof.Laws.keyed_of_wave rfl rfl (by decide) (by decide)
theorem Sys2Proof.Laws.Keyed.rorImm (w : W) : Sys2Proof.Laws.Keyed.Statement (.rorImm w) := Sys2Proof.Laws.keyed_of_wave rfl rfl (by decide) (by decide)
theorem Sys2Proof.Laws.Keyed.bfx (w : W) : Sys2Proof.Laws.Keyed.Statement (.bfx w) := Sys2Proof.Laws.keyed_of_wave rfl rfl (by decide) (by decide)
theorem Sys2Proof.Laws.Keyed.bfi (w : W) : Sys2Proof.Laws.Keyed.Statement (.bfi w) := Sys2Proof.Laws.keyed_of_wave rfl rfl (by decide) (by decide)
theorem Sys2Proof.Laws.Keyed.mov (w : W) : Sys2Proof.Laws.Keyed.Statement (.mov w) := Sys2Proof.Laws.keyed_of_wave rfl rfl (by decide) (by decide)
theorem Sys2Proof.Laws.Keyed.movImm (w : W) : Sys2Proof.Laws.Keyed.Statement (.movImm w) := Sys2Proof.Laws.keyed_of_wave rfl rfl (by decide) (by decide)
theorem Sys2Proof.Laws.Keyed.bytsel (w : W) : Sys2Proof.Laws.Keyed.Statement (.bytsel w) := Sys2Proof.Laws.keyed_of_wave rfl rfl (by decide) (by decide)
theorem Sys2Proof.Laws.Keyed.cnarrow (w : W) : Sys2Proof.Laws.Keyed.Statement (.cnarrow w) := Sys2Proof.Laws.keyed_of_wave rfl rfl (by decide) (by decide)
theorem Sys2Proof.Laws.Keyed.cnarrowSet (w : W) : Sys2Proof.Laws.Keyed.Statement (.cnarrowSet w) := Sys2Proof.Laws.keyed_of_wave rfl rfl (by decide) (by decide)
theorem Sys2Proof.Laws.Keyed.cperm (w : W) : Sys2Proof.Laws.Keyed.Statement (.cperm w) := Sys2Proof.Laws.keyed_of_wave rfl rfl (by decide) (by decide)
theorem Sys2Proof.Laws.Keyed.cget (f : CapField) (w : W) : Sys2Proof.Laws.Keyed.Statement (.cget f w) := Sys2Proof.Laws.keyed_of_wave rfl rfl (by decide) (by cases f <;> decide)
theorem Sys2Proof.Laws.Keyed.cchk (w : W) : Sys2Proof.Laws.Keyed.Statement (.cchk w) := Sys2Proof.Laws.keyed_of_wave rfl rfl (by decide) (by decide)
theorem Sys2Proof.Laws.Keyed.bra (w : W) : Sys2Proof.Laws.Keyed.Statement (.bra w) := Sys2Proof.Laws.keyed_of_wave rfl rfl (by decide) (by decide)
theorem Sys2Proof.Laws.Keyed.braCond (c : Vote) (w : W) : Sys2Proof.Laws.Keyed.Statement (.braCond c w) := Sys2Proof.Laws.keyed_of_wave rfl rfl (by decide) (by cases c <;> decide)
theorem Sys2Proof.Laws.Keyed.split (w : W) : Sys2Proof.Laws.Keyed.Statement (.split w) := Sys2Proof.Laws.keyed_of_wave rfl rfl (by decide) (by decide)
theorem Sys2Proof.Laws.Keyed.meet (w : W) : Sys2Proof.Laws.Keyed.Statement (.meet w) := Sys2Proof.Laws.keyed_of_wave rfl rfl (by decide) (by decide)
theorem Sys2Proof.Laws.Keyed.loop (w : W) : Sys2Proof.Laws.Keyed.Statement (.loop w) := Sys2Proof.Laws.keyed_of_wave rfl rfl (by decide) (by decide)
theorem Sys2Proof.Laws.Keyed.breakPred (w : W) : Sys2Proof.Laws.Keyed.Statement (.breakPred w) := Sys2Proof.Laws.keyed_of_wave rfl rfl (by decide) (by decide)
theorem Sys2Proof.Laws.Keyed.brk (w : W) : Sys2Proof.Laws.Keyed.Statement (.brk w) := Sys2Proof.Laws.keyed_of_wave rfl rfl (by decide) (by decide)
theorem Sys2Proof.Laws.Keyed.call (w : W) : Sys2Proof.Laws.Keyed.Statement (.call w) := Sys2Proof.Laws.keyed_of_wave rfl rfl (by decide) (by decide)
theorem Sys2Proof.Laws.Keyed.ret (w : W) : Sys2Proof.Laws.Keyed.Statement (.ret w) := Sys2Proof.Laws.keyed_of_wave rfl rfl (by decide) (by decide)
theorem Sys2Proof.Laws.Keyed.exit (w : W) : Sys2Proof.Laws.Keyed.Statement (.exit w) := Sys2Proof.Laws.keyed_of_wave rfl rfl (by decide) (by decide)
theorem Sys2Proof.Laws.Keyed.yield (w : W) : Sys2Proof.Laws.Keyed.Statement (.yield w) := Sys2Proof.Laws.keyed_of_wave rfl rfl (by decide) (by decide)
theorem Sys2Proof.Laws.Keyed.svc (w : W) : Sys2Proof.Laws.Keyed.Statement (.svc w) := Sys2Proof.Laws.keyed_of_wave rfl rfl (by decide) (by decide)
theorem Sys2Proof.Laws.Keyed.trap (w : W) : Sys2Proof.Laws.Keyed.Statement (.trap w) := Sys2Proof.Laws.keyed_of_wave rfl rfl (by decide) (by decide)
theorem Sys2Proof.Laws.Keyed.movsRead (w : W) : Sys2Proof.Laws.Keyed.Statement (.movsRead w) := Sys2Proof.Laws.keyed_of_wave rfl rfl (by decide) (by decide)
theorem Sys2Proof.Laws.Keyed.movsWrite (w : W) : Sys2Proof.Laws.Keyed.Statement (.movsWrite w) := Sys2Proof.Laws.keyed_of_wave rfl rfl (by decide) (by decide)
theorem Sys2Proof.Laws.Keyed.nop (w : W) : Sys2Proof.Laws.Keyed.Statement (.nop w) := Sys2Proof.Laws.keyed_of_wave rfl rfl (by decide) (by decide)
theorem Sys2Proof.Laws.Keyed.waitCyc (w : W) : Sys2Proof.Laws.Keyed.Statement (.waitCyc w) := Sys2Proof.Laws.keyed_of_wave rfl rfl (by decide) (by decide)
theorem Sys2Proof.Laws.Keyed.waitCycEnd (wave : Nat) : Sys2Proof.Laws.Keyed.Statement (.waitCycEnd wave) := Sys2Proof.Laws.keyed_of_none rfl
theorem Sys2Proof.Laws.Keyed.hint (rest : BitVec 88) : Sys2Proof.Laws.Keyed.Statement (.hint rest) := Sys2Proof.Laws.keyed_of_none rfl
theorem Sys2Proof.Laws.Keyed.fadd (w : W) : Sys2Proof.Laws.Keyed.Statement (.fadd w) := Sys2Proof.Laws.keyed_of_wave rfl rfl (by decide) (by decide)
theorem Sys2Proof.Laws.Keyed.fsub (w : W) : Sys2Proof.Laws.Keyed.Statement (.fsub w) := Sys2Proof.Laws.keyed_of_wave rfl rfl (by decide) (by decide)
theorem Sys2Proof.Laws.Keyed.fmul (w : W) : Sys2Proof.Laws.Keyed.Statement (.fmul w) := Sys2Proof.Laws.keyed_of_wave rfl rfl (by decide) (by decide)
theorem Sys2Proof.Laws.Keyed.fmin (w : W) : Sys2Proof.Laws.Keyed.Statement (.fmin w) := Sys2Proof.Laws.keyed_of_wave rfl rfl (by decide) (by decide)
theorem Sys2Proof.Laws.Keyed.fmax (w : W) : Sys2Proof.Laws.Keyed.Statement (.fmax w) := Sys2Proof.Laws.keyed_of_wave rfl rfl (by decide) (by decide)
theorem Sys2Proof.Laws.Keyed.faddImm (w : W) : Sys2Proof.Laws.Keyed.Statement (.faddImm w) := Sys2Proof.Laws.keyed_of_wave rfl rfl (by decide) (by decide)
theorem Sys2Proof.Laws.Keyed.fsubImm (w : W) : Sys2Proof.Laws.Keyed.Statement (.fsubImm w) := Sys2Proof.Laws.keyed_of_wave rfl rfl (by decide) (by decide)
theorem Sys2Proof.Laws.Keyed.fmulImm (w : W) : Sys2Proof.Laws.Keyed.Statement (.fmulImm w) := Sys2Proof.Laws.keyed_of_wave rfl rfl (by decide) (by decide)
theorem Sys2Proof.Laws.Keyed.fminImm (w : W) : Sys2Proof.Laws.Keyed.Statement (.fminImm w) := Sys2Proof.Laws.keyed_of_wave rfl rfl (by decide) (by decide)
theorem Sys2Proof.Laws.Keyed.fmaxImm (w : W) : Sys2Proof.Laws.Keyed.Statement (.fmaxImm w) := Sys2Proof.Laws.keyed_of_wave rfl rfl (by decide) (by decide)
theorem Sys2Proof.Laws.Keyed.fma (w : W) : Sys2Proof.Laws.Keyed.Statement (.fma w) := Sys2Proof.Laws.keyed_of_wave rfl rfl (by decide) (by decide)
theorem Sys2Proof.Laws.Keyed.fms (w : W) : Sys2Proof.Laws.Keyed.Statement (.fms w) := Sys2Proof.Laws.keyed_of_wave rfl rfl (by decide) (by decide)
theorem Sys2Proof.Laws.Keyed.fcmp (c : FCc) (w : W) : Sys2Proof.Laws.Keyed.Statement (.fcmp c w) := Sys2Proof.Laws.keyed_of_wave rfl rfl (by decide) (by cases c <;> decide)
theorem Sys2Proof.Laws.Keyed.fclass (w : W) : Sys2Proof.Laws.Keyed.Statement (.fclass w) := Sys2Proof.Laws.keyed_of_wave rfl rfl (by decide) (by decide)
theorem Sys2Proof.Laws.Keyed.frcp (w : W) : Sys2Proof.Laws.Keyed.Statement (.frcp w) := Sys2Proof.Laws.keyed_of_wave rfl rfl (by decide) (by decide)
theorem Sys2Proof.Laws.Keyed.frsq (w : W) : Sys2Proof.Laws.Keyed.Statement (.frsq w) := Sys2Proof.Laws.keyed_of_wave rfl rfl (by decide) (by decide)
theorem Sys2Proof.Laws.Keyed.fsqrt (w : W) : Sys2Proof.Laws.Keyed.Statement (.fsqrt w) := Sys2Proof.Laws.keyed_of_wave rfl rfl (by decide) (by decide)
theorem Sys2Proof.Laws.Keyed.fex2 (w : W) : Sys2Proof.Laws.Keyed.Statement (.fex2 w) := Sys2Proof.Laws.keyed_of_wave rfl rfl (by decide) (by decide)
theorem Sys2Proof.Laws.Keyed.flg2 (w : W) : Sys2Proof.Laws.Keyed.Statement (.flg2 w) := Sys2Proof.Laws.keyed_of_wave rfl rfl (by decide) (by decide)
theorem Sys2Proof.Laws.Keyed.fsin (w : W) : Sys2Proof.Laws.Keyed.Statement (.fsin w) := Sys2Proof.Laws.keyed_of_wave rfl rfl (by decide) (by decide)
theorem Sys2Proof.Laws.Keyed.fcos (w : W) : Sys2Proof.Laws.Keyed.Statement (.fcos w) := Sys2Proof.Laws.keyed_of_wave rfl rfl (by decide) (by decide)
theorem Sys2Proof.Laws.Keyed.cvtFF (w : W) : Sys2Proof.Laws.Keyed.Statement (.cvtFF w) := Sys2Proof.Laws.keyed_of_wave rfl rfl (by decide) (by decide)
theorem Sys2Proof.Laws.Keyed.cvtFI (w : W) : Sys2Proof.Laws.Keyed.Statement (.cvtFI w) := Sys2Proof.Laws.keyed_of_wave rfl rfl (by decide) (by decide)
theorem Sys2Proof.Laws.Keyed.cvtIF (w : W) : Sys2Proof.Laws.Keyed.Statement (.cvtIF w) := Sys2Proof.Laws.keyed_of_wave rfl rfl (by decide) (by decide)
theorem Sys2Proof.Laws.Keyed.scalegenE8M0 (w : W) : Sys2Proof.Laws.Keyed.Statement (.scalegenE8M0 w) := Sys2Proof.Laws.keyed_of_wave rfl rfl (by decide) (by decide)
theorem Sys2Proof.Laws.Keyed.scalegenE4M3 (w : W) : Sys2Proof.Laws.Keyed.Statement (.scalegenE4M3 w) := Sys2Proof.Laws.keyed_of_wave rfl rfl (by decide) (by decide)
theorem Sys2Proof.Laws.Keyed.qntE8M0 (w : W) : Sys2Proof.Laws.Keyed.Statement (.qntE8M0 w) := Sys2Proof.Laws.keyed_of_wave rfl rfl (by decide) (by decide)
theorem Sys2Proof.Laws.Keyed.qntE4M3 (w : W) : Sys2Proof.Laws.Keyed.Statement (.qntE4M3 w) := Sys2Proof.Laws.keyed_of_wave rfl rfl (by decide) (by decide)
theorem Sys2Proof.Laws.Keyed.pack (w : W) : Sys2Proof.Laws.Keyed.Statement (.pack w) := Sys2Proof.Laws.keyed_of_wave rfl rfl (by decide) (by decide)
theorem Sys2Proof.Laws.Keyed.unpk (w : W) : Sys2Proof.Laws.Keyed.Statement (.unpk w) := Sys2Proof.Laws.keyed_of_wave rfl rfl (by decide) (by decide)
theorem Sys2Proof.Laws.Keyed.xlane (m : XMode) (w : W) : Sys2Proof.Laws.Keyed.Statement (.xlane m w) := Sys2Proof.Laws.keyed_of_wave rfl rfl (by decide) (by cases m <;> decide)
theorem Sys2Proof.Laws.Keyed.xlaneImm (m : XMode) (w : W) : Sys2Proof.Laws.Keyed.Statement (.xlaneImm m w) := Sys2Proof.Laws.keyed_of_wave rfl rfl (by decide) (by cases m <;> decide)
theorem Sys2Proof.Laws.Keyed.bcastFirst (w : W) : Sys2Proof.Laws.Keyed.Statement (.bcastFirst w) := Sys2Proof.Laws.keyed_of_wave rfl rfl (by decide) (by decide)
theorem Sys2Proof.Laws.Keyed.voteAny (w : W) : Sys2Proof.Laws.Keyed.Statement (.voteAny w) := Sys2Proof.Laws.keyed_of_wave rfl rfl (by decide) (by decide)
theorem Sys2Proof.Laws.Keyed.voteAll (w : W) : Sys2Proof.Laws.Keyed.Statement (.voteAll w) := Sys2Proof.Laws.keyed_of_wave rfl rfl (by decide) (by decide)
theorem Sys2Proof.Laws.Keyed.voteEq (w : W) : Sys2Proof.Laws.Keyed.Statement (.voteEq w) := Sys2Proof.Laws.keyed_of_wave rfl rfl (by decide) (by decide)
theorem Sys2Proof.Laws.Keyed.ballot (w : W) : Sys2Proof.Laws.Keyed.Statement (.ballot w) := Sys2Proof.Laws.keyed_of_wave rfl rfl (by decide) (by decide)
theorem Sys2Proof.Laws.Keyed.lredFloat (o : RedF) (w : W) : Sys2Proof.Laws.Keyed.Statement (.lredFloat o w) := Sys2Proof.Laws.keyed_of_wave rfl rfl (by decide) (by cases o <;> decide)
theorem Sys2Proof.Laws.Keyed.lscanFloat (o : RedF) (w : W) : Sys2Proof.Laws.Keyed.Statement (.lscanFloat o w) := Sys2Proof.Laws.keyed_of_wave rfl rfl (by decide) (by cases o <;> decide)
theorem Sys2Proof.Laws.Keyed.lredInt (o : RedI) (w : W) : Sys2Proof.Laws.Keyed.Statement (.lredInt o w) := Sys2Proof.Laws.keyed_of_wave rfl rfl (by decide) (by cases o <;> decide)
theorem Sys2Proof.Laws.Keyed.lscanInt (o : RedI) (w : W) : Sys2Proof.Laws.Keyed.Statement (.lscanInt o w) := Sys2Proof.Laws.keyed_of_wave rfl rfl (by decide) (by cases o <;> decide)
theorem Sys2Proof.Laws.Keyed.ld (space : Space) (w : W) : Sys2Proof.Laws.Keyed.Statement (.ld space w) := Sys2Proof.Laws.keyed_of_wave rfl rfl (by decide) (by cases space <;> decide)
theorem Sys2Proof.Laws.Keyed.st (space : Space) (w : W) : Sys2Proof.Laws.Keyed.Statement (.st space w) := Sys2Proof.Laws.keyed_of_wave rfl rfl (by decide) (by cases space <;> decide)
theorem Sys2Proof.Laws.Keyed.ldc (space : Space) (w : W) : Sys2Proof.Laws.Keyed.Statement (.ldc space w) := Sys2Proof.Laws.keyed_of_wave rfl rfl (by decide) (by cases space <;> decide)
theorem Sys2Proof.Laws.Keyed.stc (space : Space) (w : W) : Sys2Proof.Laws.Keyed.Statement (.stc space w) := Sys2Proof.Laws.keyed_of_wave rfl rfl (by decide) (by cases space <;> decide)
theorem Sys2Proof.Laws.Keyed.ldg (space : Space) (w : W) : Sys2Proof.Laws.Keyed.Statement (.ldg space w) := Sys2Proof.Laws.keyed_of_wave rfl rfl (by decide) (by cases space <;> decide)
theorem Sys2Proof.Laws.Keyed.sts (space : Space) (w : W) : Sys2Proof.Laws.Keyed.Statement (.sts space w) := Sys2Proof.Laws.keyed_of_wave rfl rfl (by decide) (by cases space <;> decide)
theorem Sys2Proof.Laws.Keyed.stvM (space : Space) (w : W) : Sys2Proof.Laws.Keyed.Statement (.stvM space w) := Sys2Proof.Laws.keyed_of_wave rfl rfl (by decide) (by cases space <;> decide)
theorem Sys2Proof.Laws.Keyed.ldvM (space : Space) (w : W) : Sys2Proof.Laws.Keyed.Statement (.ldvM space w) := Sys2Proof.Laws.keyed_of_wave rfl rfl (by decide) (by cases space <;> decide)
theorem Sys2Proof.Laws.Keyed.atom (o : AtOp) (w : W) : Sys2Proof.Laws.Keyed.Statement (.atom o w) := Sys2Proof.Laws.keyed_of_wave rfl rfl (by decide) (by cases o <;> decide)
theorem Sys2Proof.Laws.Keyed.atomCas (w : W) : Sys2Proof.Laws.Keyed.Statement (.atomCas w) := Sys2Proof.Laws.keyed_of_wave rfl rfl (by decide) (by decide)
theorem Sys2Proof.Laws.Keyed.atomFloat (o : RedF) (t : AtFt) (w : W) : Sys2Proof.Laws.Keyed.Statement (.atomFloat o t w) := Sys2Proof.Laws.keyed_of_wave rfl rfl (by decide) (by cases o <;> cases t <;> decide)
theorem Sys2Proof.Laws.Keyed.red (o : AtOp) (w : W) : Sys2Proof.Laws.Keyed.Statement (.red o w) := Sys2Proof.Laws.keyed_of_wave rfl rfl (by decide) (by cases o <;> decide)
theorem Sys2Proof.Laws.Keyed.redFloat (o : RedF) (t : AtFt) (w : W) : Sys2Proof.Laws.Keyed.Statement (.redFloat o t w) := Sys2Proof.Laws.keyed_of_wave rfl rfl (by decide) (by cases o <;> cases t <;> decide)
theorem Sys2Proof.Laws.Keyed.rel (w : W) : Sys2Proof.Laws.Keyed.Statement (.rel w) := Sys2Proof.Laws.keyed_of_wave rfl rfl (by decide) (by decide)
theorem Sys2Proof.Laws.Keyed.acq (w : W) : Sys2Proof.Laws.Keyed.Statement (.acq w) := Sys2Proof.Laws.keyed_of_wave rfl rfl (by decide) (by decide)
theorem Sys2Proof.Laws.Keyed.phx (w : W) : Sys2Proof.Laws.Keyed.Statement (.phx w) := Sys2Proof.Laws.keyed_of_wave rfl rfl (by decide) (by decide)
theorem Sys2Proof.Laws.Keyed.fence (w : W) : Sys2Proof.Laws.Keyed.Statement (.fence w) := Sys2Proof.Laws.keyed_of_wave rfl rfl (by decide) (by decide)
theorem Sys2Proof.Laws.Keyed.ballocPhase (w : W) : Sys2Proof.Laws.Keyed.Statement (.ballocPhase w) := Sys2Proof.Laws.keyed_of_wave rfl rfl (by decide) (by decide)
theorem Sys2Proof.Laws.Keyed.ballocCount (w : W) : Sys2Proof.Laws.Keyed.Statement (.ballocCount w) := Sys2Proof.Laws.keyed_of_wave rfl rfl (by decide) (by decide)
theorem Sys2Proof.Laws.Keyed.bfree (w : W) : Sys2Proof.Laws.Keyed.Statement (.bfree w) := Sys2Proof.Laws.keyed_of_wave rfl rfl (by decide) (by decide)
theorem Sys2Proof.Laws.Keyed.barrive (w : W) : Sys2Proof.Laws.Keyed.Statement (.barrive w) := Sys2Proof.Laws.keyed_of_wave rfl rfl (by decide) (by decide)
theorem Sys2Proof.Laws.Keyed.bexpect (w : W) : Sys2Proof.Laws.Keyed.Statement (.bexpect w) := Sys2Proof.Laws.keyed_of_wave rfl rfl (by decide) (by decide)
theorem Sys2Proof.Laws.Keyed.bsigImm (w : W) : Sys2Proof.Laws.Keyed.Statement (.bsigImm w) := Sys2Proof.Laws.keyed_of_wave rfl rfl (by decide) (by decide)
theorem Sys2Proof.Laws.Keyed.bsigReg (w : W) : Sys2Proof.Laws.Keyed.Statement (.bsigReg w) := Sys2Proof.Laws.keyed_of_wave rfl rfl (by decide) (by decide)
theorem Sys2Proof.Laws.Keyed.waitbPh (w : W) : Sys2Proof.Laws.Keyed.Statement (.waitbPh w) := Sys2Proof.Laws.keyed_of_wave rfl rfl (by decide) (by decide)
theorem Sys2Proof.Laws.Keyed.waitbCt (w : W) : Sys2Proof.Laws.Keyed.Statement (.waitbCt w) := Sys2Proof.Laws.keyed_of_wave rfl rfl (by decide) (by decide)
theorem Sys2Proof.Laws.Keyed.waitbWake (wave : Nat) : Sys2Proof.Laws.Keyed.Statement (.waitbWake wave) := Sys2Proof.Laws.keyed_of_none rfl
theorem Sys2Proof.Laws.Keyed.cpyLin (w : W) : Sys2Proof.Laws.Keyed.Statement (.cpyLin w) := Sys2Proof.Laws.keyed_of_wave rfl rfl (by decide) (by decide)
theorem Sys2Proof.Laws.Keyed.cpyTile (w : W) : Sys2Proof.Laws.Keyed.Statement (.cpyTile w) := Sys2Proof.Laws.keyed_of_wave rfl rfl (by decide) (by decide)
theorem Sys2Proof.Laws.Keyed.copySlotWaitEnd (wave : Nat) : Sys2Proof.Laws.Keyed.Statement (.copySlotWaitEnd wave) := Sys2Proof.Laws.keyed_of_none rfl
theorem Sys2Proof.Laws.Keyed.copyChunkLand (core copy : Nat) : Sys2Proof.Laws.Keyed.Statement (.copyChunkLand core copy) := Sys2Proof.Laws.keyed_of_none rfl
theorem Sys2Proof.Laws.Keyed.copySignal (core copy : Nat) : Sys2Proof.Laws.Keyed.Statement (.copySignal core copy) := Sys2Proof.Laws.keyed_of_none rfl
theorem Sys2Proof.Laws.Keyed.ringCopyResume (core copy : Nat) : Sys2Proof.Laws.Keyed.Statement (.ringCopyResume core copy) := Sys2Proof.Laws.keyed_of_none rfl
theorem Sys2Proof.Laws.Keyed.ringSignalRelease (core copy : Nat) : Sys2Proof.Laws.Keyed.Statement (.ringSignalRelease core copy) := Sys2Proof.Laws.keyed_of_none rfl
theorem Sys2Proof.Laws.Keyed.mma (w : W) : Sys2Proof.Laws.Keyed.Statement (.mma w) := Sys2Proof.Laws.keyed_of_wave rfl rfl (by decide) (by decide)
theorem Sys2Proof.Laws.Keyed.mmaZ (w : W) : Sys2Proof.Laws.Keyed.Statement (.mmaZ w) := Sys2Proof.Laws.keyed_of_wave rfl rfl (by decide) (by decide)
theorem Sys2Proof.Laws.Keyed.wbld (w : W) : Sys2Proof.Laws.Keyed.Statement (.wbld w) := Sys2Proof.Laws.keyed_of_wave rfl rfl (by decide) (by decide)
theorem Sys2Proof.Laws.Keyed.accz (w : W) : Sys2Proof.Laws.Keyed.Statement (.accz w) := Sys2Proof.Laws.keyed_of_wave rfl rfl (by decide) (by decide)
theorem Sys2Proof.Laws.Keyed.accld (w : W) : Sys2Proof.Laws.Keyed.Statement (.accld w) := Sys2Proof.Laws.keyed_of_wave rfl rfl (by decide) (by decide)
theorem Sys2Proof.Laws.Keyed.accst (w : W) : Sys2Proof.Laws.Keyed.Statement (.accst w) := Sys2Proof.Laws.keyed_of_wave rfl rfl (by decide) (by decide)
theorem Sys2Proof.Laws.Keyed.mbatch (w : W) : Sys2Proof.Laws.Keyed.Statement (.mbatch w) := Sys2Proof.Laws.keyed_of_wave rfl rfl (by decide) (by decide)
theorem Sys2Proof.Laws.Keyed.batonSet (w : W) : Sys2Proof.Laws.Keyed.Statement (.batonSet w) := Sys2Proof.Laws.keyed_of_wave rfl rfl (by decide) (by decide)
theorem Sys2Proof.Laws.Keyed.batonPass (w : W) : Sys2Proof.Laws.Keyed.Statement (.batonPass w) := Sys2Proof.Laws.keyed_of_wave rfl rfl (by decide) (by decide)
theorem Sys2Proof.Laws.Keyed.batonPassSignal (w : W) : Sys2Proof.Laws.Keyed.Statement (.batonPassSignal w) := Sys2Proof.Laws.keyed_of_wave rfl rfl (by decide) (by decide)
theorem Sys2Proof.Laws.Keyed.matrixQueueWaitEnd (wave : Nat) : Sys2Proof.Laws.Keyed.Statement (.matrixQueueWaitEnd wave) := Sys2Proof.Laws.keyed_of_none rfl
theorem Sys2Proof.Laws.Keyed.matrixRecordStart (group : Nat) : Sys2Proof.Laws.Keyed.Statement (.matrixRecordStart group) := Sys2Proof.Laws.keyed_of_none rfl
theorem Sys2Proof.Laws.Keyed.mmaKstepCommit (group : Nat) : Sys2Proof.Laws.Keyed.Statement (.mmaKstepCommit group) := Sys2Proof.Laws.keyed_of_none rfl
theorem Sys2Proof.Laws.Keyed.matrixRecordComplete (group : Nat) : Sys2Proof.Laws.Keyed.Statement (.matrixRecordComplete group) := Sys2Proof.Laws.keyed_of_none rfl
theorem Sys2Proof.Laws.Keyed.batchComplete (group : Nat) : Sys2Proof.Laws.Keyed.Statement (.batchComplete group) := Sys2Proof.Laws.keyed_of_none rfl
theorem Sys2Proof.Laws.Keyed.mxClockGate (core : Nat) : Sys2Proof.Laws.Keyed.Statement (.mxClockGate core) := Sys2Proof.Laws.keyed_of_none rfl
theorem Sys2Proof.Laws.Keyed.mxPowerGate (core : Nat) : Sys2Proof.Laws.Keyed.Statement (.mxPowerGate core) := Sys2Proof.Laws.keyed_of_none rfl
theorem Sys2Proof.Laws.Keyed.mxWake (core : Nat) : Sys2Proof.Laws.Keyed.Statement (.mxWake core) := Sys2Proof.Laws.keyed_of_none rfl
theorem Sys2Proof.Laws.Keyed.role (w : W) : Sys2Proof.Laws.Keyed.Statement (.role w) := Sys2Proof.Laws.keyed_of_wave rfl rfl (by decide) (by decide)
theorem Sys2Proof.Laws.Keyed.roleDrainEnd (wave : Nat) : Sys2Proof.Laws.Keyed.Statement (.roleDrainEnd wave) := Sys2Proof.Laws.keyed_of_none rfl
theorem Sys2Proof.Laws.Keyed.taskadd (w : W) : Sys2Proof.Laws.Keyed.Statement (.taskadd w) := Sys2Proof.Laws.keyed_of_wave rfl rfl (by decide) (by decide)
theorem Sys2Proof.Laws.Keyed.taskDispatch (ctx q : Nat) : Sys2Proof.Laws.Keyed.Statement (.taskDispatch ctx q) := Sys2Proof.Laws.keyed_of_none rfl
theorem Sys2Proof.Laws.Keyed.taskGwaitExpire (ctx q : Nat) : Sys2Proof.Laws.Keyed.Statement (.taskGwaitExpire ctx q) := Sys2Proof.Laws.keyed_of_none rfl
theorem Sys2Proof.Laws.Keyed.glaunch (w : W) : Sys2Proof.Laws.Keyed.Statement (.glaunch w) := Sys2Proof.Laws.keyed_of_wave rfl rfl (by decide) (by decide)
theorem Sys2Proof.Laws.Keyed.glaunchW (w : W) : Sys2Proof.Laws.Keyed.Statement (.glaunchW w) := Sys2Proof.Laws.keyed_of_wave rfl rfl (by decide) (by decide)
theorem Sys2Proof.Laws.Keyed.glaunchWRetry (wave : Nat) : Sys2Proof.Laws.Keyed.Statement (.glaunchWRetry wave) := Sys2Proof.Laws.keyed_of_none rfl
theorem Sys2Proof.Laws.Keyed.overflowRecordMove (die : Nat) : Sys2Proof.Laws.Keyed.Statement (.overflowRecordMove die) := Sys2Proof.Laws.keyed_of_none rfl
theorem Sys2Proof.Laws.Keyed.gjoin (w : W) : Sys2Proof.Laws.Keyed.Statement (.gjoin w) := Sys2Proof.Laws.keyed_of_wave rfl rfl (by decide) (by decide)
theorem Sys2Proof.Laws.Keyed.gjoinTry (w : W) : Sys2Proof.Laws.Keyed.Statement (.gjoinTry w) := Sys2Proof.Laws.keyed_of_wave rfl rfl (by decide) (by decide)
theorem Sys2Proof.Laws.Keyed.gjoinWake (wave : Nat) : Sys2Proof.Laws.Keyed.Statement (.gjoinWake wave) := Sys2Proof.Laws.keyed_of_none rfl
theorem Sys2Proof.Laws.Keyed.beat (w : W) : Sys2Proof.Laws.Keyed.Statement (.beat w) := Sys2Proof.Laws.keyed_of_wave rfl rfl (by decide) (by decide)
theorem Sys2Proof.Laws.Keyed.btarget (w : W) : Sys2Proof.Laws.Keyed.Statement (.btarget w) := Sys2Proof.Laws.keyed_of_wave rfl rfl (by decide) (by decide)
theorem Sys2Proof.Laws.Keyed.bread (w : W) : Sys2Proof.Laws.Keyed.Statement (.bread w) := Sys2Proof.Laws.keyed_of_wave rfl rfl (by decide) (by decide)
theorem Sys2Proof.Laws.Keyed.gsync (w : W) : Sys2Proof.Laws.Keyed.Statement (.gsync w) := Sys2Proof.Laws.keyed_of_wave rfl rfl (by decide) (by decide)
theorem Sys2Proof.Laws.Keyed.garrive (w : W) : Sys2Proof.Laws.Keyed.Statement (.garrive w) := Sys2Proof.Laws.keyed_of_wave rfl rfl (by decide) (by decide)
theorem Sys2Proof.Laws.Keyed.gwait (w : W) : Sys2Proof.Laws.Keyed.Statement (.gwait w) := Sys2Proof.Laws.keyed_of_wave rfl rfl (by decide) (by decide)
theorem Sys2Proof.Laws.Keyed.gangWaitWake (wave : Nat) : Sys2Proof.Laws.Keyed.Statement (.gangWaitWake wave) := Sys2Proof.Laws.keyed_of_none rfl
theorem Sys2Proof.Laws.Keyed.put (w : W) : Sys2Proof.Laws.Keyed.Statement (.put w) := Sys2Proof.Laws.keyed_of_wave rfl rfl (by decide) (by decide)
theorem Sys2Proof.Laws.Keyed.get (w : W) : Sys2Proof.Laws.Keyed.Statement (.get w) := Sys2Proof.Laws.keyed_of_wave rfl rfl (by decide) (by decide)
theorem Sys2Proof.Laws.Keyed.collAllred (w : W) : Sys2Proof.Laws.Keyed.Statement (.collAllred w) := Sys2Proof.Laws.keyed_of_wave rfl rfl (by decide) (by decide)
theorem Sys2Proof.Laws.Keyed.collBcast (w : W) : Sys2Proof.Laws.Keyed.Statement (.collBcast w) := Sys2Proof.Laws.keyed_of_wave rfl rfl (by decide) (by decide)
theorem Sys2Proof.Laws.Keyed.collAllgath (w : W) : Sys2Proof.Laws.Keyed.Statement (.collAllgath w) := Sys2Proof.Laws.keyed_of_wave rfl rfl (by decide) (by decide)
theorem Sys2Proof.Laws.Keyed.fabricChunkComplete (core copy chunk : Nat) (data : List Byte) : Sys2Proof.Laws.Keyed.Statement (.fabricChunkComplete core copy chunk data) := Sys2Proof.Laws.keyed_of_none rfl
theorem Sys2Proof.Laws.Keyed.fabricChunkLost (core copy chunk : Nat) : Sys2Proof.Laws.Keyed.Statement (.fabricChunkLost core copy chunk) := Sys2Proof.Laws.keyed_of_none rfl
theorem Sys2Proof.Laws.Keyed.fabricCommandComplete (core copy : Nat) : Sys2Proof.Laws.Keyed.Statement (.fabricCommandComplete core copy) := Sys2Proof.Laws.keyed_of_none rfl
theorem Sys2Proof.Laws.Keyed.collContribArrive (ctx g member : Nat) (data : List Byte) : Sys2Proof.Laws.Keyed.Statement (.collContribArrive ctx g member data) := Sys2Proof.Laws.keyed_of_none rfl
theorem Sys2Proof.Laws.Keyed.collTimeout (ctx g : Nat) : Sys2Proof.Laws.Keyed.Statement (.collTimeout ctx g) := Sys2Proof.Laws.keyed_of_none rfl
theorem Sys2Proof.Laws.Keyed.collResultLand (ctx g : Nat) (lost : Bool) : Sys2Proof.Laws.Keyed.Statement (.collResultLand ctx g lost) := Sys2Proof.Laws.keyed_of_none rfl
theorem Sys2Proof.Laws.Keyed.dld (d : BitVec 5) (c : BitVec 4) (o : BitVec 5) (z : BitVec 2) (u : Bool) : Sys2Proof.Laws.Keyed.Statement (.dld d c o z u) := Sys2Proof.Laws.keyed_of_none rfl
theorem Sys2Proof.Laws.Keyed.dst (v : BitVec 5) (c : BitVec 4) (o : BitVec 5) (z : BitVec 2) : Sys2Proof.Laws.Keyed.Statement (.dst v c o z) := Sys2Proof.Laws.keyed_of_none rfl
theorem Sys2Proof.Laws.Keyed.dldc (d : BitVec 4) (c : BitVec 4) (o : BitVec 5) : Sys2Proof.Laws.Keyed.Statement (.dldc d c o) := Sys2Proof.Laws.keyed_of_none rfl
theorem Sys2Proof.Laws.Keyed.dstc (v : BitVec 4) (c : BitVec 4) (o : BitVec 5) : Sys2Proof.Laws.Keyed.Statement (.dstc v c o) := Sys2Proof.Laws.keyed_of_none rfl
theorem Sys2Proof.Laws.Keyed.dnarrow (d : BitVec 4) (c : BitVec 4) (o l : BitVec 5) : Sys2Proof.Laws.Keyed.Statement (.dnarrow d c o l) := Sys2Proof.Laws.keyed_of_none rfl
theorem Sys2Proof.Laws.Keyed.dperm (d : BitVec 4) (c : BitVec 4) (k : BitVec 5) : Sys2Proof.Laws.Keyed.Statement (.dperm d c k) := Sys2Proof.Laws.keyed_of_none rfl
theorem Sys2Proof.Laws.Keyed.dget (d : BitVec 5) (c : BitVec 4) (f : CapField) : Sys2Proof.Laws.Keyed.Statement (.dget d c f) := Sys2Proof.Laws.keyed_of_none rfl
theorem Sys2Proof.Laws.Keyed.dmov (d : BitVec 4) (c : BitVec 4) : Sys2Proof.Laws.Keyed.Statement (.dmov d c) := Sys2Proof.Laws.keyed_of_none rfl
theorem Sys2Proof.Laws.Keyed.landingFenceRw : Sys2Proof.Laws.Keyed.Statement .landingFenceRw := Sys2Proof.Laws.keyed_of_none rfl
theorem Sys2Proof.Laws.Keyed.quarterIssue (core q : Nat) : Sys2Proof.Laws.Keyed.Statement (.quarterIssue core q) := Sys2Proof.Laws.keyed_of_none rfl
theorem Sys2Proof.Laws.Keyed.lineRefetch (wave : Nat) : Sys2Proof.Laws.Keyed.Statement (.lineRefetch wave) := Sys2Proof.Laws.keyed_of_none rfl
theorem Sys2Proof.Laws.Keyed.writeback (core q : Nat) : Sys2Proof.Laws.Keyed.Statement (.writeback core q) := Sys2Proof.Laws.keyed_of_none rfl
theorem Sys2Proof.Laws.Keyed.dedupCompareEnd (core q k : Nat) : Sys2Proof.Laws.Keyed.Statement (.dedupCompareEnd core q k) := Sys2Proof.Laws.keyed_of_none rfl
theorem Sys2Proof.Laws.Keyed.loadDataReturn (core k : Nat) : Sys2Proof.Laws.Keyed.Statement (.loadDataReturn core k) := Sys2Proof.Laws.keyed_of_none rfl
theorem Sys2Proof.Laws.Keyed.atomicRequestPerform (core k : Nat) : Sys2Proof.Laws.Keyed.Statement (.atomicRequestPerform core k) := Sys2Proof.Laws.keyed_of_none rfl
theorem Sys2Proof.Laws.Keyed.writeArrival (core k : Nat) : Sys2Proof.Laws.Keyed.Statement (.writeArrival core k) := Sys2Proof.Laws.keyed_of_none rfl
theorem Sys2Proof.Laws.Keyed.releaseComplete (core k : Nat) : Sys2Proof.Laws.Keyed.Statement (.releaseComplete core k) := Sys2Proof.Laws.keyed_of_none rfl
theorem Sys2Proof.Laws.Keyed.acquireRefresh (wave : Nat) : Sys2Proof.Laws.Keyed.Statement (.acquireRefresh wave) := Sys2Proof.Laws.keyed_of_none rfl
theorem Sys2Proof.Laws.Keyed.faultBufferWaitEnd (core : Nat) : Sys2Proof.Laws.Keyed.Statement (.faultBufferWaitEnd core) := Sys2Proof.Laws.keyed_of_none rfl
theorem Sys2Proof.Laws.Keyed.faultQueueRecordWrite (inst : Inst) : Sys2Proof.Laws.Keyed.Statement (.faultQueueRecordWrite inst) := Sys2Proof.Laws.keyed_of_none rfl
theorem Sys2Proof.Laws.Keyed.frespRetry (die : Nat) (v : Word) (i : Inst) : Sys2Proof.Laws.Keyed.Statement (.frespRetry die v i) := Sys2Proof.Laws.keyed_of_none rfl
theorem Sys2Proof.Laws.Keyed.frespDecline (die : Nat) (v : Word) (i : Inst) : Sys2Proof.Laws.Keyed.Statement (.frespDecline die v i) := Sys2Proof.Laws.keyed_of_none rfl
theorem Sys2Proof.Laws.Keyed.wcmdReadReg (die : Nat) (v : DWord) (i : Inst) : Sys2Proof.Laws.Keyed.Statement (.wcmdReadReg die v i) := Sys2Proof.Laws.keyed_of_none rfl
theorem Sys2Proof.Laws.Keyed.wcmdWriteReg (die : Nat) (v : DWord) (i : Inst) : Sys2Proof.Laws.Keyed.Statement (.wcmdWriteReg die v i) := Sys2Proof.Laws.keyed_of_none rfl
theorem Sys2Proof.Laws.Keyed.wcmdReadExm (die : Nat) (v : DWord) (i : Inst) : Sys2Proof.Laws.Keyed.Statement (.wcmdReadExm die v i) := Sys2Proof.Laws.keyed_of_none rfl
theorem Sys2Proof.Laws.Keyed.wcmdWriteExm (die : Nat) (v : DWord) (i : Inst) : Sys2Proof.Laws.Keyed.Statement (.wcmdWriteExm die v i) := Sys2Proof.Laws.keyed_of_none rfl
theorem Sys2Proof.Laws.Keyed.wcmdReadFpc (die : Nat) (v : DWord) (i : Inst) : Sys2Proof.Laws.Keyed.Statement (.wcmdReadFpc die v i) := Sys2Proof.Laws.keyed_of_none rfl
theorem Sys2Proof.Laws.Keyed.wcmdWriteFpc (die : Nat) (v : DWord) (i : Inst) : Sys2Proof.Laws.Keyed.Statement (.wcmdWriteFpc die v i) := Sys2Proof.Laws.keyed_of_none rfl
theorem Sys2Proof.Laws.Keyed.wcmdResume (die : Nat) (v : DWord) (i : Inst) : Sys2Proof.Laws.Keyed.Statement (.wcmdResume die v i) := Sys2Proof.Laws.keyed_of_none rfl
theorem Sys2Proof.Laws.Keyed.wcmdResumeAt (die : Nat) (v : DWord) (i : Inst) : Sys2Proof.Laws.Keyed.Statement (.wcmdResumeAt die v i) := Sys2Proof.Laws.keyed_of_none rfl
theorem Sys2Proof.Laws.Keyed.wcmdEndWave (die : Nat) (v : DWord) (i : Inst) : Sys2Proof.Laws.Keyed.Statement (.wcmdEndWave die v i) := Sys2Proof.Laws.keyed_of_none rfl
theorem Sys2Proof.Laws.Keyed.wcmdEndContext (die : Nat) (v : DWord) (i : Inst) : Sys2Proof.Laws.Keyed.Statement (.wcmdEndContext die v i) := Sys2Proof.Laws.keyed_of_none rfl
theorem Sys2Proof.Laws.Keyed.admitGroup (grid core : Nat) : Sys2Proof.Laws.Keyed.Statement (.admitGroup grid core) := Sys2Proof.Laws.keyed_of_none rfl
theorem Sys2Proof.Laws.Keyed.compactionEnd (core : Nat) : Sys2Proof.Laws.Keyed.Statement (.compactionEnd core) := Sys2Proof.Laws.keyed_of_none rfl
theorem Sys2Proof.Laws.Keyed.placeElement (grid : Nat) : Sys2Proof.Laws.Keyed.Statement (.placeElement grid) := Sys2Proof.Laws.keyed_of_none rfl
theorem Sys2Proof.Laws.Keyed.gangReserveWindow (grid : Nat) : Sys2Proof.Laws.Keyed.Statement (.gangReserveWindow grid) := Sys2Proof.Laws.keyed_of_none rfl
theorem Sys2Proof.Laws.Keyed.evictionRequest (core ctx prio slots : Nat) (wave : Option Nat) : Sys2Proof.Laws.Keyed.Statement (.evictionRequest core ctx prio slots wave) := Sys2Proof.Laws.keyed_of_none rfl
theorem Sys2Proof.Laws.Keyed.evictWave (wave : Nat) : Sys2Proof.Laws.Keyed.Statement (.evictWave wave) := Sys2Proof.Laws.keyed_of_none rfl
theorem Sys2Proof.Laws.Keyed.readmitWave (wave q : Nat) : Sys2Proof.Laws.Keyed.Statement (.readmitWave wave q) := Sys2Proof.Laws.keyed_of_none rfl
theorem Sys2Proof.Laws.Keyed.deadlineExpire (wave : Nat) : Sys2Proof.Laws.Keyed.Statement (.deadlineExpire wave) := Sys2Proof.Laws.keyed_of_none rfl
theorem Sys2Proof.Laws.Keyed.deadlineForce (wave : Nat) : Sys2Proof.Laws.Keyed.Statement (.deadlineForce wave) := Sys2Proof.Laws.keyed_of_none rfl
theorem Sys2Proof.Laws.Keyed.minresExpire (wave : Nat) : Sys2Proof.Laws.Keyed.Statement (.minresExpire wave) := Sys2Proof.Laws.keyed_of_none rfl
theorem Sys2Proof.Laws.Keyed.waveBoost (wave : Nat) : Sys2Proof.Laws.Keyed.Statement (.waveBoost wave) := Sys2Proof.Laws.keyed_of_none rfl
theorem Sys2Proof.Laws.Keyed.groupSave (group : Nat) : Sys2Proof.Laws.Keyed.Statement (.groupSave group) := Sys2Proof.Laws.keyed_of_none rfl
theorem Sys2Proof.Laws.Keyed.groupRestore (image core : Nat) : Sys2Proof.Laws.Keyed.Statement (.groupRestore image core) := Sys2Proof.Laws.keyed_of_none rfl
theorem Sys2Proof.Laws.Keyed.groupEnd (group : Nat) : Sys2Proof.Laws.Keyed.Statement (.groupEnd group) := Sys2Proof.Laws.keyed_of_none rfl
theorem Sys2Proof.Laws.Keyed.gridComplete (grid : Nat) : Sys2Proof.Laws.Keyed.Statement (.gridComplete grid) := Sys2Proof.Laws.keyed_of_none rfl
theorem Sys2Proof.Laws.Keyed.coreUnresponsive (core : Nat) : Sys2Proof.Laws.Keyed.Statement (.coreUnresponsive core) := Sys2Proof.Laws.keyed_of_none rfl
theorem Sys2Proof.Laws.Keyed.coreLogicError (core : Nat) : Sys2Proof.Laws.Keyed.Statement (.coreLogicError core) := Sys2Proof.Laws.keyed_of_none rfl
theorem Sys2Proof.Laws.Keyed.dieFence (die : Nat) : Sys2Proof.Laws.Keyed.Statement (.dieFence die) := Sys2Proof.Laws.keyed_of_none rfl
theorem Sys2Proof.Laws.Keyed.coreGateWrite (core : Nat) (v : Word) : Sys2Proof.Laws.Keyed.Statement (.coreGateWrite core v) := Sys2Proof.Laws.keyed_of_none rfl
theorem Sys2Proof.Laws.Keyed.bsmaskWrite (core n : Nat) (v : DWord) : Sys2Proof.Laws.Keyed.Statement (.bsmaskWrite core n v) := Sys2Proof.Laws.keyed_of_none rfl
theorem Sys2Proof.Laws.Keyed.bsctlWrite (core n : Nat) (v : Word) : Sys2Proof.Laws.Keyed.Statement (.bsctlWrite core n v) := Sys2Proof.Laws.keyed_of_none rfl
theorem Sys2Proof.Laws.Keyed.beatArrive (ctx : Nat) : Sys2Proof.Laws.Keyed.Statement (.beatArrive ctx) := Sys2Proof.Laws.keyed_of_none rfl
theorem Sys2Proof.Laws.Keyed.intervalEnd (ctx : Nat) : Sys2Proof.Laws.Keyed.Statement (.intervalEnd ctx) := Sys2Proof.Laws.keyed_of_none rfl
theorem Sys2Proof.Laws.Keyed.quayEval (hp : Nat) : Sys2Proof.Laws.Keyed.Statement (.quayEval hp) := Sys2Proof.Laws.keyed_of_none rfl
theorem Sys2Proof.Laws.Keyed.grantApply (ctx : Nat) : Sys2Proof.Laws.Keyed.Statement (.grantApply ctx) := Sys2Proof.Laws.keyed_of_none rfl
theorem Sys2Proof.Laws.Keyed.tillerWordWrite (ctx word : Nat) (v : DWord) (i : Inst) : Sys2Proof.Laws.Keyed.Statement (.tillerWordWrite ctx word v i) := Sys2Proof.Laws.keyed_of_none rfl
theorem Sys2Proof.Laws.Keyed.qcapWrite (hp : Nat) (v : DWord) (i : Inst) : Sys2Proof.Laws.Keyed.Statement (.qcapWrite hp v i) := Sys2Proof.Laws.keyed_of_none rfl
theorem Sys2Proof.Laws.Keyed.mergePublish (ctx : Nat) : Sys2Proof.Laws.Keyed.Statement (.mergePublish ctx) := Sys2Proof.Laws.keyed_of_none rfl
theorem Sys2Proof.Laws.Keyed.mergePubReceive (mgrp midx : Nat) (cum : DWord) : Sys2Proof.Laws.Keyed.Statement (.mergePubReceive mgrp midx cum) := Sys2Proof.Laws.keyed_of_none rfl
theorem Sys2Proof.Laws.Keyed.mergeStale (ctx : Nat) : Sys2Proof.Laws.Keyed.Statement (.mergeStale ctx) := Sys2Proof.Laws.keyed_of_none rfl
theorem Sys2Proof.Laws.Keyed.llcwayWrite (die slot : Nat) (v : Word) (i : Inst) : Sys2Proof.Laws.Keyed.Statement (.llcwayWrite die slot v i) := Sys2Proof.Laws.keyed_of_none rfl
theorem Sys2Proof.Laws.Keyed.wayDrainLine (die way line : Nat) : Sys2Proof.Laws.Keyed.Statement (.wayDrainLine die way line) := Sys2Proof.Laws.keyed_of_none rfl
theorem Sys2Proof.Laws.Keyed.wayDrainEnd (die way : Nat) : Sys2Proof.Laws.Keyed.Statement (.wayDrainEnd die way) := Sys2Proof.Laws.keyed_of_none rfl
theorem Sys2Proof.Laws.Keyed.frrValidate (die n : Nat) (v : DWord) (i : Inst) : Sys2Proof.Laws.Keyed.Statement (.frrValidate die n v i) := Sys2Proof.Laws.keyed_of_none rfl
theorem Sys2Proof.Laws.Keyed.frrInvalidate (die n : Nat) (v : DWord) (i : Inst) : Sys2Proof.Laws.Keyed.Statement (.frrInvalidate die n v i) := Sys2Proof.Laws.keyed_of_none rfl
theorem Sys2Proof.Laws.Keyed.frrLineFill (die line : Nat) : Sys2Proof.Laws.Keyed.Statement (.frrLineFill die line) := Sys2Proof.Laws.keyed_of_none rfl
theorem Sys2Proof.Laws.Keyed.frrLineWriteback (die line : Nat) : Sys2Proof.Laws.Keyed.Statement (.frrLineWriteback die line) := Sys2Proof.Laws.keyed_of_none rfl
theorem Sys2Proof.Laws.Keyed.shootGo (die : Nat) (v : DWord) (i : Inst) : Sys2Proof.Laws.Keyed.Statement (.shootGo die v i) := Sys2Proof.Laws.keyed_of_none rfl
theorem Sys2Proof.Laws.Keyed.shootDone (die : Nat) : Sys2Proof.Laws.Keyed.Statement (.shootDone die) := Sys2Proof.Laws.keyed_of_none rfl
theorem Sys2Proof.Laws.Keyed.memCorrected (die : Nat) : Sys2Proof.Laws.Keyed.Statement (.memCorrected die) := Sys2Proof.Laws.keyed_of_none rfl
theorem Sys2Proof.Laws.Keyed.memUncorrectable (granule : Nat) (slot : Option Nat) : Sys2Proof.Laws.Keyed.Statement (.memUncorrectable granule slot) := Sys2Proof.Laws.keyed_of_none rfl
theorem Sys2Proof.Laws.Keyed.llcSoftError (granule : Nat) : Sys2Proof.Laws.Keyed.Statement (.llcSoftError granule) := Sys2Proof.Laws.keyed_of_none rfl
theorem Sys2Proof.Laws.Keyed.drightsWrite (i : Inst) (v : DWord) : Sys2Proof.Laws.Keyed.Statement (.drightsWrite i v) := Sys2Proof.Laws.keyed_of_none rfl
theorem Sys2Proof.Laws.Keyed.fqheadWrite (i : Inst) (v : Word) : Sys2Proof.Laws.Keyed.Statement (.fqheadWrite i v) := Sys2Proof.Laws.keyed_of_none rfl
theorem Sys2Proof.Laws.Keyed.fqbaseWrite (i : Inst) (v : DWord) : Sys2Proof.Laws.Keyed.Statement (.fqbaseWrite i v) := Sys2Proof.Laws.keyed_of_none rfl
theorem Sys2Proof.Laws.Keyed.notifyReceive (die : Nat) (msg : List Byte) : Sys2Proof.Laws.Keyed.Statement (.notifyReceive die msg) := Sys2Proof.Laws.keyed_of_none rfl
theorem Sys2Proof.Laws.Keyed.landingNotify (v q : Nat) (i : Inst) : Sys2Proof.Laws.Keyed.Statement (.landingNotify v q i) := Sys2Proof.Laws.keyed_of_none rfl
theorem Sys2Proof.Laws.Keyed.notifyProcess (die : Nat) : Sys2Proof.Laws.Keyed.Statement (.notifyProcess die) := Sys2Proof.Laws.keyed_of_none rfl
theorem Sys2Proof.Laws.Keyed.nkeyWrite (v q : Nat) (key : List DWord) (i : Inst) : Sys2Proof.Laws.Keyed.Statement (.nkeyWrite v q key i) := Sys2Proof.Laws.keyed_of_none rfl
theorem Sys2Proof.Laws.Keyed.gridCommand (v q : Nat) : Sys2Proof.Laws.Keyed.Statement (.gridCommand v q) := Sys2Proof.Laws.keyed_of_none rfl
theorem Sys2Proof.Laws.Keyed.argSlotWaitEnd (ctx : Nat) : Sys2Proof.Laws.Keyed.Statement (.argSlotWaitEnd ctx) := Sys2Proof.Laws.keyed_of_none rfl
theorem Sys2Proof.Laws.Keyed.checkpointLaunch (v q : Nat) : Sys2Proof.Laws.Keyed.Statement (.checkpointLaunch v q) := Sys2Proof.Laws.keyed_of_none rfl
theorem Sys2Proof.Laws.Keyed.checkpointSave (v q : Nat) : Sys2Proof.Laws.Keyed.Statement (.checkpointSave v q) := Sys2Proof.Laws.keyed_of_none rfl
theorem Sys2Proof.Laws.Keyed.functionLevelReset (v : Nat) (i : Inst) : Sys2Proof.Laws.Keyed.Statement (.functionLevelReset v i) := Sys2Proof.Laws.keyed_of_none rfl
theorem Sys2Proof.Laws.Keyed.ovflctlWrite (die : Nat) (v : DWord) (i : Inst) : Sys2Proof.Laws.Keyed.Statement (.ovflctlWrite die v i) := Sys2Proof.Laws.keyed_of_none rfl
theorem Sys2Proof.Laws.Keyed.vdschedWrite (v : Nat) (x : DWord) (i : Inst) : Sys2Proof.Laws.Keyed.Statement (.vdschedWrite v x i) := Sys2Proof.Laws.keyed_of_none rfl
theorem Sys2Proof.Laws.Keyed.quantumSave (v group : Nat) : Sys2Proof.Laws.Keyed.Statement (.quantumSave v group) := Sys2Proof.Laws.keyed_of_none rfl
theorem Sys2Proof.Laws.Keyed.hpstGo (v : Word) (i : Inst) : Sys2Proof.Laws.Keyed.Statement (.hpstGo v i) := Sys2Proof.Laws.keyed_of_none rfl
theorem Sys2Proof.Laws.Keyed.hpDrainDone : Sys2Proof.Laws.Keyed.Statement .hpDrainDone := Sys2Proof.Laws.keyed_of_none rfl
theorem Sys2Proof.Laws.Keyed.hpDrainTimeout : Sys2Proof.Laws.Keyed.Statement .hpDrainTimeout := Sys2Proof.Laws.keyed_of_none rfl
theorem Sys2Proof.Laws.Keyed.heartbeat : Sys2Proof.Laws.Keyed.Statement .heartbeat := Sys2Proof.Laws.keyed_of_none rfl
theorem Sys2Proof.Laws.Keyed.standbyTakeover : Sys2Proof.Laws.Keyed.Statement .standbyTakeover := Sys2Proof.Laws.keyed_of_none rfl
theorem Sys2Proof.Laws.Keyed.lfenceGo (v : Word) (i : Inst) : Sys2Proof.Laws.Keyed.Statement (.lfenceGo v i) := Sys2Proof.Laws.keyed_of_none rfl
theorem Sys2Proof.Laws.Keyed.commandCoreFence (die core : Nat) : Sys2Proof.Laws.Keyed.Statement (.commandCoreFence die core) := Sys2Proof.Laws.keyed_of_none rfl
theorem Sys2Proof.Laws.Keyed.powerOn (slotA slotB : List Byte) : Sys2Proof.Laws.Keyed.Statement (.powerOn slotA slotB) := Sys2Proof.Laws.keyed_of_none rfl
theorem Sys2Proof.Laws.Keyed.measExtend (die n : Nat) (item : List Byte) : Sys2Proof.Laws.Keyed.Statement (.measExtend die n item) := Sys2Proof.Laws.keyed_of_none rfl
theorem Sys2Proof.Laws.Keyed.attestQuote (die : Nat) (nonce : List Byte) : Sys2Proof.Laws.Keyed.Statement (.attestQuote die nonce) := Sys2Proof.Laws.keyed_of_none rfl
theorem Sys2Proof.Laws.Keyed.trainItem (item : TrainItem) (ok : Bool) (cap : Nat) : Sys2Proof.Laws.Keyed.Statement (.trainItem item ok cap) := Sys2Proof.Laws.keyed_of_none rfl
theorem Sys2Proof.Laws.Keyed.trainingComplete : Sys2Proof.Laws.Keyed.Statement .trainingComplete := Sys2Proof.Laws.keyed_of_none rfl
theorem Sys2Proof.Laws.Keyed.powerWindowEnd (watts : BitVec 12) : Sys2Proof.Laws.Keyed.Statement (.powerWindowEnd watts) := Sys2Proof.Laws.keyed_of_none rfl
theorem Sys2Proof.Laws.Keyed.thermalTrip : Sys2Proof.Laws.Keyed.Statement .thermalTrip := Sys2Proof.Laws.keyed_of_none rfl
theorem Sys2Proof.Laws.Keyed.thermalRecover : Sys2Proof.Laws.Keyed.Statement .thermalRecover := Sys2Proof.Laws.keyed_of_none rfl
theorem Sys2Proof.Laws.Keyed.clockStepChange (die region : Nat) : Sys2Proof.Laws.Keyed.Statement (.clockStepChange die region) := Sys2Proof.Laws.keyed_of_none rfl
theorem Sys2Proof.Laws.Keyed.supplyDroop (die region : Nat) (lasting : Bool) : Sys2Proof.Laws.Keyed.Statement (.supplyDroop die region lasting) := Sys2Proof.Laws.keyed_of_none rfl
theorem Sys2Proof.Laws.Keyed.d2dLinkFail (die peer : Nat) : Sys2Proof.Laws.Keyed.Statement (.d2dLinkFail die peer) := Sys2Proof.Laws.keyed_of_none rfl
theorem Sys2Proof.Laws.Keyed.flitCrcFail (port : Nat) : Sys2Proof.Laws.Keyed.Statement (.flitCrcFail port) := Sys2Proof.Laws.keyed_of_none rfl
theorem Sys2Proof.Laws.Keyed.linkRetrain (port : Nat) (ok : Bool) : Sys2Proof.Laws.Keyed.Statement (.linkRetrain port ok) := Sys2Proof.Laws.keyed_of_none rfl
theorem Sys2Proof.Laws.Keyed.inboundWrite (port peer : Nat) (key : Word) (off : Nat) (data : List Byte) : Sys2Proof.Laws.Keyed.Statement (.inboundWrite port peer key off data) := Sys2Proof.Laws.keyed_of_none rfl
theorem Sys2Proof.Laws.Keyed.inboundRead (port peer : Nat) (key : Word) (off len : Nat) : Sys2Proof.Laws.Keyed.Statement (.inboundRead port peer key off len) := Sys2Proof.Laws.keyed_of_none rfl
theorem Sys2Proof.Laws.Keyed.xwinWrite (ctx n : Nat) (lo hi : DWord) (i : Inst) : Sys2Proof.Laws.Keyed.Statement (.xwinWrite ctx n lo hi i) := Sys2Proof.Laws.keyed_of_none rfl
theorem Sys2Proof.Laws.Keyed.collgrpWrite (ctx n : Nat) (v : DWord) (i : Inst) : Sys2Proof.Laws.Keyed.Statement (.collgrpWrite ctx n v i) := Sys2Proof.Laws.keyed_of_none rfl
theorem Sys2Proof.Laws.Keyed.mlistWrite (ctx g k : Nat) (v : Word) (i : Inst) : Sys2Proof.Laws.Keyed.Statement (.mlistWrite ctx g k v i) := Sys2Proof.Laws.keyed_of_none rfl
theorem Sys2Proof.Laws.Keyed.registerWrite (r : LReg) (v : DWord) (i : Inst) : Sys2Proof.Laws.Keyed.Statement (.registerWrite r v i) := Sys2Proof.Laws.keyed_of_none rfl
theorem Sys2Proof.Laws.Keyed.supplyRecover (die region : Nat) : Sys2Proof.Laws.Keyed.Statement (.supplyRecover die region) := Sys2Proof.Laws.keyed_of_none rfl
theorem Sys2Proof.Laws.Keyed.d2dFlitReplay (die : Nat) : Sys2Proof.Laws.Keyed.Statement (.d2dFlitReplay die) := Sys2Proof.Laws.keyed_of_none rfl
theorem Sys2Proof.Laws.Keyed.dieResetRelease (die : Nat) : Sys2Proof.Laws.Keyed.Statement (.dieResetRelease die) := Sys2Proof.Laws.keyed_of_none rfl
theorem Sys2Proof.Laws.Keyed.landingOrdinaryAccess (die core : Nat) (k : LAccess) (x : BitVec 5) (addr : DWord) (z : BitVec 2) : Sys2Proof.Laws.Keyed.Statement (.landingOrdinaryAccess die core k x addr z) := Sys2Proof.Laws.keyed_of_none rfl
theorem Sys2Proof.Laws.Keyed.inboundUnsupportedRequest (port : Nat) : Sys2Proof.Laws.Keyed.Statement (.inboundUnsupportedRequest port) := Sys2Proof.Laws.keyed_of_none rfl
theorem Sys2Proof.Laws.Keyed.sliceCopyComplete (core q k : Nat) : Sys2Proof.Laws.Keyed.Statement (.sliceCopyComplete core q k) := Sys2Proof.Laws.keyed_of_none rfl
theorem Sys2Proof.Laws.Keyed.virtualDeviceCreate (die v wpart rpart : Nat) (i : Inst) : Sys2Proof.Laws.Keyed.Statement (.virtualDeviceCreate die v wpart rpart i) := Sys2Proof.Laws.keyed_of_none rfl
end

