-- ==== Sys2Proof/Laws/Results.lean ====
section
/-! SUPPORT. What writing a register in some lanes does, and everything that `retire` and the lane-by-lane operations do. -/

namespace Sys2Proof.Machine

/-! ### Writing lanes of a register -/

theorem putLanes_reg (w : Wave) (key : Nat) (act : Mask) (f : Nat → Word) (k l : Nat) (h : l < 32) :
    Lanes.at' 0 (Tab.get zeroReg (w.putLanes key act f).regs k) l =
      if k = key then (if act.getLsbD l then f l else if (sliceMask w.live).getLsbD l then Lanes.at' 0 (Tab.get zeroReg w.regs key) l else 0)
      else Lanes.at' 0 (Tab.get zeroReg w.regs k) l := by
  simp only [Wave.putLanes, Tab.get_put]
  split
  · rw [lanes_at' _ _ _ h]
  · rfl

theorem putLanes_regs_other (w : Wave) (key : Nat) (act : Mask) (f : Nat → Word) (k : Nat) (h : k ≠ key) :
    Tab.get zeroReg (w.putLanes key act f).regs k = Tab.get zeroReg w.regs k := by
  simp [Wave.putLanes, h]

theorem putLanes_tags (w : Wave) (key : Nat) (act : Mask) (f : Nat → Word) (k : Nat) :
    Tab.get 0 (w.putLanes key act f).tags k =
      if k = key then Tab.get 0 w.tags key &&& sliceMask w.live &&& ~~~act else Tab.get 0 w.tags k := by
  simp [Wave.putLanes]

theorem putLanes_fields (w : Wave) (key : Nat) (act : Mask) (f : Nat → Word) :
    w.putLanes key act f = { w with regs := (w.putLanes key act f).regs, tags := (w.putLanes key act f).tags } := by
  unfold Wave.putLanes
  with_reducible rfl

theorem putLanes_live (w : Wave) (key : Nat) (act : Mask) (f : Nat → Word) : (w.putLanes key act f).live = w.live := by
  rw [putLanes_fields]

theorem putLanes_key (w : Wave) (key : Nat) (act : Mask) (f : Nat → Word) (n : Nat) : (w.putLanes key act f).key n = w.key n := by
  rw [putLanes_fields]; simp only [Wave.key]

theorem putDst_fields (w : Wave) (wide : Bool) (d : Nat) (act : Mask) (v : Lanes DWord) :
    w.putDst wide d act v = { w with regs := (w.putDst wide d act v).regs, tags := (w.putDst wide d act v).tags } := by
  unfold Wave.putDst
  dsimp only
  split
  · rw [putLanes_fields, putLanes_fields]
  · rw [← putLanes_fields]

theorem mem_dstKeys (w : Wave) (d n k : Nat) : k ∈ w.dstKeys d n ↔ ∃ j, j < n ∧ k = w.key (d + j) := by
  simp only [Wave.dstKeys, List.mem_map, List.mem_range]
  exact ⟨fun ⟨j, a, b⟩ => ⟨j, a, b.symm⟩, fun ⟨j, a, b⟩ => ⟨j, a, b.symm⟩⟩

theorem mem_dstKeys1 (w : Wave) (d k : Nat) : k ∈ w.dstKeys d 1 ↔ k = w.key d := by simp [Wave.dstKeys]
theorem mem_dstKeys2 (w : Wave) (d k : Nat) : k ∈ w.dstKeys d 2 ↔ k = w.key d ∨ k = w.key (d + 1) := by
  simp [Wave.dstKeys, List.range_succ]

/-- The lanes of a destination that a result reaches. -/
theorem putDst_reg (w : Wave) (wide : Bool) (d : Nat) (act : Mask) (v : Lanes DWord) (k l : Nat) (h : l < 32) :
    Lanes.at' 0 (Tab.get zeroReg (w.putDst wide d act v).regs k) l =
      if k ∈ w.dstKeys d (if wide then 2 else 1) then
        (if act.getLsbD l then (if k = w.key d then (Lanes.at' 0 v l).setWidth 32 else (Lanes.at' 0 v l >>> 32).setWidth 32)
         else if (sliceMask w.live).getLsbD l then Lanes.at' 0 (Tab.get zeroReg w.regs k) l else 0)
      else Lanes.at' 0 (Tab.get zeroReg w.regs k) l := by
  have hne : w.key (d + 1) ≠ w.key d := by simp [Wave.key]
  unfold Wave.putDst
  cases wide with
  | false =>
    simp only [Bool.false_eq_true, if_false, mem_dstKeys1]
    rw [putLanes_reg _ _ _ _ _ _ h]
    split
    · simp_all
    · rfl
  | true =>
    simp only [if_true, mem_dstKeys2]
    rw [putLanes_key, putLanes_reg _ _ _ _ _ _ h, putLanes_reg _ _ _ _ _ _ h, putLanes_reg _ _ _ _ _ _ h, putLanes_live]
    by_cases h1 : k = w.key (d + 1)
    · subst h1; simp [hne]
    · by_cases h2 : k = w.key d
      · subst h2; simp [hne.symm]
      · simp [h1, h2]

theorem putDst_tags (w : Wave) (wide : Bool) (d : Nat) (act : Mask) (v : Lanes DWord) (k : Nat) :
    Tab.get 0 (w.putDst wide d act v).tags k =
      if k ∈ w.dstKeys d (if wide then 2 else 1) then Tab.get 0 w.tags k &&& sliceMask w.live &&& ~~~act else Tab.get 0 w.tags k := by
  have hne : w.key (d + 1) ≠ w.key d := by simp [Wave.key]
  unfold Wave.putDst
  cases wide with
  | false =>
    simp only [Bool.false_eq_true, if_false, mem_dstKeys1]
    rw [putLanes_tags]
    split <;> simp_all
  | true =>
    simp only [if_true, mem_dstKeys2]
    rw [putLanes_key, putLanes_tags, putLanes_tags, putLanes_tags, putLanes_live]
    by_cases h1 : k = w.key (d + 1)
    · subst h1; simp [hne]
    · by_cases h2 : k = w.key d
      · subst h2; simp [hne.symm]
      · simp [h1, h2]

theorem putDst_regs_other (w : Wave) (wide : Bool) (d : Nat) (act : Mask) (v : Lanes DWord) (k : Nat) (h : k ∉ w.dstKeys d (if wide then 2 else 1)) :
    Tab.get zeroReg (w.putDst wide d act v).regs k = Tab.get zeroReg w.regs k := by
  unfold Wave.putDst
  cases wide with
  | false =>
    simp only [Bool.false_eq_true, if_false, mem_dstKeys1] at h ⊢
    exact putLanes_regs_other _ _ _ _ _ h
  | true =>
    simp only [if_true, mem_dstKeys2, not_or] at h ⊢
    rw [putLanes_key, putLanes_regs_other _ _ _ _ _ h.2, putLanes_regs_other _ _ _ _ _ h.1]

/-! ### Completion of a register-computing instruction -/

theorem lanes_congr {α : Type} {f g : Nat → α} (h : ∀ l, l < 32 → f l = g l) : lanes f = lanes g := by
  apply Vector.ext
  intro l hl
  simp only [lanes, Vector.getElem_ofFn]
  exact h l hl

theorem laneDone_ext {s t : State} {id : Nat} {w v : Wave} {i : Instr} {x : W} {wide : Bool} {f g : Nat → DWord} {n : Nat}
    (h : LaneDone s t id w v i x wide f n) (e : ∀ l, l < 32 → (w.active x.g).getLsbD l = true → f l = g l) : LaneDone s t id w v i x wide g n where
  flow := h.flow
  low := fun hn l hl ha => by rw [← e l hl ha]; exact h.low hn l hl ha
  high := fun hn hw l hl ha => by rw [← e l hl ha]; exact h.high hn hw l hl ha
  kept := h.kept
  tags := h.tags
  other := h.other
  latch := fun hk => by
    rw [h.latch hk]
    have he : (lanes fun l => if (w.active x.g).getLsbD l then f l else 0) = lanes fun l => if (w.active x.g).getLsbD l then g l else 0 :=
      lanes_congr fun l hl => by
        split
        · exact e l hl ‹_›
        · rfl
    rw [he]
  fpc := h.fpc
  rest := h.rest

/-- The registers and tags after a result is written, or under NW is not. -/
theorem result_fields (w : Wave) (x : W) (wide : Bool) (v : Lanes DWord) :
    ∃ r tg, (if x.nw then w else w.putDst wide x.d.toNat (w.active x.g) v) = { w with regs := r, tags := tg } ∧
      (∀ k l, l < 32 → k ∈ w.resultKeys x wide → Lanes.at' 0 (Tab.get zeroReg r k) l =
        if (w.active x.g).getLsbD l then (if k = w.key x.d.toNat then (Lanes.at' 0 v l).setWidth 32 else (Lanes.at' 0 v l >>> 32).setWidth 32)
        else if (sliceMask w.live).getLsbD l then Lanes.at' 0 (Tab.get zeroReg w.regs k) l else 0) ∧
      (∀ k, k ∈ w.resultKeys x wide → Tab.get 0 tg k = Tab.get 0 w.tags k &&& sliceMask w.live &&& ~~~(w.active x.g)) ∧
      (∀ k, k ∉ w.resultKeys x wide → Tab.get zeroReg r k = Tab.get zeroReg w.regs k ∧ Tab.get 0 tg k = Tab.get 0 w.tags k) := by
  unfold Wave.resultKeys
  split
  · refine ⟨w.regs, w.tags, rfl, ?_, ?_, ?_⟩ <;> simp
  · refine ⟨_, _, putDst_fields w wide x.d.toNat (w.active x.g) v, ?_, ?_, ?_⟩
    · intro k l hl hk; rw [putDst_reg _ _ _ _ _ _ _ hl, if_pos hk]
    · intro k hk; rw [putDst_tags, if_pos hk]
    · intro k hk; exact ⟨putDst_regs_other _ _ _ _ _ _ hk, by rw [putDst_tags, if_neg hk]⟩

/-- Everything that `retire` does. -/
theorem retire_spec (s : State) (id : Nat) (w : Wave) (i : Instr) (x : W) (wide : Bool) (res : Lanes DWord) (flags : Nat) :
    ∃ t v, retire s id w i x (w.active x.g) wide res flags = .next t ∧ LaneDone s t id w v i x wide (fun l => Lanes.at' 0 res l) flags := by
  obtain ⟨r, tg, hw1, hreg, htag, hoth⟩ := result_fields w x wide res
  obtain ⟨t, v, e1, e2, e3, e4, e5, e6, e7⟩ := finish_spec s id w
    ((Wave.enterLatch { w with regs := r, tags := tg } (w.active x.g) res).flag (flags ||| (if readsLost i x w then fLLOST else 0)))
    (if x.nw then [] else w.dstKeys x.d.toNat (if wide then 2 else 1)) flags rfl rfl
  generalize hq : (if readsLost i x w then fLLOST else 0 : Nat) = q at e1 e5
  have hr : v.regs = r := by rw [e5]; rfl
  have ht : v.tags = tg := by rw [e5]; rfl
  have hwin : v.win = w.win := by rw [e5]; rfl
  have hrl : ∀ n l, v.regLane n l = Lanes.at' 0 (Tab.get zeroReg r (w.key n)) l := fun n l => by
    simp [Wave.regLane, Wave.reg, Wave.key, hr, hwin]
  refine ⟨t, v, ?_, ⟨⟨e2, e3, ?_, ?_, ?_, e4⟩, ?_, ?_, ?_, ?_, ?_, ?_, ?_, ?_⟩⟩
  · simp only [retire, hw1, hq]; exact e1
  · rw [e5]
  · intro h
    obtain ⟨a, b, c, _⟩ := e6 h
    exact ⟨a, b, c⟩
  · exact e7
  · intro hn l hl ha
    have hm : w.key x.d.toNat ∈ w.resultKeys x wide := by cases wide <;> simp [Wave.resultKeys, hn, mem_dstKeys1, mem_dstKeys2]
    rw [hrl, hreg _ _ hl hm, if_pos ha, if_pos rfl]
  · intro hn hw l hl ha
    have hm : w.key (x.d.toNat + 1) ∈ w.resultKeys x wide := by simp [Wave.resultKeys, hn, hw, mem_dstKeys2]
    have hne : w.key (x.d.toNat + 1) ≠ w.key x.d.toNat := by simp [Wave.key]
    rw [hrl, hreg _ _ hl hm, if_pos ha, if_neg hne]
  · intro k hk l hl ha
    rw [hr, hreg _ _ hl hk, if_neg (by simp [ha])]
  · intro k hk; rw [ht, htag k hk]
  · intro k hk; rw [hr, ht]; exact hoth k hk
  · intro h
    obtain ⟨_, _, _, d⟩ := e6 h
    rw [d]; rfl
  · rw [e5, hq]; rfl
  · rw [hr, ht]
    conv_lhs => rw [e5]
    conv_rhs => rw [e5]
    rfl

/-- Everything that a lane-by-lane instruction does. -/
theorem laneOp_spec {s : State} {id : Nat} {w : Wave} (hc : s.cur = some id) (hw : Tab.find s.waves id = some w) (i : Instr) (x : W) (wide : Bool)
    (f : Wave → Nat → DWord) : ∃ t v, laneOp i x s wide f = .next t ∧ LaneDone s t id w v i x wide (f w) 0 := by
  obtain ⟨t, v, h1, h2⟩ := retire_spec s id w i x wide (lanes (f w)) 0
  exact ⟨t, v, by rw [laneOp, withWave_eq hc hw]; exact h1, laneDone_ext h2 fun l hl _ => lanes_at' _ _ _ hl⟩

/-- Everything that a lane-by-lane float instruction does. -/
theorem laneOpF_spec {s : State} {id : Nat} {w : Wave} (hc : s.cur = some id) (hw : Tab.find s.waves id = some w) (i : Instr) (x : W) (wide : Bool)
    (f : Wave → Nat → DWord × Nat) : ∃ t v, laneOpF i x s wide f = .next t ∧
      LaneDone s t id w v i x wide (fun l => (f w l).1) (orFlags (w.active x.g) fun l => (f w l).2) := by
  have hfl : (orFlags (w.active x.g) fun l => (Lanes.at' (0, 0) (lanes (f w)) l).2) = orFlags (w.active x.g) fun l => (f w l).2 := by
    unfold orFlags
    apply List.foldl_ext
    intro a l hl
    simp only [lanes_at' _ _ _ ((mem_laneList _ _).1 hl).1]
  obtain ⟨t, v, h1, h2⟩ := retire_spec s id w i x wide (lanes fun l => (Lanes.at' (0, 0) (lanes (f w)) l).1)
    (orFlags (w.active x.g) fun l => (Lanes.at' (0, 0) (lanes (f w)) l).2)
  refine ⟨t, v, by rw [laneOpF, withWave_eq hc hw]; exact h1, ?_⟩
  rw [← hfl]
  exact laneDone_ext h2 fun l hl _ => by rw [lanes_at' _ _ _ hl, lanes_at' _ _ _ hl]

/-- An instruction that only completes. -/
theorem done_spec (s : State) (id : Nat) (w u : Wave) (hp : u.pc = w.pc) (hl : u.line = w.line) (hca : u.cause = w.cause) :
    ∃ t v, done s id u = .next t ∧ Completes s t id w v ∧ t.quarters = s.quarters ∧
      v = { u with latches := v.latches, tokens := ageTokens u.tokens, run := v.run, waited := false, pc := v.pc, cond := v.cond, cause := v.cause, held := none, xcnt := 0 } := by
  have hk : u.leavesKernel = w.leavesKernel := by simp [Wave.leavesKernel, hp, hl]
  obtain ⟨v, h1, h2, h3, h4⟩ := advance_find s id u
  refine ⟨_, v, rfl, ⟨h1, fun k hk => advance_others _ _ _ _ hk, ?_, ?_, ?_, ?_⟩, ?_, ?_⟩
  · rw [h2, hp]
  · intro h
    obtain ⟨a, b, c, _⟩ := h3 (hk.trans h)
    exact ⟨a, b.trans hca, c⟩
  · intro h; exact h4 (hk.trans h)
  · rw [advance_rest]
  · rw [advance_rest]
  · conv_lhs => rw [h2]
    conv_rhs => rw [h2]

end Sys2Proof.Machine
end

