-- ==== Sys2Proof/Tests/Slice0.lean ====
section
/-! SUPPORT. The model's own tests: words of the spec's encodings and what they decode to; ill-formed instructions; one step of small machines, with
results that the spec states or that follow from it by hand; and a witness for the hypotheses of every statement. -/

namespace Sys2Proof.Tests

set_option Elab.async false

open Sys2Proof.Machine

/-! ### Small machines -/

/-- Fields of a word without guard, NW, ABS or NEG. -/
def f (ty d a b mod tail : Nat) : W :=
  { ty := BitVec.ofNat 4 ty, nw := false, d := BitVec.ofNat 8 d, a := .reg (BitVec.ofNat 8 a) false false, b := .reg (BitVec.ofNat 8 b) false false,
    g := .always, mod := BitVec.ofNat 6 mod, tail := BitVec.ofNat 32 tail }

/-- A group of one wave on core 0, with a kernel of four lines. -/
def tGroup : Group :=
  { ctx := 0, grid := none, core := 0, index := 0, gang := none, rank := 0, gsize := 1, gangs := false, part := 0x00004084, kprog := 0x1F, bset := 0
    regBanks := [0], b0 := 16, accBanks := [17], waves := [2], entry := 0x10000, nlines := 4, task := none }

/-- Its wave: 256 registers, all zero, every lane live and active. -/
def tWave : Wave :=
  { group := 1, core := 0, qtr := 0, slot := 0, wig := 0, kprog := 0x1F, groupW := 0, gangW := 0, gridW := 0, tenant := 0, pc := 0x10000, live := 0xFFFF_FFFF
    exm := 0xFFFF_FFFF, cause := 0, fpc := 0, share := 0, seed := [], cycHi := 0, refHi := 0, win := 0, regs := [], tags := [], names := [], nameBase := 0
    latches := lostLatches, tokens := [], ageLimit := 16, strict := false, run := none, line := 0, refetched := none, held := none, xcnt := 0, hold3 := false
    cond := .running, gates := [], scoreboard := [], busyUntil := 0, waitUntil := none, admitted := 0, lastStart := 0, boosted := false, yieldTo := []
    evicted := none, protect := 0, leaving := false, seen := [], base := 0, know := [], looked := none }

def tCtx : Ctx := { vdev := 0, taskArea := 0x8000 }

/-- The machine with that wave as the one that issues: die 0 up with its HBM4, stages 1 and 2 off, one leaf of stage 3 over the first GiB, and three
lines of code whose every slot may be a branch target. -/
def tState : State :=
  { State.reset with
    cur := some 2, waves := [(2, tWave)], groups := [(1, tGroup)], ctxs := [(0, tCtx)], dies := [(0, { up := true })], nextId := 40
    mem := [(0x0, 0x01), (0x1, 0x10), (0x1000, 0x01), (0x1001, 0x20), (0x2000, 0x1F), (0x2001, 0x0C),
            (0x1003C, 0xE0), (0x1003D, 0x03), (0x1007C, 0xE0), (0x1007D, 0x03), (0x100BC, 0xE0), (0x100BD, 0x03)]
    lregs := [(.pkgst0, 0x100_1000_0007), (.coreGate 0, 1), (.ctxw 0 6, 1)] }

def st (w : Wave) : State := { tState with waves := [(2, w)] }

/-- The wave with a value in every lane of each register listed. -/
def withRegs (l : List (Nat × Word)) : Wave := { tWave with regs := l.map fun e => (e.1, Vector.replicate 32 e.2) }

/-- The wave with register 8 equal to the lane number. -/
def withLanes : Wave := { tWave with regs := [(8, Vector.ofFn fun l => BitVec.ofNat 32 l.val)] }

/-- What wave 2 holds after an instruction, by a reading of the wave. -/
def see {α : Type} (z : α) (r : Wave → α) (o : Host.Outcome State Fault Refusal) : α :=
  match o with
  | .next t => match Tab.find t.waves 2 with | some w => r w | none => z
  | _ => z

/-- Register `n` of lane `l` after an instruction on a wave. -/
def lane (i : Instr) (w : Wave) (n l : Nat) : Word := see 0xDEAD (fun v => v.regLane n l) (exec i (st w))

/-- `$cause`[7:0] and `$fpc` after an instruction. -/
def causeOf (i : Instr) (w : Wave) : Nat := see 0xDEAD (fun v => fld v.cause 7 0) (exec i (st w))
def fpcOf (i : Instr) (w : Wave) : Word := see 0xDEAD (fun v => v.fpc) (exec i (st w))

/-! ### Words -/

/-- Words of integer arithmetic, compares and counts (04 R86): `f` gives TY, D, A, B, MOD, TAIL. -/
theorem test_decode_integer_1 : ∀ e ∈ ([
    (0x00000000_000000C0_10083001, .add (f 3 4 8 12 0 0)),
    (0xFFFFFFFE_00000000_10080002, .addImm (f 0 4 8 0 0 0xfffffffe)),
    (0x00000000_000000C0_10083101, .sub (f 3 4 8 12 0 0)),
    (0xFFFFFFFE_00000000_10080102, .subImm (f 0 4 8 0 0 0xfffffffe)),
    (0x00000000_000000C0_10083201, .mul (f 3 4 8 12 0 0)),
    (0xFFFFFFFE_00000000_10080202, .mulImm (f 0 4 8 0 0 0xfffffffe)),
    (0x00000000_000000C0_10083301, .mulhi (f 3 4 8 12 0 0)),
    (0xFFFFFFFE_00000000_10080302, .mulhiImm (f 0 4 8 0 0 0xfffffffe)),
    (0x00000000_000000C0_10083401, .min (f 3 4 8 12 0 0)),
    (0xFFFFFFFE_00000000_10080402, .minImm (f 0 4 8 0 0 0xfffffffe)),
    (0x00000000_000000C0_10083501, .max (f 3 4 8 12 0 0)),
    (0xFFFFFFFE_00000000_10080502, .maxImm (f 0 4 8 0 0 0xfffffffe)),
    (0x00000010_000000C0_10081601, .mad (f 1 4 8 12 0 0x10)),
    (0x00000000_000000C0_10084003, .cmp .eq (f 4 4 8 12 0 0)),
    (0x00000007_00000000_10080004, .cmpImm .eq (f 0 4 8 0 0 7)),
    (0x00000000_000000C0_10084103, .cmp .ne (f 4 4 8 12 0 0))] : List (Nat × Instr)), decodeTableWord 96 e.1 = some e.2 := by decide

/-- Words of integer arithmetic, compares and counts (04 R86): `f` gives TY, D, A, B, MOD, TAIL. -/
theorem test_decode_integer_2 : ∀ e ∈ ([
    (0x00000007_00000000_10080104, .cmpImm .ne (f 0 4 8 0 0 7)),
    (0x00000000_000000C0_10084203, .cmp .lt (f 4 4 8 12 0 0)),
    (0x00000007_00000000_10080204, .cmpImm .lt (f 0 4 8 0 0 7)),
    (0x00000000_000000C0_10084303, .cmp .le (f 4 4 8 12 0 0)),
    (0x00000007_00000000_10080304, .cmpImm .le (f 0 4 8 0 0 7)),
    (0x00000000_000000C0_10084403, .cmp .gt (f 4 4 8 12 0 0)),
    (0x00000007_00000000_10080404, .cmpImm .gt (f 0 4 8 0 0 7)),
    (0x00000000_000000C0_10084503, .cmp .ge (f 4 4 8 12 0 0)),
    (0x00000007_00000000_10080504, .cmpImm .ge (f 0 4 8 0 0 7)),
    (0x00000010_000000C0_10084005, .sel (f 4 4 8 12 0 0x10)),
    (0x00000000_00000000_10082006, .popc (f 2 4 8 0 0 0)),
    (0x00000000_00000000_10082106, .clz (f 2 4 8 0 0 0)),
    (0x00000000_00000000_10082206, .ctz (f 2 4 8 0 0 0)),
    (0x00000000_00000000_10082306, .brev (f 2 4 8 0 0 0))] : List (Nat × Instr)), decodeTableWord 96 e.1 = some e.2 := by decide

/-- Words of logic, shifts, fields, moves and capabilities (04 R86): `f` gives TY, D, A, B, MOD, TAIL. -/
theorem test_decode_bits_1 : ∀ e ∈ ([
    (0x00000000_000000C0_10084018, .and (f 4 4 8 12 0 0)),
    (0x0000001F_00000000_10082019, .andImm (f 2 4 8 0 0 0x1f)),
    (0x00000000_000000C0_10084118, .or (f 4 4 8 12 0 0)),
    (0x0000001F_00000000_10082119, .orImm (f 2 4 8 0 0 0x1f)),
    (0x00000000_000000C0_10084218, .xor (f 4 4 8 12 0 0)),
    (0x0000001F_00000000_10082219, .xorImm (f 2 4 8 0 0 0x1f)),
    (0x00000000_000000C0_10084318, .andn (f 4 4 8 12 0 0)),
    (0x0000001F_00000000_10082319, .andnImm (f 2 4 8 0 0 0x1f)),
    (0x00000000_000000C0_10084418, .orn (f 4 4 8 12 0 0)),
    (0x0000001F_00000000_10082419, .ornImm (f 2 4 8 0 0 0x1f)),
    (0x00000000_00000000_10082518, .not (f 2 4 8 0 0 0)),
    (0x0004B010_000000C0_1008201A, .tern (f 2 4 8 12 0 0x4b010)),
    (0x00000000_000000C0_1008201B, .shl (f 2 4 8 12 0 0)),
    (0x0000001F_00000000_1008201C, .shlImm (f 2 4 8 0 0 0x1f)),
    (0x00000000_000000C0_1008211B, .shr (f 2 4 8 12 0 0)),
    (0x0000001F_00000000_1008211C, .shrImm (f 2 4 8 0 0 0x1f))] : List (Nat × Instr)), decodeTableWord 96 e.1 = some e.2 := by decide

/-- Words of logic, shifts, fields, moves and capabilities (04 R86): `f` gives TY, D, A, B, MOD, TAIL. -/
theorem test_decode_bits_2 : ∀ e ∈ ([
    (0x00000000_000000C0_1008021B, .sar (f 0 4 8 12 0 0)),
    (0x0000001F_00000000_1008021C, .sarImm (f 0 4 8 0 0 0x1f)),
    (0x00000000_000000C0_1008231B, .rol (f 2 4 8 12 0 0)),
    (0x0000001F_00000000_1008231C, .rolImm (f 2 4 8 0 0 0x1f)),
    (0x00000000_000000C0_1008241B, .ror (f 2 4 8 12 0 0)),
    (0x0000001F_00000000_1008241C, .rorImm (f 2 4 8 0 0 0x1f)),
    (0x00000365_00000000_1008101D, .bfx (f 1 4 8 0 0 0x365)),
    (0x00000400_000000C0_1008211D, .bfi (f 2 4 8 12 0 0x400)),
    (0x00000000_00000000_10084024, .mov (f 4 4 8 0 0 0)),
    (0x80000000_00000000_00083025, .movImm (f 3 4 0 0 0 0x80000000)),
    (0x05501800_000000C0_10082026, .bytsel (f 2 4 8 12 0 0x5501800)),
    (0x00000010_000000C0_10080030, .cnarrow (f 0 4 8 12 0 0x10)),
    (0x00000000_000000C0_10080130, .cnarrowSet (f 0 4 8 12 0 0)),
    (0xFFFFFFFF_00000000_10080031, .cperm (f 0 4 8 0 0 0xffffffff)),
    (0x00000000_00000000_10080032, .cget .tag (f 0 4 8 0 0 0)),
    (0x00000000_00000000_10080132, .cget .base (f 0 4 8 0 0 0))] : List (Nat × Instr)), decodeTableWord 96 e.1 = some e.2 := by decide

/-- Words of logic, shifts, fields, moves and capabilities (04 R86): `f` gives TY, D, A, B, MOD, TAIL. -/
theorem test_decode_bits_3 : ∀ e ∈ ([
    (0x00000000_00000000_10080232, .cget .len (f 0 4 8 0 0 0)),
    (0x00000000_00000000_10080332, .cget .perm (f 0 4 8 0 0 0)),
    (0x00000000_00000000_10080432, .cget .fmt (f 0 4 8 0 0 0)),
    (0x00000000_00000000_10080532, .cget .pitch (f 0 4 8 0 0 0)),
    (0x00000010_FC0000C0_10080033, .cchk (f 0 4 8 12 63 0x10))] : List (Nat × Instr)), decodeTableWord 96 e.1 = some e.2 := by decide

/-- Words of control flow and system (04 R86): `f` gives TY, D, A, B, MOD, TAIL. -/
theorem test_decode_control_1 : ∀ e ∈ ([
    (0xFFFFFFF0_00000000_00000040, .bra (f 0 0 0 0 0 0xfffffff0)),
    (0x00000003_00000000_10000041, .braCond .any (f 0 0 8 0 0 3)),
    (0x00000003_00000000_10000141, .braCond .all (f 0 0 8 0 0 3)),
    (0x00000003_00000000_10000241, .braCond .none (f 0 0 8 0 0 3)),
    (0x00000003_00000000_10000341, .braCond .notall (f 0 0 8 0 0 3)),
    (0x000C0009_00000000_10000042, .split (f 0 0 8 0 0 0xc0009)),
    (0x00000000_00000000_00000043, .meet (f 0 0 0 0 0 0)),
    (0x00000019_00000000_00000044, .loop (f 0 0 0 0 0 0x19)),
    (0x00000000_00000000_10000045, .breakPred (f 0 0 8 0 0 0)),
    (0x00000000_00000000_00000145, .brk (f 0 0 0 0 0 0)),
    (0x00000009_00000000_00080046, .call (f 0 4 0 0 0 9)),
    (0x00000000_00000000_10000047, .ret (f 0 0 8 0 0 0)),
    (0x00000000_00000000_00000048, .exit (f 0 0 0 0 0 0)),
    (0x00000000_00000000_00000049, .yield (f 0 0 0 0 0 0)),
    (0x0000FFFF_00000000_000000F8, .svc (f 0 0 0 0 0 0xffff)),
    (0x00000001_00000000_000000F9, .trap (f 0 0 0 0 0 1))] : List (Nat × Instr)), decodeTableWord 96 e.1 = some e.2 := by decide

/-- Words of control flow and system (04 R86): `f` gives TY, D, A, B, MOD, TAIL. -/
theorem test_decode_control_2 : ∀ e ∈ ([
    (0x0000000C_00000000_000800FA, .movsRead (f 0 4 0 0 0 0xc)),
    (0x0000000B_00000000_100001FA, .movsWrite (f 0 0 8 0 0 0xb)),
    (0x00000000_00000000_000000FB, .nop (f 0 0 0 0 0 0)),
    (0x00000064_00000000_000000FC, .waitCyc (f 0 0 0 0 0 0x64))] : List (Nat × Instr)), decodeTableWord 96 e.1 = some e.2 := by decide

/-- Words of float arithmetic and conversion (05 R118): `f` gives TY, D, A, B, MOD, TAIL. -/
theorem test_decode_float_1 : ∀ e ∈ ([
    (0x00000000_000000C0_10081060, .fadd (f 1 4 8 12 0 0)),
    (0x3F800000_00000000_10080061, .faddImm (f 0 4 8 0 0 0x3f800000)),
    (0x00000000_000000C0_10081160, .fsub (f 1 4 8 12 0 0)),
    (0x3F800000_00000000_10080161, .fsubImm (f 0 4 8 0 0 0x3f800000)),
    (0x00000000_000000C0_10081260, .fmul (f 1 4 8 12 0 0)),
    (0x3F800000_00000000_10080261, .fmulImm (f 0 4 8 0 0 0x3f800000)),
    (0x00000000_000000C0_10081360, .fmin (f 1 4 8 12 0 0)),
    (0x3F800000_00000000_10080361, .fminImm (f 0 4 8 0 0 0x3f800000)),
    (0x00000000_000000C0_10081460, .fmax (f 1 4 8 12 0 0)),
    (0x3F800000_00000000_10080461, .fmaxImm (f 0 4 8 0 0 0x3f800000)),
    (0x00000010_2C0000C0_1008B062, .fma (f 11 4 8 12 11 0x10)),
    (0x00000010_000000C0_1008A162, .fms (f 10 4 8 12 0 0x10)),
    (0x00000000_000000C0_10083063, .fcmp .eq (f 3 4 8 12 0 0)),
    (0x00000000_000000C0_10083163, .fcmp .ne (f 3 4 8 12 0 0)),
    (0x00000000_000000C0_10083263, .fcmp .lt (f 3 4 8 12 0 0)),
    (0x00000000_000000C0_10083363, .fcmp .le (f 3 4 8 12 0 0))] : List (Nat × Instr)), decodeTableWord 96 e.1 = some e.2 := by decide

/-- Words of float arithmetic and conversion (05 R118): `f` gives TY, D, A, B, MOD, TAIL. -/
theorem test_decode_float_2 : ∀ e ∈ ([
    (0x00000000_000000C0_10083463, .fcmp .gt (f 3 4 8 12 0 0)),
    (0x00000000_000000C0_10083563, .fcmp .ge (f 3 4 8 12 0 0)),
    (0x00000000_000000C0_10083663, .fcmp .un (f 3 4 8 12 0 0)),
    (0x00000000_000000C0_10083763, .fcmp .ord (f 3 4 8 12 0 0)),
    (0x00000000_00000000_10085064, .fclass (f 5 4 8 0 0 0)),
    (0x00000000_00000000_10080065, .frcp (f 0 4 8 0 0 0)),
    (0x00000000_00000000_10080165, .frsq (f 0 4 8 0 0 0)),
    (0x00000000_00000000_10080265, .fsqrt (f 0 4 8 0 0 0)),
    (0x00000000_00000000_10080365, .fex2 (f 0 4 8 0 0 0)),
    (0x00000000_00000000_10080465, .flg2 (f 0 4 8 0 0 0)),
    (0x00000000_00000000_10080565, .fsin (f 0 4 8 0 0 0)),
    (0x00000000_00000000_10080665, .fcos (f 0 4 8 0 0 0)),
    (0x00001800_14000000_10080080, .cvtFF (f 0 4 8 0 5 0x1800)),
    (0x00000000_08000000_10081081, .cvtFI (f 1 4 8 0 2 0)),
    (0x00002000_00000000_10080082, .cvtIF (f 0 4 8 0 0 0x2000)),
    (0x00000000_00000000_10089083, .scalegenE8M0 (f 9 4 8 0 0 0))] : List (Nat × Instr)), decodeTableWord 96 e.1 = some e.2 := by decide

/-- Words of float arithmetic and conversion (05 R118): `f` gives TY, D, A, B, MOD, TAIL. -/
theorem test_decode_float_3 : ∀ e ∈ ([
    (0x00000000_00000000_10089183, .scalegenE4M3 (f 9 4 8 0 0 0)),
    (0x00000000_000000C0_10086084, .qntE8M0 (f 6 4 8 12 0 0)),
    (0x00000000_000000C0_10089184, .qntE4M3 (f 9 4 8 12 0 0)),
    (0x00008810_000000C0_10080085, .pack (f 0 4 8 12 0 0x8810)),
    (0x0000C800_00000000_10080086, .unpk (f 0 4 8 0 0 0xc800))] : List (Nat × Instr)), decodeTableWord 96 e.1 = some e.2 := by decide

/-- Words of cross-lane (05 R118): `f` gives TY, D, A, B, MOD, TAIL. -/
theorem test_decode_lanes_1 : ∀ e ∈ ([
    (0x00000000_000000C0_10080090, .xlane .abs (f 0 4 8 12 0 0)),
    (0x0000001F_00000000_10080091, .xlaneImm .abs (f 0 4 8 0 0 0x1f)),
    (0x00000000_000000C0_10080190, .xlane .rot (f 0 4 8 12 0 0)),
    (0x0000001F_00000000_10080191, .xlaneImm .rot (f 0 4 8 0 0 0x1f)),
    (0x00000000_000000C0_10080290, .xlane .bfly (f 0 4 8 12 0 0)),
    (0x0000001F_00000000_10080291, .xlaneImm .bfly (f 0 4 8 0 0 0x1f)),
    (0x00000000_000000C0_10080390, .xlane .seg (f 0 4 8 12 0 0)),
    (0x0000001F_00000000_10080391, .xlaneImm .seg (f 0 4 8 0 0 0x1f)),
    (0x00000000_00000000_10080092, .bcastFirst (f 0 4 8 0 0 0)),
    (0x00000000_00000000_10080093, .voteAny (f 0 4 8 0 0 0)),
    (0x00000000_00000000_10080193, .voteAll (f 0 4 8 0 0 0)),
    (0x00000000_00000000_10080293, .voteEq (f 0 4 8 0 0 0)),
    (0x00000000_00000000_10080393, .ballot (f 0 4 8 0 0 0)),
    (0x00000000_00000000_10081094, .lredFloat .add (f 1 4 8 0 0 0)),
    (0x00000000_20000000_10080095, .lscanFloat .add (f 0 4 8 0 8 0)),
    (0x00000000_00000000_10081194, .lredFloat .min (f 1 4 8 0 0 0))] : List (Nat × Instr)), decodeTableWord 96 e.1 = some e.2 := by decide

/-- Words of cross-lane (05 R118): `f` gives TY, D, A, B, MOD, TAIL. -/
theorem test_decode_lanes_2 : ∀ e ∈ ([
    (0x00000000_20000000_10080195, .lscanFloat .min (f 0 4 8 0 8 0)),
    (0x00000000_00000000_10081294, .lredFloat .max (f 1 4 8 0 0 0)),
    (0x00000000_20000000_10080295, .lscanFloat .max (f 0 4 8 0 8 0)),
    (0x00000000_00000000_10080096, .lredInt .addN (f 0 4 8 0 0 0)),
    (0x00000000_20000000_10080097, .lscanInt .addN (f 0 4 8 0 8 0)),
    (0x00000000_00000000_10080196, .lredInt .minS (f 0 4 8 0 0 0)),
    (0x00000000_20000000_10080197, .lscanInt .minS (f 0 4 8 0 8 0)),
    (0x00000000_00000000_10080296, .lredInt .maxS (f 0 4 8 0 0 0)),
    (0x00000000_20000000_10080297, .lscanInt .maxS (f 0 4 8 0 8 0)),
    (0x00000000_00000000_10080396, .lredInt .minN (f 0 4 8 0 0 0)),
    (0x00000000_20000000_10080397, .lscanInt .minN (f 0 4 8 0 8 0)),
    (0x00000000_00000000_10080496, .lredInt .maxN (f 0 4 8 0 0 0)),
    (0x00000000_20000000_10080497, .lscanInt .maxN (f 0 4 8 0 8 0)),
    (0x00000000_00000000_10080596, .lredInt .andB (f 0 4 8 0 0 0)),
    (0x00000000_20000000_10080597, .lscanInt .andB (f 0 4 8 0 8 0)),
    (0x00000000_00000000_10080696, .lredInt .orB (f 0 4 8 0 0 0))] : List (Nat × Instr)), decodeTableWord 96 e.1 = some e.2 := by decide

/-- Words of cross-lane (05 R118): `f` gives TY, D, A, B, MOD, TAIL. -/
theorem test_decode_lanes_3 : ∀ e ∈ ([
    (0x00000000_20000000_10080697, .lscanInt .orB (f 0 4 8 0 8 0)),
    (0x00000000_00000000_10080796, .lredInt .xorB (f 0 4 8 0 0 0)),
    (0x00000000_20000000_10080797, .lscanInt .xorB (f 0 4 8 0 8 0))] : List (Nat × Instr)), decodeTableWord 96 e.1 = some e.2 := by decide

/-- Words of loads, stores, atomics, ordering (10 R182): `f` gives TY, D, A, B, MOD, TAIL. -/
theorem test_decode_memory_1 : ∀ e ∈ ([
    (0x00800000_00000000_100840A0, .ld .sp (f 4 4 8 0 0 0x800000)),
    (0x007FFFFF_000000C0_100050A1, .st .sp (f 5 0 8 12 0 0x7fffff)),
    (0x00000000_00000000_100800A2, .ldc .sp (f 0 4 8 0 0 0)),
    (0x00000000_000000C0_100000A3, .stc .sp (f 0 0 8 12 0 0)),
    (0x00000000_000000C0_100820A4, .ldg .sp (f 2 4 8 12 0 0)),
    (0x00000010_000000C0_100020A5, .sts .sp (f 2 0 8 12 0 0x10)),
    (0x00000000_7C0000C0_100000A6, .stvM .sp (f 0 0 8 12 31 0)),
    (0x00000000_7C000000_100800A7, .ldvM .sp (f 0 4 8 0 31 0)),
    (0x00800000_00000000_100841A0, .ld .cl (f 4 4 8 0 0 0x800000)),
    (0x007FFFFF_000000C0_100051A1, .st .cl (f 5 0 8 12 0 0x7fffff)),
    (0x00800000_00000000_100842A0, .ld .gl (f 4 4 8 0 0 0x800000)),
    (0x007FFFFF_000000C0_100052A1, .st .gl (f 5 0 8 12 0 0x7fffff)),
    (0x00000000_00000000_100802A2, .ldc .gl (f 0 4 8 0 0 0)),
    (0x00000000_000000C0_100002A3, .stc .gl (f 0 0 8 12 0 0)),
    (0x00000000_000000C0_100822A4, .ldg .gl (f 2 4 8 12 0 0)),
    (0x00000010_000000C0_100022A5, .sts .gl (f 2 0 8 12 0 0x10))] : List (Nat × Instr)), decodeTableWord 96 e.1 = some e.2 := by decide

/-- Words of loads, stores, atomics, ordering (10 R182): `f` gives TY, D, A, B, MOD, TAIL. -/
theorem test_decode_memory_2 : ∀ e ∈ ([
    (0x00000000_7C0000C0_100002A6, .stvM .gl (f 0 0 8 12 31 0)),
    (0x00000000_7C000000_100802A7, .ldvM .gl (f 0 4 8 0 31 0)),
    (0x00000000_000000C0_100810B0, .atom .add (f 1 4 8 12 0 0)),
    (0x00000000_040000C0_100010B3, .red .add (f 1 0 8 12 1 0)),
    (0x00000000_000000C0_100811B0, .atom .min (f 1 4 8 12 0 0)),
    (0x00000000_040000C0_100011B3, .red .min (f 1 0 8 12 1 0)),
    (0x00000000_000000C0_100812B0, .atom .max (f 1 4 8 12 0 0)),
    (0x00000000_040000C0_100012B3, .red .max (f 1 0 8 12 1 0)),
    (0x00000000_000000C0_100823B0, .atom .and (f 2 4 8 12 0 0)),
    (0x00000000_040000C0_100023B3, .red .and (f 2 0 8 12 1 0)),
    (0x00000000_000000C0_100824B0, .atom .or (f 2 4 8 12 0 0)),
    (0x00000000_040000C0_100024B3, .red .or (f 2 0 8 12 1 0)),
    (0x00000000_000000C0_100825B0, .atom .xor (f 2 4 8 12 0 0)),
    (0x00000000_040000C0_100025B3, .red .xor (f 2 0 8 12 1 0)),
    (0x00000000_000000C0_100826B0, .atom .exch (f 2 4 8 12 0 0)),
    (0x00000000_000000C0_100840B1, .atomCas (f 4 4 8 12 0 0))] : List (Nat × Instr)), decodeTableWord 96 e.1 = some e.2 := by decide

/-- Words of loads, stores, atomics, ordering (10 R182): `f` gives TY, D, A, B, MOD, TAIL. -/
theorem test_decode_memory_3 : ∀ e ∈ ([
    (0x00000000_080000C0_100800B2, .atomFloat .add .f32 (f 0 4 8 12 2 0)),
    (0x00000000_000000C0_100000B4, .redFloat .add .f32 (f 0 0 8 12 0 0)),
    (0x00000000_080000C0_100801B2, .atomFloat .min .f32 (f 0 4 8 12 2 0)),
    (0x00000000_000000C0_100001B4, .redFloat .min .f32 (f 0 0 8 12 0 0)),
    (0x00000000_080000C0_100802B2, .atomFloat .max .f32 (f 0 4 8 12 2 0)),
    (0x00000000_000000C0_100002B4, .redFloat .max .f32 (f 0 0 8 12 0 0)),
    (0x00000000_080000C0_100804B2, .atomFloat .add .f64 (f 0 4 8 12 2 0)),
    (0x00000000_000000C0_100004B4, .redFloat .add .f64 (f 0 0 8 12 0 0)),
    (0x00000000_080000C0_100805B2, .atomFloat .min .f64 (f 0 4 8 12 2 0)),
    (0x00000000_000000C0_100005B4, .redFloat .min .f64 (f 0 0 8 12 0 0)),
    (0x00000000_080000C0_100806B2, .atomFloat .max .f64 (f 0 4 8 12 2 0)),
    (0x00000000_000000C0_100006B4, .redFloat .max .f64 (f 0 0 8 12 0 0)),
    (0x00000000_080000C0_100808B2, .atomFloat .add .bf16x2 (f 0 4 8 12 2 0)),
    (0x00000000_000000C0_100008B4, .redFloat .add .bf16x2 (f 0 0 8 12 0 0)),
    (0x00000000_080000C0_100809B2, .atomFloat .min .bf16x2 (f 0 4 8 12 2 0)),
    (0x00000000_000000C0_100009B4, .redFloat .min .bf16x2 (f 0 0 8 12 0 0))] : List (Nat × Instr)), decodeTableWord 96 e.1 = some e.2 := by decide

/-- Words of loads, stores, atomics, ordering (10 R182): `f` gives TY, D, A, B, MOD, TAIL. -/
theorem test_decode_memory_4 : ∀ e ∈ ([
    (0x00000000_080000C0_10080AB2, .atomFloat .max .bf16x2 (f 0 4 8 12 2 0)),
    (0x00000000_000000C0_10000AB4, .redFloat .max .bf16x2 (f 0 0 8 12 0 0)),
    (0x00000000_080000C0_10080CB2, .atomFloat .add .f16x2 (f 0 4 8 12 2 0)),
    (0x00000000_000000C0_10000CB4, .redFloat .add .f16x2 (f 0 0 8 12 0 0)),
    (0x00000000_080000C0_10080DB2, .atomFloat .min .f16x2 (f 0 4 8 12 2 0)),
    (0x00000000_000000C0_10000DB4, .redFloat .min .f16x2 (f 0 0 8 12 0 0)),
    (0x00000000_080000C0_10080EB2, .atomFloat .max .f16x2 (f 0 4 8 12 2 0)),
    (0x00000000_000000C0_10000EB4, .redFloat .max .f16x2 (f 0 0 8 12 0 0)),
    (0x03000000_00000000_000000BC, .rel (f 0 0 0 0 0 0x3000000)),
    (0x05000000_00000000_000000BD, .acq (f 0 0 0 0 0 0x5000000)),
    (0x01000000_00000000_000000BE, .phx (f 0 0 0 0 0 0x1000000)),
    (0x00000000_00000000_000000BF, .fence (f 0 0 0 0 0 0))] : List (Nat × Instr)), decodeTableWord 96 e.1 = some e.2 := by decide

/-- Words of barriers, copies, matrix, roles, tasks, launches, beats, gangs, fabric (12 R234, 13 R264, 14 R288, 18 R320, 20 R349, 25 R427): `f` gives TY, D, A, B, MOD, TAIL. -/
theorem test_decode_engines_1 : ∀ e ∈ ([
    (0x00000000_000000C0_100800C0, .ballocPhase (f 0 4 8 12 0 0)),
    (0x00000000_000000C0_100801C0, .ballocCount (f 0 4 8 12 0 0)),
    (0x00000000_00000000_100000C1, .bfree (f 0 0 8 0 0 0)),
    (0x00000001_00000000_100000C2, .barrive (f 0 0 8 0 0 1)),
    (0x00000000_000000C0_100000C3, .bexpect (f 0 0 8 12 0 0)),
    (0x00000002_00000000_100000C4, .bsigImm (f 0 0 8 0 0 2)),
    (0x00000000_000000C0_100000C5, .bsigReg (f 0 0 8 12 0 0)),
    (0x00000000_000000C0_100000C6, .waitbPh (f 0 0 8 12 0 0)),
    (0x00000000_000000C0_100001C6, .waitbCt (f 0 0 8 12 0 0)),
    (0x00000103_00000000_100000C8, .cpyLin (f 0 0 8 0 0 0x103)),
    (0x002D1081_000000C0_100001C8, .cpyTile (f 0 0 8 12 0 0x2d1081)),
    (0x00002001_00000000_100000D0, .mma (f 0 0 8 0 0 0x2001)),
    (0x00002001_00000000_100001D0, .mmaZ (f 0 0 8 0 0 0x2001)),
    (0x00002001_00000000_100000D1, .wbld (f 0 0 8 0 0 0x2001)),
    (0x00003000_00000000_000000D2, .accz (f 0 0 0 0 0 0x3000)),
    (0x00003001_00000000_100000D3, .accld (f 0 0 8 0 0 0x3001))] : List (Nat × Instr)), decodeTableWord 96 e.1 = some e.2 := by decide

/-- Words of barriers, copies, matrix, roles, tasks, launches, beats, gangs, fabric (12 R234, 13 R264, 14 R288, 18 R320, 20 R349, 25 R427): `f` gives TY, D, A, B, MOD, TAIL. -/
theorem test_decode_engines_2 : ∀ e ∈ ([
    (0x00003001_00000000_100000D4, .accst (f 0 0 8 0 0 0x3001)),
    (0x00000000_00000000_100000D5, .mbatch (f 0 0 8 0 0 0)),
    (0x00000020_00000000_100000D6, .batonSet (f 0 0 8 0 0 0x20)),
    (0x00000000_00000000_000000D7, .batonPass (f 0 0 0 0 0 0)),
    (0x00000000_00000000_100001D7, .batonPassSignal (f 0 0 8 0 0 0)),
    (0x00000008_0C000000_000000E0, .role (f 0 0 0 0 3 8)),
    (0x0000000F_000000C0_100800E1, .taskadd (f 0 4 8 12 0 0xf)),
    (0x0000F005_00000000_000800E2, .glaunch (f 0 4 0 0 0 0xf005)),
    (0x00010005_00000000_000801E2, .glaunchW (f 0 4 0 0 0 0x10005)),
    (0x00000000_00000000_100800E3, .gjoin (f 0 4 8 0 0 0)),
    (0x00000000_00000000_100801E3, .gjoinTry (f 0 4 8 0 0 0)),
    (0x00000001_00000000_000000E8, .beat (f 0 0 0 0 0 1)),
    (0x00000000_00000000_100000E9, .btarget (f 0 0 8 0 0 0)),
    (0x0000000B_00000000_000800EA, .bread (f 0 4 0 0 0 0xb)),
    (0x00000000_00000000_000000EC, .gsync (f 0 0 0 0 0 0)),
    (0x00000000_00000000_000801EC, .garrive (f 0 4 0 0 0 0))] : List (Nat × Instr)), decodeTableWord 96 e.1 = some e.2 := by decide

/-- Words of barriers, copies, matrix, roles, tasks, launches, beats, gangs, fabric (12 R234, 13 R264, 14 R288, 18 R320, 20 R349, 25 R427): `f` gives TY, D, A, B, MOD, TAIL. -/
theorem test_decode_engines_3 : ∀ e ∈ ([
    (0x00000000_00000000_100002EC, .gwait (f 0 0 8 0 0 0)),
    (0x00003002_00000000_100000F0, .put (f 0 0 8 0 0 0x3002)),
    (0x00003002_00000000_100000F1, .get (f 0 0 8 0 0 0x3002)),
    (0x00143081_00000000_100000F2, .collAllred (f 0 0 8 0 0 0x143081)),
    (0x00000081_00000000_100001F2, .collBcast (f 0 0 8 0 0 0x81)),
    (0x00000081_00000000_100002F2, .collAllgath (f 0 0 8 0 0 0x81))] : List (Nat × Instr)), decodeTableWord 96 e.1 = some e.2 := by decide
/-- Guard, latch, NW, ABS and NEG (02 R42, R45, R47, R48). -/
theorem test_decode_fields :
    decodeTableWord 96 0x00000000_001380C8_06011001 =
      some (.add { ty := 1, nw := true, d := 0, a := .latch 3, b := .reg 12 false false, g := .on true 9, mod := 0, tail := 0 }) ∧
    decodeTableWord 96 0x00000000_000020C6_10080060 =
      some (.fadd { ty := 0, nw := false, d := 4, a := .reg 8 true true, b := .reg 12 true false, g := .always, mod := 0, tail := 0 }) ∧
    decodeTableWord 96 0x12345678_9ABCDEF0_123456FE = some (.hint 0x12345678_9ABCDEF0_123456) := by decide

/-- 21 R365, 23 R404: the Landing's words. -/
theorem test_decode_landing : ∀ e ∈ ([
    (0x0E31008B, .dld 1 2 3 3 true), (0x0431108B, .dst 1 2 3 2), (0x0031278B, .dldc 15 2 3), (0x0031378B, .dstc 15 2 3), (0x3E31478B, .dnarrow 15 2 3 31),
    (0x0031578B, .dperm 15 2 3), (0x0A016F8B, .dget 31 2 .pitch), (0x0001778B, .dmov 15 2), (0x0330000F, .landingFenceRw)] : List (Nat × Instr)),
    decodeTableWord 32 e.1 = some e.2 := by decide

/-- 21 R365: registers past `dc15`, a field code past 5, and bits that must be zero, are no Dalcy instruction. -/
theorem test_landing_refuses : ∀ x ∈ [0x0E31008B + 8 * 2 ^ 28, 0x0031278B + 2 ^ 11, 0x0031278B + 2 ^ 19, 0x0C016F8B, 0x0011778B, 0x7E31478B, 0x00000013],
    decodeTableWord 32 x = none := by decide

/-! ### Ill-formed instructions -/

/-- 02 R57, R59: what raises cause 0x01: a type, scope, ordering, cache policy, rounding or SUB that an entry does not take, and reserved codes. -/
theorem test_wf_cause_01 : ∀ i ∈ ([
    .add (f 2 4 8 12 0 0), .mad (f 3 4 8 12 0 16), .cmp .lt (f 2 4 8 12 0 0), .sel (f 0 4 8 12 0 16), .popc (f 1 4 8 0 0 0), .sar (f 2 4 8 12 0 0),
    .fadd (f 2 4 8 12 0 0), .fcmp .eq (f 10 4 8 12 0 0), .fsin (f 1 4 8 0 0 0), .fadd (f 0 4 8 12 5 0), .fadd (f 0 4 8 12 6 0), .fmin (f 0 4 8 12 5 0),
    .cvtFF (f 0 4 8 0 0 0), .cvtFF (f 0 4 8 0 0 (12 * 2048)), .cvtFF (f 0 4 8 0 5 (1 * 2048)), .cvtFI (f 0 4 8 0 0 (2 * 2048)), .scalegenE4M3 (f 9 4 8 0 0 2048),
    .pack (f 0 4 8 12 0 (4 * 2048)), .movsRead (f 0 4 0 0 0 0x11), .movsWrite (f 0 0 8 0 0 0x01), .ldc .cl (f 0 4 8 0 0 0), .ldg .cl (f 0 4 8 12 0 0),
    .ld .gl (f 9 4 8 0 0 0), .ld .gl (f 0 4 8 0 0 (2 * 2 ^ 27)), .st .gl (f 0 0 8 12 0 (1 * 2 ^ 27)), .ld .gl (f 0 4 8 0 0 (5 * 2 ^ 27)),
    .rel (f 0 0 0 0 0 (6 * 2 ^ 24)), .ld .sp (f 0 4 8 0 0 (1 * 2 ^ 30)), .atom .add (f 1 4 8 12 3 0), .atom .and (f 1 4 8 12 0 0), .red .exch (f 2 0 8 12 0 0),
    .mma (f 0 0 8 0 24 1), .accld (f 0 0 8 0 0 (3 * 2 ^ 18)), .accst (f 0 0 8 0 0 (5 * 2 ^ 18)), .accst (f 0 0 8 0 0 (4 * 2 ^ 21)), .collAllred (f 0 0 8 0 0 (3 * 2 ^ 18)),
    .bread (f 0 4 0 0 0 12)] : List Instr), i.bad01 = true ∧ i.wf = false := by decide

/-- 02 R45-R51, R56, R57: what raises cause 0x02: misaligned pairs and quads, latches and ABS or NEG where none may stand, unused fields, a guard or NW that
an entry does not take, and each entry's own limits. -/
theorem test_wf_cause_02 : ∀ i ∈ ([
    .add (f 3 5 8 12 0 0), .add (f 3 4 9 12 0 0), .add (f 4 4 8 13 0 0), .mad (f 1 4 8 12 1 16), .mulhi (f 1 4 8 12 1 0), .cmp .eq (f 0 4 8 12 1 0),
    .addImm (f 1 4 8 12 0 0), .not (f 2 4 8 12 0 0), .add { f 1 4 8 12 0 0 with a := .reg 8 true false }, .cnarrow { f 0 4 8 12 0 16 with a := .latch 0 },
    .cnarrow { f 0 0 8 12 0 16 with nw := true }, .cnarrow (f 0 6 8 12 0 16), .cnarrow (f 0 4 8 12 0 0x404), .add { f 1 4 8 12 0 0 with nw := true },
    .bra { f 0 0 0 0 0 0 with g := .on false 1 }, .bra (f 1 0 0 0 0 0), .bra (f 0 4 0 0 0 0), .shlImm (f 2 4 8 0 0 32), .rorImm (f 4 4 8 0 0 64), .bfx (f 0 4 8 0 0 5),
    .bfi (f 2 4 8 12 0 (1 + 32 * 32)), .bytsel (f 2 4 8 12 0 (0xB * 2048)), .tern (f 2 4 8 12 0 (0x80000 + 16)), .faddImm (f 3 4 8 0 0 0x1_0000),
    .fmin (f 0 4 8 12 8 0), .fmin (f 0 4 8 12 1 0), .qntE8M0 { f 6 4 8 12 0 0 with b := .reg 12 false true }, .xlane .abs { f 0 4 8 12 0 0 with a := .reg 8 true false },
    .cvtIF { f 0 4 8 0 0 0 with a := .reg 8 true false }, .scalegenE8M0 (f 9 4 8 0 0 2048), .pack (f 0 4 8 12 0 (1 * 2 ^ 14)), .unpk (f 0 4 8 0 0 (4 * 2 ^ 14 + 2048)),
    .xlaneImm .abs (f 0 4 8 0 0 32), .lscanInt .addN (f 0 4 8 0 4 0), .ld .gl (f 0 4 9 0 0 0), .ld .gl (f 0 4 8 0 0 (1 * 2 ^ 24)), .ldc .gl (f 0 5 8 0 0 0),
    .fence (f 0 0 0 0 0 (1 * 2 ^ 24)), .stvM .gl (f 0 0 8 240 31 0), .ldvM .gl (f 0 240 8 0 31 0), .stvM .gl (f 0 0 8 12 32 0), .barrive (f 0 0 8 0 0 0),
    .beat (f 0 0 0 0 0 0), .cpyLin (f 0 0 9 0 0 0), .cpyLin (f 0 0 8 0 4 0), .cpyTile (f 0 0 8 12 0 (1 * 2 ^ 12)), .batonSet (f 0 0 8 0 0 0), .batonSet (f 0 0 8 0 0 33),
    .put (f 0 0 8 0 1 0), .get (f 0 0 8 0 20 0), .collBcast (f 0 0 8 0 0 (1 * 2 ^ 18)), .nop (f 0 0 0 0 0 1), .exit (f 0 1 0 0 0 0)] : List Instr),
    i.bad01 = false ∧ i.bad02 = true ∧ i.wf = false := by decide

/-- 02 R42, R45, R47: bit 57, a latch selector with bits above the number, and G without GE raise cause 0x02; opcodes that no entry assigns raise 0x01. -/
theorem test_raw_bits_refused :
    (([0x02000000_000000FB, 0x00010000_000000FB, 0x00020000_000000FB, 0x01000000_000000FB, 0x00000008_20001001] : List IWord).map decodeWave = List.replicate 5 (.error .field)) ∧
    (([0x00, 0xFF, 0x07, 0x4A, 0x66, 0x98, 0xA8, 0xFD, 0x701, 0x3A2, 0x5EC] : List IWord).map decodeWave = List.replicate 11 (.error .opcode)) := by decide +kernel

/-! ### One instruction: integers, bits, capabilities, control -/

/-- 04 R88's own numbers: `MULHI` of −2 and 3, and the saturating sum. -/
theorem test_mulhi_signed : lane (.mulhi (f 0 4 8 12 0 0)) (withRegs [(8, 0xFFFF_FFFE), (12, 3)]) 4 31 = 0xFFFF_FFFF := by decide +kernel
theorem test_mulhi_unsigned : lane (.mulhi (f 1 4 8 12 0 0)) (withRegs [(8, 0xFFFF_FFFE), (12, 3)]) 4 0 = 2 := by decide +kernel
theorem test_add_saturates : lane (.addImm (f 0 4 8 0 1 100)) (withRegs [(8, 0x7FFF_FFF0)]) 4 5 = 0x7FFF_FFFF := by decide +kernel
theorem test_add_wraps : lane (.add (f 1 4 8 12 0 0)) (withRegs [(8, 0xFFFF_FFFF), (12, 2)]) 4 5 = 1 := by decide +kernel
theorem test_sub_saturates_unsigned : lane (.sub (f 1 4 8 12 1 0)) (withRegs [(8, 1), (12, 2)]) 4 5 = 0 := by decide +kernel
theorem test_add_carries_into_pair : lane (.add (f 4 4 8 12 0 0)) (withRegs [(8, 0xFFFF_FFFF), (12, 1)]) 5 9 = 1 := by decide +kernel
theorem test_mad : lane (.mad (f 0 4 8 12 0 16)) (withRegs [(8, 0xFFFF_FFFF), (12, 3), (16, 5)]) 4 0 = 2 := by decide +kernel
theorem test_min_signed : lane (.min (f 0 4 8 12 0 0)) (withRegs [(8, 0xFFFF_FFFF), (12, 1)]) 4 0 = 0xFFFF_FFFF := by decide +kernel
theorem test_max_unsigned_source_is_destination : lane (.max (f 1 8 8 12 0 0)) (withRegs [(8, 0xFFFF_FFFF), (12, 1)]) 8 0 = 0xFFFF_FFFF := by decide +kernel
theorem test_cmp_signed : lane (.cmp .lt (f 0 4 8 12 0 0)) (withRegs [(8, 0xFFFF_FFFF), (12, 1)]) 4 0 = 1 := by decide +kernel
theorem test_cmp_unsigned : lane (.cmp .lt (f 1 4 8 12 0 0)) (withRegs [(8, 0xFFFF_FFFF), (12, 1)]) 4 0 = 0 := by decide +kernel
theorem test_sel : lane (.sel (f 2 4 8 12 0 16)) (withRegs [(8, 7), (12, 9)]) 4 3 = 9 := by decide +kernel
theorem test_clz_of_zero : lane (.clz (f 2 4 8 0 0 0)) tWave 4 0 = 32 := by decide +kernel
theorem test_ctz : lane (.ctz (f 2 4 8 0 0 0)) (withRegs [(8, 0x50)]) 4 0 = 4 := by decide +kernel
theorem test_brev : lane (.brev (f 2 4 8 0 0 0)) (withRegs [(8, 0x5)]) 4 0 = 0xA000_0000 := by decide +kernel
theorem test_popc : lane (.popc (f 2 4 8 0 0 0)) (withRegs [(8, 0xF00F)]) 4 0 = 8 := by decide +kernel
theorem test_orn : lane (.orn (f 2 4 8 12 0 0)) (withRegs [(8, 1), (12, 0xFFFF_0000)]) 4 0 = 0xFFFF := by decide +kernel
/-- 04 R93's table: majority is 0xE8, the select C ? B : A is 0xCA. -/
theorem test_tern_majority : lane (.tern (f 2 4 8 12 0 (16 + 0xE8 * 2048))) (withRegs [(8, 0b0110), (12, 0b1010), (16, 0b1100)]) 4 0 = 0b1110 := by decide +kernel
theorem test_tern_select : lane (.tern (f 2 4 8 12 0 (16 + 0xCA * 2048))) (withRegs [(8, 0x1111), (12, 0x2222), (16, 0xFF)]) 4 0 = 0x1122 := by decide +kernel
theorem test_shl_of_the_width : lane (.shl (f 2 4 8 12 0 0)) (withRegs [(8, 1), (12, 32)]) 4 0 = 0 := by decide +kernel
theorem test_sar_past_the_width : lane (.sar (f 0 4 8 12 0 0)) (withRegs [(8, 0x8000_0000), (12, 99)]) 4 0 = 0xFFFF_FFFF := by decide +kernel
theorem test_rol_modulo_the_width : lane (.rol (f 2 4 8 12 0 0)) (withRegs [(8, 0x8000_0001), (12, 33)]) 4 0 = 3 := by decide +kernel
theorem test_ror : lane (.rorImm (f 2 4 8 0 0 4)) (withRegs [(8, 0x12)]) 4 0 = 0x2000_0001 := by decide +kernel
theorem test_bfx_signed : lane (.bfx (f 0 4 8 0 0 (4 + 4 * 32))) (withRegs [(8, 0xA5)]) 4 0 = 0xFFFF_FFFA := by decide +kernel
theorem test_bfi : lane (.bfi (f 2 4 8 12 0 (8 + 8 * 32))) (withRegs [(8, 0xFFFF_FFFF), (12, 0x12)]) 4 0 = 0xFFFF_12FF := by decide +kernel
theorem test_mov_sign_extends : lane (.movImm (f 3 4 0 0 0 0x8000_0000)) tWave 5 0 = 0xFFFF_FFFF := by decide +kernel
/-- 04 R97's own numbers. -/
theorem test_bytsel_zero_sign : lane (.bytsel (f 2 4 8 12 0 (0xAA03 * 2048))) (withRegs [(8, 0x4433_2211), (12, 0x8877_6655)]) 4 0 = 0x5588 := by decide +kernel
theorem test_bytsel_sign : lane (.bytsel (f 2 4 8 12 0 (0xAAA3 * 2048))) (withRegs [(8, 0x4433_2211), (12, 0x8877_6655)]) 4 0 = 0xFFFF_FF88 := by decide +kernel

/-- 01 R8, R14, 02 R47: an inactive lane keeps its value. -/
theorem test_guard_keeps_lanes :
    lane (.movImm { f 2 8 0 0 0 0x55 with g := .on false 8 }) withLanes 8 0 = 0 ∧ lane (.movImm { f 2 8 0 0 0 0x55 with g := .on true 8 }) withLanes 8 31 = 31 ∧
    lane (.movImm { f 2 8 0 0 0 0x55 with g := .on false 8 }) withLanes 8 31 = 0x55 := by decide +kernel

/-- The example of 04 R103: `c2` covers 0x1_0000 bytes from 0x1_0000_0000 with RD, WR and MX; `v32`:`v33` and `v34`:`v35` hold 0x4000 and 0x2000. -/
def capWave (perm len : Word) : Wave :=
  { withRegs [(8, 0), (9, 1 + perm * 0x200_0000), (10, len), (32, 0x4000), (34, 0x2000)] with
    tags := [(8, 0xFFFF_FFFF), (9, 0xFFFF_FFFF), (10, 0xFFFF_FFFF), (11, 0xFFFF_FFFF)] }

theorem test_cnarrow : (lane (.cnarrow (f 0 12 8 32 0 34)) (capWave 7 0x10000) 12 3, lane (.cnarrow (f 0 12 8 32 0 34)) (capWave 7 0x10000) 14 3,
    see 0 (fun v => Tab.get 0 v.tags 12) (exec (.cnarrow (f 0 12 8 32 0 34)) (st (capWave 7 0x10000)))) = (0x4000, 0x2000, 0xFFFF_FFFF) := by decide +kernel
theorem test_cnarrow_past_the_end : causeOf (.cnarrow (f 0 12 8 32 0 34)) (capWave 1 0x2000) = 0x11 := by decide +kernel
theorem test_cnarrow_untagged : causeOf (.cnarrow (f 0 12 8 32 0 34)) (withRegs []) = 0x10 := by decide +kernel
theorem test_cnarrow_set_wider : causeOf (.cnarrowSet (f 0 12 8 40 0 0))
    { capWave 1 0x10000 with regs := (capWave 1 0x10000).regs ++ [(41, Vector.replicate 32 0x0E00_0001)] } = 0x12 := by decide +kernel
theorem test_cperm : lane (.cperm (f 0 16 8 0 0 1)) (capWave 7 0x10000) 17 0 = 0x0200_0001 := by decide +kernel
theorem test_cchk_fails : lane (.cchk (f 0 40 8 32 2 34)) (capWave 1 0x2000) 40 0 = 0 := by decide +kernel
theorem test_cget_perm : lane (.cget .perm (f 0 40 8 0 0 0)) (capWave 7 0x10000) 40 0 = 7 := by decide +kernel
theorem test_mov_clears_the_tag : see 1 (fun v => Tab.get 0 v.tags 8) (exec (.mov (f 2 8 8 0 0 0)) (st (capWave 7 0x10000))) = 0 := by decide +kernel

/-- 04 R104: line +2, slot 0 of the line of the pc; a call leaves the next slot's address in every lane. -/
theorem test_bra : see 0 (fun v => v.pc) (exec (.bra (f 0 0 0 0 0 16)) tState) = 0x10080 := by decide +kernel
theorem test_bra_outside_the_kernel : causeOf (.bra (f 0 0 0 0 0 0xFFFF_FFF0)) tWave = 0x03 := by decide +kernel
theorem test_bra_any : see 0 (fun v => v.pc) (exec (.braCond .any (f 0 0 8 0 0 8)) (st withLanes)) = 0x10040 := by decide +kernel
theorem test_bra_all_not_taken : see 0 (fun v => v.pc) (exec (.braCond .all (f 0 0 8 0 0 8)) (st withLanes)) = 0x10001 := by decide +kernel
theorem test_call : lane (.call (f 0 4 0 0 0 8)) tWave 4 31 = 0x10001 := by decide +kernel
theorem test_ret_not_uniform : causeOf (.ret (f 0 0 8 0 0 0)) withLanes = 0x03 := by decide +kernel
theorem test_ret : see 0 (fun v => v.pc) (exec (.ret (f 0 0 8 0 0 0)) (st (withRegs [(8, 0x10043)]))) = 0x10043 := by decide +kernel
/-- 04 R109: the lanes whose predicate is not zero go to the target; the others wait on a path entry above the join. -/
theorem test_split : see (0, []) (fun v => (v.exm, v.tokens.map fun t => (t.mask, t.pc))) (exec (.split (f 0 0 8 0 0 0x0010_0008)) (st withLanes)) =
    (0xFFFF_FFFE, [(1, 0x10001), (0xFFFF_FFFF, 0x10080)]) := by decide +kernel
theorem test_meet_without_token : causeOf (.meet (f 0 0 0 0 0 0)) tWave = 0x32 := by decide +kernel
theorem test_loop_full : causeOf (.loop (f 0 0 0 0 0 8)) { tWave with tokens := List.replicate 64 ⟨.loop, 0, 0, 0⟩ } = 0x32 := by decide +kernel
theorem test_break_leaves_lanes : see (0, []) (fun v => (v.exm, v.tokens.map fun t => t.mask)) (exec (.breakPred (f 0 0 8 0 0 0)) (st
    { withLanes with tokens := [⟨.loop, 0x10040, 0, 0⟩] })) = (1, [0xFFFF_FFFE]) := by decide +kernel
theorem test_exit_with_guard : see (0, 0) (fun v => (v.live, v.exm)) (exec (.exit { f 0 0 0 0 0 0 with g := .on false 8 }) (st withLanes)) = (1, 1) := by decide +kernel
theorem test_svc : causeOf (.svc (f 0 0 0 0 0 5)) tWave = 0x70 ∧ causeOf (.trap (f 0 0 0 0 0 5)) tWave = 0x60 := by decide +kernel
theorem test_movs_lane_number : lane (.movsRead (f 0 4 0 0 0 4)) tWave 4 17 = 17 := by decide +kernel
theorem test_movs_seed_zero : see 0 (fun v => Tab.get 0 v.seed 3) (exec (.movsWrite (f 0 0 8 0 0 0x0B)) (st (withRegs []))) = 1 := by decide +kernel
theorem test_wait_cyc : see none (fun v => v.waitUntil) (exec (.waitCyc (f 0 0 0 0 0 7)) tState) = some 7 := by decide +kernel

/-! ### One instruction: floats, conversions, lanes -/

theorem test_fadd : lane (.fadd (f 0 4 8 12 0 0)) (withRegs [(8, 0x3F80_0000), (12, 0x4000_0000)]) 4 0 = 0x4040_0000 := by decide +kernel
/-- 03 R74: an exact zero sum of different signs is −0 in RDN only. -/
theorem test_fadd_zero_sum : lane (.fadd (f 0 4 8 12 0 0)) (withRegs [(8, 0x3F80_0000), (12, 0xBF80_0000)]) 4 0 = 0 ∧
    lane (.fadd (f 0 4 8 12 4 0)) (withRegs [(8, 0x3F80_0000), (12, 0xBF80_0000)]) 4 0 = 0x8000_0000 := by decide +kernel
theorem test_fmul_inf_zero : lane (.fmul (f 0 4 8 12 0 0)) (withRegs [(8, 0x7F80_0000)]) 4 0 = 0x7FC0_0000 := by decide +kernel
/-- 05 R123: −0 is less than +0. -/
theorem test_fmin_zeros : lane (.fmin (f 0 4 8 12 0 0)) (withRegs [(12, 0x8000_0000)]) 4 0 = 0x8000_0000 := by decide +kernel
theorem test_fma_rounds_once : lane (.fma (f 0 4 8 12 0 16)) (withRegs [(8, 0x3F80_0001), (12, 0x3F80_0001), (16, 0xBF80_0002)]) 4 0 = 0x2880_0000 := by decide +kernel
theorem test_fcmp_unordered : lane (.fcmp .lt (f 0 4 8 12 0 0)) (withRegs [(8, 0x7FC0_0000)]) 4 0 = 0 ∧ lane (.fcmp .un (f 0 4 8 12 0 0)) (withRegs [(8, 0x7FC0_0000)]) 4 0 = 1 := by
  decide +kernel
theorem test_frcp_of_minus_zero : lane (.frcp (f 0 4 8 0 0 0)) (withRegs [(8, 0x8000_0000)]) 4 0 = 0xFF80_0000 := by decide +kernel
theorem test_fsqrt : lane (.fsqrt (f 0 4 8 0 0 0)) (withRegs [(8, 0x4000_0000)]) 4 0 = 0x3FB5_04F3 := by decide +kernel
theorem test_fcos_of_zero : lane (.fcos (f 0 4 8 0 0 0)) (withRegs []) 4 0 = 0x3F80_0000 := by decide +kernel
/-- 05 R129's own numbers: two ties to even. -/
theorem test_cvt_bf16x2 : lane (.cvtFF (f 0 4 8 12 1 (10 * 2048))) (withRegs [(8, 0x3F80_8000), (12, 0x3F81_8000)]) 4 0 = 0x3F82_3F80 := by decide +kernel
/-- 03 R81's own numbers: a generator at 1 rounds 0x4040_FC00 down, one at 0x0004_2021 up. -/
theorem test_cvt_stochastic : (List.map (fun sd => lane (.cvtFF (f 0 4 8 0 5 (3 * 2048)))
    { withRegs [(8, 0x4040_FC00)] with seed := (List.range 32).map fun l => (l, sd) } 4 0) [0x1, 0x0004_2021]) = [0x4040, 0x4041] := by decide +kernel
theorem test_cvt_clamps : lane (.cvtFI (f 0 4 8 0 0 0)) (withRegs [(8, 0x4F80_0000)]) 4 0 = 0x7FFF_FFFF := by decide +kernel
theorem test_cvt_if : lane (.cvtIF (f 0 4 8 0 0 0)) (withRegs [(8, 0xFFFF_FFFF)]) 4 0 = 0xBF80_0000 := by decide +kernel
/-- The table of 05 R133: the quotients by a scale of 2, as E4M3. -/
theorem test_qnt : (List.map (fun a => lane (.qntE8M0 (f 6 4 8 12 8 0)) (withRegs [(8, a), (12, 0x80)]) 4 0) [0x447A_0000, 0x4050_0000, 0xBBA0_0000, 0x43E0_0000]) =
    [0x7E, 0x3D, 0x81, 0x76] := by decide +kernel
theorem test_scalegen : lane (.scalegenE8M0 (f 6 4 8 0 0 0)) (withRegs [(8, 0x447A_0000)]) 4 0 = 0x80 := by decide +kernel
theorem test_pack : lane (.pack (f 0 4 8 12 0 (16 + 2 * 2048))) (withRegs [(8, 0x7E), (12, 0x3D)]) 4 0 = 0x3D7E := by decide +kernel
theorem test_unpk : lane (.unpk (f 0 4 8 0 0 (2 * 2048 + 1 * 2 ^ 14))) (withRegs [(8, 0x3D7E)]) 4 0 = 0x3D := by decide +kernel
theorem test_xlane_rot : lane (.xlaneImm .rot (f 0 4 8 0 0 31)) withLanes 4 0 = 31 ∧ lane (.xlaneImm .seg (f 0 4 8 0 0 3)) withLanes 4 15 = 8 := by decide +kernel
theorem test_ballot : lane (.ballot (f 0 4 8 0 0 0)) withLanes 4 31 = 0xFFFF_FFFE := by decide +kernel
theorem test_vote : lane (.voteAll (f 0 4 8 0 0 0)) withLanes 4 3 = 0 ∧ lane (.voteEq (f 0 4 8 0 0 0)) withLanes 4 3 = 0 ∧ lane (.voteAny (f 0 4 8 0 0 0)) withLanes 4 3 = 1 := by
  decide +kernel
theorem test_lred : lane (.lredInt .addN (f 0 4 8 0 0 0)) withLanes 4 7 = 496 := by decide +kernel
theorem test_lscan : lane (.lscanInt .addN (f 0 4 8 0 8 0)) withLanes 4 4 = 6 ∧ lane (.lscanInt .addN (f 0 4 8 0 0 0)) withLanes 4 4 = 10 := by decide +kernel

/-! ### Steps of the machine: fetch, memory, barriers, events, the Landing -/

/-- The next start after a word is placed: a step fetches and runs it (02 R34-R39, R60; log 2). -/
theorem test_step_runs_the_padding_word : see 0 (fun v => v.pc) (step (State.reset.withFetchWord 96 0xFB)) = 0x10001 := by decide +kernel
theorem test_step_runs_a_move : see 0 (fun v => v.regLane 10 3) (step (State.reset.withFetchWord 96 0x00000080_00000000_00142025)) = 0x80 := by decide +kernel
theorem test_step_refuses_a_word : see 0 (fun v => fld v.cause 7 0) (step (State.reset.withFetchWord 96 0x00)) = 0x01 := by decide +kernel
/-- 21 R365: `DGET` of the tag of an empty capability, at Landing core 0. -/
theorem test_step_of_the_landing : (match step (State.reset.withFetchWord 32 0x0000608B) with | .next t => some ((t.lcore 0).pc) | _ => none) =
    some ((State.reset.lcore 0).pc + 4) := by decide +kernel

/-- Bytes that core 0's writes hold on their way to memory. -/
def pendOf (o : Host.Outcome State Fault Refusal) : List (List (Nat × Byte)) :=
  match o with | .next t => ((t.core 0).pend.map fun p => p.bytes) | _ => []

/-- The wave whose only live lane is lane 0. -/
def oneLane (l : List (Nat × Word)) : Wave := { withRegs l with live := 1, exm := 1 }

/-- 10 R184, R187: address is the pair A plus the signed offset; `.b32` stores four bytes, low first, physical by the leaf of stage 3. -/
theorem test_st_bytes : pendOf (exec (.st .gl (f 2 0 8 12 0 0xFF_FFF0)) (st (oneLane [(8, 0x2_0010), (12, 0x0403_0201)]))) =
    [[(0x2_0000, 1), (0x2_0001, 2), (0x2_0002, 3), (0x2_0003, 4)]] := by decide +kernel
theorem test_st_outside_the_map : causeOf (.st .gl (f 2 0 8 12 0 0)) (oneLane [(9, 0x200_0000)]) = 0x10 := by decide +kernel
theorem test_ld_awaits : see ([], 0) (fun v => (v.scoreboard.map Prod.fst, v.pc)) (exec (.ld .gl (f 4 4 8 0 0 0)) (st (oneLane [(8, 0x2000)]))) = ([4, 5], 0x10001) := by decide +kernel
theorem test_ld_data : (match exec (.ld .gl (f 2 4 8 0 0 0)) (st (oneLane [(8, 0x2000)])) with | .next t => (t.core 0).loads.map (fun r => r.data) | _ => []) =
    [[(0, 0xC1F, 0, false)]] := by decide +kernel
theorem test_atom_sends_one_request : (match exec (.atom .add (f 1 4 8 12 0 0)) (st (withRegs [(8, 0x2_0000), (12, 1)])) with
    | .next t => (t.core 0).atoms.map (fun r => (r.addr, r.lanes.length)) | _ => []) = [(0x2_0000, 32)] := by decide +kernel
theorem test_balloc_expects_none : causeOf (.ballocPhase (f 0 4 8 12 0 0)) (oneLane []) = 0x32 := by decide +kernel
theorem test_balloc_misaligned : causeOf (.ballocCount (f 0 4 8 12 0 0)) (oneLane [(8, 8)]) = 0x12 := by decide +kernel
theorem test_barrive_stale : causeOf (.barrive (f 0 0 8 0 0 1)) (oneLane []) = 0x30 := by decide +kernel
theorem test_gsync_without_gang : causeOf (.gsync (f 0 0 0 0 0 0)) tWave = 0x32 := by decide +kernel
theorem test_gjoin_of_no_ticket : causeOf (.gjoin (f 0 4 8 0 0 0)) tWave = 0x32 := by decide +kernel
/-- 20 R350: `BTARGET` above 24 bits. -/
theorem test_btarget_range : causeOf (.btarget (f 0 0 8 0 0 0)) (withRegs [(8, 0x100_0000)]) = 0x32 := by decide +kernel
theorem test_beat_sends : (match exec (.beat (f 0 0 0 0 0 9)) tState with | .next t => t.beats | _ => []) = [(2, 0, 9)] := by decide +kernel
theorem test_beat_without_one : exec (.beatArrive 0) tState = .fault .notEnabled := rfl
/-- 21 R366: a Landing access without a tagged capability is exception 24. -/
theorem test_dld_untagged : (match exec (.dld 1 2 3 3 true) tState with | .next t => Tab.get 0 (t.lcore 0).ecause 0 | _ => 0) = 24 := by decide +kernel
/-- 21 R368: `SRET` goes back to the level that DPREV names. -/
theorem test_sret : (match step (State.reset.withFetchWord 32 0x10200073) with | .next t => some ((t.lcore 0).pc) | _ => none) = some 0 ∧
    (let t := returnL (State.reset.setReg (.dprev .op) 3) 0 { (State.reset.lcore 0) with level := 1, epc := [(1, 0x40)], handling := [1] }
     ((t.lcore 0).level, (t.lcore 0).pc, (t.lcore 0).handling)) = (3, 0x40, []) := by decide +kernel
theorem test_reset_memory : Memory.wf State.reset.mem = true ∧ Memory.wf (State.reset.withFetchWord 96 0xFB).mem = true := by decide +kernel

/-! ### Witnesses: the hypotheses of the statements can be met -/

/-- Every statement about an instruction that issues (`Issuing`), at every type code: integer_arithmetic, compares_selects_and_counts, logic_and_ternary,
shifts_fields_and_moves, float_instructions, reciprocals_roots_and_approximations, format_conversions, scales_quantisation_and_packing, reductions_and_scans,
moves_votes_and_ballots, capabilities, and those below that add hypotheses of their own. -/
theorem witness_issuing : ∀ ty, ty < 16 → Issuing tState 2 tWave ∧ (f ty 4 8 12 0 16).ty.toNat = ty := by
  intro ty h
  exact ⟨⟨rfl, rfl⟩, by interval_cases ty <;> rfl⟩

/-- decode_of_encode and wave_encode_of_decode. -/
theorem witness_words : (∃ x, (Instr.add (f 3 4 8 12 0 0)).wf = true ∧ encodeWave (.add (f 3 4 8 12 0 0)) = some x) ∧
    (∃ x, (Instr.hint 5).wf = true ∧ encodeWave (.hint 5) = some x) ∧ (∃ i, decodeWave 0xFB = .ok i) ∧ ∃ x, encodeLanding .landingFenceRw = some x := by
  exact ⟨⟨_, rfl, rfl⟩, ⟨_, rfl, rfl⟩, ⟨_, rfl⟩, ⟨_, rfl⟩⟩

/-- words_decode_as_written: each reserved opcode has words. -/
theorem witness_reserved : fld (0xFFFF_FF00 : IWord) 7 0 = 0 ∧ fld (0xFFFF_FFFF : IWord) 7 0 = 0xFF ∧ fld (0xFFFF_FFFE : IWord) 7 0 = 0xFE := by decide +kernel

/-- shifts_fields_and_moves: fields at both ends of the word, and every code of `BYTSEL`. -/
theorem witness_fields :
    ((f 0 4 8 0 0 (31 + 1 * 32)).bits 68 64 = 31 ∧ (f 0 4 8 0 0 (31 + 1 * 32)).bits 74 69 = 1) ∧
    ((f 1 4 8 0 0 (0 + 32 * 32)).bits 68 64 = 0 ∧ (f 1 4 8 0 0 (0 + 32 * 32)).bits 74 69 = 32) ∧
    ∀ k, k < 11 → (f 2 4 8 12 0 (k * 2048)).bits 78 75 = k ∧ (f 2 4 8 12 0 (k * 2048 * 4096)).bits 90 87 = k := by decide +kernel

/-- The pattern of 1.0 in `.f32`, and of 2^-126, as finite values. -/
theorem one_f32 : (fmtTy 0).decode 0x3F80_0000 = .fin false 0x80_0000 (-23) := by decide +kernel

/-- float_results: rounding up to the largest finite value, in the widest and the narrowest format. -/
theorem witness_rounding : ∀ ty ∈ [0, 1, 9], (fmtTy ty).maxM ≠ 0 ∧
    |Spec.rat (.fin true (fmtTy ty).maxM (fmtTy ty).maxQ)| ≤ Spec.rat (.fin false (fmtTy ty).maxM (fmtTy ty).maxQ) := by
  intro ty h
  refine ⟨by revert ty; decide +kernel, ?_⟩
  simp [Spec.rat, abs_mul]

/-- reciprocals_roots_and_approximations: a power of 4, a half and an integer, and a number that is none of them. -/
def tVal (x : Nat) : ℚ := Spec.rat ((fmtTy 0).flush true ((fmtTy 0).decode x))
theorem tVal_four : tVal 0x4080_0000 = 4 := by
  rw [tVal, show (fmtTy 0).flush true ((fmtTy 0).decode 0x4080_0000) = .fin false (2 ^ 23) (-21) by decide +kernel]
  norm_num [Spec.rat]
theorem tVal_half : tVal 0xBF00_0000 = -1 / 2 := by
  rw [tVal, show (fmtTy 0).flush true ((fmtTy 0).decode 0xBF00_0000) = .fin true (2 ^ 23) (-24) by decide +kernel]
  norm_num [Spec.rat]
theorem witness_exact_cases :
    (∀ x ∈ [0x4080_0000, 0xBF00_0000, 0x4049_0FDB], Spec.finite ((fmtTy 0).flush true ((fmtTy 0).decode x)) = true) ∧
    tVal 0x4080_0000 = 4 ^ (1 : ℤ) ∧ tVal 0x4080_0000 = (4 : ℤ) ∧ tVal 0x4080_0000 = 2 ^ (2 : ℤ) ∧ 2 * tVal 0xBF00_0000 = (-1 : ℤ) ∧ 2 * tVal 0x4080_0000 = (8 : ℤ) := by
  rw [tVal_four, tVal_half]
  exact ⟨by decide +kernel, by norm_num, by norm_num, by norm_num, by norm_num, by norm_num⟩

theorem witness_float_operations : let one := (fmtTy 0).flush false ((fmtTy 0).decode 0x3F80_0000)
    let m := (fmtTy 0).flush false ((fmtTy 0).decode 0xBF80_0000)
    let z := (fmtTy 0).flush false ((fmtTy 0).decode 0)
    Spec.finite one = true ∧ Spec.finite m = true ∧ Spec.finite z = true ∧ Spec.rat one + Spec.rat one ≠ 0 ∧ Spec.rat one + Spec.rat m = 0 ∧
      Spec.rat one - Spec.rat m ≠ 0 ∧ Spec.rat one * Spec.rat one ≠ 0 ∧ Spec.rat one * Spec.rat z = 0 ∧ Spec.rat one * Spec.rat one + Spec.rat one ≠ 0 ∧
      Spec.rat one * Spec.rat one - Spec.rat m ≠ 0 := by
  have h1 : (fmtTy 0).flush false ((fmtTy 0).decode 0x3F80_0000) = .fin false 0x80_0000 (-23) := by decide +kernel
  have h2 : (fmtTy 0).flush false ((fmtTy 0).decode 0xBF80_0000) = .fin true 0x80_0000 (-23) := by decide +kernel
  have h3 : (fmtTy 0).flush false ((fmtTy 0).decode 0) = .fin false 0 (-149) := by decide +kernel
  simp only [h1, h2, h3]
  norm_num [Spec.finite, Spec.rat]

theorem witness_nans : ∀ ty ∈ [0, 1, 3, 4], (fmtTy ty).canonNan < 2 ^ (fmtTy ty).bits ∧ ((fmtTy ty).decode (fmtTy ty).canonNan).isNan = true ∧
    ((fmtTy ty).decode ((fmtTy ty).infBits false + 1)).isSig = true := by decide +kernel

/-- float_instructions: ordered and unordered operands in a lane. -/
theorem witness_fcmp : Spec.finite ((fmtTy 0).flush tWave.ftz ((fmtTy 0).decode (rawOf 0 0 (tWave.fopnd 0 (f 0 4 8 12 0 0).a 0)))) = true ∧
    ((fmtTy 0).flush (withRegs [(8, 0x7FC0_0000)]).ftz ((fmtTy 0).decode (rawOf 0 0 ((withRegs [(8, 0x7FC0_0000)]).fopnd 0 (f 0 4 8 12 0 0).a 31)))).isNan = true := by
  decide +kernel

/-- format_conversions: the bounds of the integer types, and just past them. -/
theorem witness_integer_conversion : ∀ ty, ty < 5 →
    ((intMin ty : ℚ) ≤ Spec.rat (.fin false 0 0) ∧ Spec.rat (.fin false 0 0) ≤ intMax ty) ∧ (intMax ty : ℚ) + 1 ≤ Spec.rat (.fin false 1 64) ∧
    Spec.rat (.fin true 1 65) ≤ (intMin ty : ℚ) - 1 := by
  intro ty h
  interval_cases ty <;> norm_num [intMin, intMax, intTy, Spec.rat]

/-- scales_quantisation_and_packing: a block with a special value, one of zeros, one whose largest magnitude is 1 = 2^0; a slot that fits. -/
theorem witness_block_scales : let v := fun (w : Wave) => (fmtTy 0).decode (rawOf 0 0 (w.fopnd 0 (f 6 4 8 0 0 0).a 0))
    (tWave.active .always).getLsbD 0 = true ∧ Spec.finite (v (withRegs [(8, 0x7F80_0000)])) = false ∧ v tWave = .fin false 0 (-149) ∧
    v (withRegs [(8, 0x3F80_0000)]) = .fin false 0x80_0000 (-23) ∧ (v (withRegs [(8, 0x7FC0_0000)])).isNan = true ∧
    packWidth ((f 0 4 8 12 0 (1 * 2048 + 2 * 2 ^ 14)).bits 77 75) * (2 + 2) ≤ 24 := by decide +kernel

theorem witness_quantised : (e8m0 0xFF).isNan = true ∧ (∃ b, ((fmtTy 6).decode b).isZero = true) ∧ e8m0 0x80 = .fin false 1 1 := by
  exact ⟨by decide +kernel, ⟨0, by decide +kernel⟩, by decide +kernel⟩

/-- reductions_and_scans: the tree over an active lane is not empty. -/
theorem witness_tree : ∃ r, Spec.node (fun a _ => a) (fun l => if l = 31 then some ⟨5, 0⟩ else none) 5 0 = some r := ⟨_, rfl⟩

/-- capabilities: derivations that pass and that fail in every way. -/
theorem witness_derivations :
    (∃ c d, narrow c 0x2000 0x2000 0 = .ok d ∧ c.tag = true) ∧ Spec.cause (narrow ⟨0, false⟩ 0 0 0) = some 0x10 ∧
    Spec.cause (narrow ⟨0x1000_0000_0000_0000_0000, true⟩ 0xFFF 2 0) = some 0x11 ∧ (∃ c raw d, narrowSet c raw 0 = .ok d) ∧
    Spec.cause (narrowSet ⟨0x1000_0000_0000_0000_0000, true⟩ ⟨0x0200_0000_0000_0000, false⟩ 0) = some 0x12 ∧ ∃ d, permit ⟨0, true⟩ 0 0 = .ok d := by
  refine ⟨⟨⟨0x4000_0000_0000_0000_0000, true⟩, _, rfl, rfl⟩, by decide +kernel, by decide +kernel, ⟨⟨0, true⟩, ⟨0, false⟩, _, rfl⟩, by decide +kernel, ⟨_, rfl⟩⟩

theorem witness_derivation_fails : ∀ l, l < 32 → (tWave.active (f 0 12 8 32 0 34).g).getLsbD l = true ∧
    Spec.cause (narrow (tWave.quadOpnd (f 0 12 8 32 0 34).a l) (tWave.opnd true (f 0 12 8 32 0 34).b l).toNat
      (tWave.opnd true (f 0 12 8 32 0 34).c l).toNat l) = some 0x10 := by decide +kernel

/-- transfers_of_control: a target that is legal, one that is not; lanes that agree, that do not, an address above 57 bits, no lane. -/
theorem witness_transfers :
    checkTarget tState tWave (Spec.target tWave (f 0 0 0 0 0 8)) = .good ∧ checkTarget tState tWave (Spec.target tWave (f 0 0 0 0 0 0xFFFF_FFF0)) = .cause 0x03 ∧
    checkTarget tState tWave (Spec.target tWave (f 0 0 0 0 0 13)) = .cause 0x03 ∧
    (withLanes.exm.getLsbD 31 = true ∧ withLanes.opnd32 (f 0 0 8 0 0 0).a 31 ≠ 0 ∧ withLanes.opnd32 (f 0 0 8 0 0 0).a 0 = 0) := by decide +kernel

theorem witness_returns :
    (fld ((withRegs [(8, 0x10040)]).opnd true (f 0 0 8 0 0 0).a 0) 63 57 = 0 ∧
      checkTarget tState (withRegs [(8, 0x10040)]) (((withRegs [(8, 0x10040)]).opnd true (f 0 0 8 0 0 0).a 0).setWidth 57) = .good ∧
      ∀ l, l < 32 → (withRegs [(8, 0x10040)]).opnd true (f 0 0 8 0 0 0).a l = (withRegs [(8, 0x10040)]).opnd true (f 0 0 8 0 0 0).a 0) ∧
    withLanes.opnd true (f 0 0 8 0 0 0).a 1 ≠ withLanes.opnd true (f 0 0 8 0 0 0).a 0 ∧
    fld ((withRegs [(9, 0x200_0000)]).opnd true (f 0 0 8 0 0 0).a 0) 63 57 ≠ 0 ∧ ({ tWave with exm := 0 } : Wave).exm = 0 := by decide +kernel

def tLoop : Token := ⟨.loop, 0x10000, 0, 0⟩
def tPath : Token := ⟨.path, 0x10040, 1, 0⟩
def tJoin : Token := ⟨.join, 0x10000, 0xFFFF_FFFF, 0⟩

/-- reconvergence: each fork of `SPLIT`, at the depths where a push still fits and no longer does; every kind of token under `MEET`, at its PC and elsewhere. -/
theorem witness_tokens :
    tWave.tokens.length < 64 ∧ 64 ≤ ({ tWave with tokens := List.replicate 64 tLoop } : Wave).tokens.length ∧
    Spec.chosen tWave (f 0 0 8 0 0 0) = 0 ∧ (Spec.chosen (withRegs [(8, 1)]) (f 0 0 8 0 0 0) ≠ 0 ∧ tWave.exm &&& ~~~Spec.chosen (withRegs [(8, 1)]) (f 0 0 8 0 0 0) = 0) ∧
    (Spec.chosen withLanes (f 0 0 8 0 0 0) ≠ 0 ∧ tWave.exm &&& ~~~Spec.chosen withLanes (f 0 0 8 0 0 0) ≠ 0) ∧
    ({ withLanes with tokens := List.replicate 62 tLoop } : Wave).tokens.length < 63 ∧ 64 < ({ withLanes with tokens := List.replicate 63 tLoop } : Wave).tokens.length + 2 ∧
    checkTarget tState tWave ((tWave.pc &&& ~~~(63 : PC)) + BitVec.ofInt 57 (64 * (((f 0 0 8 0 0 8).tail.setWidth 16 : BitVec 16).toInt / 8)) +
      BitVec.ofNat 57 (fld ((f 0 0 8 0 0 8).tail.setWidth 16 : BitVec 16) 2 0)) = .good ∧
    tPath.kind = .path ∧ (tLoop.kind ≠ .path ∧ tLoop.pc = tWave.pc) ∧ (tJoin.kind ≠ .path ∧ tJoin.pc ≠ (0x10001 : PC)) ∧
    ((tWave.exm ||| tLoop.mask) &&& tWave.live ≠ 0) ∧ ((0 : Mask) ||| ({ tJoin with mask := 0 } : Token).mask) &&& tWave.live = 0 := by decide +kernel

theorem witness_settling : ({ tWave with exm := 0, tokens := [tPath, tJoin] } : Wave).tokens = tPath :: [tJoin] ∧
    ({ tWave with exm := 0, tokens := [tPath, tJoin] } : Wave).exm &&& tWave.live = 0 ∧ tWave.exm &&& tWave.live ≠ 0 := by decide +kernel

theorem witness_breaks : let w : Wave := { withLanes with tokens := [tPath] ++ tLoop :: [tJoin] }
    w.exm ≠ 0 ∧ Spec.chosen w (f 0 0 8 0 0 0) ≠ 0 ∧ w.exm &&& ~~~Spec.chosen w (f 0 0 8 0 0 0) ≠ 0 ∧ w.exm &&& ~~~w.exm = 0 ∧ (∀ k ∈ [tPath], k.kind ≠ .loop) ∧
    tLoop.kind = .loop ∧ (∀ e ∈ tWave.tokens, e.kind ≠ .loop) ∧ Spec.chosen tWave (f 0 0 8 0 0 0) = 0 := by decide +kernel

/-- waits_exits_and_traps: some lanes leave, all active lanes leave while a token holds others, all leave. -/
theorem witness_exits :
    withLanes.exm &&& ~~~withLanes.active (.on false 8) ≠ 0 ∧
    (let v : Wave := { tWave with exm := 0, live := 0xFFFF_FFFE, tokens := [{ tJoin with mask := 0xFFFF_FFFF }] }
     v.exm = 0 ∧ (v.settle 0x10001).exm &&& (v.settle 0x10001).live ≠ 0) ∧
    (let v : Wave := { tWave with exm := 0, live := 0 }
     v.exm = 0 ∧ (v.settle 0x10001).exm &&& (v.settle 0x10001).live = 0) := by decide +kernel

theorem witness_waits : (some 5 : Option Nat).isSome = true ∧ Tab.find tState.waves 2 = some tWave ∧
    ({ tWave with waitUntil := some 0 } : Wave).waitUntil = some 0 ∧ 0 ≤ tState.cycle 0 ∧ tState.cycle 0 < 1 := by
  exact ⟨rfl, rfl, rfl, Nat.zero_le _, by decide +kernel⟩

/-- special_registers: every selector; a write by lane 0, and by none. -/
theorem witness_special_registers : (∀ k, k ≤ 0x10 → (f 0 4 0 0 0 k).bits 71 64 = k ∧ (f 0 4 0 0 0 k).g = .always) ∧
    (tWave.exm.getLsbD 0 = true ∧ ∀ k, k < 0 → tWave.exm.getLsbD k = false) ∧ ({ tWave with exm := 0x8000_0000 } : Wave).exm.getLsbD 31 = true ∧
    (∀ k, k < 31 → ({ tWave with exm := 0x8000_0000 } : Wave).exm.getLsbD k = false) := by
  refine ⟨?_, ⟨by decide, by omega⟩, by decide, by decide +kernel⟩
  intro k h
  interval_cases k <;> exact ⟨rfl, rfl⟩

/-- One lane's place. -/
def tAcc (pl : Place) (a n : Nat) : LaneAcc := { lane := 0, va := a, place := pl, addr := (List.range n).map (a + ·) }

/-- A capability over 2^13 bytes from 0x2000 with every permission, as four registers from 8 whose tag is set in lane 0. -/
def capsWave (more : List (Nat × Word)) : Wave :=
  { oneLane ([(8, 0x2000), (9, 0x7E00_0000), (10, 0x2000), (11, 0)] ++ more) with tags := [(8, 1), (9, 1), (10, 1), (11, 1)] }

/-- loads: accesses of one lane that pass every check: `.b32` in global memory by a raw pair, at the first place of the scratchpad window, by a capability whose
last bytes it takes, a 16-byte capability, and an indexed load; nothing gates them, nothing is poisoned or on its way there, and no format range covers it. -/
theorem witness_loads :
    Spec.Accesses tState 2 (oneLane [(8, 0x2000)]) { sp := .gl, n := 4, perm := pRD, align := false, kind := .read } ((oneLane [(8, 0x2000)]).active .always)
      ((oneLane [(8, 0x2000)]).formM .gl (f 2 4 8 0 0 0).a (f 2 4 8 0 0 0).ofs) [tAcc .glob 0x2000 4] ∧
    Spec.Accesses tState 2 (oneLane [(8, 0)]) { sp := .sp, n := 4, perm := pRD, align := false, kind := .read } ((oneLane [(8, 0)]).active .always)
      ((oneLane [(8, 0)]).formM .sp (f 2 4 8 0 0 0).a (f 2 4 8 0 0 0).ofs) [tAcc (.scr 1) 0 4] ∧
    Spec.Accesses tState 2 (capsWave []) { sp := .gl, n := 4, perm := pRD, align := false, kind := .read } ((capsWave []).active .always)
      ((capsWave []).formM .gl (f 2 4 8 0 0 0x1FFC).a (f 2 4 8 0 0 0x1FFC).ofs) [tAcc .glob 0x3FFC 4] ∧
    Spec.Accesses tState 2 (capsWave []) { sp := .gl, n := 16, perm := pRD, align := true, kind := .read } ((capsWave []).active .always)
      ((capsWave []).formM .gl (f 0 4 8 0 0 0).a (f 0 4 8 0 0 0).ofs) [tAcc .glob 0x2000 16] ∧
    Spec.Accesses tState 2 (capsWave [(12, 3)]) { sp := .gl, n := 4, perm := pRD, align := false, kind := .read } ((capsWave [(12, 3)]).active .always)
      ((capsWave [(12, 3)]).formG (f 2 4 8 12 0 (2 * 2 ^ 11))) [tAcc .glob 0x200C 4] ∧
    (∀ a ∈ (tAcc .glob 0x2000 4).addr, tState.viewPoison 0 (.wave 2) .glob a = false) ∧
    (∀ x ∈ [f 2 4 8 0 0 0, f 2 4 8 0 0 0x40_0000], tState.orderGates 2 tWave (ordM x) [tAcc .glob 0x2000 4] = []) ∧
    Spec.Plain tState 0x2000 ∧ Spec.Settled tState 0 .glob 0x2000 := by
  refine ⟨⟨?_, ?_, ?_⟩, ⟨?_, ?_, ?_⟩, ⟨?_, ?_, ?_⟩, ⟨?_, ?_, ?_⟩, ⟨?_, ?_, ?_⟩, ?_, ?_, ?_, ?_⟩ <;>
    first | decide +kernel | (unfold Spec.Plain; decide +kernel) | (unfold Spec.Settled; decide +kernel)

/-- loads: the bytes of an access that lie in one aligned piece stand together, and nothing of a granule is under way. -/
theorem witness_grouped : Spec.Grouped (tAcc .glob 0x2000 4).addr ∧ Spec.Quiet tState 0 .glob 0x200 := by
  refine ⟨?_, by unfold Spec.Quiet; decide +kernel⟩
  intro i j k a b c _ _ ha hb _ _
  have go : ∀ n y : Nat, (tAcc .glob 0x2000 4).addr[n]? = some y → y / 8 = 0x400 := by
    intro n y h
    have : ∀ z ∈ (tAcc .glob 0x2000 4).addr, z / 8 = 0x400 := by decide +kernel
    exact this y (List.mem_of_getElem? h)
  rw [go i a ha, go j b hb]

/-- loads: a lane whose bytes are poisoned. -/
theorem witness_poisoned_load : ((tAcc .glob 0x2000 4).addr.any
    fun b => ({ tState with mpoison := [(0x2000 / 32, true)] } : State).viewPoison 0 (.wave 2) .glob b) = true := by decide +kernel

/-- loads: a load whose data is to return, of one register, of two, and of a capability. -/
def tRec (n : Nat) (cap : Bool) : LoadRec :=
  { id := 7, wave := 2, dest := 4, count := n, ty := 2, isCap := cap, act := 1, acc := [tAcc .glob 0x2000 4], data := [(0, 5, 0, false)], clean := true, vol := true
    base := 0, know := [], ids := [], key := none, dropped := false }
def awaitWave : Wave := { tWave with scoreboard := [(4, 7), (5, 7), (6, 7), (7, 7)] }
theorem witness_load_data : ∀ n ∈ [1, 2, 4], let s : State := { tState with cores := [(0, { loads := [tRec n (n == 4)] })], waves := [(2, awaitWave)] }
    (s.core 0).loads[0]? = some (tRec n (n == 4)) ∧ Tab.find s.waves (tRec n (n == 4)).wave = some awaitWave ∧ (tRec n (n == 4)).dest % 256 + n ≤ 256 ∧
      ((tRec n (n == 4)).act &&& sliceMask awaitWave.live).getLsbD 0 = true ∧ (∀ j ∈ (List.range n).map (4 + ·), awaitWave.owes j 7 = true) ∧
      (s.loadData 0 (tRec n (n == 4))).1 = [(0, 5, 0, false)] := by decide +kernel
/-- loads: an acquire at `.wave` behind the wave's own load has something to wait for. -/
theorem witness_gated_load : ({ tState with cores := [(0, { loads := [tRec 1 false] })] } : State).orderGates 2 tWave { acq := true } [tAcc .glob 0x2000 4] ≠ [] ∧
    tState.orderGates 2 tWave { acq := true } [tAcc .glob 0x2000 4] = [] := by decide +kernel

/-- stores_spills_and_fills: writes by a raw pair, in the window, of a capability, indexed, and of a whole register at both ends of the count. -/
theorem witness_stores :
    Spec.Accesses tState 2 (oneLane [(8, 0x2000)]) { sp := .gl, n := 4, perm := pWR, align := false, kind := .write } ((oneLane [(8, 0x2000)]).active .always)
      ((oneLane [(8, 0x2000)]).formM .gl (f 2 0 8 12 0 0).a (f 2 0 8 12 0 0).ofs) [tAcc .glob 0x2000 4] ∧
    Spec.Accesses tState 2 (capsWave []) { sp := .gl, n := 16, perm := pWR, align := true, kind := .write } ((capsWave []).active .always)
      ((capsWave []).formM .gl (f 0 0 8 12 0 0x1FF0).a (f 0 0 8 12 0 0x1FF0).ofs) [tAcc .glob 0x3FF0 16] ∧
    Spec.Accesses tState 2 (capsWave [(12, 3)]) { sp := .gl, n := 4, perm := pWR, align := false, kind := .write } ((capsWave [(12, 3)]).active .always)
      ((capsWave [(12, 3)]).formG (f 2 0 8 12 0 (2 * 2 ^ 11))) [tAcc .glob 0x200C 4] ∧
    (∀ k ∈ [0, 3], let w : Wave := { oneLane [(8, 0)] with xcnt := k }
      k ≤ fld (f 0 4 8 12 3 0).mod 4 0 ∧
      Spec.Accesses tState 2 w { sp := .sp, n := 128, perm := pWR, align := false, kind := .write } (1#32 <<< (lowest w.live).getD 0)
        (fun _ => spillForm w .sp (f 0 4 8 12 3 0) k) [tAcc (.scr 1) (128 * k) 128] ∧
      Spec.Accesses tState 2 w { sp := .sp, n := 128, perm := pRD, align := false, kind := .read } (1#32 <<< (lowest w.live).getD 0)
        (fun _ => spillForm w .sp (f 0 4 8 12 3 0) k) [tAcc (.scr 1) (128 * k) 128]) ∧
    (tAcc .glob 0x2000 4).addr.Nodup ∧ (tAcc .glob 0x2000 4).addr.length = (storeBytes 2 (oneLane []) (.reg 12 false false) 0).length ∧
    tState.liveObjects 0 1 = [] ∧ tState.backing 0 0x2000 = .mem 0 ∧ tState.atHome 0 .glob 0x2000 = false := by
  refine ⟨⟨?_, ?_, ?_⟩, ⟨?_, ?_, ?_⟩, ⟨?_, ?_, ?_⟩, ?_, ?_⟩
  on_goal 10 =>
    intro k hk
    have hk : k = 0 ∨ k = 3 := by simpa using hk
    obtain rfl | rfl := hk <;> refine ⟨?_, ⟨?_, ?_, ?_⟩, ⟨?_, ?_, ?_⟩⟩ <;> decide +kernel
  all_goals decide +kernel

/-- checks_of_accesses: each cause that a form raises, at its lowest lane. -/
theorem witness_checks :
    (formChk tState 1 { sp := .gl, n := 4, perm := pRD, align := false, kind := .read } ((oneLane [(9, 0x200_0000)]).formM .gl (.reg 8 false false) 0 0) 0).map
      Chk.code = some 0x10 ∧
    (formChk tState 1 { sp := .gl, n := 4, perm := pRD, align := false, kind := .read } ((capsWave []).formM .gl (.reg 8 false false) 0x1FFD 0) 0).map
      Chk.code = some 0x11 ∧
    (formChk tState 1 { sp := .sp, n := 4, perm := pRD, align := false, kind := .read } ((capsWave []).formM .sp (.reg 8 false false) 0 0) 0).map
      Chk.code = some 0x12 ∧
    (formChk tState 1 { sp := .gl, n := 16, perm := pRD, align := true, kind := .read } ((capsWave []).formM .gl (.reg 8 false false) 8 0) 0).map
      Chk.code = some 0x12 ∧
    (formChk tState 1 { sp := .sp, n := 4, perm := pRD, align := false, kind := .read } (.scr (tGroup.window - 3)) 0).map Chk.code = some 0x11 ∧
    (formChk tState 1 { sp := .sp, n := 4, perm := pRD, align := false, kind := .read } (.scr (tGroup.window - 4)) 0).map Chk.code = none ∧
    (∀ k, k < 32 → ((oneLane []).active .always).getLsbD k = true → k = 0) := by decide +kernel

/-- checks_of_accesses: the clauses about a scratchpad capability, inside and outside the window. -/
theorem witness_forms : let c : Cap := ⟨0x1_0000_0000_FE00_0000_0000_0000, true⟩
    Tab.find tState.groups 1 = some tGroup ∧ c.scr = true ∧ ((c.base : Int) ≤ 0 ∧ (0 : Int) + 4 ≤ c.top) ∧ ((c.base : Int) ≤ tGroup.window ∧ (tGroup.window : Int) + 4 ≤ c.top) ∧
    (0 ≤ (tGroup.window : Int) - 4 ∧ (tGroup.window : Int) - 4 + 4 ≤ tGroup.window) ∧ c.has pRD = true := by decide +kernel

/-- atomics: requests of one lane; integer, compare-and-swap, float; and one request that may perform, in memory and in the window. -/
def tReq (pl : Place) : AtReq :=
  { id := 9, inst := 8, wave := 2, dest := some 4, kind := .int .add 0, place := pl, addr := 0x2000, size := 4, lanes := [(0, 1, 0), (31, 2, 0)], after := [], ctx := 0 }
theorem witness_atomics :
    (∀ k ∈ [AtKind.int .add 0, .cas 0, .flt .add .f32 0], Spec.Accesses tState 2 (oneLane [(8, 0x2000)]) { sp := .gl, n := k.size, perm := pAT, align := true, kind := .atomic }
      ((oneLane [(8, 0x2000)]).active .always) (fun l => (oneLane [(8, 0x2000)]).formM (f 0 4 8 12 0 0).atSpace (f 0 4 8 12 0 0).a (f 0 4 8 12 0 0).ofs l)
      [tAcc .glob 0x2000 4]) ∧
    (∀ pl ∈ [Place.glob, .scr 1], let s : State := { tState with cores := [(0, { atoms := [tReq pl] })], waves := [(2, { tWave with scoreboard := [(4, 8)] })] }
      (s.core 0).atoms[0]? = some (tReq pl) ∧ (tReq pl).after = [] ∧ (s.core 0).pend = [] ∧ s.liveObjects 0 1 = [] ∧ s.windows = [] ∧ s.backing 0 0x2000 = .mem 0 ∧
      s.placeMoves pl = false ∧ (Tab.find s.groups 1).isSome = true ∧
      (∀ a ∈ (List.range 4).map (0x2000 + ·), (if pl = .glob then s.prepRead 0 0 .normal ((List.range 4).map (0x2000 + ·)) else s).viewPoison 0 (.wave 2) pl a = false) ∧
      Tab.find s.waves (tReq pl).wave = some { tWave with scoreboard := [(4, 8)] } ∧ ({ tWave with scoreboard := [(4, 8)] } : Wave).owes 4 (tReq pl).inst = true ∧
      ((tReq pl).kind.serve 0 (tReq pl).lanes).1.find? (fun e => e.1 == 31) = some (31, 1)) := by
  refine ⟨?_, by decide +kernel⟩
  intro k hk
  simp only [List.mem_cons, List.not_mem_nil, or_false] at hk
  obtain rfl | rfl | rfl := hk <;> refine ⟨?_, ?_, ?_⟩ <;> decide +kernel

/-- ordering: with nothing to publish and with something; each scope at hand; a write and a release that may complete; a wave at an acquire. -/
def tWrite : PWrite :=
  { id := 5, party := .wave 2, place := .glob, bytes := [(0x2000, 1), (0x2001, 2)], tags := [(0x200, false)], after := [], ctx := 0, cp := .normal }
def tOrd : State :=
  { tState with cores := [(0, { pend := [tWrite], releases := [{ id := 6, party := .wave 2, scope := .die, need := [] }] })]
                waves := [(2, { tWave with gates := [.acq .die] })] }
theorem witness_ordering : (tState.core 0).publication (.wave 2) tWave.seen = [] ∧ (tState.core 0).releases = [] ∧ (tOrd.core 0).publication (.wave 2) [] = [5] ∧
    ((f 0 0 0 0 0 0).scopeM = .wave ∧ (f 0 0 0 0 0 0x100_0000).scopeM ≠ .wave) ∧
    ((tOrd.core 0).pend[0]? = some tWrite ∧ (tOrd.core 0).mayArrive 0 = true ∧ tOrd.placeMoves .glob = false ∧ (tWrite.bytes.map Prod.fst).Nodup ∧ tOrd.windows = [] ∧
      tOrd.backing (partyDie 0) 0x2000 = .mem 0) ∧
    ((tOrd.core 0).releases[0]? = some { id := 6, party := .wave 2, scope := .die, need := [] }) ∧ (tOrd.core 0).mayArrive 1 = false ∧
    Tab.find tOrd.waves 2 = some { tWave with gates := [.acq .die] } ∧ (Tab.find tState.groups 1).isSome = true := by decide +kernel

/-- ordering: a write of wave 3 that has arrived, published by a release whose mark wave 2 has read: a release that synchronises, and one that does not. -/
def tHist : List HEv :=
  [{ id := 3, ix := 0, core := 8, party := .wave 3, place := .glob, cells := [(0x2004, 9, 0)], tags := [] },
   { id := 4, ix := 1, core := 8, party := .wave 3, place := .glob, cells := [(0x2008, 9, 0)], tags := [] }]
def tRel (sc : Scope) : RelRec := { id := 4, core := 8, party := .wave 3, scope := sc, pub := ⟨0, [], [(.wave 3, 4)]⟩ }
theorem witness_acquire : let w : Wave := { tWave with gates := [.acq .die], heard := [4] }
    let s := fun sc => ({ tState with hist := tHist, homeIx := 2, rels := [tRel sc], waves := [(2, w)] } : State)
    Tab.find (s .die).waves 2 = some w ∧ w.gates = .acq .die :: [] ∧
    (tRel .die).observed (((s .die).settleReads 2 w).1.events 0) ((s .die).settleReads 2 w).2.seen ((s .die).rels.filter fun x => w.heard.contains x.id) = true ∧
    (tRel .die).mutual .die (.wave 2) 0 = true ∧ (tRel .core).mutual .die (.wave 2) 0 = false ∧ (∃ e ∈ (s .die).events 0, (tRel .die).pub.holds e = true) := by decide +kernel


/-- A group with two barriers: entry 0 a phase that expects one arrival, at offset 0, and entry 1 a count of 0, at offset 16; handles 0x100 and 0x101. Its
weight slot 1 holds `.f16` and its baton stands at entry 1 for one wave. -/
def bGroup : Group :=
  { tGroup with scr := [(0, 1), (11, 1), (27, 2)], slots := [(1, ⟨4, 0, false⟩)], baton := some (0x101, 1) }
def bCore : CoreSt :=
  { barriers := [(0, { live := true, group := 1, count := false, gen := 1, off := 0 }), (1, { live := true, group := 1, count := true, gen := 1, off := 16 })] }
def bState (w : Wave) (g : Group) (c : CoreSt) : State := { tState with waves := [(2, w)], groups := [(1, g)], cores := [(0, c)] }

/-- barriers: a free entry and a full table; offsets and values inside and out; live handles of both kinds, and a stale one; a wait that passes, one that
does not, and one whose barrier faulted or went away. -/
theorem witness_barrier_allocation : let s := bState tWave bGroup bCore
    (32 % 16 = 0 ∧ 32 + 16 ≤ bGroup.window) ∧ bGroup.window < bGroup.window + 16 ∧ (s.entry 0 2).live = false ∧ (∀ j, j < 2 → (s.entry 0 j).live = true) ∧
    s.barUsed 0 0 < min 256 (({ s with lregs := [(.barlim 0 0, 256)] } : State).regF (.barlim 0 0) 8 0) ∧ (∀ b ∈ (s.core 0).barriers, ¬ (b.2.live = true ∧ b.2.group = 1 ∧ b.2.off = 32)) ∧
    min 256 (({ s with lregs := [(.barlim 0 0, 2)] } : State).regF (.barlim 0 0) 8 0) ≤ s.barUsed 0 0 := by decide +kernel
theorem witness_barriers : let s := bState tWave bGroup bCore
    (s.entryOf 0 1 0x100 = some 0 ∧ (s.entry 0 0).count = false ∧ s.obj 0 0 = .phase 1 0 0 0 false) ∧
    (s.entryOf 0 1 0x101 = some 1 ∧ (s.entry 0 1).count = true ∧ s.obj 0 1 = .count 0 false) ∧ s.entryOf 0 1 0x200 = none ∧
    s.named 0 1 0x100 = false ∧ s.named 0 1 0x101 = true ∧ s.signalGates 0 2 = [] ∧ 0 + (f 0 0 8 0 0 1).bits 79 64 ≤ 1 ∧ 1 < 0 + (f 0 0 8 0 0 2).bits 79 64 := by
  decide +kernel
theorem witness_barrier_waits :
    (1 ≤ ((BitVec.ofNat 32 0 : Word) - 0xFFFF_FFFF).toNat ∧ ((BitVec.ofNat 32 0 : Word) - 0x8000_0000).toNat ≤ 2 ^ 31) ∧
    ¬ (1 ≤ ((BitVec.ofNat 32 0 : Word) - 0).toNat) ∧ ¬ (((BitVec.ofNat 32 0 : Word) - 0x7FFF_FFFF).toNat ≤ 2 ^ 31) ∧
    (bState tWave { bGroup with scr := [(0, 1), (11, 5)] } bCore).obj 0 0 = .phase 1 0 0 0 true ∧
    ∀ freed ∈ [false, true], ({ tWave with cond := .waiting (.waitb freed 0x100 0), held := some (.waitbPh (f 0 0 8 12 0 0)) } : Wave).evicted = none := by
  decide +kernel

/-- The wave with a global quad over 64 KiB from 0x2000 (`.f16`, pitch 16) in registers 8-11, one of the scratchpad window in 12-15, and a descriptor. -/
def eWave (d : List Word) : Wave :=
  { capsWave [(10, 0x1_0000), (11, 0x0010_0400), (12, 0), (13, 0xFE00_0000), (14, 0x1_0000), (15, 0x0010_0400)] with
    regs := ([(8, 0x2000), (9, 0x7E00_0000), (10, 0x1_0000), (11, 0x0010_0400), (12, 0), (13, 0xFE00_0000), (14, 0x1_0000), (15, 0x0010_0400)] ++
      (List.range 4).map (fun k => (16 + k, d.getD k 0))).map fun (e : Nat × Word) => (e.1, Vector.replicate 32 e.2)
    tags := (List.range 8).map fun k => (8 + k, 1) }

/-- Fields of an engine command: its quads, and the bits of its TAIL above them. -/
def ef (q1 q2 mod tail : Nat) : W := f 0 0 16 0 mod (q1 + q2 * 64 + tail)
/-- Descriptor of a linear copy of 256 bytes from offset 0 to offset 0x100, with its barrier. -/
def cDesc : List Word := [0, 0x100, 256, 0x100]
/-- Descriptor of a tile copy of 2 rows of 16 bytes. -/
def tDesc : List Word := [0, 0x100, 0x2_0010, 0x101]

/-- `MMA` of tile 0 from slot 1, and the code with it behind the slot of a `CPY` with FO. -/
def tMma : W := ef 2 0 0 (1 * 2 ^ 18)
def foMem : Mem :=
  let b : List (Nat × Byte) := (List.range 12).map fun k => (0x1000C + k, BitVec.ofNat 8 (((encodeWave (.mma tMma)).getD 0).toNat / 2 ^ (8 * k)))
  tState.mem.filter (fun e => e.1 < 0x10000) ++ b.filter (fun e => e.2 ≠ 0) ++ (tState.mem.filter (fun e => 0x10000 ≤ e.1))
def foSt (w : Wave) : State := { bState w bGroup bCore with mem := foMem }

/-- copies_issue: both kinds of copy with checks that pass, with room; a ring; a follow-on in the next slot. -/
theorem witness_copies_issue : let s := fun d => bState (eWave d) bGroup bCore
    Spec.Lowest (eWave cDesc) 0 ∧ copyChks false (ef 3 2 0 0) (s cDesc) (eWave cDesc) 0 = [] ∧ copyChks true (ef 3 2 0 0) (s tDesc) (eWave tDesc) 0 = [] ∧
    (s cDesc).signalGates 0 2 = [] ∧ (ef 3 2 0 0).mod.getLsbD 5 = false ∧
    copyChks false (ef 3 2 0 (2 ^ 12 + 9 * 2 ^ 17)) (s [0, 0x100, 256, 0x101_0101]) (eWave [0, 0x100, 256, 0x101_0101]) 0 = [] := by
  refine ⟨⟨by decide, by decide, by omega⟩, ?_⟩
  exact ⟨by rfl, by rfl, by decide +kernel, by decide +kernel, by rfl⟩
theorem witness_follow_on : let w : Wave := { eWave cDesc with regs := (eWave [0, 0, 1, 0]).regs }
    (foSt w).foSlot w = .mma (.mma tMma) tMma false ∧ foChks tMma (.mma tMma) (foSt w) w 0 = [] := by decide +kernel

/-- matrix_commands: each command with checks that pass, and one that fails; a baton that the wave holds, and one that it does not. -/
theorem witness_matrix_commands : let w := fun d => eWave d
    let s := fun d => bState (eWave d) bGroup bCore
    mmaChks tMma (s [0, 0, 1, 0]) (w [0, 0, 1, 0]) 0 = [] ∧ wbldChks (ef 2 0 0 (1 * 2 ^ 12)) (s [0, 0, 0, 0]) (w [0, 0, 0, 0]) 0 = [] ∧
    acczChks (ef 0 0 0 0) (s []) (w []) 0 = [] ∧ accldChks (ef 2 0 0 0) (s [0, 0, 0, 0]) (w [0, 0, 0, 0]) 0 = [] ∧
    accstChks (ef 2 0 0 0) (s [0, 0, 0, 0]) (w [0, 0, 0, 0]) 0 = [] ∧ (pickChk (acczChks (ef 0 0 0 (63 * 2 ^ 12)) (s []) (w []) 0)).isSome = true ∧
    (s []).accb (w []) ≠ 0 ∧ (s []).countChk (w []) 0x101 = [] ∧ (s []).batonChk (w []) = [] ∧
    (∃ k v f, (s []).entryOf 0 1 0x101 = some k ∧ (s []).obj 0 k = .count v f) ∧ bGroup.queue.length < 64 := by
  exact ⟨by decide +kernel, by decide +kernel, by rfl, by decide +kernel, by decide +kernel, by rfl, by decide +kernel, by rfl, by rfl, ⟨1, 0, false, by decide +kernel, by decide +kernel⟩, by decide⟩

/-- A record of tile 0, of one row from slot 1, by a scratchpad quad. -/
def tIssuer : Issuer := { wave := 2, group := 1, ctx := 0, pc := 0x10000, waveW := 0, tenant := 0, gridW := 0, groupW := 0, need := [], strict := false }
def tMrec (i : Instr) (d : List Word) (started : Bool) (prog : Nat) : MRec :=
  { id := 20, inst := i, by_ := tIssuer, cap1 := (eWave []).quadQ 3 0, cap2 := ⟨0, false⟩, desc := d, chain := [1], batch := 0, foOf := none, prog, started }
def mState (r : MRec) (fail : List Nat) : State :=
  bState tWave { bGroup with queue := [r], wbuf := [(1, ⟨4, 0, [], [], []⟩)], failed := fail } bCore

theorem witness_records : let d : List Word := [0x200, 0, 1, 0]
    (let r := tMrec (.mma tMma) d false 0; let s := { mState r [] with lregs := [(.mxstat 0, 0)] }
     r.works = true ∧ r.parked = false ∧ r.foOf = none ∧ s.regF (.mxstat 0) 1 0 = 0 ∧ Tab.find s.groups 1 = some { bGroup with queue := [r], wbuf := [(1, ⟨4, 0, [], [], []⟩)] }) ∧
    (let r := tMrec (.mma tMma) d true 0; let s := mState r []
     isMma r.inst = true ∧ r.parked = false ∧ r.prog ≤ r.word.ks ∧ mmaRows d ≤ 128 ∧ r.word.sv = false ∧
       (match (s.touchRows bGroup r.by_ r.cap1 ⟨0x200, 1, 16 * r.cap1.pitch, kstepLen r.cap1.fmt⟩).readRows bGroup r.by_ r.cap1 0x200 1 (16 * r.cap1.pitch)
          (kstepLen r.cap1.fmt) with | .ok y => y.bad.isEmpty | .error _ => false) = true ∧
       (Tab.find [(1, (⟨4, 0, [], [], []⟩ : WData))] ((r.chain[r.prog]?).getD 0)).isSome = true ∧ bGroup.accBad r.word.acc 1 = []) ∧
    (let r := { tMrec (.mma tMma) d false 0 with dead := true }; r.works = true ∧ ([] : List Nat).contains r.batch = false) ∧
    (let r := tMrec (.mma tMma) d true 1; isMma r.inst = true ∧ r.word.ks < r.prog) ∧
    (∀ fail ∈ [[], [0]], let r := tMrec (.mbatch (f 0 0 0 0 0 0)) [0x101] false 0; let s := mState r fail
     s.entryOf 0 1 0x101 = some 1 ∧ (s.entry 0 1).count = true ∧ s.obj 0 1 = .count 0 false ∧ s.engineClear 0 (.matrix 0) = true ∧
       s.published 0 (.matrix 0) r.by_ = true ∧ (f 0 0 0 0 0 0).relX = false) := by
  decide +kernel

/-- matrix_commands: idle times at their limits, and a group's record waiting for the array. -/
theorem witness_power_states :
    (let s : State := { tState with cores := [(0, { mxIdle := 5 })], lregs := [(.mxpwr 0, 5), (.mxstat 0, 0)] }
     s.regF (.mxstat 0) 1 0 = 0 ∧ s.mxBusy 0 = false ∧ s.regF (.mxpwr 0) 15 0 ≠ 0 ∧ s.regF (.mxpwr 0) 15 0 ≤ (s.core 0).mxIdle ∧ s.regF (.mxpwr 0) 31 16 = 0) ∧
    (let s : State := { tState with cores := [(0, { mxIdle := 1024 })], lregs := [(.mxpwr 0, 0x1_0000), (.mxstat 0, 1)] }
     s.regF (.mxstat 0) 1 0 = 1 ∧ s.regF (.mxpwr 0) 31 16 * 1024 ≤ (s.core 0).mxIdle ∧ s.regF (.mxpwr 0) 15 0 = 0) ∧
    (let s : State := { tState with lregs := [(.mxstat 0, 0x102)] }
     s.regF (.mxstat 0) 1 0 = 2 ∧ s.regF (.mxstat 0) 14 8 ≠ 0) := by decide +kernel

/-- copies_land: a copy in the window about to land its first chunk, one that has landed them all, one blocked and one holding. -/
def tCopy (x : W) (d : List Word) (seq prog : Nat) (cs : CopyState) : Copy :=
  { id := 30, kind := .lin, by_ := tIssuer, word := x, tcap := (eWave []).quadQ 3 0, scap := (eWave []).quadQ 3 0, desc := d, seq, prog, state := cs }
def cState (c : Copy) : State := bState tWave bGroup { bCore with copies := [c] }
def tRing : W := ef 3 2 0 (2 ^ 12 + 9 * 2 ^ 17)
def tCopy1 : Copy := tCopy (ef 3 2 0 0) [0x200, 0x300, 16, 0x101] 0 0 .running
theorem grouped_range (b n : Nat) : Spec.Grouped ((List.range n).map (b + ·)) := by
  intro i j k x y z h1 h2 hx hy hz e
  simp only [List.getElem?_map, Option.map_eq_some_iff] at hx hy hz
  obtain ⟨x', hx, rfl⟩ := hx; obtain ⟨y', hy, rfl⟩ := hy; obtain ⟨z', hz, rfl⟩ := hz
  have hx := List.getElem?_eq_some_iff.mp hx
  have hy := List.getElem?_eq_some_iff.mp hy
  have hz := List.getElem?_eq_some_iff.mp hz
  simp only [List.getElem_range, List.length_range] at hx hy hz
  obtain ⟨-, rfl⟩ := hx; obtain ⟨-, rfl⟩ := hy; obtain ⟨-, rfl⟩ := hz
  omega
theorem witness_copies_land :
    (cState tCopy1).findCopy 0 30 = some tCopy1 ∧ tCopy1.word.acqX = false ∧ tCopy1.chunk tCopy1.prog = some (0, 0, 16) ∧ (cState tCopy1).windows = [] ∧
      copyH tCopy1.desc = 0x101 ∧
      ((cState tCopy1).cacheRows 0 0 tCopy1.scap ⟨tCopy1.srcOff 0 + 0, 1, 0, 16⟩).capBytes 0 tIssuer tCopy1.scap (tCopy1.srcOff 0 + 0) 16 .read = .ok (.scr 1, (List.range 16).map (0x200 + ·)) ∧
      (cState tCopy1).capBytes 0 tIssuer tCopy1.tcap (tCopy1.rowAt 0 - tCopy1.tcap.base + 0) 16 .write = .ok (.scr 1, (List.range 16).map (0x300 + ·)) ∧
      (let s := cState tCopy1; let s1 := (s.cacheRows 0 0 tCopy1.scap ⟨tCopy1.srcOff 0 + 0, 1, 0, 16⟩).cacheRows 0 0 tCopy1.tcap ⟨tCopy1.rowAt 0 - tCopy1.tcap.base + 0, 1, 0, 16⟩
       (∀ a ∈ (List.range 16).map (0x200 + ·), s1.viewPoison 0 (.copy 0) (.scr 1) a = false) ∧ (∀ a ∈ (List.range 16).map (0x300 + ·), s.atHome 0 (.scr 1) a = false) ∧
       s.countsBytes 0 tCopy1 = false ∧ s.engineClear 0 (.copy 0) = true) ∧ ((List.range 16).map (0x300 + ·)).Nodup ∧
      tCopy1.chunks = 1 := by decide +kernel
theorem witness_copy_signal (h : Word) (e : h = 0x101 ∨ h = 0x100) : let c := tCopy (ef 3 2 0 0) [0x200, 0x300, 16, h] 0 1 .running
    (cState c).findCopy 0 30 = some c ∧ c.chunks ≤ c.prog ∧ c.word.relX = false ∧ copyH c.desc = h ∧ c.lastBytes = 16 := by
  rcases e with rfl | rfl <;> exact ⟨rfl, by decide +kernel, rfl, by decide +kernel, by decide +kernel⟩
def tRingCopy (q : Nat) (cs : CopyState) : Copy := tCopy tRing [0x200, 0x300, 16, 0x101_0101] q 1 cs
theorem witness_ring_copies : (tRingCopy 0 .running).word.tail.getLsbD 12 = true ∧ (tRingCopy 1 .running).chunks ≤ (tRingCopy 1 .running).prog ∧
    (cState (tRingCopy 0 .running)).obj 0 1 = .count 0 false ∧ (tRingCopy 0 .running).seq = 0 ∧ (tRingCopy 1 .running).seq = 1 ∧
    (cState (tRingCopy 0 .blocked)).slotFree 0 (tRingCopy 0 .blocked) = true ∧ (cState (tRingCopy 1 .blocked)).slotFree 0 (tRingCopy 1 .blocked) = false := by
  decide +kernel

/-- roles_and_tasks: a wave with two windows and nothing open, and one that awaits a register. -/
def roleWave : Wave := { tWave with kprog := 0x3F }
theorem witness_roles : checkTarget tState roleWave (Spec.target roleWave (f 0 0 0 0 1 8)) = .good ∧ fld (f 0 0 0 0 1 8).mod 1 0 < roleWave.windows ∧
    roleWave.windows ≤ fld (f 0 0 0 0 2 8).mod 1 0 ∧ (st roleWave).drained 2 roleWave = true ∧
    (st { roleWave with scoreboard := [(4, 7)] }).drained 2 { roleWave with scoreboard := [(4, 7)] } = false ∧
    ({ roleWave with cond := .waiting .roleDrain, held := some (.role (f 0 0 0 0 1 8)) } : Wave).evicted = none := by decide +kernel

/-- A valid task queue 0 with room for 64 tasks of 16 bytes, a header of the kernel of `tGroup`, and a pool of 4 KiB at 0x4000. -/
def taskMem : Mem :=
  (tState.mem.filter fun e => e.1 < 0x8000) ++ [(0x8000, 0x01), (0x8001, 0x10), (0x800A, 0x02), (0x8011, 0x40), (0x8017, 0x06), (0x8019, 0x10), (0x802D, 0x90)] ++
    (tState.mem.filter fun e => 0x8000 ≤ e.1) ++ [(0x20014, 0x04), (0x2001A, 0x01)]
def taskSt : State := { tState with mem := taskMem }
theorem witness_tasks : tqValid (tState.taskQueue 0 0) = false ∧ tqValid (taskSt.taskQueue 0 0) = true ∧ tqCap (taskSt.taskQueue 0 0) = 64 ∧
    tqUsed (taskSt.taskQueue 0 0) = 0 ∧ tqRecord (taskSt.taskQueue 0 0) = 16 ∧ (taskSt.taskPool 0 0).len = 0x1000 ∧
    (match translateRange taskSt 0 0 (tqHeader (taskSt.taskQueue 0 0)) 64 .read with
      | .ok as => let hdr := (taskSt.readHome 0 0 as).2
        !badEntry hdr 0x10000 && !badEntry hdr 0x100C4 && badEntry hdr 0x10100 && badEntry hdr 5
      | .error _ => false) = true ∧
    (taskSt.releaseGate 2 tWave .pkg).2.2 = [] ∧ tWave.active .always ≠ 0 ∧ ¬ (0x1000 < 0x0FF0 + 16) ∧ 0x1000 < 0x0FF1 + 16 := by decide +kernel

/-- launches_joins_and_gangs: queue 0 enabled with a budget and without; a full die; no free join entry; an overflow ring with a record. -/
def lState (b : DWord) : State := { tState with waves := [(2, eWave [])], lregs := [(.pkgst0, 0x100_1000_0007), (.coreGate 0, 1), (.ctxw 0 6, 1), (.dlctl 0 0, b)] }
theorem witness_launches : launchChks (ef 2 0 0 0) (lState 0x5_0000_0001) (eWave []) 0 = [] ∧ (lState 0x5_0000_0001).launchFull 0 = false ∧
    (lState 0x5_0000_0001).regF (.dlctl 0 0) 63 32 = 5 ∧ (lState 1).regF (.dlctl 0 0) 63 32 = 0 ∧ (f 0 0 0 0 0 0x1_0000).tail.getLsbD 16 = true ∧
    Tab.find tState.ctxs 0 = some tCtx ∧ tCtx.freeJoins ≠ [] ∧
    (match (lState 1).capBytes 0 ((lState 1).issuer 2 (eWave [])) ((eWave []).quadQ 2 0) 0 128 .read with
      | .ok (pl, as) => (((if pl = .glob then (lState 1).prepRead 0 0 .normal as else lState 1)).poisonGranules 0 (.wave 2) pl as).isEmpty && as == (List.range 128).map (0x2000 + ·)
        | .error _ => false) = true ∧
    ((lState 1).releaseGate 2 (eWave []) .pkg).2.2 = [] := by
  refine ⟨by rfl, by decide +kernel, by decide +kernel, by decide +kernel, by decide, rfl, ?_, by decide +kernel, by decide +kernel⟩
  intro h
  have : 0 ∈ tCtx.freeJoins := List.mem_filter.mpr ⟨List.mem_range.mpr (by decide), by decide +kernel⟩
  rw [h] at this
  exact absurd this (List.not_mem_nil)
def tRecd : PendRecord := { ctx := 0, queue := 0, bytes := [], ticket := none, order := 0 }
theorem witness_overflow : ((List.replicate 4096 tRecd).length < 4096 → False) ∧ 4096 ≤ (List.replicate 4096 tRecd).length ∧ ([] : List PendRecord).length < 4096 := by
  rw [List.length_replicate]
  exact ⟨by omega, Nat.le_refl _, by decide⟩

/-- launches_joins_and_gangs: a ticket whose child is done, one whose child runs, and one of no live entry. -/
def jState : State :=
  { tState with ctxs := [(0, { tCtx with joins := [(0, { gen := 1, valid := true, done := true, status := 3 }), (1023, { gen := 2097151, valid := true })] })] }
theorem witness_joins : (jState.joinOf 0 0x400).map Prod.fst = some 0 ∧ (jState.joinOf 0 0x7FFF_FFFF).map (fun e => (e.1, e.2.done)) = some (1023, false) ∧
    jState.joinOf 0 0x800 = none ∧ jState.joinOf 0 0x8000_0400 = none := by decide +kernel

/-- launches_joins_and_gangs: a gang of one wave and of two; a wave that has arrived; a phase that is past and one that is not. -/
def gState (n : Nat) (arrived : List Nat) : State :=
  { tState with groups := [(1, { tGroup with gang := some 7, gsize := 2, gangs := true })]
                gangs := [(7, { grid := 3, elem := 0, groups := [1], phnum := 5, arrived, nwaves := n })] }
theorem witness_gangs : tState.gangEntry tWave = none ∧ (∀ n ∈ [1, 2], (gState n []).gangEntry tWave = some (7, { grid := 3, elem := 0, groups := [1], phnum := 5, nwaves := n })) ∧
    (1 ≤ ([] : List Nat).length + 1 + 0 ∧ ¬ 2 ≤ ([] : List Nat).length + 1 + 0) ∧ ((gState 2 [2]).gangEntry tWave).map (fun e => e.2.arrived) = some [2] ∧
    ((gState 1 []).releaseGate 2 tWave .clus).2.2 = [] ∧
    (1 ≤ ((5 : Word) - 4).toNat ∧ ((5 : Word) - 0x8000_0005).toNat ≤ 2 ^ 31) ∧ ¬ 1 ≤ ((5 : Word) - 5).toNat ∧ ¬ ((5 : Word) - 6).toNat ≤ 2 ^ 31 := by decide +kernel

/-- beats_and_intervals: a target locked and not, in range and out; a beat on its way, behind another wave's; an interval that is over and one that is not, a
loop that is on and one that is off. -/
theorem witness_beats : (tState.regF (.ctxw 0 18) 61 61 = 0 ∧ ({ tState with lregs := [(.ctxw 0 18, 0x2000_0000_0000_0000)] } : State).regF (.ctxw 0 18) 61 61 = 1) ∧
    (fld (0x00FF_FFFF : Word) 31 24 = 0 ∧ fld (0x0100_0000 : Word) 31 24 ≠ 0) ∧
    (∃ b ∈ ({ tState with beats := [(2, 1, 9), (3, 0, 9)] } : State).beats, b.2.1 = 0) ∧ ∀ b ∈ tState.beats, b.2.1 ≠ 0 := by decide +kernel
def iState (on : DWord) (age : DWord) : State :=
  { tState with lregs := [(.ctxw 0 16, 100), (.ctxw 0 17, 0x7FFF_FFFF_1000_1000), (.ctxw 0 18, on), (.ctxw 0 21, age <<< 16), (.ctxw 0 22, 300), (.ctxw 0 23, 200)] }
theorem witness_intervals :
    (iState 0 0x10_0000).regF (.ctxw 0 21) 49 16 = tCtx.ilen * 1024 ∧ (iState 0 0xF_FFFF).regF (.ctxw 0 21) 49 16 < tCtx.ilen * 1024 ∧
    (iState 0 0x10_0000).regF (.ctxw 0 21) 15 0 = 0 ∧ (iState 0 0x10_0000).regF (.ctxw 0 18) 60 60 = 0 ∧
    ((iState 0x1000_0000_0000_0000 0x10_0000).regF (.ctxw 0 18) 60 60 = 1 ∧ (iState 0x1000_0000_0000_0000 0x10_0000).regF (.ctxw 0 16) 23 0 ≠ 0) := by decide +kernel

/-- quay_and_tiller: an evaluation that is due on the first die of its partition; grants that wait and that do not; the holder that may write, and one that may not. -/
theorem witness_quay : tState.hpOf 0 = 0 ∧ (tState.hpCtxs 0).Nodup ∧ tState.ref 0 % 2 ^ min 24 (max 10 (tState.regF (.qcap 0) 42 38)) = 0 ∧
    (tState.die 0).quayAt ≠ some (tState.ref 0) ∧ tState.regF (.ctxw 0 21) 49 16 < tCtx.ilen * 1024 ∧
    (∀ c ∈ tState.hpCtxs 0, tState.intervalDue c = false) ∧ tState.quayDie 0 = some 0 ∧
    ({ tState with dies := [(0, { up := true, quayAt := some 0 })] } : State).quayDue 0 = false := by decide +kernel
theorem witness_grants : tCtx.granted = false ∧ ({ tCtx with granted := true } : Ctx).granted = true ∧
    (Tab.find tState.ctxs 0).isSome = true ∧ tState.mayWrite .root (.ctxw 0 16) = true ∧ tState.mayWrite (.ten 1 1) (.ctxw 0 18) = false ∧
    tState.mayWrite .root (.qcap 3) = true ∧ tState.mayWrite (.ten 1 1) (.qcap 0) = false := by decide +kernel

/-- quay_and_tiller: a device past its quantum, while another's element waits. -/
def qGrid : Grid :=
  { ctx := 1, queue := 0, gridW := 0, kind := 0, part := 0x4084, ferry := 0x1_0001, gseed := 0, kprog := 0x1F, entry := 0x10000, nlines := 4, args := [], argTags := []
    argSlot := some 0, c0 := ⟨0, false⟩, waitSince := 1, status := .running }
def qState : State :=
  { tState with ctxs := [(0, tCtx), (1, { vdev := 1, taskArea := 0 })], vdevs := [(0, { ctx := 0, wpart := 0, rpart := 0, home := 0, heldFor := 100 })]
                grids := [(9, qGrid)], lregs := tState.lregs ++ [(.vdsched 0, 0x101), (.vdsched 1, 0x101), (.ctxw 0 18, 0x1_0000_0000)] }
theorem witness_quantum : Tab.find qState.vdevs 0 = some { ctx := 0, wpart := 0, rpart := 0, home := 0, heldFor := 100 } ∧ Tab.find qState.groups 1 = some tGroup ∧
    qState.bankResident 0 = false ∧ qState.regF (.vdsched 0) 31 8 * 100 ≤ 100 ∧ qState.weightedWaits 0 = true ∧ tGroup.saving = false ∧
    (∀ e ∈ qState.groups, e.1 = 1) ∧ qState.classOf 0 ≠ 0 ∧ 0 < (qState.ctxCores 0).length := by decide +kernel

/-- merge_groups: two contexts of one group on this package; a publication that is due, one that is not, and a member that has been silent for 8 periods. -/
def mgState (now : Nat) : State :=
  { tState with ctxs := [(0, tCtx), (1, tCtx)], dies := [(0, { up := true, refclk := now })]
                lregs := [(.ctxw 0 21, 5), (.ctxw 1 21, 5), (.mgcfg 0, 0x10_0400), (.mgcfg 1, 0x10_0401), (.mglist 0 1, 0xC0_1000), (.ctxw 0 22, 77)] }
theorem witness_merge : (mgState 1024).regF (.ctxw 0 21) 15 0 = 5 ∧ tCtx.pubAt + max 1 ((mgState 1024).regF (.mgcfg 0) 27 20) * 1024 ≤ (mgState 1024).ref 0 ∧
    (mgState 1023).ref 0 < tCtx.pubAt + max 1 ((mgState 1023).regF (.mgcfg 0) 27 20) * 1024 ∧ 1 ∈ (mgState 0).mergeMembers 0 ∧ (mgState 0).mergeIdx 0 = 0 ∧
    ((mgState 0).reg (.mglist 0 1)).getLsbD 23 = true ∧ ((mgState 0).reg (.mglist 0 1)).getLsbD 22 = true ∧
    fld ((mgState 0).reg (.mglist 0 1)) 21 20 * 256 + fld ((mgState 0).reg (.mglist 0 1)) 19 12 = 1 ∧ Tab.find (mgState 0).ctxs 1 = some tCtx ∧
    tState.regF (.ctxw 0 21) 15 0 = 0 ∧ (mgState 8192).staleMembers 0 tCtx = true ∧ (mgState 8191).staleMembers 0 tCtx = false ∧
    (mgState 8192).regF (.ctxw 0 20) 59 59 = 0 := by decide +kernel

/-- remote_memory, fabric_commands_and_windows: peer 3 of hard partition 0 through port 1, whose boundary is open; remote window 0 valid for both ways over
64 KiB of it; an exporting window 0 of 64 KiB at 0x2000, generation 1, for every peer. -/
def fRegs : List (LReg × DWord) :=
  tState.lregs ++ [(.fbound 0, 0x2), (.pkgst1, 0x2), (.peertab 0 3, 0x5), (.rwin 0 0 0, 0x7003), (.rwin 0 0 1, 1), (.xwin 0 0 0, 0x0E00_0000_0000_2000),
    (.xwin 0 0 1, 0x001F_FF00_0001_0000), (.collgrp 0 0, 0x801), (.mlist 0 0 1, 0x80_0003)]
def fState (c : List Copy) : State := { bState (eWave [0, 0, 16, 0x101]) bGroup { bCore with copies := c } with lregs := fRegs }
/-- Group 0, `.i32` sum, over quads 3 and 2. -/
def tColl : W := ef 3 2 0 (2 * 2 ^ 20)
theorem witness_fabric_commands : remoteChks (ef 2 0 0 0) false (fState []) (eWave [0, 0, 16, 0x101]) 0 = [] ∧
    remoteChks (ef 2 0 0 0) true (fState []) (eWave [0, 0, 16, 0x101]) 0 = [] ∧
    (∀ sub ∈ [0, 1, 2], collChks tColl sub (fState []) (eWave [0, 0x100, 4, 0x101]) 0 = []) ∧
    (pickChk (remoteChks (ef 2 0 0 (1 * 2 ^ 12)) true (fState []) (eWave [0, 0, 16, 0x101]) 0)).map Chk.code = some 0x32 ∧
    (pickChk (remoteChks (ef 2 0 0 0) true (fState []) (eWave [0, 0, 16, 0x200]) 0)).map Chk.code = some 0x30 := by
  decide +kernel

def tRemote (k : CopyKind) (strict : Bool) (dn : List Nat) (h : Word) : Copy :=
  { id := 30, kind := k, by_ := { tIssuer with strict }, word := ef 3 0 0 0, tcap := (eWave []).quadQ 3 0, scap := (eWave []).quadQ 3 0, desc := [0x200, 0, 16, h], seq := 0,
    done := dn }
theorem witness_remote_chunks (k : CopyKind) (e : k = .put ∨ k = .get) : let c := tRemote k false [] 0x101
    (fState [c]).findCopy 0 30 = some c ∧ (fState [c]).windows = [] ∧ c.word.acqX = false ∧ c.word.relX = false ∧ c.remoteChunks = 1 ∧ c.remoteChunk 0 = (0, 16) ∧
    (let s1 := ((fState [c]).openRemote 0 c).1.cacheRows 0 0 c.scap ⟨0x200, 1, 0, 16⟩
     s1.capBytes 0 c.by_ c.tcap 0x200 16 .write = .ok (.scr 1, (List.range 16).map (0x200 + ·)) ∧
       s1.capBytes 0 c.by_ c.scap 0x200 16 .read = .ok (.scr 1, (List.range 16).map (0x200 + ·)) ∧
       ∀ a ∈ (List.range 16).map (0x200 + ·), s1.viewPoison 0 (.copy 0) (.scr 1) a = false ∧ (fState [c]).atHome 0 (.scr 1) a = false) ∧
    (fState [c]).countsBytes 0 c = false ∧ (fState [c]).engineClear 0 (.copy 0) = true ∧ ((List.range 16).map (0x200 + ·)).Nodup ∧
    rwinPeer (fState [c]) 0 0 = 3 ∧ (fState [c]).peerValid 0 3 = true ∧ (fState [c]).portOpen (portOf ((fState [c]).peer 0 3)) = true := by
  rcases e with rfl | rfl <;> decide +kernel
theorem witness_remote_completion : (tRemote .put true [] 0x101).by_.strict = true ∧ (copyH (tRemote .get false [0] 0x100).desc = 0x100 ∧ copyH (tRemote .get false [0] 0x101).desc = 0x101) ∧
    (tRemote .get false [0] 0x101).remoteChunks ≤ (tRemote .get false [0] 0x101).done.length ∧ 0 ∈ (tRemote .get false [0] 0x101).done ∧
    Tab.find (fState []).groups 1 = some bGroup := by decide +kernel

/-- collectives: a group of two, whose other member is a peer's; an instance due, one that is not; contributions all there. -/
def tInst (cs : Tab (List Byte)) (at' : Nat) : Coll :=
  { ctx := 0, g := 0, inst := 0, shape := some (0, 0, 2, 4), contribs := cs, firstAt := some at', cmd := some (0, 30) }
def tCollCopy : Copy :=
  { id := 30, kind := .coll 0 0 2 0, by_ := tIssuer, word := tColl, tcap := (eWave []).quadQ 3 0, scap := (eWave []).quadQ 3 0, desc := [0x200, 0x400, 4, 0x101], seq := 0 }
def collSt (k : Coll) (now : Nat) : State := { fState [tCollCopy] with colls := [k], dies := [(0, { up := true, refclk := now })] }
theorem witness_collectives : let k := tInst [] 0
    (1 ≠ (collSt k 0).rank 0 0 ∧ 1 < (collSt k 0).nmem 0 0 ∧ ((collSt k 0).reg (.collgrp 0 0)).getLsbD 0 = true ∧ ((collSt k 0).member 0 0 1).getLsbD 23 = true ∧
      ((collSt k 0).member 0 0 1).getLsbD 22 = false ∧ fld ((collSt k 0).member 0 0 1) 11 0 = 3) ∧
    (0 + max 1 ((collSt k 1024).regF (.collgrp 0 0) 36 21) * 1024 ≤ (collSt k 1024).ref 0 ∧ ¬ 0 + max 1 ((collSt k 1023).regF (.collgrp 0 0) 36 21) * 1024 ≤ (collSt k 1023).ref 0) ∧
    (collSt k 0).findCopy 0 30 = some tCollCopy ∧ contribBytes 0 2 (descW tCollCopy.desc 2) ((collSt k 0).rank 0 0) = 16 ∧
    (let s := collSt k 0; let s1 := s.cacheRows 0 0 tCollCopy.scap ⟨0x200, 1, 0, 16⟩
     s1.capBytes 0 tIssuer tCollCopy.scap 0x200 16 .read = .ok (.scr 1, (List.range 16).map (0x200 + ·)) ∧ k.timedOut = false ∧ k.bad = false ∧
       ∀ a ∈ (List.range 16).map (0x200 + ·), s1.viewPoison 0 (.copy 0) (.scr 1) a = false) ∧
    contribBytes 1 2 4 1 = 0 := by decide +kernel
theorem witness_collective_lands : let k := tInst [(0, List.replicate 16 1), (1, List.replicate 16 2)] 0
    (collSt k 0).collReady k = true ∧ (collResult k 2 (0, 0, 2, 4)).length = 16 ∧ maskAt 16 = 128 ∧
    (collSt k 0).capBytes 0 tIssuer tCollCopy.tcap 0x400 16 .write = .ok (.scr 1, (List.range 16).map (0x400 + ·)) ∧
    (match (collSt k 0).capBytes 0 tIssuer tCollCopy.tcap (0x400 + 128) 128 .write with | .ok (p, ms) => decide (p = .scr 1 ∧ 0x40F ∉ ms) | .error _ => false) = true ∧
    (∀ a ∈ (List.range 16).map (0x400 + ·), (collSt k 0).atHome 0 (.scr 1) a = false) ∧ k.result = none := by
  decide +kernel

/-- remote_memory: a closed port, an unknown peer, a known one; a key that names the window, and keys that do not. -/
theorem witness_inbound : (fState []).portOpen 0 = false ∧ (fState []).portOpen 1 = true ∧ (fState []).knownPeer 1 2 = false ∧ (fState []).knownPeer 1 3 = true ∧
    ((fState []).exported 1 3 0x1_0000 0 64 .write).map (fun e => (e.1, e.2.2.head?)) = some (0, some 0x2000) ∧
    ((fState []).exported 1 3 0x1_0000 0xFF80 128 .read).map (fun e => (e.1, e.2.2.head?)) = some (0, some 0x11F80) ∧
    (fState []).exported 1 3 0x1_0000 0xFF81 128 .read = none ∧ (fState []).exported 1 3 0x2_0000 0 64 .read = none ∧ sizedFor 1 0 64 = true ∧ sizedFor 1 0xFF80 128 = true ∧
    sizedFor 1 0 16 = false ∧ sizedFor 48 1 16 = true := by decide +kernel
theorem witness_fabric_registers : (fState []).mayWrite .root (.xwin 0 63 0) = true ∧ (fState []).mayWrite (.ten 1 1) (.xwin 0 0 0) = false ∧
    (fState []).mayWrite .root (.collgrp 0 63) = true ∧ (fState []).mayWrite .root (.mlist 0 63 1023) = true ∧ (fState []).groupLive 0 0 = false ∧
    (collSt (tInst [] 0) 0).groupLive 0 0 = true := by decide +kernel

/-- selection_and_sharing: a quarter with a wave that is ready, one that has issued in this cycle; a result, a compare and a copy under way; a refetched line. -/
theorem witness_selection : (tState.waves.map Prod.fst).Nodup ∧ (tState.quarter 0).issuedAt ≠ some (tState.cycle 0) ∧ tState.coreUp 0 = true ∧ tState.ready tWave = true ∧
    tState.freeStrands 0 0 ≠ 0 ∧ (tState.quarter (255 * 4 + 3)).issuedAt ≠ some (tState.cycle 255) ∧ tState.coreUp 255 = false := by decide +kernel
def tQuarter : Quarter :=
  { wb := [{ wave := 2, names := [], key := none, flags := 0, lines := none, share := false }], compares := [{ new := 1, old := 2, bucket := 0, refs := [] }]
    sliceCopies := [(4, 1, 1)] }
theorem witness_sharing : (({ tState with quarters := [(0, tQuarter)] } : State).quarter 0).wb.length = 1 ∧ tQuarter.compares[0]?.isSome = true ∧
    tQuarter.sliceCopies[0]? = some (4, 1, 1) ∧ ({ tWave with refetched := some 0x10000 } : Wave).refetched = some 0x10000 ∧
    (match fetchLine tState tWave tWave.pc with
      | .ok pas => !tState.linePoison 0 pas && !parBad (tState.lineBits 0 pas) 0 && parBad (tState.lineBits 0 pas ^^^ 2 ^ 95) 0
      | .error _ => false) = true := by decide +kernel

/-- fault_queues: a queue that is open, with a record for it behind another instance's, and one that is full. -/
def tPend (r : Bool) : PendRec := { body := 0x10, cls := 2, stage := none, tenant := 0, toRoot := r, wave := some 2, waited := false }
def fqState (tail : DWord) : State :=
  { tState with recs := [tPend false, tPend true], lregs := tState.lregs ++ [(.fqbase .root, 0x8000_0000_0002_0000), (.fqctl .root, 0x22), (.fqtail .root, tail)]
                waves := [(2, { tWave with cond := .stopped none })] }
theorem witness_fault_queue : (fqState 3).recs = [tPend false, tPend true] ∧ (fqState 3).route (tPend true) = .root ∧ (fqState 3).fqOpen .root = true ∧
    (fqState 4).fqOpen .root = false ∧ ((fqState 3).reg (.fqctl .root)).getLsbD 5 = true ∧
    (fqState 3).backing ((fqState 3).homeDie 0x200C0) 0x200C0 = .mem 0 ∧ (fqState 3).route (tPend false) = .root := by decide +kernel

/-- fault_queues: a requester that waits, an entry free; an entry to answer, held by a wave that is parked and by a copy. -/
def tEntry : FbEntry := { ctx := 0, stage := 1, frame := 5, reqs := [(.wave 2, 0x5000), (.copy 30, 0x5000)] }
def fbCore : CoreSt :=
  { fbuf := [(0, tEntry)], copies := [tCopy1], fbWait := [{ req := .wave 2, ctx := 0, stage := 1, va := 0x6000, iaddr := 0x6000, acc := 0, tenant := 0 }] }
def fbState : State := bState { tWave with cond := .parked (some 31) 0 0x5000 } bGroup fbCore
theorem witness_fault_buffer : (fbState.core 0).fbWait.length = 1 ∧ Tab.find (fbState.core 0).fbuf 63 = none ∧
    (fbState.fresp 0 0x1000 (fbState.stageOwner 0 1)).map (fun e => (e.1, e.2.1)) = some (0, 0) ∧ fbState.fresp 0 0x1001 .root = none ∧
    (fld (0x1000 : Word) 13 12 = 1 ∧ fld (0x2000 : Word) 13 12 = 2) := by decide +kernel

/-- wave_control: a wave that stopped for root, registers at both ends of what it declares, a deferred completion. -/
def wcState (h : Bool) : State := st { tWave with cond := .stopped (some .root), hold3 := h }
theorem witness_wave_control : ((wcState false).selected 0 1 .root).map Prod.fst = some 2 ∧ (wcState false).selected 0 1 .op = none ∧ tState.selected 0 1 .root = none ∧
    fld (0xFF1 : DWord) 11 4 < tWave.declared ∧ ({ tWave with kprog := 0 } : Wave).declared ≤ fld (0xFF1 : DWord) 11 4 ∧ (fld (0x1F002 : DWord) 16 12 = 31) ∧
    ((wcState true).selected 0 8 .root).map (fun e => e.2.hold3) = some true := by decide +kernel

theorem witness_rights : Inst.under .root (.ten 1 1) = true ∧ Inst.under (.res 1) (.ten 2 1) = false ∧ Inst.under .op .op = false ∧
    (tState.fqSize .root < (tState.regF (.fqtail .root) 31 0 + 2 ^ 32 - (1 : Word).toNat) % 2 ^ 32) ∧
    ((tState.regF (.fqtail .root) 31 0 + 2 ^ 32 - (0 : Word).toNat) % 2 ^ 32 ≤ tState.fqSize .root) ∧ (tState.reg (.fqbase .op)).getLsbD 63 = false := by decide +kernel

/-- landing_cores: capabilities that pass and that fail in each way, aligned and not; root and below; a fenced core. -/
def tCap : Cap := ⟨0x1000_7E00_0000_0000_2000, true⟩
theorem witness_dalcy : capFault tCap 0 8 pRD = none ∧ capFault tCap 0xFF8 8 pWR = none ∧ capFault tCap 0xFF9 8 pRD = some (25, 0x3000) ∧
    capFault ⟨0x1000_0000_0000_0000_2000, true⟩ 0 8 pRD = some (26, 0x2000) ∧ (capFault ⟨0x1000_7E00_0000_0000_2000, false⟩ 0 8 pRD) = some (24, 0x2000) ∧
    (tCap.base + 0) % 8 = 0 ∧ (tCap.base + 4) % 8 ≠ 0 ∧ (tState.lcore tState.curL).fenced = false ∧ tState.windows = [] ∧
    (∃ d, narrow tCap 0 0x1000 0 = .ok d) ∧ Spec.cause (narrow noCap 0 0 0) = some 0x10 := by
  refine ⟨by decide +kernel, by decide +kernel, by decide +kernel, by decide +kernel, by decide +kernel, by decide +kernel, by decide +kernel, by decide +kernel,
    by decide +kernel, ⟨_, rfl⟩, by decide +kernel⟩
theorem witness_landing : (tState.lcore 0).level = 0 ∧ ({ level := 3, dc := [(0, tCap)] } : LCore).level ≠ 0 ∧ capFault (({ dc := [(0, tCap)] } : LCore).cap 0) 8 8 pRD = none ∧
    (capFault (({} : LCore).cap 0) 8 8 pRD).isSome = true ∧ ({ fenced := true } : LCore).fenced = true := by decide +kernel

/-- placement: core 0 is up, with one bank set, of the banks of quarter 0, for context 0, and a grid of one element waits for it. -/
def pGrid : Grid :=
  { ctx := 0, queue := 0, gridW := 0x80, kind := 1, part := 0x1_0001, ferry := 0x1_0001, gseed := 7, kprog := 0x1F, entry := 0x10000, nlines := 4, args := [], argTags := []
    argSlot := some 0, c0 := ⟨0x0200_0000_0000_1000, true⟩, status := .running }
def pState : State :=
  { taskSt with cur := none, waves := [], groups := [], grids := [(9, pGrid)], cores := [(0, { setOwner := [(0, 0)] })]
                lregs := tState.lregs ++ [(.bsmask 0 0, 0xFFFF), (.bsctl 0 0, 0x4F), (.dlctl 0 0, 1)] }

theorem plan_of (s : State) (part kprog : Word) (h : s.setOf 0 0 = some 0)
    (hc : (!s.coreUp 0 || (s.spillBank 0 0).isNone || (accbOf part != 0 && s.groups.any fun (_, g) => g.core == 0 && accbOf g.part != 0) ||
      decide (s.waveLimit 0 < s.ctxWaves 0 0 + (fld kprog 11 7 + 1)) ||
      !(if (s.ctxCores 0).contains 0 then ((s.ctxCores 0).take (s.coreLimit 0)).contains 0 else decide ((s.ctxCores 0).length < s.coreLimit 0))) = false)
    (hp : ((List.range 4).filterMap fun q0 =>
      if (List.range 4).all fun q => wavesOn (fld kprog 11 7 + 1) q0 q ≤ (s.freeSlots 0 q).length
      then (bankPlan (s.freeBanks 0 0) (fld kprog 11 7 + 1) ((fld kprog 4 0 + 1) * 8) (fld kprog 6 5 + 1) (scrbOf part) (accbOf part) (regbOf part) q0).map
        fun p => (q0, p) else none) ≠ []) : ∃ p, s.planRoom 0 0 part kprog = some p := by
  unfold State.planRoom State.planIn
  rw [h]
  simp only [hc]
  simp only [Bool.false_eq_true, if_false]
  split
  · next e =>
    rw [List.getElem?_eq_none_iff] at e
    have hl := List.length_pos_iff.2 hp
    refine absurd e (Nat.not_le.2 (Nat.lt_of_lt_of_le (Nat.mod_lt _ (Nat.lt_of_lt_of_le Nat.zero_lt_one (Nat.le_max_left _ _))) ?_))
    exact Nat.max_le.2 ⟨hl, Nat.le_refl _⟩
  · exact ⟨_, rfl⟩

/-- An item of one group that core 0, the first of its places, takes. -/
theorem first_place_of (s : State) (it : Item) (x : Part) (hg : it.gang = false) (hx : it.parts = [x]) (h0 : it.ctx = 0) (hr : x.rank = 0) (he : x.entries = [])
    (hc : s.closed it.grid 0 0 = false) (hd : s.claimed (some it.owner) 0 = false) (hf : s.anyFit 0 = false) (hb : (s.core 0).barriers = [])
    (hl : (s.placesOf it).head? = some 0) (hp : ∃ p, s.planRoom 0 0 x.part x.kprog = some p) : ∃ p, s.firstPlace it = some (0, [p]) := by
  obtain ⟨p, hp⟩ := hp
  obtain ⟨l, hl⟩ : ∃ l, s.placesOf it = 0 :: l := by
    cases e : s.placesOf it with
    | nil => rw [e] at hl; cases hl
    | cons a l => rw [e] at hl; cases hl; exact ⟨l, rfl⟩
  have fits : s.entriesFit 0 p.bset [] = true := by
    have : s.barUsed 0 p.bset = 0 := by unfold State.barUsed; rw [hb]; rfl
    unfold State.entriesFit
    rw [this]
    simp
  refine ⟨p, ?_⟩
  unfold State.firstPlace State.firstPass
  rw [hl, List.findSome?_cons]
  have : s.planAt it false 0 = some [p] := by
    unfold State.planAt State.planPart State.planGroup
    simp [hg, hx, h0, hr, he, hc, hd, hf, hp, Option.filter_some, fits]
  rw [this]

theorem witness_plan : ∃ p, pState.planRoom 0 0 0x1_0001 0x1F = some p := plan_of _ _ _ (by decide +kernel) (by decide +kernel) (by decide +kernel)

theorem witness_first_place : Tab.find pState.grids 9 = some pGrid ∧ pState.mayPlace 9 pGrid = true ∧ pGrid.next = some (0, 0) ∧
    pState.claimOf (.grid 9) = none ∧ pState.turnOf 9 pGrid = true ∧ ∃ p, pState.firstPlace (pGrid.item 9) = some (0, [p]) := by
  have h : ∃ p, pState.firstPlace (pGrid.item 9) = some (0, [p]) :=
    first_place_of _ _ { rank := 0, part := 0x1_0001, kprog := 0x1F } (by decide +kernel) (by decide +kernel) rfl rfl rfl (by decide +kernel) (by decide +kernel)
      (by decide +kernel) rfl (by decide +kernel) witness_plan
  refine ⟨rfl, by decide +kernel, by decide +kernel, rfl, by decide +kernel, h⟩

/-- placement: an element that has a claim and its room, one that finds no place, one whose turn it is not; a gang whose wait is over, and a window for it. -/
def clState : State := { pState with claims := [{ owner := .grid 9, core := 0, size := 1 }] }
theorem witness_claim : (∃ k, clState.claimOf (.grid 9) = some k ∧ k.moves = [] ∧ k.core = 0) ∧ ∃ p, clState.planAt (pGrid.item 9) true 0 = some [p] := by
  refine ⟨⟨_, rfl, rfl, rfl⟩, ?_⟩
  obtain ⟨p, hp⟩ := plan_of clState 0x1_0001 0x1F (by decide +kernel) (by decide +kernel) (by decide +kernel)
  refine ⟨p, ?_⟩
  have fits : clState.entriesFit 0 p.bset [] = true := by
    have : clState.barUsed 0 p.bset = 0 := rfl
    unfold State.entriesFit
    rw [this]
    simp
  unfold State.planAt State.planPart
  rw [show (pGrid.item 9).parts = [{ rank := 0, part := 0x1_0001, kprog := 0x1F }] by decide +kernel]
  have hc : clState.closed (some 9) 0 0 = false := by decide +kernel
  have hd : clState.claimed (some (.grid 9)) 0 = false := by decide +kernel
  rw [if_neg (by decide +kernel)]
  show List.mapM (fun x : Part => if clState.closed (some 9) 0 (0 + x.rank) || clState.claimed (some (.grid 9)) (0 + x.rank) then none else
    (clState.planRoom (0 + x.rank) 0 x.part x.kprog).filter fun p => clState.entriesFit (0 + x.rank) p.bset x.entries) _ = _
  have hp : clState.planRoom 0 0 65537#32 31#32 = some p := hp
  simp [hc, hd, hp, Option.filter_some, fits]
def gangGrid : Grid := { pGrid with ferry := 0x80_0001_0001, waitSince := 1 }
def gangState : State := { pState with dies := [(0, { up := true, refclk := 0x4_0000 })], grids := [(9, gangGrid)] }
theorem witness_no_place : tState.firstPlace (pGrid.item 9) = none ∧
    isGang gangGrid.ferry = true ∧ gangState.mayPlace 9 gangGrid = true ∧ gangGrid.reserved = none ∧
    gangGrid.waitSince + max 1 (gangState.regF (.ferryctl 0) 15 0) * 1024 ≤ gangState.ref 0 + 1 := by decide +kernel

theorem witness_window : ∃ d ∈ gangState.placesOf (gangGrid.item 9), gangState.windowCost (gangGrid.item 9) d ≠ none := by
  refine ⟨0, by decide +kernel, ?_⟩
  obtain ⟨p, hp⟩ := plan_of (gangState.moved 0 []) 0x1_0001 0x1F (by decide +kernel) (by decide +kernel) (by decide +kernel)
  have hp : (gangState.moved 0 []).planRoom 0 0 65537#32 31#32 = some p := hp
  have fits : gangState.entriesFit 0 p.bset [] = true := by
    have : gangState.barUsed 0 p.bset = 0 := rfl
    unfold State.entriesFit
    rw [this]
    simp
  have cost : gangState.coreCost (gangGrid.item 9) 0 { rank := 0, part := 0x1_0001, kprog := 0x1F } = some [0, 0] := by
    unfold State.coreCost
    rw [show gangState.coreWaves 0 = [] from rfl]
    show (if (((gangState.moved 0 []).planRoom 0 0 65537#32 31#32).filter fun p => gangState.entriesFit 0 p.bset []).isSome then some (gangState.sizeOf []) else none) = _
    rw [hp, Option.filter_some, if_pos fits]
    rfl
  have cost : gangState.coreCost (gangGrid.item 9) 0 { rank := 0, part := 65537#32, kprog := 31#32 } = some [0, 0] := cost
  unfold State.windowCost
  rw [if_neg (by decide +kernel), show (gangGrid.item 9).parts = [{ rank := 0, part := 0x1_0001, kprog := 0x1F }] by decide +kernel]
  simp [cost]

/-- roles_and_tasks: two tasks of the queue of `taskSt`, the oldest past its time, and a place for their wave. -/
def tkState : State := { pState with mem := (taskMem.filter fun e => e.1 < 0x8038) ++ [(0x8038, 0x01)] ++ (taskMem.filter fun e => 0x8038 ≤ e.1 ∧ e.1 < 0x9000) ++
  [(0x9002, 0x01), (0x900F, 0x80)] ++ (taskMem.filter fun e => 0x9000 ≤ e.1) ++ [(0x20020, 0x01), (0x20022, 0x01)] }
def tkHdr : Nat × BitVec 512 := match tkState.taskHeader 0 (tkState.taskQueue 0 0) with | .ok x => x | .error _ => (0, 0)
theorem witness_task_wave : tqValid (tkState.taskQueue 0 0) = true ∧ (collect (tkState.tasks (tkState.taskQueue 0 0))).length = 1 ∧
    (match tkState.taskHeader 0 (tkState.taskQueue 0 0) with | .ok x => decide (x = tkHdr) | .error _ => false) = true ∧ fld tkHdr.2 43 39 = 0 ∧ fld tkHdr.2 38 37 = 0 ∧
    Tab.get 0 tCtx.taskTimes 0 + tqWait (tkState.taskQueue 0 0) ≤ tkState.ref 0 ∧ tqRing (tkState.taskQueue 0 0) = 0x9000 ∧ tkState.claimOf (.tasks 0 0) = none ∧
    tkState.images = [] := by decide +kernel
theorem witness_task_place : ∃ p, (tkState.prepRead 0 0 .normal ([tkState.taskDesc 0 0, tkHdr.1] ++ (tkState.tasks (tkState.taskQueue 0 0)).map fun t =>
    tqRing (tkState.taskQueue 0 0) + 16 * (t.pos % tqCap (tkState.taskQueue 0 0)))).firstPlace (taskItem 0 0 tkHdr.2) = some (0, [p]) :=
  first_place_of _ _ { rank := 0, part := 0x1_0001, kprog := 0 } rfl (by decide +kernel) rfl rfl rfl (by decide +kernel) (by decide +kernel) (by decide +kernel)
    (by decide +kernel) (by decide +kernel) (plan_of _ _ _ (by decide +kernel) (by decide +kernel) (by decide +kernel))

/-- evictions: a settled wave that is to leave; one that is away, in time and at its deadline; one protected for its last cycle, one boosted. -/
def evState (w : Wave) : State := { pState with waves := [(2, w)], groups := [(1, { tGroup with regBanks := [0], part := 0x4084, accBanks := [] })] }
theorem witness_evictions :
    (let w : Wave := { tWave with leaving := true }
     w.evicted = none ∧ (evState w).settled 2 w = true ∧ (evState w).isSaving w = false) ∧
    (let w : Wave := { tWave with evicted := some (0, none) }
     w.evicted ≠ none ∧ (evState w).fitsBack w 0 = true ∧ (evState w).setEnabled w = true ∧ (evState w).coreUp 0 = true ∧ ∀ e ∈ (evState w).waitingBack 0, e.1 = 2) ∧
    (∀ b ∈ [none, some 0], let w : Wave := { tWave with evicted := some (0, b) }
     ∀ q, q < 4 → ({ evState w with lregs := tState.lregs, groups := [(1, { tGroup with regBanks := [] })] } : State).fitsBack w q = false) ∧
    ({ tWave with protect := 1 } : Wave).protect = 1 ∧ tState.ready tWave = true ∧ tWave.boosted = false ∧
    tWave.lastStart + 4096 ≤ ({ tState with cycles := [(0, 4096)] } : State).cycle 0 := by decide +kernel
/-- evictions: a context over its limit of wave slots. -/
theorem witness_excess : let s : State := { tState with lregs := tState.lregs ++ [(.ctxw 0 24, 0x201)] }
    1 ≤ s.excess 0 0 ∧ (s.candidates 0 (s.prio 0) false (some 0) none none).length = 1 := by decide +kernel

/-- groups_live_and_end: a group held to be saved, whose waves may stop; its image on a core that has room. -/
def svState : State :=
  { tState with waves := [(2, tWave)], groups := [(1, { tGroup with saving := true })] }
theorem witness_save : Tab.find svState.groups 1 = some { tGroup with saving := true } ∧ svState.together 1 = [1] ∧ svState.mayStop 1 { tGroup with saving := true } = true := by
  decide +kernel
def tImage : GImage := { group := { tGroup with part := 0x1_0001 }, waves := [(2, tWave)], entries := [], copies := [], gang := none }
def imState : State := { pState with images := [(1, tImage)] }
theorem witness_restore : (imState.imagesWith 1).map Prod.fst = [1] ∧
    ∃ it p, imState.savedItem 1 = some it ∧ imState.claimOf it.owner = none ∧ it.ctx = 0 ∧ imState.firstPlace it = some (0, [p]) := by
  refine ⟨by decide +kernel, ?_⟩
  obtain ⟨it, h⟩ : ∃ it, imState.savedItem 1 = some it := ⟨_, rfl⟩
  obtain ⟨p, hp⟩ := first_place_of imState it { rank := 0, part := 0x1_0001, kprog := 0x1F } (by cases h; decide +kernel) (by cases h; decide +kernel) (by cases h; rfl) rfl rfl
    (by cases h; decide +kernel) (by cases h; decide +kernel) (by decide +kernel) rfl (by cases h; decide +kernel)
    (plan_of _ _ _ (by decide +kernel) (by decide +kernel) (by decide +kernel))
  exact ⟨it, p, h, by cases h; rfl, by cases h; rfl, hp⟩

/-- groups_live_and_end: a group with nothing left, one with a ring copy; a grid whose elements have all ended; its command's completion. -/
theorem witness_endings :
    (∀ e ∈ ({ tState with waves := [] } : State).waves, e.2.group ≠ 1) ∧ (tCopy1.by_.group = 1 ∧ (tRingCopy 0 .blocked).state = .blocked) ∧
    (let g : Grid := { pGrid with pos := 1 }
     g.groups = [] ∧ g.next = none ∧ g.status = .running ∧ pState.ctxHome 0 = true ∧ g.worst = 0 ∧ pState.lossOf g = 0) ∧
    (tState.devRange 0 0x4000 16 .write .write .write).isSome = true := by decide +kernel

/-- losses_and_links: a core that works, the last one; a die whose Landing is silent. -/
theorem witness_losses : (tState.core 255).lost = false ∧ (tState.die 1).fenced = false ∧
    (∀ k, k < 8 → (({ tState with lcores := (List.range 8).map fun k => (8 + k, { fenced := true }) } : State).lcore (8 + k)).fenced = true) ∧ dieOfPa 0x100_0000_0000 = some 1 ∧
    dieOfPa 0x1_0300_0000_0000 = some 3 := by decide +kernel

/-- bank_sets_and_cache_ways: a move that is due; ways that are written by root, drained, and done with. -/
theorem witness_moves : (∃ e ∈ ({ tState with groups := [(1, { tGroup with moving := some (20, 0) })] } : State).groups,
    e.2.core = 0 ∧ ∃ b m, e.2.moving = some (b, m) ∧ m ≤ tState.cycle 0) := ⟨_, List.mem_singleton.2 rfl, rfl, 20, 0, rfl, Nat.le_refl _⟩
def tLine (line : Nat) (dirty : Bool) : LlcLine := { line, way := 3, slot := 0, dirty, keep := false }
def wayState (ls : List LlcLine) : State := { tState with dies := [(0, { up := true, llc := ls, drains := [(3, 0)] })] }
theorem witness_ways : tState.mayWrite .root (.llcway 3 255) = true ∧
    (((wayState [tLine 0x40 true]).die 0).llc.find? fun k => k.line == 0x40) = some (tLine 0x40 true) ∧ (3, 0) ∈ ((wayState []).die 0).drains ∧
    (((wayState []).die 0).drains.find? fun y => y.1 == 3 && (((wayState []).die 0).draining 3 y.2).isEmpty) = some (3, 0) := by decide +kernel

/-- format_ranges: a range that is not valid, one that is, presented at 2^50: SPLIT and EXPAND; a line to fill, a dirty one to store. -/
def frrRegs (c : DWord) : List (LReg × DWord) := tState.lregs ++ [(.frra 0 0, 0x10_0000), (.frrb 0 0, 0x4_0000_0000_0000), (.frrc 0 0, c)]
def frState (c : DWord) (ls : List LlcLine) : State := { tState with lregs := frrRegs c, dies := [(0, { up := true, llc := ls })] }
theorem witness_ranges : tState.mayWrite .root (.frrc 0 63) = true ∧ (tState.reg (.frrc 0 63)).getLsbD 63 = false ∧
    ((frState 0x8000_000F_0000_0080 []).reg (.frrc 0 0)).getLsbD 63 = true ∧ ((frState 0x8000_000F_0000_0080 []).windows).length = 1 ∧
    ((frState 0x8000_000F_0000_0080 []).winAt 0x4_0000_0000_0000).map Win.die = some 0 ∧
    ((frState 0x8000_000F_0000_0080 []).winAt 0x4_0000_0000_0000).map (fun w => decide (w.sbase + w.storedSize ≤ w.pbase) && (frrShape w.sfmt).isSome && !w.expand && !w.sr) = some true ∧
    ((frState 0x8000_010F_0000_0080 []).winAt 0x4_0000_0000_0000).map (fun w => w.expand && w.shape.2.2.2.2 && !w.sr && decide (w.sbase + w.storedSize ≤ w.pbase)) = some true := by
  decide +kernel
theorem witness_range_lines : ((frState 0x8000_000F_0000_0080 [tLine 0x800_0000_0000 true]).die 0).llc.find? (fun k => k.line == 0x800_0000_0000) =
    some (tLine 0x800_0000_0000 true) ∧ 0x800_0000_0000 * 128 = 0x4_0000_0000_0000 ∧ (∀ l ∈ ((frState 0x8000_000F_0000_0080 []).die 0).llc, l.line ≠ 0x800_0000_0000) := by
  decide +kernel

/-- shoot_downs_and_memory_errors: an order by the owner of a stage, one that waits for accesses; granules in HBM4 and in a cached line. -/
theorem witness_shoot : (fld (0x8000_0000_0003_0000 : DWord) 17 16 = 3 ∧ (0x8000_0000_0003_0000 : DWord).getLsbD 63 = true ∧ (tState.reg (.shootb 0)).getLsbD 62 = false) ∧
    ({ tState with lregs := [(.shootb 0, 0x4000_0000_0000_0000)] } : State).reg (.shootb 0) = 0x4000_0000_0000_0000 ∧ tState.stageOwner 0 3 ≠ .root ∧
    (({ tState with dies := [(0, { up := true, shoot := some { ctx := 0, stage := 3, first := 0, pages := 0 } })] } : State).die 0).shoot =
      some { ctx := 0, stage := 3, first := 0, pages := 0 } ∧ (∀ k ∈ tState.partCores 0, tState.oldAccess k 0 (Tab.get tState.nextId [] k) = false) := by
  decide +kernel
theorem witness_shoot_waits : tState.partCores 0 ≠ [] ∧
    (bState tWave bGroup { bCore with atoms := [tReq .glob] }).oldAccess 0 0 1000 = true := by decide +kernel
theorem witness_memory_errors : tState.memBacked (0x400 * 32) = true ∧ tState.homeDie (0x100 * 128) = 0 ∧
    (((wayState [tLine 0x100 true]).die 0).llc.find? fun k => k.line == 0x400 / 4) = some (tLine 0x100 true) ∧ tState.winAt (0x100 * 128) = none ∧
    (wayState [tLine 0x100 true]).cached 0x100 = some (tLine 0x100 true) ∧ (wayState []).cached 0x100 = none := by decide +kernel

/-- notifies_and_rings: device 0 of context 0 on die 0, with a queue 0 of 4 whose rings lie at 0xA000, 0xA100 and 0xA200; in descriptor 0 a record at 0xB000 and in
descriptor 1 a completion buffer at 0xC000; two entries of the available ring. -/
def vDev : VDev :=
  { ctx := 0, wpart := 0, rpart := 0, home := 0, queues := [(0, { size := 4, desc := 0xA000, avail := 0xA100, used := 0xA200, ready := [(0, 0)] })] }
def vMem (kind : Byte) (more : Mem) : Mem :=
  (taskMem.filter fun e => e.1 < 0x9000) ++ [(0xA001, 0xB0), (0xA008, 0x80), (0xA00C, 0x01), (0xA00E, 0x01), (0xA011, 0xC0), (0xA018, 0x10), (0xA01C, 0x02), (0xA102, 0x02),
    (0xB000, kind)] ++ more ++ (taskMem.filter fun e => 0x9000 ≤ e.1)
def vState (kind : Byte) (regs : List (LReg × DWord)) : State :=
  { pState with mem := vMem kind [], grids := [], vdevs := [(0, vDev)], lregs := pState.lregs ++ regs, groups := [(1, tGroup)] }
/-- A message for queue 0 of device 0 with SEQ 9. -/
def vMsg (mac : List Byte) : List Byte := leBytes 16 (9 * 2 ^ 64) ++ mac

theorem witness_notifies : (Tab.find (vState 0 []).vdevs 0).map VDev.home = some 0 ∧ ((vState 0 []).die 0).fenced = false ∧ ((vState 0 []).die 0).journal.length < 4096 ∧
    ((vState 0 []).die 0).heldMsgs = [] ∧ ((vState 0 []).reg (.nqctl 0 0)).getLsbD 0 = false ∧
    (((vState 0 [(.nqctl 0 0, 3)]).reg (.nqctl 0 0)).getLsbD 1 = true ∧ ((vState 0 [(.nqctl 0 0, 3)]).reg (.nqctl 0 0)).getLsbD 2 = false) ∧
    ((vState 0 [(.nqctl 0 0, 7)]).reg (.nqctl 0 0)).getLsbD 2 = true ∧
    (leNat (vMsg (List.replicate 16 0)) % 1024 = 0 ∧ leNat (vMsg (List.replicate 16 0)) / 2 ^ 64 % 2 ^ 64 = 9 ∧ (vMsg (List.replicate 16 0)).length = 32) ∧
    9 ≤ ((vState 0 [(.lastseq 0 0, 9)]).reg (.lastseq 0 0)).toNat ∧ ((vState 0 [(.lastseq 0 0, 8)]).reg (.lastseq 0 0)).toNat < 9 ∧
    (vState 0 []).served 0 = true ∧ ({ vState 0 [] with lcores := [(2, { fenced := true })] } : State).served 0 = false ∧
    Inst.covers .root ((vState 0 []).tenantOf 0) = true ∧ (vState 0 []).mayWrite .root (.nkey 1023 15 0) = true ∧
    ((({ vState 0 [] with dies := [(0, { up := true, journal := [⟨0, 0, 9, false⟩] })] } : State).die 0).journal = [] ++ ⟨0, 0, 9, false⟩ :: []) := by decide +kernel
/-- A message whose code is the one that the key gives. -/
theorem witness_mac (m key : List Byte) (h : m.length = 16) :
    let msg := m ++ (hmac512 key (m.take 16)).take 16
    (hmac512 key (msg.take 16)).take 16 = (msg.drop 16).take 16 := by
  simp only [List.take_left' h, List.drop_left' h, List.take_of_length_le (show m.length ≤ 16 by omega), List.take_take, Nat.min_self]

theorem witness_rings : (vState 0 []).devRead 0 0xA102 2 = some [2, 0] ∧ (vState 0 []).devRead 0 (0xA104 + 2 * (1 % 4)) 2 = some [0, 0] ∧
    ((vState 0 []).vqueue 0 0).seen < 65536 ∧ Tab.find (vState 0 []).vdevs 0 = some vDev ∧ Tab.find (vState 0 []).ctxs 0 = some tCtx ∧ (vState 0 []).windows = [] ∧
    ((vState 0 []).dies.all fun d => d.2.llc.isEmpty) = true := by decide +kernel

theorem witness_plain_cache : Spec.PlainCache (vState 0 []) := by
  refine ⟨by decide +kernel, fun d l h => ?_⟩
  have : ((vState 0 []).die d).llc = [] := by
    cases d <;> rfl
  rw [this] at h
  cases h

/-- commands_and_argument_slots: a chain with a good record and one without; a child's record that becomes a grid; a grid that waits for a slot that is free. -/
def kidRec : List Byte := leBytes 4 1 ++ leBytes 4 0x1_0001 ++ leBytes 8 0x1_0001 ++ leBytes 8 0x2_0000 ++ List.replicate 104 0
def kidState : State :=
  { vState 1 [(.ctxw 0 11, 0x3_0000), (.ctxw 0 12, 2)] with
    mem := (vMem 1 []).filter (fun e => e.1 < 0x20000) ++ [(0x20000, 0x01), (0x20004, 0x1F)] ++ (vMem 1 []).filter (fun e => 0x20000 ≤ e.1)
    vdevs := [(0, { vDev with queues := [] })], dies := [(0, { up := true, pool := [{ ctx := 0, queue := 0, bytes := kidRec, ticket := some 3, order := 0 }] })] }
theorem witness_commands : ((vState 1 []).nextCmd 0 0) = some (.chain 0 0) ∧ (vState 1 []).mayDispatch 0 0 = true ∧ ((vState 1 []).cmdRecord 0 0 (.chain 0 0)).1.good = true ∧
    ((vState 1 []).cmdRecord 0 0 (.chain 0 0)).2.isSome = true ∧ ((vState 1 []).cmdRecord 0 0 (.chain 1 0)).2 = none ∧
    (kidState.nextCmd 0 0).isSome = true ∧ kidState.mayDispatch 0 0 = true ∧ recF kidRec 0 4 = 1 ∧
    (match kidState.checkGrid 0 0 kidRec with | .ok _ => true | .error _ => false) = true ∧ kidState.argFree 0 = some 0 ∧ (vState 1 []).argFree 0 = none := by decide +kernel
theorem witness_argument_slot : let g : Grid := { pGrid with status := .queued, args := List.replicate 16 5, argSlot := none }
    let s : State := { kidState with grids := [(9, g)] }
    ((s.grids.filter fun e => e.2.ctx == 0 && decide (e.2.status = .queued) && !e.2.ended).find?
      fun e => some e.2.order == ((s.grids.filter fun e => e.2.ctx == 0 && decide (e.2.status = .queued) && !e.2.ended).map fun y => y.2.order).min?) = some (9, g) ∧
    (s.devRange 0 (s.regF (.ctxw 0 11) 56 0 + 2304 * 0) 16 .read .write .write).isSome = true ∧ g.args.length = 16 := by decide +kernel

/-- devices_and_registers: a device that may be created, at both ends of its ranges, one that exists; who may reset it; the words of OVFLCTL and VDSCHED. -/
theorem witness_devices : Inst.covers .root (BitVec.ofNat 32 (1023 + 15 * 2 ^ 10 + 63 * 2 ^ 14)) = true ∧ tState.hasRight .root 0 = true ∧ Tab.find tState.vdevs 1023 = none ∧
    Tab.find tState.ctxs (3 * 256 + 0) = none ∧ (Tab.find (vState 0 []).vdevs 0).isSome = true ∧ (vState 0 []).hasRight .root 5 = true ∧
    tState.mayWrite .root (.ovflctl 3) = true ∧ tState.regF (.ovflst 3) 20 0 = 0 ∧ ({ tState with lregs := [(.ovflst 3, 1)] } : State).regF (.ovflst 3) 20 0 ≠ 0 ∧
    (vState 0 []).mayWrite .root (.vdsched 0) = true ∧ (vState 0 []).bankResident 0 = false ∧
    (vState 0 [(.vdsched 0, 0x8_0000_0000)]).regF (.vdsched 0) 55 34 = 2 := by decide +kernel
theorem witness_register_writes : ownEvent tState 0 (.ctxw 0 8) = false ∧ ownEvent tState 0 (.frrd 0 63) = false ∧ ownEvent tState 0 (.frrc 0 0) = false ∧
    tState.mayWrite .root (.ctxw 0 8) = true ∧ tState.mayWrite (.ten 1 1) (.frrd 0 0) = false ∧ (frState 0x8000_000F_0000_0080 []).frrHeld (.frra 0 0) = true ∧
    tState.frrHeld (.frra 0 0) = false ∧ tState.admits .root 0 (.ctxw 0 8) = true ∧ tState.admits (.ten 1 1) 0 (.frrd 0 0) = false ∧
    tState.admits (tState.stageOwner 0 3) 0x3_0000 (.shootb 0) = true ∧ ownEvent tState 0x3_0000 (.shootb 0) = false ∧ Tab.find tState.ctxs 0 = some tCtx := by decide +kernel

/-- checkpoints: the commands of both kinds at the head of a queue; groups not held, and held; a context with a grid and one without. -/
theorem witness_checkpoints : ((vState 3 []).checkpointCmd 0 0 3).isSome = true ∧ ((vState 2 []).checkpointCmd 0 0 2).isSome = true ∧ ((vState 3 []).checkpointCmd 0 0 2) = none ∧
    (vState 3 []).served 0 = true ∧ (vState 2 []).mayDispatch 0 0 = true ∧ (vState 3 []).groupsOf 0 = [1] ∧ tGroup.saving = false ∧ (tCtx.stopped = false) ∧
    (∀ e ∈ (vState 2 []).grids, e.2.ctx ≠ 0) ∧ (vState 2 []).devRead 0 0 16 ≠ none := by decide +kernel

/-- partitions_and_supervisors: a handshake that may begin, one that has drained, one at its deadline; a primary and a standby that live, in and past their periods. -/
def hpSt (v : DWord) : State := { tState with lregs := [(.hpst, v)] }
theorem witness_handshakes : tState.mayWrite .root .hpst = true ∧ (tState.reg .hpst).getLsbD 2 = false ∧ ((hpSt 0x105).reg .hpst).getLsbD 2 = true ∧
    (hpSt 0x105).regF .hpst 1 0 = 1 ∧ (hpSt 0x105).drainedParts = true ∧ (hpSt 0x105).regF .hpst 15 8 = 1 ∧ (hpSt 0x105).affected 0 = true ∧
    ({ hpSt 0x105 with grids := [(9, pGrid)] } : State).drainedParts = false ∧ (hpSt 0x105).drainLeft = 0 := by decide +kernel
def supState (age : Nat) : State := { tState with booted := true, hbeatAge := age }
theorem witness_supervisors : (supState 0).hbPeriod = 0x10000 ∧ ((supState 0).lcore (supState 0).primary).fenced = false ∧ (supState 0).noStandby = false ∧
    ((supState 0).lcore (supState 0).standby).fenced = false ∧ 4 * (supState 0).hbPeriod ≤ 0x40000 ∧ tState.mayWrite .root .lfence = true ∧
    (0 * 8 + 2 ∈ (supState 0).commandCores 0) ∧ 3 * 8 + 7 ∈ (supState 0).commandCores 3 := by decide +kernel

/-- package: before and after the boot ROM; an item in its turn, and one whose attempts are spent; windows, trips, droops; ports in replay. -/
theorem witness_bring_up : State.reset.booted = false ∧ (State.reset.reg .pkgst0).getLsbD 41 = false ∧ (supState 0).booted = true ∧ ((supState 0).die 3).up = false ∧
    ((State.reset.reg .pkgst0).getLsbD 40 = true) ∧
    (let s : State := { State.reset with booted := true, dies := [(0, { up := true })] }
     trainReal (.stack 0) = true ∧ s.settledItem (.stack 0) = false ∧ s.mayTrain (.stack 0) = true ∧
       ({ s with attempts := [(.stack 0, 3)] } : State).settledItem (.stack 0) = true ∧ s.tries (.stack 0) = 0) := by decide +kernel
theorem witness_power : (State.reset.regF .pkgpwr 27 24 = 15 ∧ (State.reset.reg .pkgpwr).getLsbD 28 = false) ∧
    ({ tState with lregs := [(.pkgpwr, 0x1000_0000)] } : State).reg .pkgpwr = 0x1000_0000 ∧ min 3000 (State.reset.regF .pkgpwr 11 0) = 3000 ∧
    Tab.get 8 (tState.die 3).stretch 7 = 8 ∧ Tab.get false (tState.die 3).droop 7 = false ∧
    (tState.regF (.clkcap 0 0) 7 4 = 0 ∧ (tState.reg .pkgst0).getLsbD 40 = true) ∧ (({ tState with lregs := [(.pkgst0, 0)] } : State).reg .pkgst0).getLsbD 40 = false ∧
    tState.regF (.clkcap 0 0) 3 0 = 15 := by
  decide +kernel
theorem witness_links : meshLink 0 1 = true ∧ (tState.die 1).fenced = false ∧ (fState []).portUp 1 = true ∧ (fState []).portUp 55 = false ∧
    Tab.get 0 ({ fState [] with replays := [(1, 8)] } : State).replays 1 = 8 := by decide +kernel

/-- machine_steps: a start whose slot holds a padding word; a Landing word; an agenda. -/
def goState : State := { tState with cur := none, starts := [2], mem := tState.mem.filter (fun e => e.1 < 0x10000) ++ [(0x10000, 0xFB), (0x1003C, 0xE1), (0x1003D, 0x03)] }
theorem witness_wave_step : Tab.find goState.waves 2 = some tWave ∧ tWave.held = none ∧ goState.ready tWave = true ∧ tWave.entering = false ∧
    (match fetchLine ((({ goState with starts := [] } : State)).setWave 2 tWave.begin) tWave.begin tWave.begin.pc with
      | .ok pas => let line := goState.lineBits 0 pas
        !kindBad (lineWord line) && !illegalPc tWave.begin.pc && !parBad line (slotOf tWave.begin.pc) && !goState.linePoison 0 pas &&
          (match decodeWave (slotWord line (slotOf tWave.begin.pc)) with | .ok i => decide (i = .nop (W.ofBits 0)) && !tWave.begin.beyond i.named | .error _ => false)
      | .error _ => false) = true ∧ goState.freeStrands 0 0 ≠ 0 := by decide +kernel
theorem witness_landing_step : (State.reset.lcore 0).fenced = false ∧ (State.reset.lcore 0).gate = none ∧ (State.reset.lcore 0).level = 0 ∧
    (decodeLanding 0x0000608B).isSome = true ∧ decodeLanding 0xFFFF_FF8B = none ∧ fld (0xFFFF_FF8B : Word) 6 0 = 0x0B ∧ encode (.thermalTrip) = none ∧
    (∀ v, capFault (({ level := 3 } : LCore).cap 15) 0 4 0 = some v → v.1 = 24) := by
  refine ⟨rfl, rfl, rfl, by decide +kernel, by decide +kernel, by decide +kernel, rfl, ?_⟩
  intro v h
  have : capFault (({ level := 3 } : LCore).cap 15) 0 4 0 = some (24, 0) := by decide +kernel
  rw [this] at h
  cases h
  rfl

/-- step_keeps_memory_canonical: the form holds at reset and the machine steps from there. -/
theorem witness_canonical : (Memory.wf State.reset.mem = true) ∧ ∃ t, step (State.reset.withFetchWord 96 0xFB) = .next t := by
  refine ⟨rfl, ?_⟩
  have h : (match step (State.reset.withFetchWord 96 0xFB) with | .next _ => true | _ => false) = true := by decide +kernel
  generalize step (State.reset.withFetchWord 96 0xFB) = o at h
  cases o with
  | next t => exact ⟨t, rfl⟩
  | fault => exact absurd h Bool.noConfusion
  | refused => exact absurd h Bool.noConfusion

theorem witness_memory_access : (tState.mayWrite .root (.memacc 0) = true) ∧ dieOfPa 0 = some 0 ∧ tState.memBacked 0 = true ∧ tState.memBacked (2 ^ 47) = false ∧
    tState.winAt (2 ^ 47) = none := by decide +kernel

end Sys2Proof.Tests
end

section
/-! PROOFS. The instruction words of 02: what decodes is the encoding of its instruction, and the padding word. -/

namespace Sys2Proof

open BitVec (extractLsb'_append_extractLsb'_eq_extractLsb' extractLsb'_eq_self setWidth_eq_extractLsb')

/-! ### The fields of a word, put together again (02 R42, R45, R47) -/

/-- A field as a number is the field as a bit vector. -/
theorem ofNat_fld {n : Nat} (x : BitVec n) (hi lo len : Nat) (h : hi + 1 - lo = len) :
    BitVec.ofNat len (fld x hi lo) = x.extractLsb' lo len := by
  subst h
  exact BitVec.eq_of_toNat_eq (by simp [fld])

theorem ofBool_getLsbD {n : Nat} (x : BitVec n) (k : Nat) : BitVec.ofBool (x.getLsbD k) = x.extractLsb' k 1 := by
  ext i hi
  obtain rfl : i = 0 := by omega
  simp

/-- 02 R45: an operand field loses no bit, since a latch selector's middle bits are zero. -/
theorem Opnd.bits_ofBits {y : BitVec 11} (h : illegalBits y = false) : (ofBits y).bits = y := by
  cases hl : y.getLsbD 10 with
  | false =>
    have parts : BitVec.ofBool (y.getLsbD 10) ++ BitVec.ofBool (y.getLsbD 9) ++ BitVec.ofBool (y.getLsbD 8) ++ y.setWidth 8 = y := by
      simp only [ofBool_getLsbD]
      rw [setWidth_eq_extractLsb' (by decide)]
      iterate 3 rw [extractLsb'_append_extractLsb'_eq_extractLsb']
      · exact extractLsb'_eq_self
      all_goals rfl
    rw [ofBits, hl]
    rwa [hl] at parts
  | true =>
    have middle : y.extractLsb' 2 8 = 0#8 := by
      have : fld y 9 2 = 0 := by simpa only [illegalBits, hl, Bool.true_and, decide_eq_false_iff_not, not_not] using h
      rw [← ofNat_fld y 9 2 8 rfl, this]
    have parts : BitVec.ofBool (y.getLsbD 10) ++ y.extractLsb' 2 8 ++ y.setWidth 2 = y := by
      rw [ofBool_getLsbD, setWidth_eq_extractLsb' (by decide)]
      iterate 2 rw [extractLsb'_append_extractLsb'_eq_extractLsb']
      · exact extractLsb'_eq_self
      all_goals rfl
    rw [ofBits, hl]
    rwa [hl, middle] at parts

/-- 02 R47: neither does the guard, since GI and G are zero where GE is. -/
theorem W.guard_bits_ofBits {x : IWord} (h : x.getLsbD 47 = false → x.extractLsb' 48 9 = 0#9) :
    (W.ofBits x).g.bits = x.extractLsb' 47 10 := by
  cases hg : x.getLsbD 47 with
  | false =>
    have parts : x.extractLsb' 48 9 ++ BitVec.ofBool (x.getLsbD 47) = x.extractLsb' 47 10 := by
      rw [ofBool_getLsbD, extractLsb'_append_extractLsb'_eq_extractLsb']
      rfl
    rw [h hg, hg] at parts
    rwa [W.ofBits, hg]
  | true =>
    have parts : x.extractLsb' 49 8 ++ BitVec.ofBool (x.getLsbD 48) ++ BitVec.ofBool (x.getLsbD 47) = x.extractLsb' 47 10 := by
      rw [ofBool_getLsbD, ofBool_getLsbD]
      iterate 2 rw [extractLsb'_append_extractLsb'_eq_extractLsb']
      all_goals rfl
    rw [hg] at parts
    rwa [W.ofBits, hg]

/-- 02 R42, R45, R47: the bits that `W` does not carry are zero in a word that `rawBad` accepts. -/
theorem rawBad_eq_false {x : IWord} (h : rawBad x = false) :
    x.getLsbD 57 = false ∧ Opnd.illegalBits (x.extractLsb' 25 11) = false ∧ Opnd.illegalBits (x.extractLsb' 36 11) = false ∧
    (x.getLsbD 47 = false → x.extractLsb' 48 9 = 0) := by
  simpa [-BitVec.getLsbD_eq_getElem, rawBad, and_assoc] using h

/-- 02 R42: the fields, put together, are the word that they were read from. -/
theorem assemble_ofBits {x : IWord} (h : rawBad x = false) : assemble (fld x 7 0) (fld x 11 8) (W.ofBits x) = x := by
  obtain ⟨h57, ha, hb, hg⟩ := rawBad_eq_false h
  have hz : 0#1 = x.extractLsb' 57 1 := by rw [← ofBool_getLsbD, h57]; rfl
  rw [assemble, W.guard_bits_ofBits hg, hz, ofNat_fld x 11 8 4 rfl, ofNat_fld x 7 0 8 rfl]
  simp only [W.ofBits, Opnd.bits_ofBits ha, Opnd.bits_ofBits hb, ofBool_getLsbD]
  iterate 10 rw [extractLsb'_append_extractLsb'_eq_extractLsb']
  · exact extractLsb'_eq_self
  all_goals rfl

/-! ### The opcode map against the OP and SUB of every row (02 R59) -/

/-- A list that holds the instructions of an OP in the order of their SUB values gives each at its own SUB. -/
theorem pickI_wave {l : List Instr} {op sub : Nat} {w : W} {i : Instr}
    (hl : l.map Instr.wave = (List.range l.length).map fun k => some (op, k, w)) (h : pickI l sub = some i) :
    i.wave = some (op, sub, w) := by
  have := congrArg (·[sub]?) hl
  obtain ⟨hs, rfl⟩ := List.getElem?_eq_some_iff.1 h
  simpa [hs] using this

theorem pick_eq_pickI {α : Type} (l : List α) (f : α → Instr) (sub : Nat) : pick l f sub = pickI (l.map f) sub := by
  simp [pick, pickI]

theorem allRedF_code {k : Nat} {o : RedF} (h : allRedF[k]? = some o) : o.code = k := by
  obtain ⟨hk, rfl⟩ := List.getElem?_eq_some_iff.1 h
  match k, hk with
  | 0, _ | 1, _ | 2, _ => rfl

theorem allAtFt_code {k : Nat} {t : AtFt} (h : allAtFt[k]? = some t) : t.code = k := by
  obtain ⟨hk, rfl⟩ := List.getElem?_eq_some_iff.1 h
  match k, hk with
  | 0, _ | 1, _ | 2, _ | 3, _ => rfl

theorem pickFt_wave {f : RedF → AtFt → Instr} {op sub : Nat} {w : W} {i : Instr}
    (hf : ∀ o t, (f o t).wave = some (op, o.code + 4 * t.code, w)) (h : pickFt f sub = some i) :
    i.wave = some (op, sub, w) := by
  unfold pickFt at h
  split at h
  next o t ho ht =>
    cases h
    rw [hf, allRedF_code ho, allAtFt_code ht, Nat.mod_add_div]
  next => cases h

theorem buildLow_wave {op sub : Nat} {w : W} {i : Instr} (h : buildLow op sub w = some i) : i.wave = some (op, sub, w) := by
  simp only [buildLow, pick_eq_pickI] at h
  split at h
  case h_30 => cases h
  all_goals exact pickI_wave rfl h

theorem buildFloat_wave {op sub : Nat} {w : W} {i : Instr} (h : buildFloat op sub w = some i) : i.wave = some (op, sub, w) := by
  simp only [buildFloat, pick_eq_pickI] at h
  split at h
  case h_22 => cases h
  all_goals exact pickI_wave rfl h

theorem buildHigh_wave {op sub : Nat} {w : W} {i : Instr} (h : buildHigh op sub w = some i) : i.wave = some (op, sub, w) := by
  simp only [buildHigh, pick_eq_pickI] at h
  split at h
  case h_11 | h_13 => exact pickFt_wave (fun _ _ => rfl) h
  case h_50 => cases h
  all_goals exact pickI_wave rfl h

/-- 02 R59: the opcode map assigns an OP and SUB only to the instruction whose row has them. -/
theorem build_wave {op sub : Nat} {w : W} {i : Instr} (h : build op sub w = some i) : i.wave = some (op, sub, w) := by
  unfold build at h
  split at h
  · exact buildLow_wave h
  · split at h
    · exact buildFloat_wave h
    · exact buildHigh_wave h

/-! ### What a word that decodes is (02 R57) -/

/-- 02 R57, R58: a word that decodes is a hint, or its fields raise neither cause. -/
theorem decodeWave_eq_ok {x : IWord} {i : Instr} (h : decodeWave x = .ok i) :
    i = .hint (x.extractLsb' 8 88) ∧ fld x 7 0 = 0xFE ∨
    namedBy x = some i ∧ i.bad01 = false ∧ rawBad x = false ∧ i.bad02 = false := by
  unfold decodeWave at h
  split at h
  next hop =>
    cases h
    exact .inl ⟨rfl, hop⟩
  next =>
    split at h
    next => cases h
    next j hj =>
      split_ifs at h with h1 h2
      cases h
      simp only [Bool.or_eq_true, not_or, Bool.not_eq_true] at h1 h2
      exact .inr ⟨hj, h1, h2⟩

theorem encodeWave_of_wave {i : Instr} {op sub : Nat} {w : W} (h : i.wave = some (op, sub, w)) :
    encodeWave i = some (assemble op sub w) := by
  unfold encodeWave
  split
  · cases h
  · rw [h, Option.map_some]

/-- 02 R57: an instruction's one encoding is the word that it was decoded from. -/
theorem encodeWave_of_decodeWave {x : IWord} {i : Instr} (h : decodeWave x = .ok i) : encodeWave i = some x := by
  rcases decodeWave_eq_ok h with ⟨rfl, hop⟩ | ⟨hn, -, hr, -⟩
  · have h8 : 0xFE#8 = x.extractLsb' 0 8 := by rw [← ofNat_fld x 7 0 8 rfl, hop]
    rw [encodeWave, h8, extractLsb'_append_extractLsb'_eq_extractLsb']
    · exact congrArg some extractLsb'_eq_self
    · rfl
  · rw [encodeWave_of_wave (build_wave hn), assemble_ofBits hr]

end Sys2Proof
end

section
open Sys2Proof

/-- Settles O10: the word of `NOP` with zero fields is 0xFB, and a word that decodes is the encoding of its instruction. -/
theorem paddingWord : Obligations.padding_word := by
  refine ⟨by decide +kernel, by decide +kernel, fun x h => ?_⟩
  have hx : encodeWave (.nop (W.ofBits 0)) = some x := encodeWave_of_decodeWave h
  have hc : encodeWave (.nop (W.ofBits 0)) = some 0xFB := by decide +kernel
  exact Option.some.inj (hx.symm.trans hc)
end

section
/-! PROOFS. The registers of the Landing under reads, writes and field updates, and MEMACC: its writer, what it gates, and what a hard-partition handshake leaves in it. -/

namespace Sys2Proof.Machine

/-! ### Reading a register after a write of it or of another (21 R367) -/

theorem State.findReg_putReg (l : List (LReg × DWord)) (r q : LReg) (v : DWord) :
    State.findReg (State.putReg l r v) q = if q = r then some v else State.findReg l q := by
  induction l with
  | nil => simp [State.putReg, State.findReg, eq_comm]
  | cons e l ih =>
    obtain ⟨p, w⟩ := e
    by_cases hp : p = r
    · subst hp
      by_cases hq : q = p
      · simp [State.putReg, State.findReg, hq]
      · simp [State.putReg, State.findReg, hq, Ne.symm hq]
    · by_cases hq : p = q
      · subst hq
        simp [State.putReg, State.findReg, hp]
      · simp [State.putReg, State.findReg, hp, hq, ih]

@[simp] theorem State.reg_setReg (s : State) (r q : LReg) (v : DWord) : (s.setReg r v).reg q = if q = r then v else s.reg q := by
  unfold State.reg State.setReg
  rw [State.findReg_putReg]
  split <;> rfl

@[simp] theorem State.reg_setRegF (s : State) (r q : LReg) (hi lo v : Nat) :
    (s.setRegF r hi lo v).reg q = if q = r then putBits (s.reg r) hi lo v else s.reg q :=
  s.reg_setReg r q _

/-- A bit of a field after the field is replaced. -/
theorem getLsbD_putBits (x : DWord) {hi lo k : Nat} (v : Nat) (hl : lo ≤ k) (hk : k ≤ hi) (hi64 : hi < 64) :
    (putBits x hi lo v).getLsbD k = v.testBit (k - lo) := by
  have h64 : k < 64 := by omega
  have hw : k - lo < hi + 1 - lo := by omega
  simp only [putBits, bitsMask, BitVec.getLsbD_or, BitVec.getLsbD_and, BitVec.getLsbD_not, BitVec.getLsbD_ofNat, Nat.testBit_shiftLeft,
    Nat.testBit_mod_two_pow, Nat.testBit_two_pow_sub_one, h64, hl, hw, decide_true, Bool.true_and, Bool.not_true, Bool.and_false, Bool.false_or]

/-! ### A shoot-down leaves the registers, but for the counters of quarters (19 R343, 08 R165) -/

section Shoot
variable {r : LReg} (hr : ∀ k q c, r ≠ .quarterCtr k q c)
include hr

theorem State.dropEntries_reg (p : Place → List Nat → Bool) (core : Nat) (s : State) (q : Nat) : (s.dropEntries p core q).reg r = s.reg r := by
  unfold State.dropEntries
  dsimp only
  split
  · rfl
  · rw [State.bumpQ, State.bump, State.reg_setReg, if_neg (hr _ _ _)]
    rfl

theorem State.dropLoads_reg (s : State) (core : Nat) (p : Place → List Nat → Bool) : (s.dropLoads core p).reg r = s.reg r := by
  have h := foldl_same (fun t => t.reg r) (State.dropEntries p core) (State.dropEntries_reg hr p core) (List.range 4) s
  unfold State.dropLoads
  generalize (List.range 4).foldl (State.dropEntries p core) s = t at h ⊢
  dsimp only
  split
  · exact h
  · exact h

theorem State.shootCore_reg (s : State) (ctx stage first pages k : Nat) : (s.shootCore ctx stage first pages k).reg r = s.reg r := by
  unfold State.shootCore
  rw [State.dropLoads_reg hr]
  split <;> rfl

theorem State.shoot_reg (s : State) (ctx stage first pages : Nat) : (s.shoot ctx stage first pages).reg r = s.reg r :=
  foldl_same (fun t => t.reg r) _ (fun t k => t.shootCore_reg hr ctx stage first pages k) _ s

end Shoot

/-! ### MEMACC of the dies of a new partition map (24 R408, 21 R397) -/

/-- The number whose bits below `n` are those that `p` picks, as `rewriteParts` adds it up. -/
def bitsWhere (p : Nat → Prop) [DecidablePred p] (n : Nat) : Nat := ((List.range n).map fun e => if p e then 2 ^ e else 0).sum

theorem bitsWhere_succ (p : Nat → Prop) [DecidablePred p] (n : Nat) : bitsWhere p (n + 1) = (if p n then 2 ^ n else 0) + bitsWhere p n := by
  simp [bitsWhere, List.range_succ, Nat.add_comm]

theorem bitsWhere_lt (p : Nat → Prop) [DecidablePred p] (n : Nat) : bitsWhere p n < 2 ^ n := by
  induction n with
  | zero => exact Nat.one_pos
  | succ n ih =>
    rw [bitsWhere_succ]
    split <;> omega

theorem testBit_bitsWhere (p : Nat → Prop) [DecidablePred p] {n e : Nat} (he : e < n) : (bitsWhere p n).testBit e = decide (p e) := by
  induction n with
  | zero => cases he
  | succ n ih =>
    rw [bitsWhere_succ]
    rcases Nat.lt_succ_iff_lt_or_eq.1 he with h | rfl
    · rw [← ih h]
      split
      · exact Nat.testBit_two_pow_add_gt h _
      · rw [Nat.zero_add]
    · have htop : (bitsWhere p e).testBit e = false := Nat.testBit_lt_two_pow (bitsWhere_lt p e)
      by_cases hp : p e <;> simp [hp, Nat.testBit_two_pow_add_eq, htop]

/-- DIES of a die's MEMACC under a partition map: the bits of the dies in its partition. -/
def diePeers (new d : Nat) : Nat := bitsWhere (fun e => new / 4 ^ e % 4 = new / 4 ^ d % 4) 4

theorem testBit_diePeers (new d : Nat) {e : Nat} (he : e < 4) : (diePeers new d).testBit e = decide (new / 4 ^ e % 4 = new / 4 ^ d % 4) :=
  testBit_bitsWhere _ he

/-- MEMACC of a die takes what a partition map gives it. -/
def State.putPeers (new : Nat) (s : State) (d : Nat) : State := s.setRegF (.memacc d) 3 0 (diePeers new d)

theorem State.foldl_putPeers_reg (new : Nat) {r : LReg} (hr : ∀ d, r ≠ .memacc d) (l : List Nat) (s : State) :
    (l.foldl (State.putPeers new) s).reg r = s.reg r :=
  foldl_same (fun t => t.reg r) _ (fun t d => by simp [State.putPeers, hr d]) l s

theorem State.foldl_putPeers_memacc (new : Nat) {l : List Nat} {d e : Nat} (hd : d ∈ l) (he : e < 4) (s : State) :
    ((l.foldl (State.putPeers new) s).reg (.memacc d)).getLsbD e = decide (new / 4 ^ e % 4 = new / 4 ^ d % 4) := by
  induction l using List.reverseRecOn with
  | nil => cases hd
  | append_singleton l a ih =>
    rw [List.foldl_append, List.foldl_cons, List.foldl_nil]
    by_cases had : d = a
    · subst had
      rw [State.putPeers, State.reg_setRegF, if_pos rfl, getLsbD_putBits _ _ (Nat.zero_le e) (by omega) (by decide)]
      exact testBit_diePeers new d he
    · have hl : d ∈ l := by simpa [had] using hd
      rw [State.putPeers, State.reg_setRegF, if_neg (by simpa using had)]
      exact ih hl

/-- 21 R397: the shoot-downs at the end of a rewrite leave the new map and the MEMACC that follows it, whatever the state before them. -/
theorem State.rewriteParts_reg (s : State) {r : LReg} (hr : ∀ k q c, r ≠ .quarterCtr k q c) :
    ∃ u : State, s.rewriteParts.reg r =
      ((affectedDies s).foldl (State.putPeers (s.regF .hpst 15 8)) (u.setReg .hpmap (BitVec.ofNat 64 (s.regF .hpst 15 8)))).reg r := by
  refine ⟨?_, ?eq⟩
  case eq =>
    unfold State.rewriteParts
    refine foldl_same (fun t : State => t.reg r) _ (fun t c => ?_) _ _
    exact foldl_same (fun t : State => t.reg r) _ (fun t g => t.shoot_reg hr c.1 g 0 0) _ t

/-- 21 R397: after a handshake the map is the one that HPST asked for. -/
theorem State.rewriteParts_hpmap (s : State) : s.rewriteParts.regF .hpmap 7 0 = s.regF .hpst 15 8 := by
  obtain ⟨u, hu⟩ := s.rewriteParts_reg (r := .hpmap) (fun _ _ _ => LReg.noConfusion)
  have hlt : s.regF .hpst 15 8 < 2 ^ 8 := Nat.mod_lt _ (by decide)
  rw [State.regF, hu, State.foldl_putPeers_reg _ (fun _ => LReg.noConfusion), State.reg_setReg, if_pos rfl]
  simp only [fld, BitVec.toNat_ofNat, Nat.shiftRight_zero]
  omega

/-- 24 R408: after a handshake DIES of an affected die are the dies of its new partition. -/
theorem State.rewriteParts_memacc (s : State) {d e : Nat} (hd : d < 4) (ha : s.affected d = true) (he : e < 4) :
    (s.rewriteParts.reg (.memacc d)).getLsbD e = decide (s.regF .hpst 15 8 / 4 ^ e % 4 = s.regF .hpst 15 8 / 4 ^ d % 4) := by
  obtain ⟨u, hu⟩ := s.rewriteParts_reg (r := .memacc d) (fun _ _ _ => LReg.noConfusion)
  have hm : d ∈ affectedDies s := by simp [affectedDies, hd, ha]
  rw [hu]
  exact State.foldl_putPeers_memacc _ hm he _

/-- 21 R397: a drained handshake ends in the rewritten state, but for the bits of HPST. -/
theorem exec_hpDrainDone {s : State} (hgo : s.regF .hpst 1 0 = 1) (hd : s.drainedParts = true) :
    ∃ t, exec .hpDrainDone s = .next t ∧ ∀ r, r ≠ .hpst → t.reg r = s.rewriteParts.reg r := by
  refine ⟨_, when_true (by simp [hgo, hd]) _, fun r hr => ?_⟩
  iterate 3 rw [State.reg_setRegF, if_neg hr]

/-- A handshake that takes die 0 from hard partition 0 to hard partition 1, with nothing left to drain. -/
def handshakeState : State := { State.reset with lregs := [(.hpst, 0x105)] }

/-- The hypotheses on a handshake are met, and the rewrite parts die 0 from the others. -/
theorem witness_handshake : handshakeState.regF .hpst 1 0 = 1 ∧ handshakeState.drainedParts = true ∧
    (∀ d, d < 4 → handshakeState.affected d = true) ∧
    handshakeState.rewriteParts.reg (.memacc 0) = 1 ∧ handshakeState.rewriteParts.reg (.memacc 1) = 0xE := by decide +kernel

/-! ### The writer of MEMACC and its writable bits (24 R408, 21 R368) -/

theorem State.mayWrite_memacc (s : State) (i : Inst) (d : Nat) : s.mayWrite i (.memacc d) = true ↔ i = .root :=
  decide_eq_true_iff

theorem exec_registerWrite_memacc (s : State) (d : Nat) (v : DWord) (i : Inst) :
    exec (.registerWrite (.memacc d) v i) s = when (s.mayWrite i (.memacc d)) (s.writeReg (.memacc d) v) := by
  show when (s.mayWrite i (.memacc d) && true) _ = _
  rw [Bool.and_true]
  rfl

theorem State.writeReg_memacc (s : State) (d : Nat) (v : DWord) :
    s.writeReg (.memacc d) v = s.setReg (.memacc d) ((s.reg (.memacc d) &&& ~~~0xF) ||| (v &&& 0xF)) := by
  have hm : BitVec.ofNat 64 (LReg.memacc d).rw = 0xF := rfl
  have hc : BitVec.ofNat 64 (LReg.memacc d).w1c = 0#64 := rfl
  simp only [State.writeReg, hm, hc, BitVec.zero_and, BitVec.not_zero, BitVec.and_allOnes]

/-! ### What an address finds behind it (19 R336, 24 R406, R408) -/

theorem State.backing_of_memBacked {s : State} {d pa : Nat} (e : Nat) (hd : dieOfPa pa = some d) (hb : s.memBacked pa = true) :
    s.backing e pa = if (s.reg (.memacc d)).getLsbD e then .mem d else .none := by
  simp only [State.backing, hb, hd, if_true]

theorem State.backing_of_winAt {s : State} {w : Win} {pa : Nat} (e : Nat) (hb : s.memBacked pa = false) (hw : s.winAt pa = some w) :
    s.backing e pa = if (s.reg (.memacc w.die)).getLsbD e && !(s.die w.die).fenced then .win w else .none := by
  simp only [State.backing, hb, hw, Bool.false_eq_true, if_false]

theorem State.backing_of_nothing {s : State} {pa : Nat} (e : Nat) (hb : s.memBacked pa = false) (hw : s.winAt pa = none) :
    s.backing e pa = .none := by
  simp only [State.backing, hb, hw, Bool.false_eq_true, if_false]

end Sys2Proof.Machine
end

section
open Sys2Proof Sys2Proof.Machine

/-- Settles O11: MEMACC's reset value and writer, what a request from a die without its bit finds, and the dies that a handshake leaves in it. -/
theorem memoryAccessOfDies : Obligations.memory_access_of_dies := by
  intro s
  refine ⟨fun d => rfl, fun i d => s.mayWrite_memacc i d, fun d v => ?write, fun d v i hi => ?refused,
    fun d e pa hd hb => State.backing_of_memBacked e hd hb, fun e pa w hb hw hbit => ?closed,
    fun e pa hb hw => State.backing_of_nothing e hb hw, fun hgo hdr => ?handshake⟩
  case write =>
    have hroot : s.mayWrite .root (.memacc d) = true := (s.mayWrite_memacc .root d).2 rfl
    refine ⟨s.writeReg (.memacc d) v, ?_, ?_⟩
    · rw [exec_registerWrite_memacc, when_true hroot]
    · simp [State.writeReg_memacc]
  case refused =>
    have hno : s.mayWrite i (.memacc d) = false := Bool.eq_false_iff.2 (mt (s.mayWrite_memacc i d).1 hi)
    rw [exec_registerWrite_memacc, hno]
    rfl
  case closed => rw [State.backing_of_winAt e hb hw, hbit, Bool.false_and, if_neg Bool.false_ne_true]
  case handshake =>
    obtain ⟨t, ht, hreg⟩ := exec_hpDrainDone hgo hdr
    have hmap : t.regF .hpmap 7 0 = s.regF .hpst 15 8 := by
      rw [← s.rewriteParts_hpmap, State.regF, State.regF, hreg _ LReg.noConfusion]
    refine ⟨t, ht, fun d hd ha e he => ?_⟩
    rw [hmap, hreg _ LReg.noConfusion]
    exact s.rewriteParts_memacc hd ha he
end
